-- ==== Sys2Proof/Word.lean ====
section
/-! DEFINITION. The words of the links: a byte, a frame of R164, and the two links. -/

namespace Sys2Proof

/-- One byte of a link, of table memory or of the print port. -/
abbrev Byte := BitVec 8

/-- A byte that holds the low eight bits of a number. -/
abbrev byte (n : Nat) : Byte := BitVec.ofNat 8 n

/-- A link frame (R164) without LEN and CHK, which its payload and its bytes fix. -/
structure Frame where
  dst : Byte
  src : Byte
  cls : Byte
  tag : Byte
  payload : List Byte
  deriving DecidableEq, Repr

/-- The two links (1.2 of the scope chapter). -/
inductive Link where
  | trunk
  | ring
  deriving DecidableEq, Repr

end Sys2Proof
end

