-- ==== Sys2Proof/Syntax.lean ====
section
/-! DEFINITION. The commands of the block: one constructor for each row of opcode_table.json.

A trunk command carries its TAG and `args`, the payload bytes after its command code, so that every
payload shape that R172 judges can be spelt. A row is the arrival of its own frame alone: an unknown code and the
class of a pass-through request are types of their own, so that no other row's frame can be spelt (log 4). Rows whose
event examines PRN_BUSY, or reports it, carry the level the pin has at that event (log 18). -/

namespace Sys2Proof

/-- The command codes of R172 are 0x01..0x22. -/
def isCommandCode (code : Byte) : Bool := 1 ≤ code.toNat && code.toNat ≤ 0x22

/-- A code that names no command (R172). -/
structure UnknownCode where
  code : Byte
  unknown : isCommandCode code = false
  deriving DecidableEq, Repr

/-- The classes of a pass-through request (R167). -/
inductive PassClass where
  | sw | pol | msr | hvc
  deriving DecidableEq, Repr

/-- A pass-through request: a frame of one of the four classes (R164, R167). -/
structure PassRequest where
  cls : PassClass
  dst : Byte
  src : Byte
  tag : Byte
  payload : List Byte
  deriving DecidableEq, Repr

/-- What READ STATUS comes with: its argument bytes (R174), and the level that PRN_BUSY has as the command arrives,
which section 7 reports (R152, log 18). -/
structure StatusArgs where
  bytes : List Byte
  busy : Bool
  deriving DecidableEq, Repr

/-- The rows of the operation and event table. -/
inductive Instr where
  /-- IDENTIFY (R182). -/
  | identify (tag : Byte) (args : List Byte)
  /-- READ STATUS (R174), with the level of PRN_BUSY (R152, log 18). -/
  | readStatus (tag : Byte) (args : StatusArgs)
  /-- LOAD DIMENSIONS (R4). -/
  | loadDimensions (tag : Byte) (args : List Byte)
  /-- LOAD POINTS (R6). -/
  | loadPoints (tag : Byte) (args : List Byte)
  /-- LOAD NETS (R7). -/
  | loadNets (tag : Byte) (args : List Byte)
  /-- LOAD MEMBERS (R8). -/
  | loadMembers (tag : Byte) (args : List Byte)
  /-- LOAD NAMES (R9). -/
  | loadNames (tag : Byte) (args : List Byte)
  /-- LOAD STEPS (R10). -/
  | loadSteps (tag : Byte) (args : List Byte)
  /-- LOAD MODULES (R12). -/
  | loadModules (tag : Byte) (args : List Byte)
  /-- LOAD LIMITS (R13). -/
  | loadLimits (tag : Byte) (args : List Byte)
  /-- LOAD LEADS (R21). -/
  | loadLeads (tag : Byte) (args : List Byte)
  /-- READ TABLE (R11). -/
  | readTable (tag : Byte) (args : List Byte)
  /-- CHECK TABLES (R17). -/
  | checkTables (tag : Byte) (args : List Byte)
  /-- START RUN (R24). -/
  | startRun (tag : Byte) (args : List Byte)
  /-- PAUSE (R35). -/
  | pause (tag : Byte) (args : List Byte)
  /-- RESUME (R37). -/
  | resume (tag : Byte) (args : List Byte)
  /-- ABORT (R40). -/
  | abort (tag : Byte) (args : List Byte)
  /-- RELEASE (R46). -/
  | release (tag : Byte) (args : List Byte)
  /-- READ DEFECTS (R148). -/
  | readDefects (tag : Byte) (args : List Byte)
  /-- RETIRE DEFECTS (R149). -/
  | retireDefects (tag : Byte) (args : List Byte)
  /-- INVALIDATE MAP (R20). -/
  | invalidateMap (tag : Byte) (args : List Byte)
  /-- PROBE MAP (R20). -/
  | probeMap (tag : Byte) (args : List Byte)
  /-- KEEP (R137). -/
  | keep (tag : Byte) (args : List Byte)
  /-- READ EVENTS (R176). -/
  | readEvents (tag : Byte) (args : List Byte)
  /-- CLEAR EVENTS (R176). -/
  | clearEvents (tag : Byte) (args : List Byte)
  /-- SET EVENT MASK (R176). -/
  | setEventMask (tag : Byte) (args : List Byte)
  /-- PRINT ENABLE (R161). -/
  | printEnable (tag : Byte) (args : List Byte)
  /-- PRINT DISABLE (R161). -/
  | printDisable (tag : Byte) (args : List Byte)
  /-- PRINT HOLD (R162). -/
  | printHold (tag : Byte) (args : List Byte)
  /-- PRINT GO (R162); `busy` is the level of PRN_BUSY as the event finds it. -/
  | printGo (tag : Byte) (args : List Byte) (busy : Bool)
  /-- READ MODULES (R75). -/
  | readModules (tag : Byte) (args : List Byte)
  /-- READ FAULT (R178). -/
  | readFault (tag : Byte) (args : List Byte)
  /-- CLEAR FAULT (R178). -/
  | clearFault (tag : Byte) (args : List Byte)
  /-- RESET CHIP (R181). -/
  | resetChip (tag : Byte) (args : List Byte)
  /-- A CMD whose code names no command (R172). -/
  | unknownCommand (tag : Byte) (code : UnknownCode) (args : List Byte)
  /-- A frame of class SW, POL, MSR or HVC from the controller (R167, R170). -/
  | passThroughRequest (frame : PassRequest)
  /-- A received frame, given by its bytes, that is discarded (R165, R167, R169, R172). -/
  | frameDiscarded (link : Link) (bytes : List Byte)
  /-- A frame finishes leaving TRK_TX (R173). -/
  | trunkFrameSent
  /-- The Ring Interface takes the head frame of the ring transmit queue to send it (R171). -/
  | ringFrameSent
  /-- A valid frame with SRC 0 arrives at RING_IN (R169). -/
  | returnedFrame (dst cls tag : Byte) (payload : List Byte)
  /-- An ECH from a node, addressed to the chip, with its two closed counts (R55). -/
  | echReceived (src tag countA countB : Byte)
  /-- A STA from a node: kind, channel count, closed counts and flags as sent (R68). -/
  | staReceived (src tag kind channels countA countB flags : Byte)
  /-- An SMP: seq, codes, range and flags as sent (R79). -/
  | smpReceived (src tag seq : Byte) (vcode icode : BitVec 16) (range flags : Byte)
  /-- The echo timer of the transaction of a module expires (R56). -/
  | echoTimeout (module : Nat)
  /-- The HOME echo timer expires (R62). -/
  | homeEchoTimeout
  /-- The settle timer expires (R58). -/
  | settleTimeout
  /-- The sample timer expires (R81). -/
  | sampleTimeout
  /-- The monitor-period timer expires (R71). -/
  | monitorPeriodExpiry
  /-- The ramp timer expires (R130). -/
  | rampTimerExpiry
  /-- The dwell timer expires (R131). -/
  | dwellTimerExpiry
  /-- The discharge timer expires (R134). -/
  | dischargeTimerExpiry
  /-- The keepalive counter reaches 0 (R136). -/
  | keepaliveExpiry
  /-- The BUSY timer expires (R160). -/
  | busyTimeout
  /-- The INTERLOCK input opens (R136). -/
  | interlockOpens
  /-- The INTERLOCK input closes (R127). -/
  | interlockCloses
  /-- PRN_BUSY goes low (R160). -/
  | prnBusyFalls
  /-- A character finishes on PRN_TX (R159); `busy` is the level of PRN_BUSY found then. -/
  | printCharacterSent (busy : Bool)
  /-- A supply falls below its range (R180); `memoryPowered` says whether the external table memory
  kept its own power (R2, log 8). -/
  | powerOnReset (memoryPowered : Bool)
  /-- RESET# goes low (R180). -/
  | pinReset
  /-- REFCLK shows no edge for 100 µs (R180). -/
  | clockLossReset
  /-- The command reset takes effect (R181). -/
  | commandReset
  /-- No reset condition holds any longer (R180). -/
  | resetEnd
  /-- A record access completes (R2). `upset` names a byte of the record, counted from its first,
  that has come to fail its parity check (log 9); `busy` is the level of PRN_BUSY found then. -/
  | tableAccessComplete (upset : Option Nat) (busy : Bool)
  /-- The Arithmetic Unit takes the earliest waiting operation (R84). -/
  | arithmeticOperationStart
  /-- The Arithmetic Unit completes its operation (R84); `busy` as above. -/
  | arithmeticOperationEnd (busy : Bool)
  deriving DecidableEq, Repr

end Sys2Proof
end

