-- ==== Sys2Proof/Decode.lean ====
section
/-! DEFINITION. The frames of the links as bytes (R164, R165), which received frames are discarded
(R165, R167, R169, R172), and the word decoder the host asks for: no row of the operation table has
bits, so no word spells a command (log 2). -/

namespace Sys2Proof

/-! ### Byte order (3.1 of the scope chapter, R174) -/

/-- Two bytes, most significant first. -/
def be16 (n : Nat) : List Byte := [byte (n / 256), byte n]

/-- Four bytes, most significant first. -/
def be32 (n : Nat) : List Byte :=
  [byte (n / 16777216), byte (n / 65536), byte (n / 256), byte n]

/-- The number that bytes spell, most significant first. -/
def beNat (bytes : List Byte) : Nat := bytes.foldl (fun n b => n * 256 + b.toNat) 0

/-! ### Class and address codes (R166) -/

/-- The class codes of R166. -/
def clsCmd : Byte := 0x01
def clsRpl : Byte := 0x02
def clsNtc : Byte := 0x03
def clsSw : Byte := 0x10
def clsEch : Byte := 0x11
def clsPol : Byte := 0x12
def clsSta : Byte := 0x13
def clsMsr : Byte := 0x20
def clsSmp : Byte := 0x21
def clsHvc : Byte := 0x22

/-- The class code of a pass-through request (R166, R167). -/
def PassClass.code : PassClass → Byte
  | .sw => clsSw | .pol => clsPol | .msr => clsMsr | .hvc => clsHvc

/-- The frame that carries a pass-through request (R164, R167). -/
def PassRequest.frame (r : PassRequest) : Frame :=
  { dst := r.dst, src := r.src, cls := r.cls.code, tag := r.tag, payload := r.payload }

/-- The ring address of the measurement head (R166). -/
def headAddress : Nat := 72

/-- The ring address of a broadcast (R166). -/
def broadcastAddress : Nat := 127

/-! ### The check field (R165) -/

/-- One step of the CRC register with the polynomial x^16 + x^12 + x^5 + 1. -/
def crcShift (reg : BitVec 16) : BitVec 16 :=
  if reg.msb then (reg <<< 1) ^^^ 0x1021#16 else reg <<< 1

/-- The CRC register after taking a byte, most significant bit first. -/
def crcByte (reg : BitVec 16) (b : Byte) : BitVec 16 :=
  let r := reg ^^^ (b.setWidth 16 <<< 8)
  crcShift (crcShift (crcShift (crcShift (crcShift (crcShift (crcShift (crcShift r)))))))

/-- The CRC of a run of bytes: the register starts at 0xFFFF and is not inverted at the end (R165). -/
def crc16 (bytes : List Byte) : BitVec 16 := bytes.foldl crcByte 0xFFFF#16

/-- DST to PAYLOAD of a frame, the bytes its check field covers (R164). -/
def Frame.body (f : Frame) : List Byte :=
  [f.dst, f.src, f.cls, f.tag, byte f.payload.length] ++ f.payload

/-- A frame on the wire: its body and then its check field, high byte first (R164). -/
def Frame.bytes (f : Frame) : List Byte := f.body ++ be16 (crc16 f.body).toNat

/-- Whether a ring frame of a class may have a length (R165, R174); a class with no such row may have
any length. -/
def ringLengthAllowed (cls : Byte) (len : Nat) : Bool :=
  if cls = clsSw then len = 0 || len = 32
  else if cls = clsEch then len = 2
  else if cls = clsPol then len = 0
  else if cls = clsSta then len = 5
  else if cls = clsMsr then len = 1
  else if cls = clsSmp then len = 7
  else if cls = clsHvc then len = 1 || len = 2 || len = 6
  else true

/-- What a receiver makes of the bytes of one frame: the frame, or nothing where R165 discards it. -/
def receive (link : Link) (bytes : List Byte) : Option Frame :=
  match bytes with
  | dst :: src :: cls :: tag :: len :: rest =>
    if rest.length < 2 || 64 < len.toNat || len.toNat + 2 ≠ rest.length then none
    else
      let f : Frame := { dst, src, cls, tag, payload := rest.take len.toNat }
      if beNat (rest.drop len.toNat) ≠ (crc16 f.body).toNat then none
      else if link = .ring && !ringLengthAllowed cls len.toNat then none
      else some f
  | _ => none

/-- Whether a valid frame from TRK_RX is discarded without reply: a class that neither R167 nor R172
takes, a CMD not addressed to the chip, or a CMD without a code. -/
def trunkFrameIgnored (f : Frame) : Bool :=
  if f.cls = clsCmd then f.dst ≠ 1 || f.payload.isEmpty
  else !(f.cls = clsSw || f.cls = clsPol || f.cls = clsMsr || f.cls = clsHvc)

/-- Whether a valid frame from RING_IN is discarded by R169 and is no returned frame. A frame from the
broadcast address is none of the arrivals R169 sorts (log 38). -/
def ringFrameIgnored (f : Frame) : Bool :=
  f.src ≠ 0 &&
    (f.src.toNat > 126 || f.dst ≠ 0 || !(f.cls = clsEch || f.cls = clsSta || f.cls = clsSmp))

/-- Whether the bytes received on a link are discarded with no effect (R165, R167, R169, R172). -/
def frameIsDiscarded (link : Link) (bytes : List Byte) : Bool :=
  match receive link bytes with
  | none => true
  | some f =>
    match link with
    | .trunk => trunkFrameIgnored f
    | .ring => ringFrameIgnored f

/-- The command that a word of the operation table spells: none, since no row of it has bits. -/
def decodeTableWord (_nbits _w : Nat) : Option Instr := none

end Sys2Proof
end

