-- ==== Sys2Proof/Config.lean ====
section
/-! DEFINITION. What an implementation fixes and the values the manual leaves free: opaque constants
with no body, so that nothing can be proved of them. -/

namespace Sys2Proof.Config

/-- DESIGN CHOICE (log 6): the byte that table memory holds at an address nothing has written, in the
given memory epoch. R4 says only that such a record "is read as whatever table memory holds". -/
opaque unwrittenByte (epoch address : Nat) : Byte

/-- DESIGN CHOICE (log 6): the parity bit TM_DP that table memory holds with that byte. -/
opaque unwrittenParityBit (epoch address : Nat) : Bool

/-- DESIGN CHOICE (log 7): whether byte `offset` of a write that a reset abandoned is already new.
R2 says that such a write may leave part of the record new and part old. -/
opaque tornByteIsNew (occasion offset : Nat) : Bool

/-- DESIGN CHOICE (log 24): the part's revision less one. R182 gives the revision as 1..255. -/
opaque revisionLessOne : Fin 255

/-- DESIGN CHOICE (log 42): the continuity set that a net record acts by whose stored number is none of
0..7. Only a record nothing has written can hold one, since a load tests it (R5, R7). -/
opaque strayContSet (n : Nat) : Fin 8

/-- DESIGN CHOICE (log 42): the same for an insulation class that is neither 0..7 nor NONE (R7). -/
opaque strayInsulClass (n : Nat) : Fin 8

/-- DESIGN CHOICE (log 42): the same for a step record's settle code above 3 (R10). -/
opaque straySettle (n : Nat) : Fin 4

end Sys2Proof.Config
end

