-- ==== Sys2Proof/Machine/State.lean ====
section
/-! DEFINITION. The state of the PT-816: one structure for each block of the block diagram (1.3 of the
scope chapter), all of it plain data, and the state right after a power-on reset.

A timer is `none` while stopped and `some length` while running, the length being the one it was
started with (R13). Addresses, indexes and counts are numbers; masks, event sets, codes of the head
and link bytes are bit vectors. -/

namespace Sys2Proof.Machine

/-! ### Stops -/

/-- The faults of the model. None of them is a fault of the Fault Monitor, which is state. -/
inductive Fault where
  /-- Raised by TABLE_ACCESS_COMPLETE for an access beyond its table's largest index (R1, R4): no such
  record exists. Safe: no accepted command and no checked table asks for one. -/
  | noSuchRecord
  deriving DecidableEq, Repr

/-- The refusals of the model. -/
inductive Refusal where
  /-- Raised by an arm of `exec` whose row has no meaning yet. Safe. -/
  | notModelled (mnemonic : String)
  deriving DecidableEq, Repr

/-- A timer: stopped, or running with the length it was started with. -/
abbrev Timer := Option Nat

/-! ### Tables and configuration (chapter 01) -/

/-- The table kinds, in the order of R1. -/
inductive TableKind where
  | dimensions | points | nets | members | names | steps | modules | limits
  deriving DecidableEq, Repr

/-- Table memory (R2): the bytes written, addresses strictly rising, and the parity bits TM_DP of those bytes: the
addresses, strictly rising, at which TM_DP holds a one. `epoch` counts the times the memory has lost power: the bytes
nothing has written, and their parity bits, are free values of their epoch (log 6, 8). -/
structure TableMem where
  cells : List Host.Cell
  dp : List Nat
  epoch : Nat
  deriving DecidableEq, Repr

/-- The kind field of a point record (R6); `other` for a byte that names none. -/
inductive PointKind where
  | unused | wired | spare | other (code : Byte)
  deriving DecidableEq, Repr

/-- A point record as read from table memory (R6). -/
structure PointRec where
  module : Nat
  channel : Nat
  kind : PointKind
  lead : Nat
  net : Option Nat
  deriving DecidableEq, Repr

/-- The kind field of a net record (R7); `other` for a byte that names none. -/
inductive NetKind where
  | wired | spare | other (code : Byte)
  deriving DecidableEq, Repr

/-- A net record as read from table memory (R7). -/
structure NetRec where
  first : Nat
  count : Nat
  anchor : Nat
  contSet : Nat
  insulClass : Option Nat
  kind : NetKind
  name : Option Nat
  deriving DecidableEq, Repr

/-- The kind code of a step record (R10); `other` for a code that names none. -/
inductive StepKind where
  | cont | iso | insul | leadcal | mark | endStep | other (code : Byte)
  deriving DecidableEq, Repr

/-- The status of a step record (R10, R32). -/
inductive StepStatus where
  | notRun | inProgress | pass | defects | skipped | aborted | fault
  deriving DecidableEq, Repr

/-- The program fields of a step record, as read from table memory (R10). -/
structure StepRec where
  kind : StepKind
  firstNet : Nat
  lastNet : Nat
  settle : Nat
  stopOnDefect : Bool
  correlate : Bool
  refPoint : Nat
  deriving DecidableEq, Repr

/-- For whom the cache serves a lookup (R19, R50, R86, R104); `dropped` once it is abandoned. -/
inductive LookupFor where
  | translate | lead | reference | dropped
  deriving DecidableEq, Repr

/-- Who asked for a record access (R3): the requester that goes on when it completes. -/
inductive Owner where
  /-- A record of a structural load; the last of the load is answered (R5). -/
  | load (tag code : Byte) (last : Bool)
  /-- A value of LOAD LEADS; the last is answered (R21). -/
  | leads (tag : Byte) (last : Bool)
  /-- READ TABLE (R11). -/
  | readTable (tag : Byte)
  /-- The table check (R18). -/
  | check
  /-- A fill of the Point Translation Cache (R19). -/
  | fill
  /-- The Run Engine's read of a step record (R26). -/
  | runRead
  /-- The Run Engine's write of status and step defect count (R26, R32). -/
  | runWrite
  /-- A direct read of the Sweep Engine (R96). -/
  | sweepRead
  /-- The Sweep Engine's write-through of a lead (R22, R105). -/
  | sweepLead (point lead : Nat)
  /-- A direct read of the HV Controller (R124, R126). -/
  | hvRead
  /-- A read of the Print Engine (R155). -/
  | print
  /-- An access whose requester has gone: it completes and its data is not used (R106). -/
  | dropped
  deriving DecidableEq, Repr

/-- One record access: a read of the record, or a write of bytes from an offset of it (R2). -/
structure Access where
  kind : TableKind
  index : Nat
  write : Option (Nat × List Byte)
  owner : Owner
  deriving DecidableEq, Repr

/-- The table memory port (R2): the accesses asked for and not completed, the head in progress. -/
structure Port where
  queue : List Access
  deriving DecidableEq, Repr

/-- The dimensions record (R4). -/
structure Dimensions where
  points : Nat
  nets : Nat
  members : Nat
  names : Nat
  steps : Nat
  deriving DecidableEq, Repr

/-- The table state (R16). -/
inductive TableState where
  | empty | loaded | checking | ready
  deriving DecidableEq, Repr

/-- The reasons a table check fails, in the order of R174. -/
inductive CheckReason where
  | moduleUnconf | channelRange | dupChannel | netMismatch | memberRange | anchorRange | nameRange
  | spareShape | dupMember | stepRange | parity
  deriving DecidableEq, Repr

/-- The check result (R17). -/
inductive CheckResult where
  | none | pass | fail (reason : CheckReason) (kind : TableKind) (index : Nat)
  deriving DecidableEq, Repr

/-- The record whose read the table check waits for (R18). -/
inductive CheckAt where
  /-- Pass 1, a point. -/
  | point (i : Nat)
  /-- Pass 2, a net. -/
  | net (j : Nat)
  /-- Pass 2, the name that the net in hand names (R3, log 58). -/
  | name (j index : Nat)
  /-- Pass 2, member `pos` of the net in hand. -/
  | member (j pos : Nat)
  /-- Pass 2, the point named by that member. -/
  | memberPoint (j pos point : Nat)
  /-- Pass 3, a point. -/
  | found (i : Nat)
  /-- Pass 4, a step. -/
  | step (i : Nat)
  deriving DecidableEq, Repr

/-- The table check in progress with its two working sets (R18). -/
structure CheckWork where
  pos : CheckAt
  net : NetRec
  claimed : List (Nat × Nat)
  found : List Nat
  deriving DecidableEq, Repr

/-- What the Table Memory Controller holds beside the memory and its port (R3, R4, R16, R17). -/
structure Tables where
  dims : Option Dimensions
  state : TableState
  result : CheckResult
  parityCount : Nat
  parityLast : Option (TableKind × Nat)
  check : Option CheckWork
  deriving DecidableEq, Repr

/-- A continuity set (R14). -/
structure ContSet where
  good : Nat
  opn : Nat
  range : Nat
  deriving DecidableEq, Repr

/-- The ISOLATION section (R14). -/
structure IsoLimits where
  limit : Nat
  range : Nat
  shortCap : Nat
  deriving DecidableEq, Repr

/-- An insulation class (R14). -/
structure InsulClass where
  volt : Nat
  ramp : Nat
  dwell : Nat
  irLimit : Nat
  arcStep : Nat
  avgCode : Nat
  deriving DecidableEq, Repr

/-- The TIMING section (R15). -/
structure Timing where
  echo : Nat
  sample : Nat
  period : Nat
  keepalive : Nat
  hvInterval : Nat
  safeLevel : Nat
  discharge : Nat
  defectLimit : Nat
  busy : Nat
  rate : Nat
  deriving DecidableEq, Repr

/-- The CALIBRATION section (R15). -/
structure Calibration where
  vlsbLv : Nat
  vlsbHv : Nat
  ilsb : List Nat
  deriving DecidableEq, Repr

/-- The limits block (R13). -/
structure Limits where
  cont : List ContSet
  iso : IsoLimits
  insul : List InsulClass
  timing : Timing
  calib : Calibration
  deriving DecidableEq, Repr

/-- One entry of the Point Translation Cache (R19). -/
structure CacheEntry where
  valid : Bool
  tag : Nat
  copy : PointRec
  deriving DecidableEq, Repr

/-- The Point Translation Cache (R19): the entries, the replacement pointer, the lookup being filled,
the lookups that wait for it, and the tags of the INVALIDATE MAP commands that wait for it (R20). -/
structure Cache where
  entries : List CacheEntry
  pointer : Nat
  fill : Option (Nat × LookupFor)
  waiting : List (Nat × LookupFor)
  invalidates : List Byte
  deriving DecidableEq, Repr

/-! ### Links (chapter 11) -/

/-- What a frame of the trunk transmit queue is (R173); `resetReply` is the reply of RESET CHIP (R181). -/
inductive TrunkKind where
  | reply | copy | notice | resetReply
  deriving DecidableEq, Repr

/-- A frame of the trunk transmit queue. -/
structure TrunkEntry where
  frame : Frame
  kind : TrunkKind
  deriving DecidableEq, Repr

/-- The trunk transmit queue, head first (R173). `begun` says that the head frame was begun before the
event in hand (log 12). -/
structure Trunk where
  queue : List TrunkEntry
  begun : Bool
  held : Bool
  deriving DecidableEq, Repr

/-- Whose frame a frame of the ring transmit queue or the wait list is (R171). An HVC frame names its
stream and whether it is the closing IDLE (R82). -/
inductive RingOwner where
  | switch (module : Nat)
  | home
  | poll (address : Nat)
  | msr
  | hvc (stream : Nat) (closing : Bool)
  | passThrough
  deriving DecidableEq, Repr

/-- A frame of the ring transmit queue or the wait list; a waiting frame has no tag yet. -/
structure RingEntry where
  frame : Frame
  owner : RingOwner
  deriving DecidableEq, Repr

/-- The ring transmit queue, the wait list and the own-tag counter (R171). -/
structure Ring where
  queue : List RingEntry
  wait : List RingEntry
  ownTag : Nat
  deriving DecidableEq, Repr

/-! ### Ring supervision (chapter 04) -/

/-- The reported kind of a node (R65). -/
inductive NodeKind where
  | none | module | head | other
  deriving DecidableEq, Repr

/-- A supervision entry (R65); `channels` is 0 for the head, which has none. -/
structure Node where
  channels : Nat
  heard : Bool
  fault : Bool
  alive : Bool
  kind : NodeKind
  reported : Nat
  deriving DecidableEq, Repr

/-- The Ring Supervisor: the entries of modules 1..64 and then of the head (R65), the monitor-period
timer (R66) and the poll list (R67). -/
structure Supervisor where
  nodes : List Node
  timer : Timer
  pollList : List Nat
  deriving DecidableEq, Repr

/-! ### Matrix switching (chapter 03) -/

/-- The two measurement buses. -/
inductive Bus where
  | a | b
  deriving DecidableEq, Repr

/-- The relays of one module: a mask of 128 channels for each bus (R47). -/
structure Masks where
  a : BitVec 128
  b : BitVec 128
  deriving DecidableEq, Repr

/-- The sequencer states (R48). -/
inductive SeqState where
  | idle | translating | verifying | settling | homing
  deriving DecidableEq, Repr

/-- Who asks for a configuration or a HOME (R48). -/
inductive Requester where
  | none | sweep | hv | run
  deriving DecidableEq, Repr

/-- The phase of a transaction's current attempt (R48). -/
inductive Phase where
  | waiting | queued | sent
  deriving DecidableEq, Repr

/-- A transaction (R48). Its expected counts are the numbers of channels marked in its masks. -/
structure Transaction where
  module : Nat
  masks : Masks
  attempt : Nat
  tag : Option Nat
  timer : Timer
  phase : Phase
  deriving DecidableEq, Repr

/-- The HOME record (R48). -/
structure Home where
  tag : Option Nat
  expected : List Nat
  answered : List Nat
  timer : Timer
  deriving DecidableEq, Repr

/-- A translated pair: module, channel and bus (R50). -/
structure Placed where
  module : Nat
  channel : Nat
  bus : Bus
  deriving DecidableEq, Repr

/-- The Switch Sequencer (R48). `believed` has one entry per module 1..64, `none` for UNKNOWN; `todo` and
`placed` are the pairs still to translate and those translated (R50). -/
structure Sequencer where
  state : SeqState
  requester : Requester
  settle : Nat
  believed : List (Option Masks)
  transactions : List Transaction
  failed : List Nat
  home : Home
  settleTimer : Timer
  todo : List (Nat × Bus)
  placed : List Placed
  deriving DecidableEq, Repr

/-! ### Measurement and arithmetic (chapter 05) -/

/-- The controller states (R76). -/
inductive McState where
  | idle | msrQueued | msrWait | msrAnswered | stream
  deriving DecidableEq, Repr

/-- A sample of the head, as sent (R78, R174). -/
structure Sample where
  seq : Nat
  vcode : BitVec 16
  icode : BitVec 16
  range : Nat
  ovl : Bool
  cmp : Bool
  hv : Bool
  deriving DecidableEq, Repr

/-- The Measurement Controller (R76). `leads` names the points whose leads compensate the outstanding
MSR (R87); `stream` numbers the streams opened so far (R82, log 36). -/
structure Measure where
  state : McState
  requester : Requester
  range : Nat
  ctxNet : Option Nat
  ctxPoint : Option Nat
  attempt : Nat
  curTag : Option Nat
  prevTag : Option Nat
  timer : Timer
  queue : List Sample
  lastSeq : Option Nat
  lost : Nat
  discards : Nat
  leads : List Nat
  stream : Nat
  deriving DecidableEq, Repr

/-- A converted stream sample (R89): voltage in mV and current in pA, exact and signed. -/
structure Conv where
  vh : Int
  ih : Int
  range : Nat
  ovl : Bool
  cmp : Bool
  hv : Bool
  seq : Nat
  deriving DecidableEq, Repr

/-- The operation the Arithmetic Unit serves (R84). -/
inductive ArithOp where
  /-- A low-voltage result: R_raw, the points whose leads are still to be looked up, and the sum of the
  leads looked up (R85, R86). -/
  | lowVolt (raw : Nat) (todo : List Nat) (leads : Nat)
  /-- A converted stream sample (R89). -/
  | stream (sample : Conv)
  /-- The evaluation of the net whose test has ended: by R91 at a ramp expiry, by R90 at a dwell expiry. -/
  | evaluate (ramp : Bool)
  /-- The value text of the line being formatted (R93). -/
  | format (text : List Byte)
  deriving DecidableEq, Repr

/-- The operation in service; `live` is clear once its result is no longer wanted (R106, R135). -/
structure ArithJob where
  op : ArithOp
  live : Bool
  deriving DecidableEq, Repr

/-- An operation asked for and not yet taken (R84): the oldest queued sample, the evaluation of the HV Controller
(R90, or R91 at a ramp expiry), or a format request. -/
inductive ArithReq where
  | sample | evaluate (ramp : Bool) | format
  deriving DecidableEq, Repr

/-- The Arithmetic Unit (R84): the operation in service and the operations waiting, earliest first. -/
structure Arith where
  job : Option ArithJob
  waiting : List ArithReq
  deriving DecidableEq, Repr

/-! ### The defect list (chapter 09) -/

/-- The defect kinds, in the order of R141. -/
inductive DefectKind where
  | opn | highR | short | shortOverflow | miswire | leak | arc | untested | switchFault | calFail
  deriving DecidableEq, Repr

/-- The key of a defect record (R141). -/
structure DefectKey where
  kind : DefectKind
  netA : Nat
  point : Option Nat
  netB : Option Nat
  deriving DecidableEq, Repr

/-- What an insert carries (R144). -/
structure Insert where
  key : DefectKey
  value : Option Nat
  lowv : Bool
  deriving DecidableEq, Repr

/-- A defect record (R141). HAS-POINT, HAS-NETB and HAS-VALUE are whether the field is present. -/
structure Defect where
  seq : Nat
  key : DefectKey
  value : Option Nat
  step : Nat
  rep : Nat
  provisional : Bool
  explained : Bool
  lowv : Bool
  printed : Bool
  retired : Bool
  deriving DecidableEq, Repr

/-! ### The Sweep Engine (chapters 06 and 07) -/

/-- The sweep states (R94). -/
inductive SweepState where
  | idle | reading | configuring | measuring | inserting | writing
  deriving DecidableEq, Repr

/-- The kind of the step in hand (R94); NONE is `none` of an Option. -/
inductive SweepKind where
  | cont | leadcal | iso
  deriving DecidableEq, Repr

/-- What a scan of a net's members is for (R109, R110, R112, R118, R119). -/
inductive ScanFor where
  /-- The start of net k (R109). -/
  | startK
  /-- A candidate of k (R110). -/
  | candidate
  /-- Net k, for the group in hand (R112). -/
  | groupK
  /-- A net of the group in hand (R112). -/
  | groupNet
  /-- The members of k, for the correlation work list (R118). -/
  | workK
  /-- The members of the other net of the SHORT (R118). -/
  | workG
  /-- The other net of the work list entry in hand (R119). -/
  | entryOther
  deriving DecidableEq, Repr

/-- Which direct read of the Sweep Engine is outstanding (R96). -/
inductive SweepRead where
  | none
  | refPoint | net | anchorPos | anchorPoint | memberPos | memberPoint
  | scanNet | scanMember | scanPoint (point : Nat)
  | entryAnchor | entryPoint
  deriving DecidableEq, Repr

/-- A scan of a net in progress: the net, its record once read, the member position being read, and the
points read so far in member order. -/
structure Scan where
  purpose : ScanFor
  net : Nat
  record : NetRec
  pos : Nat
  points : List Nat
  deriving DecidableEq, Repr

/-- What the Sweep Engine does once its result record is inserted (R102, R116). -/
inductive SweepAfter where
  /-- The visit or measurement has reached its boundary. -/
  | boundary
  /-- The boundary of a visit that ends its net (R98, R103). -/
  | netEnd
  /-- A SHORT to the given net: correlation, then the cap test (R114). -/
  | short (other : Nat)
  /-- The work list entry in hand is finished (R119). -/
  | entry
  /-- A SHORT-OVERFLOW: the search stops (R115). -/
  | overflow
  deriving DecidableEq, Repr

/-- A group: a contiguous run of the candidate list (R107). -/
structure Group where
  start : Nat
  length : Nat
  deriving DecidableEq, Repr

/-- A correlation work list entry (R107), with the continuity set of the point's own net (R119). -/
structure WorkEntry where
  point : Nat
  own : Nat
  other : Nat
  contSet : Nat
  deriving DecidableEq, Repr

/-- The Sweep Engine: the sweep record (R94), the isolation record (R107), and what it is waiting for.
The head of `stack` is its top. -/
structure Sweep where
  state : SweepState
  kind : Option SweepKind
  settle : Nat
  netCursor : Option Nat
  lastNet : Nat
  net : NetRec
  memberCursor : Option Nat
  fixedPoint : Option Nat
  fixedModule : Option Nat
  visitedPoint : Option Nat
  visitedModule : Option Nat
  results : List Insert
  correlate : Bool
  candidates : List Nat
  stack : List Group
  inHand : Option Group
  shortCount : Nat
  skipped : Nat
  work : List WorkEntry
  workCursor : Nat
  /-- Net of the SHORT whose correlation is in hand (R117). -/
  shortOther : Option Nat
  reading : SweepRead
  scan : Scan
  after : SweepAfter
  /-- Set when the visit has ended its net (R98, R103). -/
  netDone : Bool
  /-- Points gathered for bus A and bus B of the configuration being built (R112, R119). -/
  busA : List Nat
  busB : List Nat
  /-- Nets of the group in hand still to be scanned (R112). -/
  groupTodo : List Nat
  /-- The other net's anchor point and the raw result that waits for the reference's lead (R119, R104). -/
  otherAnchor : Nat
  raw : Nat
  deriving DecidableEq, Repr

/-! ### Insulation testing (chapter 08) -/

/-- The HV states (R122). -/
inductive HvState where
  | safe | ramp | dwell | discharge | stuck
  deriving DecidableEq, Repr

/-- The discharge causes (R122). -/
inductive HvCause where
  | none | startUp | test | unexpected | halt
  deriving DecidableEq, Repr

/-- What the HV Controller is doing with the net under test. -/
inductive HvWork where
  /-- No net in hand, or its boundary reached and the next net not yet taken. -/
  | idle
  /-- Reading the net record (R124). -/
  | readingNet
  /-- Reading the record of a point (R126). -/
  | readingMap (point : Nat)
  /-- A configuration asked of the Switch Sequencer (R126). -/
  | configuring
  /-- At the interlock test, in RAMP or in DWELL (R127 to R131). -/
  | testing
  /-- The test has ended by a timer and its evaluation waits its turn at the Arithmetic Unit (R84, R131, log 15). -/
  | evaluating
  /-- The test has ended and its measurement is not yet complete (R132, R133). -/
  | ended
  /-- A record made before any ramp is being inserted (R125, R126). -/
  | inserting
  deriving DecidableEq, Repr

/-- The HV Controller (R122), with the step in hand (R124) and the points gathered (R126).
`streamWanted` is set while the discharge stream of R138 is still to be opened. `ending` is none between events: a
record is handed to the Defect List in the event that makes it, and the pending-insert slot holds one that waits for
room (log 36). -/
structure Hv where
  state : HvState
  cause : HvCause
  net : Option Nat
  cls : InsulClass
  hold : Bool
  keepalive : Nat
  window : List Conv
  arcPred : Option Int
  rampTimer : Timer
  dwellTimer : Timer
  dischargeTimer : Timer
  ending : Option Insert
  safeWait : Bool
  work : HvWork
  lastNet : Nat
  settle : Nat
  classIndex : Nat
  pairs : List (Nat × Bus)
  streamWanted : Bool
  deriving DecidableEq, Repr

/-! ### The Run Engine (chapter 02) -/

/-- The run states (R23). -/
inductive RunState where
  | idle | running | paused | stalled | aborting | done
  deriving DecidableEq, Repr

/-- The pause causes (R23). -/
inductive PauseCause where
  | none | request | interlock
  deriving DecidableEq, Repr

/-- The abort causes (R23). -/
inductive AbortCause where
  | none | abort | hvAbort | fault
  deriving DecidableEq, Repr

/-- The termination codes, in the order of R44. -/
inductive Termination where
  | complete | completeDefects | stopped | defectLimit | aborted | hvAbort | fault
  deriving DecidableEq, Repr

/-- The run summary (R45). -/
structure Summary where
  term : Option Termination
  lastStep : Option Nat
  stepsRun : Nat
  defects : Nat
  measurements : Nat
  deriving DecidableEq, Repr

/-- What the Run Engine is waiting for. -/
inductive RunWait where
  /-- No run, or a run that has ended. -/
  | none
  /-- The start-up HOME, before the first step (R25). -/
  | startHome (first : Nat)
  /-- The read of a step record (R26). -/
  | stepRead (index : Nat)
  /-- The block that carries out the step. -/
  | owner
  /-- RESUME, before the step at the index (R31, R36). -/
  | heldStep (index : Nat)
  /-- The HV state SAFE, in a response (R40). -/
  | safe
  /-- The response's HOME (R40). -/
  | home
  deriving DecidableEq, Repr

/-- The run record (R23), with the step record in hand and what the run waits for. -/
structure Run where
  state : RunState
  correlate : Bool
  step : Option Nat
  inProgress : Bool
  stepDefects : Nat
  insertFlag : Bool
  rampFlag : Bool
  stopArmed : Bool
  pauseReq : Bool
  pauseCause : PauseCause
  abortCause : AbortCause
  slot : Option Insert
  summary : Summary
  stepRec : Option StepRec
  waiting : RunWait
  deriving DecidableEq, Repr

/-! ### Printout (chapter 10) -/

/-- The print states (R152). -/
inductive PrintState where
  | off | idle | format | send | held | faulted
  deriving DecidableEq, Repr

/-- The states of a line buffer (R152). -/
inductive BufState where
  | empty | formatting | ready | sending
  deriving DecidableEq, Repr

/-- What the line of a buffer is (R152). -/
inductive LineContent where
  | record (seq : Nat) | header | summary
  deriving DecidableEq, Repr

/-- A line buffer (R152). -/
structure Buffer where
  state : BufState
  content : Option LineContent
  text : List Byte
  deriving DecidableEq, Repr

/-- Which request of a record line is outstanding (R155); `begun` where none has been made yet. -/
inductive FmtStage where
  | begun | netA | nameA | netB | nameB | value
  deriving DecidableEq, Repr

/-- The record line being formatted: the record as selected and the names read so far (R155). -/
structure FmtWork where
  second : Bool
  defect : Defect
  stage : FmtStage
  nameA : List Byte
  nameB : List Byte
  deriving DecidableEq, Repr

/-- The character being shifted out on PRN_TX: the rate code read as it began, and the levels of its frame in the
order in which they go out, high as `true` (R159). -/
structure Character where
  rate : Nat
  bits : List Bool
  deriving DecidableEq, Repr

/-- The Print Engine (R152). `char` is the character being shifted out, if any (R159). -/
structure Print where
  state : PrintState
  buf0 : Buffer
  buf1 : Buffer
  sendPos : Nat
  holdReq : Bool
  disableReq : Bool
  header : Option Nat
  copies : Nat
  summary : Option (Termination × Nat × Nat)
  summaryDue : Bool
  summaryLeft : Nat
  busyTimer : Timer
  fmt : Option FmtWork
  char : Option Character
  deriving DecidableEq, Repr

/-! ### Events, faults and start-up (chapter 12) -/

/-- The events, in the order of R174. -/
inductive Event where
  | fault | hvAbort | safeHalt | runEnd | stepEnd | paused | stall | mark | defect | moduleChange
  | printerFault | checkDone
  deriving DecidableEq, Repr

/-- The Event Unit (R175): bit n is the n-th event of R174, a set mask bit is a masked event. -/
structure Events where
  pending : BitVec 12
  mask : BitVec 12
  deriving DecidableEq, Repr

/-- The fault codes, in the order of R177. -/
inductive FaultCode where
  | headTimeout | headLost | dischargeTimeout | hvUnexpected | tableParity
  deriving DecidableEq, Repr

/-- The fault record and the SAFE-HALT flag (R177). -/
structure FaultMon where
  valid : Bool
  code : Option FaultCode
  step : Option Nat
  net : Option Nat
  point : Option Nat
  hv : Option HvState
  table : Option (TableKind × Nat)
  second : Bool
  safeHalt : Bool
  deriving DecidableEq, Repr

/-- The reset causes, in the order of R182. -/
inductive ResetCause where
  | power | pin | command | clock
  deriving DecidableEq, Repr

/-- How far an accepted RESET CHIP has got (R181). -/
inductive ResetPhase where
  /-- No RESET CHIP has been taken. -/
  | none
  /-- Its reply is in the trunk transmit queue. -/
  | replying
  /-- The reply has left and the record access in progress has not completed. -/
  | accessing
  /-- The command reset takes effect. -/
  | ready
  deriving DecidableEq, Repr

/-- The Reset and Clock Monitor (R180, R181). -/
structure ResetMon where
  held : Bool
  cause : ResetCause
  phase : ResetPhase
  deriving DecidableEq, Repr

/-- The levels of the input pins that the chip examines (1.5 of the scope chapter). -/
structure Pins where
  interlockClosed : Bool
  prnBusy : Bool
  deriving DecidableEq, Repr

/-! ### The whole state -/

/-- The state of the block, and the queue of commands that wait (log 1). `torn` counts the torn writes so
far: it names the free values the next one takes (log 7). -/
structure State where
  mem : TableMem
  port : Port
  tables : Tables
  limits : Limits
  cache : Cache
  ring : Ring
  trunk : Trunk
  sup : Supervisor
  seq : Sequencer
  mc : Measure
  arith : Arith
  sweep : Sweep
  hv : Hv
  run : Run
  defects : List Defect
  print : Print
  events : Events
  fault : FaultMon
  rst : ResetMon
  pins : Pins
  torn : Nat
  pending : List Instr
  deriving DecidableEq, Repr

/-! ### Reset values -/

/-- The defaults of a continuity set (R14). -/
def ContSet.default : ContSet := { good := 2000, opn := 50000, range := 2 }

/-- The defaults of an insulation class (R14). -/
def InsulClass.default : InsulClass :=
  { volt := 500, ramp := 500, dwell := 1000, irLimit := 100, arcStep := 0, avgCode := 2 }

/-- The defaults of the limits block (R14, R15). -/
def Limits.default : Limits :=
  { cont := List.replicate 8 ContSet.default
    iso := { limit := 1000000000, range := 1, shortCap := 8 }
    insul := List.replicate 8 InsulClass.default
    timing :=
      { echo := 5, sample := 20, period := 10, keepalive := 256, hvInterval := 10, safeLevel := 30
        discharge := 2000, defectLimit := 1000, busy := 10, rate := 3 }
    calib :=
      { vlsbLv := 61, vlsbHv := 100
        ilsb := [61035156, 6103516, 610352, 61035, 6104, 610, 61, 3] } }

/-- A point record of zeros: the copy an invalid cache entry holds (DESIGN CHOICE, log 26). -/
def PointRec.zero : PointRec := { module := 0, channel := 0, kind := .unused, lead := 0, net := none }

/-- A net record of zeros: the net copy while it holds no meaning (R94; DESIGN CHOICE, log 26). -/
def NetRec.zero : NetRec :=
  { first := 0, count := 0, anchor := 0, contSet := 0, insulClass := none, kind := .wired, name := none }

/-- Every entry invalid, the pointer 0 (R19). -/
def Cache.reset : Cache :=
  { entries := List.replicate 32 { valid := false, tag := 0, copy := PointRec.zero }
    pointer := 0, fill := none, waiting := [], invalidates := [] }

/-- The trunk transmit queue after every reset (R173). -/
def Trunk.reset : Trunk := { queue := [], begun := false, held := false }

/-- The ring transmit queue, wait list and own-tag counter after every reset (R171). -/
def Ring.reset : Ring := { queue := [], wait := [], ownTag := 0 }

/-- A supervision entry with the given channel count and everything else cleared (R65). -/
def Node.cleared (channels : Nat) : Node :=
  { channels, heard := false, fault := false, alive := false, kind := .none, reported := 0 }

/-- The Ring Supervisor with the given entries, while the chip is held in reset (R65, R66). -/
def Supervisor.reset (nodes : List Node) : Supervisor := { nodes, timer := none, pollList := [] }

/-- The HOME record of no HOME (R48). -/
def Home.none : Home := { tag := Option.none, expected := [], answered := [], timer := Option.none }

/-- The Switch Sequencer after every reset (R48). -/
def Sequencer.reset : Sequencer :=
  { state := .idle, requester := .none, settle := 0, believed := List.replicate 64 none
    transactions := [], failed := [], home := Home.none, settleTimer := none, todo := [], placed := [] }

/-- The Measurement Controller after every reset (R76). -/
def Measure.reset : Measure :=
  { state := .idle, requester := .none, range := 0, ctxNet := none, ctxPoint := none, attempt := 1
    curTag := none, prevTag := none, timer := none, queue := [], lastSeq := none, lost := 0
    discards := 0, leads := [], stream := 0 }

/-- No scan (R107; DESIGN CHOICE, log 26). -/
def Scan.reset : Scan := { purpose := .startK, net := 0, record := NetRec.zero, pos := 0, points := [] }

/-- The Sweep Engine after every reset and between steps (R94, R107). -/
def Sweep.reset : Sweep :=
  { state := .idle, kind := none, settle := 0, netCursor := none, lastNet := 0, net := NetRec.zero
    memberCursor := none, fixedPoint := none, fixedModule := none, visitedPoint := none
    visitedModule := none, results := [], correlate := false, candidates := [], stack := []
    inHand := none, shortCount := 0, skipped := 0, work := [], workCursor := 0, shortOther := none
    reading := .none, scan := Scan.reset, after := .boundary, netDone := false, busA := [], busB := []
    groupTodo := [], otherAnchor := 0, raw := 0 }

/-- The HV Controller after every reset (R122). -/
def Hv.reset : Hv :=
  { state := .discharge, cause := .startUp, net := none, cls := InsulClass.default, hold := false
    keepalive := 0, window := [], arcPred := none, rampTimer := none, dwellTimer := none
    dischargeTimer := none, ending := none, safeWait := false, work := .idle, lastNet := 0
    settle := 0, classIndex := 0, pairs := [], streamWanted := false }

/-- The run summary after every reset and at START RUN (R23, R25). -/
def Summary.cleared : Summary :=
  { term := none, lastStep := none, stepsRun := 0, defects := 0, measurements := 0 }

/-- The run record after every reset (R23). -/
def Run.reset : Run :=
  { state := .idle, correlate := false, step := none, inProgress := false, stepDefects := 0
    insertFlag := false, rampFlag := false, stopArmed := false, pauseReq := false
    pauseCause := .none, abortCause := .none, slot := none, summary := Summary.cleared
    stepRec := none, waiting := .none }

/-- An EMPTY line buffer (R152). -/
def Buffer.empty : Buffer := { state := .empty, content := none, text := [] }

/-- The Print Engine after every reset (R152). -/
def Print.reset : Print :=
  { state := .off, buf0 := Buffer.empty, buf1 := Buffer.empty, sendPos := 0, holdReq := false
    disableReq := false, header := none, copies := 0, summary := none, summaryDue := false
    summaryLeft := 0, busyTimer := none, fmt := none, char := none }

/-- No event pending; all masked but FAULT, HV-ABORT and SAFE-HALT (R175). -/
def Events.reset : Events := { pending := 0, mask := 0xFF8 }

/-- The fault record not valid, every field NONE (R177). -/
def FaultMon.reset : FaultMon :=
  { valid := false, code := none, step := none, net := none, point := none, hv := none, table := none
    second := false, safeHalt := false }

/-- The state right after a power-on reset, the chip still held in reset: RESET_END lets it go (log 2).
Table memory lists nothing (log 6); the pins have the levels of log 25. -/
def State.reset : State :=
  { mem := { cells := [], dp := [], epoch := 0 }
    port := { queue := [] }
    tables :=
      { dims := none, state := .empty, result := .none, parityCount := 0, parityLast := none
        check := none }
    limits := Limits.default
    cache := Cache.reset
    ring := Ring.reset
    trunk := Trunk.reset
    sup := Supervisor.reset (List.replicate 65 (Node.cleared 0))
    seq := Sequencer.reset
    mc := Measure.reset
    arith := { job := none, waiting := [] }
    sweep := Sweep.reset
    hv := Hv.reset
    run := Run.reset
    defects := []
    print := Print.reset
    events := Events.reset
    fault := FaultMon.reset
    rst := { held := true, cause := .power, phase := .none }
    pins := { interlockClosed := false, prnBusy := false }
    torn := 0
    pending := [] }

/-! ### Updates of one block -/

/-- Change table memory. -/
def State.onMem (s : State) (f : TableMem → TableMem) : State := { s with mem := f s.mem }
/-- Change the port. -/
def State.onPort (s : State) (f : Port → Port) : State := { s with port := f s.port }
/-- Change the table records held on the chip. -/
def State.onTables (s : State) (f : Tables → Tables) : State := { s with tables := f s.tables }
/-- Change the limits block. -/
def State.onLimits (s : State) (f : Limits → Limits) : State := { s with limits := f s.limits }
/-- Change the cache. -/
def State.onCache (s : State) (f : Cache → Cache) : State := { s with cache := f s.cache }
/-- Change the ring transmit queue, wait list or own-tag counter. -/
def State.onRing (s : State) (f : Ring → Ring) : State := { s with ring := f s.ring }
/-- Change the trunk transmit queue. -/
def State.onTrunk (s : State) (f : Trunk → Trunk) : State := { s with trunk := f s.trunk }
/-- Change the Ring Supervisor. -/
def State.onSup (s : State) (f : Supervisor → Supervisor) : State := { s with sup := f s.sup }
/-- Change the Switch Sequencer. -/
def State.onSeq (s : State) (f : Sequencer → Sequencer) : State := { s with seq := f s.seq }
/-- Change the Measurement Controller. -/
def State.onMc (s : State) (f : Measure → Measure) : State := { s with mc := f s.mc }
/-- Change the Arithmetic Unit. -/
def State.onArith (s : State) (f : Arith → Arith) : State := { s with arith := f s.arith }
/-- Change the Sweep Engine. -/
def State.onSweep (s : State) (f : Sweep → Sweep) : State := { s with sweep := f s.sweep }
/-- Change the HV Controller. -/
def State.onHv (s : State) (f : Hv → Hv) : State := { s with hv := f s.hv }
/-- Change the run record. -/
def State.onRun (s : State) (f : Run → Run) : State := { s with run := f s.run }
/-- Change the defect list. -/
def State.onDefects (s : State) (f : List Defect → List Defect) : State :=
  { s with defects := f s.defects }
/-- Change the Print Engine. -/
def State.onPrint (s : State) (f : Print → Print) : State := { s with print := f s.print }
/-- Change the Event Unit. -/
def State.onEvents (s : State) (f : Events → Events) : State := { s with events := f s.events }
/-- Change the Fault Monitor. -/
def State.onFault (s : State) (f : FaultMon → FaultMon) : State := { s with fault := f s.fault }
/-- Change the Reset and Clock Monitor. -/
def State.onRst (s : State) (f : ResetMon → ResetMon) : State := { s with rst := f s.rst }
/-- Change the pin levels. -/
def State.onPins (s : State) (f : Pins → Pins) : State := { s with pins := f s.pins }

end Sys2Proof.Machine
end

