-- ==== Sys2Proof/Machine/Flags.lean ====
section
/-! DEFINITION. Every set of flags the block holds or sends: one bit per flag, the first listed in bit 0
(R174). -/

namespace Sys2Proof.Machine

/-- A byte of flags, the first in bit 0 (R174). -/
def flagsByte (flags : List Bool) : Byte :=
  flags.foldr (fun b acc => (acc <<< 1) ||| (if b then 1 else 0)) 0

/-- A set-or-clear item: one byte, 1 for set (R174). -/
def boolByte (b : Bool) : Byte := if b then 1 else 0

/-- The place of an event in an event set (R174). -/
def Event.index : Event → Nat
  | .fault => 0
  | .hvAbort => 1
  | .safeHalt => 2
  | .runEnd => 3
  | .stepEnd => 4
  | .paused => 5
  | .stall => 6
  | .mark => 7
  | .defect => 8
  | .moduleChange => 9
  | .printerFault => 10
  | .checkDone => 11

/-- The event set that holds one event. -/
def Event.bit (e : Event) : BitVec 12 := 1#12 <<< e.index

/-- The three HIGH events: FAULT, HV-ABORT and SAFE-HALT (12.1). -/
def highEvents : BitVec 12 := 0x007

/-- Whether an event set includes a HIGH event (R173). -/
def isHigh (set : BitVec 12) : Bool := set &&& highEvents ≠ 0

/-- Whether an event is pending. -/
def Events.isPending (u : Events) (e : Event) : Bool := u.pending &&& e.bit ≠ 0

/-- Whether an event is masked (R175). -/
def Events.isMasked (u : Events) (e : Event) : Bool := u.mask &&& e.bit ≠ 0

/-- An event set in a payload: two bytes (R174). -/
def eventSetBytes (set : BitVec 12) : List Byte := be16 set.toNat

/-- The flags byte of a defect record (R141, R174). -/
def Defect.flags (d : Defect) : Byte :=
  flagsByte [d.provisional, d.explained, d.lowv, d.printed, d.retired, d.key.point.isSome,
    d.key.netB.isSome, d.value.isSome]

/-- The flags of an SMP: OVL, CMP, HV (R174). -/
def sampleOvl (flags : Byte) : Bool := flags.getLsbD 0
def sampleCmp (flags : Byte) : Bool := flags.getLsbD 1
def sampleHv (flags : Byte) : Bool := flags.getLsbD 2

/-- The HV-present flag of a STA (R174). -/
def staHvPresent (flags : Byte) : Bool := flags.getLsbD 0

/-- The option flags of a step record: STOP-ON-DEFECT and CORRELATE (R10, R174). -/
def optionStopOnDefect (flags : Byte) : Bool := flags.getLsbD 0
def optionCorrelate (flags : Byte) : Bool := flags.getLsbD 1

end Sys2Proof.Machine
end

