-- ==== Sys2Proof/Machine/Operands.lean ====
section
/-! DEFINITION. The operand forms: how payload fields, table records and limits sections are coded (R174),
and the ranges a load tests (R4 to R15). -/

namespace Sys2Proof.Machine

/-! ### Fields -/

/-- The byte at a place of a payload, 0 beyond its end. -/
def byteAt (bs : List Byte) (i : Nat) : Nat := (bs.getD i 0).toNat

/-- The two-byte number at a place of a payload. -/
def wordAt (bs : List Byte) (i : Nat) : Nat := byteAt bs i * 256 + byteAt bs (i + 1)

/-- The four-byte number at a place of a payload. -/
def longAt (bs : List Byte) (i : Nat) : Nat := wordAt bs i * 65536 + wordAt bs (i + 2)

/-- A two-byte field that may be NONE, coded all ones (R174). -/
def opt16 (n : Nat) : Option Nat := if n = 0xFFFF then none else some n

/-- One byte for a number or NONE. -/
def optByte (o : Option Nat) : List Byte := [byte (o.getD 0xFF)]

/-- Two bytes for a number or NONE. -/
def optWord (o : Option Nat) : List Byte := be16 (o.getD 0xFFFF)

/-- Cut bytes into runs of `n`; the first argument bounds the number of runs. -/
def chunks (n : Nat) : Nat → List Byte → List (List Byte)
  | 0, _ => []
  | fuel + 1, bs => if bs.isEmpty then [] else bs.take n :: chunks n fuel (bs.drop n)

/-- The whole records of a payload, or nothing where it is not a whole number of them or holds none
(R5, R174). -/
def records (size : Nat) (bs : List Byte) : Option (List (List Byte)) :=
  if size = 0 || bs.isEmpty || bs.length % size ≠ 0 then none else some (chunks size bs.length bs)

/-! ### Enumerations (R174: 0, 1, 2, … in the order of the defining list) -/

/-- The code of a table kind (R1). -/
def TableKind.code : TableKind → Nat
  | .dimensions => 0 | .points => 1 | .nets => 2 | .members => 3
  | .names => 4 | .steps => 5 | .modules => 6 | .limits => 7

/-- The table kind of a code (R1). -/
def TableKind.ofCode : Nat → Option TableKind
  | 0 => some .dimensions | 1 => some .points | 2 => some .nets | 3 => some .members
  | 4 => some .names | 5 => some .steps | 6 => some .modules | 7 => some .limits
  | _ => none

/-- The kind of a point record (R6). -/
def PointKind.ofByte (b : Byte) : PointKind :=
  if b = 0 then .unused else if b = 1 then .wired else if b = 2 then .spare else .other b

/-- The code of a point kind (R6). -/
def PointKind.code : PointKind → Byte
  | .unused => 0 | .wired => 1 | .spare => 2 | .other b => b

/-- The kind of a net record (R7). -/
def NetKind.ofByte (b : Byte) : NetKind := if b = 0 then .wired else if b = 1 then .spare else .other b

/-- The kind of a step record (R10). -/
def StepKind.ofByte (b : Byte) : StepKind :=
  if b = 0 then .cont else if b = 1 then .iso else if b = 2 then .insul else if b = 3 then .leadcal
  else if b = 4 then .mark else if b = 5 then .endStep else .other b

/-- The code of a step status (R10). -/
def StepStatus.code : StepStatus → Byte
  | .notRun => 0 | .inProgress => 1 | .pass => 2 | .defects => 3 | .skipped => 4 | .aborted => 5
  | .fault => 6

/-- The code of a defect kind (R141). -/
def DefectKind.code : DefectKind → Nat
  | .opn => 0 | .highR => 1 | .short => 2 | .shortOverflow => 3 | .miswire => 4 | .leak => 5
  | .arc => 6 | .untested => 7 | .switchFault => 8 | .calFail => 9

/-- The code of a termination code (R44). -/
def Termination.code : Termination → Nat
  | .complete => 0 | .completeDefects => 1 | .stopped => 2 | .defectLimit => 3 | .aborted => 4
  | .hvAbort => 5 | .fault => 6

/-- The code of a run state (R23). -/
def RunState.code : RunState → Nat
  | .idle => 0 | .running => 1 | .paused => 2 | .stalled => 3 | .aborting => 4 | .done => 5

/-- The code of a pause cause (R23); NONE is all ones (log 19). -/
def PauseCause.code : PauseCause → Nat
  | .none => 0xFF | .request => 1 | .interlock => 2

/-- The code of an abort cause (R23); NONE is all ones (log 19). -/
def AbortCause.code : AbortCause → Nat
  | .none => 0xFF | .abort => 1 | .hvAbort => 2 | .fault => 3

/-- The code of a table state (R16). -/
def TableState.code : TableState → Nat
  | .empty => 0 | .loaded => 1 | .checking => 2 | .ready => 3

/-- The code of a check reason (R174). -/
def CheckReason.code : CheckReason → Nat
  | .moduleUnconf => 0 | .channelRange => 1 | .dupChannel => 2 | .netMismatch => 3
  | .memberRange => 4 | .anchorRange => 5 | .nameRange => 6 | .spareShape => 7 | .dupMember => 8
  | .stepRange => 9 | .parity => 10

/-- The code of a sequencer state (R48). -/
def SeqState.code : SeqState → Nat
  | .idle => 0 | .translating => 1 | .verifying => 2 | .settling => 3 | .homing => 4

/-- The code of a requester (R48, R76); NONE is all ones (log 19). -/
def Requester.code : Requester → Nat
  | .none => 0xFF | .sweep => 1 | .hv => 2 | .run => 3

/-- The code of a controller state (R76). -/
def McState.code : McState → Nat
  | .idle => 0 | .msrQueued => 1 | .msrWait => 2 | .msrAnswered => 3 | .stream => 4

/-- The code of a sweep state (R94). -/
def SweepState.code : SweepState → Nat
  | .idle => 0 | .reading => 1 | .configuring => 2 | .measuring => 3 | .inserting => 4 | .writing => 5

/-- The code of the kind of the step in hand: a step kind of R10 (R174). -/
def SweepKind.code : SweepKind → Nat
  | .cont => 0 | .iso => 1 | .leadcal => 3

/-- The code of an HV state (R122). -/
def HvState.code : HvState → Nat
  | .safe => 0 | .ramp => 1 | .dwell => 2 | .discharge => 3 | .stuck => 4

/-- The code of a discharge cause (R122); NONE is all ones (log 19). -/
def HvCause.code : HvCause → Nat
  | .none => 0xFF | .startUp => 1 | .test => 2 | .unexpected => 3 | .halt => 4

/-- The code of a reported kind (R65); NONE is all ones (log 19). -/
def NodeKind.code : NodeKind → Nat
  | .none => 0xFF | .module => 1 | .head => 2 | .other => 3

/-- The code of a print state (R152). -/
def PrintState.code : PrintState → Nat
  | .off => 0 | .idle => 1 | .format => 2 | .send => 3 | .held => 4 | .faulted => 5

/-- The code of a buffer state (R152). -/
def BufState.code : BufState → Nat
  | .empty => 0 | .formatting => 1 | .ready => 2 | .sending => 3

/-- The code of a fault code (R177). -/
def FaultCode.code : FaultCode → Nat
  | .headTimeout => 0 | .headLost => 1 | .dischargeTimeout => 2 | .hvUnexpected => 3
  | .tableParity => 4

/-- The code of a reset cause (R182). -/
def ResetCause.code : ResetCause → Nat
  | .power => 0 | .pin => 1 | .command => 2 | .clock => 3

/-! ### Table records (R174) -/

/-- The bytes of a record in table memory (R174; a name is its 16 characters, R9). -/
def TableKind.size : TableKind → Nat
  | .points => 7 | .nets => 10 | .members => 2 | .names => 16 | .steps => 12 | _ => 0

/-- The most records a table can have (R4). -/
def TableKind.capacity : TableKind → Nat
  | .points => 8192 | .nets => 4096 | .members => 16384 | .names => 4096 | .steps => 1024 | _ => 0

/-- Where a table begins in table memory: the model's own placement, which nothing can observe (log 5). -/
def TableKind.base : TableKind → Nat
  | .points => 0 | .nets => 57344 | .members => 98304 | .names => 131072 | .steps => 196608 | _ => 0

/-- The bound the dimensions give a table of table memory (R1, R4). -/
def Dimensions.bound (d : Dimensions) : TableKind → Nat
  | .points => d.points | .nets => d.nets | .members => d.members | .names => d.names
  | .steps => d.steps | _ => 0

/-- A point record from its bytes (R6, R174). -/
def decodePoint (bs : List Byte) : PointRec :=
  { module := byteAt bs 0, channel := byteAt bs 1, kind := PointKind.ofByte (bs.getD 2 0)
    lead := wordAt bs 3, net := opt16 (wordAt bs 5) }

/-- Where the lead field of a point record stands (R174). -/
def leadOffset : Nat := 3

/-- The continuity set a net record's field stands for (R7); any byte but 0..7 is open (log 42). -/
def contSetOf (n : Nat) : Nat := if n ≤ 7 then n else (Config.strayContSet n).val

/-- The insulation class a net record's field stands for (R7); any byte but 0..7 and NONE is open
(log 42). -/
def insulClassOf (n : Nat) : Option Nat :=
  if n ≤ 7 then some n else if n = 0xFF then none else some (Config.strayInsulClass n).val

/-- The settle code a step record's field stands for (R10); any byte but 0..3 is open (log 42). -/
def settleOf (n : Nat) : Nat := if n ≤ 3 then n else (Config.straySettle n).val

/-- A net record from its bytes (R7, R174). -/
def decodeNet (bs : List Byte) : NetRec :=
  { first := wordAt bs 0, count := wordAt bs 2, anchor := byteAt bs 4, contSet := contSetOf (byteAt bs 5)
    insulClass := insulClassOf (byteAt bs 6), kind := NetKind.ofByte (bs.getD 7 0), name := opt16 (wordAt bs 8) }

/-- The program fields of a step record from its bytes (R10, R174). -/
def decodeStep (bs : List Byte) : StepRec :=
  { kind := StepKind.ofByte (bs.getD 0 0), firstNet := wordAt bs 1, lastNet := wordAt bs 3
    settle := settleOf (byteAt bs 5), stopOnDefect := optionStopOnDefect (bs.getD 6 0)
    correlate := optionCorrelate (bs.getD 6 0), refPoint := wordAt bs 7 }

/-- Where status and step defect count stand in a step record (R174). -/
def statusOffset : Nat := 9

/-- A field that is in a range or NONE. -/
def inRangeOrNone (n last allOnes : Nat) : Bool := n ≤ last || n = allOnes

/-- The ranges R6 gives at load. -/
def pointLoadOk (bs : List Byte) : Bool :=
  1 ≤ byteAt bs 0 && byteAt bs 0 ≤ 64 && byteAt bs 1 ≤ 127 && byteAt bs 2 ≤ 2
    && inRangeOrNone (wordAt bs 5) 4095 0xFFFF

/-- The ranges R7 gives at load. -/
def netLoadOk (bs : List Byte) : Bool :=
  wordAt bs 0 ≤ 16383 && 1 ≤ wordAt bs 2 && wordAt bs 2 ≤ 256 && byteAt bs 5 ≤ 7
    && inRangeOrNone (byteAt bs 6) 7 0xFF && byteAt bs 7 ≤ 1 && inRangeOrNone (wordAt bs 8) 4095 0xFFFF

/-- The range R8 gives at load. -/
def memberLoadOk (bs : List Byte) : Bool := wordAt bs 0 ≤ 8191

/-- The range R9 gives at load. -/
def nameLoadOk (bs : List Byte) : Bool := byteAt bs 0 ≤ 16

/-- The ranges R10 gives at load; an option bit that names no option is out of range (log 23). -/
def stepLoadOk (bs : List Byte) : Bool :=
  wordAt bs 1 ≤ 4095 && wordAt bs 3 ≤ 4095 && byteAt bs 5 ≤ 3 && byteAt bs 6 ≤ 3
    && wordAt bs 7 ≤ 8191

/-- A record as carried by a load of its kind: its bytes, and its ranges (R5 to R10, R174). -/
def TableKind.loadSize : TableKind → Nat
  | .names => 17 | k => k.size

/-- Whether every field of a record is in the range its rule gives for the load (R5). -/
def TableKind.loadOk : TableKind → List Byte → Bool
  | .points, bs => pointLoadOk bs
  | .nets, bs => netLoadOk bs
  | .members, bs => memberLoadOk bs
  | .names, bs => nameLoadOk bs
  | .steps, bs => stepLoadOk bs
  | _, _ => false

/-- The bytes a load stores for a record it carries: a name padded with spaces (R9), a step with status
NOT-RUN and step defect count 0 (R10), any other record as given. -/
def TableKind.stored : TableKind → List Byte → List Byte
  | .names, bs => (((bs.drop 1).take (byteAt bs 0)) ++ List.replicate 16 0x20).take 16
  | .steps, bs => bs.take statusOffset ++ [StepStatus.notRun.code, 0, 0]
  | _, bs => bs

/-- The record of READ TABLE for bytes read from table memory: a name is sent with length 16, since its
16 stored characters are returned (R11, R174, log 20). -/
def TableKind.sent : TableKind → List Byte → List Byte
  | .names, bs => byte 16 :: bs
  | _, bs => bs

/-- The dimensions record from its ten bytes, or nothing where a count is out of range (R4). -/
def decodeDimensions (bs : List Byte) : Option Dimensions :=
  let d : Dimensions :=
    { points := wordAt bs 0, nets := wordAt bs 2, members := wordAt bs 4, names := wordAt bs 6
      steps := wordAt bs 8 }
  if bs.length = 10 && 1 ≤ d.points && d.points ≤ 8192 && 1 ≤ d.nets && d.nets ≤ 4096
      && 1 ≤ d.members && d.members ≤ 16384 && d.names ≤ 4096 && 1 ≤ d.steps && d.steps ≤ 1024
  then some d else none

/-- The dimensions record as sent; an absent record is all ones (R174, log 20). -/
def encodeDimensions : Option Dimensions → List Byte
  | none => List.replicate 10 0xFF
  | some d => be16 d.points ++ be16 d.nets ++ be16 d.members ++ be16 d.names ++ be16 d.steps

/-! ### Limits sections (R13 to R15) -/

/-- RMAX in mΩ and IRMAX in MΩ (2.1 of the scope chapter). -/
def rmax : Nat := 4294967295

/-- The largest arc step and the largest ilsb, in pA (R14, R15). -/
def maxPicoamp : Nat := 4000000000

/-- Clamp a value to a range (3.1 of the scope chapter). -/
def clamp (lo hi n : Nat) : Nat := max lo (min hi n)

/-- The sections of the limits block (R13). -/
inductive Section where
  | cont (n : Nat) | isolation | insul (n : Nat) | timing | calibration
  deriving DecidableEq, Repr

/-- The section of a selector (R174). -/
def Section.ofCode (n : Nat) : Option Section :=
  if n ≤ 7 then some (.cont n) else if n = 8 then some .isolation
  else if n ≤ 16 then some (.insul (n - 9)) else if n = 17 then some .timing
  else if n = 18 then some .calibration else none

/-- The bytes of a section (R174). -/
def Section.size : Section → Nat
  | .cont _ => 9 | .isolation => 6 | .insul _ => 15 | .timing => 13 | .calibration => 36

/-- A continuity set with its fields clamped, the good limit first (R13, R14). -/
def clampCont (bs : List Byte) : ContSet :=
  let good := clamp 0 (rmax - 1) (longAt bs 0)
  { good, opn := clamp good (rmax - 1) (longAt bs 4), range := clamp 0 7 (byteAt bs 8) }

/-- The ISOLATION section clamped (R14). -/
def clampIso (bs : List Byte) : IsoLimits :=
  { limit := clamp 1 (rmax - 1) (longAt bs 0), range := clamp 0 7 (byteAt bs 4)
    shortCap := clamp 1 64 (byteAt bs 5) }

/-- An insulation class clamped (R14). -/
def clampInsul (bs : List Byte) : InsulClass :=
  { volt := clamp 50 1500 (wordAt bs 0), ramp := clamp 50 5000 (wordAt bs 2)
    dwell := clamp 10 60000 (wordAt bs 4), irLimit := clamp 1 (rmax - 1) (longAt bs 6)
    arcStep := clamp 0 maxPicoamp (longAt bs 10), avgCode := clamp 0 6 (byteAt bs 14) }

/-- The TIMING section clamped; a run defect limit below the run defect count of the run summary is stored
as that count (R15, R144). -/
def clampTiming (runDefects : Nat) (bs : List Byte) : Timing :=
  { echo := clamp 1 50 (byteAt bs 0), sample := clamp 1 255 (byteAt bs 1)
    period := clamp 1 255 (byteAt bs 2), keepalive := clamp 16 65535 (wordAt bs 3)
    hvInterval := clamp 1 100 (byteAt bs 5), safeLevel := clamp 10 60 (byteAt bs 6)
    discharge := clamp 100 10000 (wordAt bs 7)
    defectLimit := max runDefects (clamp 1 65535 (wordAt bs 9)), busy := clamp 1 60 (byteAt bs 11)
    rate := clamp 0 7 (byteAt bs 12) }

/-- The CALIBRATION section clamped (R15). -/
def clampCalib (bs : List Byte) : Calibration :=
  { vlsbLv := clamp 1 65535 (wordAt bs 0), vlsbHv := clamp 1 1000 (wordAt bs 2)
    ilsb := (List.range 8).map fun i => clamp 1 maxPicoamp (longAt bs (4 + 4 * i)) }

/-- The limits block after a section is loaded (R13). -/
def Limits.load (l : Limits) (runDefects : Nat) (sec : Section) (bs : List Byte) : Limits :=
  match sec with
  | .cont n => { l with cont := l.cont.set n (clampCont bs) }
  | .isolation => { l with iso := clampIso bs }
  | .insul n => { l with insul := l.insul.set n (clampInsul bs) }
  | .timing => { l with timing := clampTiming runDefects bs }
  | .calibration => { l with calib := clampCalib bs }

/-- The continuity set of a number. -/
def Limits.contSet (l : Limits) (n : Nat) : ContSet := l.cont.getD n ContSet.default

/-- The insulation class of a number. -/
def Limits.insulClass (l : Limits) (n : Nat) : InsulClass := l.insul.getD n InsulClass.default

/-- A section as sent (R174). -/
def Limits.section (l : Limits) (sec : Section) : List Byte :=
  match sec with
  | .cont n => let c := l.contSet n; be32 c.good ++ be32 c.opn ++ [byte c.range]
  | .isolation => be32 l.iso.limit ++ [byte l.iso.range, byte l.iso.shortCap]
  | .insul n =>
    let c := l.insulClass n
    be16 c.volt ++ be16 c.ramp ++ be16 c.dwell ++ be32 c.irLimit ++ be32 c.arcStep ++ [byte c.avgCode]
  | .timing =>
    let t := l.timing
    [byte t.echo, byte t.sample, byte t.period] ++ be16 t.keepalive
      ++ [byte t.hvInterval, byte t.safeLevel] ++ be16 t.discharge ++ be16 t.defectLimit
      ++ [byte t.busy, byte t.rate]
  | .calibration =>
    be16 l.calib.vlsbLv ++ be16 l.calib.vlsbHv ++ (l.calib.ilsb.map be32).flatten

/-- The averaging count K of a code (R14). -/
def InsulClass.averaging (c : InsulClass) : Nat := 2 ^ c.avgCode

/-- The settle delay of a settle code, in ms (R58). -/
def settleDelay : Nat → Nat
  | 0 => 1 | 1 => 3 | 2 => 10 | _ => 30

/-! ### Masks (R174: channel c is bit (c mod 8) of byte (c div 8)) -/

/-- A mask as sixteen bytes. -/
def maskBytes (m : BitVec 128) : List Byte :=
  (List.range 16).map fun i => (m >>> (8 * i)).setWidth 8

/-- The number of channels marked in a mask. -/
def maskCount (m : BitVec 128) : Nat := ((List.range 128).filter fun i => m.getLsbD i).length

/-- A mask with one more channel marked. -/
def maskMark (m : BitVec 128) (channel : Nat) : BitVec 128 := m ||| (1#128 <<< channel)

/-! ### Defect records (R148, R174) -/

/-- A defect record as sent: 17 bytes, an absent field all ones. -/
def Defect.bytes (d : Defect) : List Byte :=
  be16 d.seq ++ [byte d.key.kind.code] ++ be16 d.key.netA ++ optWord d.key.point ++ optWord d.key.netB
    ++ be32 (d.value.getD rmax) ++ be16 d.step ++ [byte d.rep, d.flags]

end Sys2Proof.Machine
end

