-- ==== Sys2Proof/Machine/Ops.lean ====
section
/-! DEFINITION. The operations every block shares: table memory and its port (R2, R3), the trunk transmit
queue and the Event Unit (R172, R173, R175), the module table (R65), and the ring transmit queue with its
wait list (R67, R171). -/

namespace Sys2Proof.Machine

/-! ### Table memory (R2) -/

/-- Put a byte at an address of a rising list of cells. -/
def putCell (a : Nat) (b : Byte) : List Host.Cell → List Host.Cell
  | [] => [(a, b)]
  | c :: rest =>
    if a < c.1 then (a, b) :: c :: rest
    else if a = c.1 then (a, b) :: rest
    else c :: putCell a b rest

/-- Put an address into a rising list. -/
def putAddress (a : Nat) : List Nat → List Nat
  | [] => [a]
  | x :: rest => if a < x then a :: x :: rest else if a = x then x :: rest else x :: putAddress a rest

/-- The byte written at an address, if any. -/
def TableMem.lookup (m : TableMem) (a : Nat) : Option Byte :=
  (m.cells.find? fun c => c.1 = a).map (·.2)

/-- The byte at an address; a byte nothing has written is a free value (R4, log 6). -/
def TableMem.read (m : TableMem) (a : Nat) : Byte :=
  (m.lookup a).getD (Config.unwrittenByte m.epoch a)

/-- The canonical form: addresses strictly rising, in the bytes written and in the parity bits that hold a one, and
no such parity bit without its byte. -/
abbrev TableMem.wf (m : TableMem) : Prop :=
  (m.cells.map (·.1)).Pairwise (· < ·) ∧ m.dp.Pairwise (· < ·) ∧ ∀ a ∈ m.dp, (m.lookup a).isSome = true

/-- Whether a byte holds an odd number of ones. -/
def oddOnes (b : Byte) : Bool := (List.range 8).foldl (fun odd i => odd ^^ b.getLsbD i) false

/-- The parity bit of a byte, chosen so that the nine bits hold an odd number of ones (R2). -/
def parityBit (b : Byte) : Bool := !oddOnes b

/-- The parity bit TM_DP at an address; that of a byte nothing has written is a free value (R2, log 6). -/
def TableMem.dpAt (m : TableMem) (a : Nat) : Bool :=
  if (m.lookup a).isSome then m.dp.contains a else Config.unwrittenParityBit m.epoch a

/-- Whether the byte at an address fails the check against its parity bit: the nine bits do not hold an odd number of
ones (R2). -/
def TableMem.parityBad (m : TableMem) (a : Nat) : Bool := !(oddOnes (m.read a) ^^ m.dpAt a)

/-- Put a byte and a parity bit at an address. -/
def TableMem.put (m : TableMem) (a : Nat) (b : Byte) (dp : Bool) : TableMem :=
  { m with cells := putCell a b m.cells, dp := if dp then putAddress a m.dp else m.dp.filter (· ≠ a) }

/-- Write a byte with its parity bit (R2). -/
def TableMem.write (m : TableMem) (a : Nat) (b : Byte) : TableMem := m.put a b (parityBit b)

/-- Write bytes from an address on. -/
def TableMem.writeRun (m : TableMem) (a : Nat) : List Byte → TableMem
  | [] => m
  | b :: rest => (m.write a b).writeRun (a + 1) rest

/-- Write the bytes of an abandoned write that a free choice makes new (R2, log 7). -/
def TableMem.writeTorn (m : TableMem) (occasion : Nat) (a : Nat) : Nat → List Byte → TableMem
  | _, [] => m
  | i, b :: rest =>
    (if Config.tornByteIsNew occasion i then m.write (a + i) b else m).writeTorn occasion a (i + 1) rest

/-- A byte comes to fail its parity check: TM_DP does not hold its parity bit any more. Its data is not used until it
is written again, so that it is not seen which of the nine bits has changed (R3, log 9). -/
def TableMem.upset (m : TableMem) (a : Nat) : TableMem := m.put a (m.read a) (!parityBit (m.read a))

/-- The address of a record (log 5). -/
def recordAddress (kind : TableKind) (index : Nat) : Nat := kind.base + index * kind.size

/-- The bytes of a record, or nothing where any byte fails its parity check (R3). -/
def TableMem.record (m : TableMem) (kind : TableKind) (index : Nat) : Option (List Byte) :=
  let a := recordAddress kind index
  if (List.range kind.size).any fun i => m.parityBad (a + i) then none
  else some ((List.range kind.size).map fun i => m.read (a + i))

/-! ### The port (R2) -/

/-- Ask for a record access: it takes its turn after those asked before it. -/
def State.ask (s : State) (a : Access) : State := s.onPort fun p => { p with queue := p.queue ++ [a] }

/-- Ask for the read of a record. -/
def State.askRead (s : State) (kind : TableKind) (index : Nat) (owner : Owner) : State :=
  s.ask { kind, index, write := none, owner }

/-- Ask for the write of bytes at an offset of a record. -/
def State.askWrite (s : State) (kind : TableKind) (index offset : Nat) (bytes : List Byte)
    (owner : Owner) : State :=
  s.ask { kind, index, write := some (offset, bytes), owner }

/-- Give up the accesses of a requester: the one in progress completes and its data is not used (R2, R106). R106 says
nothing of those that wait their turn at the port: that they are withdrawn is the model's choice (log 55, log 57). -/
def Port.give (p : Port) (gone : Owner → Bool) : Port :=
  match p.queue with
  | [] => p
  | a :: rest =>
    { queue := (if gone a.owner then { a with owner := .dropped } else a)
        :: rest.filter fun x => !gone x.owner }

/-! ### The trunk transmit queue (R167, R172, R173) -/

/-- Whether an access owes its command a reply (R5, R11, R21). -/
def Owner.owesReply : Owner → Bool
  | .load _ _ last => last
  | .leads _ last => last
  | .readTable _ => true
  | _ => false

/-- The replies still to come of commands already taken: each holds its place in the queue (log 10). -/
def State.repliesOwed (s : State) : Nat :=
  (s.port.queue.filter fun a => a.owner.owesReply).length + s.cache.invalidates.length

/-- Whether the trunk transmit queue has no room (R167, log 10). -/
def State.trunkFull (s : State) : Bool := 8 ≤ s.trunk.queue.length + s.repliesOwed

/-- Place a frame at the tail of the trunk transmit queue. -/
def State.trunkPut (s : State) (e : TrunkEntry) : State :=
  s.onTrunk fun t => { t with queue := t.queue ++ [e] }

/-- The result codes of R172. -/
inductive Result where
  | ok | clamped | busy | notReady | badState | badArg | ringOwned | hvLive | badTag | headDown
  | defectsPending | halted | tableError | unknown
  deriving DecidableEq, Repr

/-- The code of a result (R172). -/
def Result.code : Result → Byte
  | .ok => 0x00 | .clamped => 0x01 | .busy => 0x02 | .notReady => 0x03 | .badState => 0x04
  | .badArg => 0x05 | .ringOwned => 0x06 | .hvLive => 0x07 | .badTag => 0x08 | .headDown => 0x09
  | .defectsPending => 0x0A | .halted => 0x0B | .tableError => 0x0C | .unknown => 0x0D

/-- The reply frame of a command: DST 0, SRC 1, the command's TAG, and the command code, the result code
and the data (R172). -/
def replyFrame (tag code : Byte) (r : Result) (data : List Byte) : Frame :=
  { dst := 0, src := 1, cls := clsRpl, tag, payload := code :: r.code :: data }

/-- Answer a command (R172). -/
def State.reply (s : State) (tag code : Byte) (r : Result) (data : List Byte := []) : State :=
  s.trunkPut { frame := replyFrame tag code r data, kind := .reply }

/-- Copy a ring frame up the trunk, or discard it where the queue is full (R169). -/
def State.copyUp (s : State) (f : Frame) : State :=
  if s.trunkFull then s else s.trunkPut { frame := f, kind := .copy }

/-- The notice that carries an event set (R173). -/
def noticeEntry (set : BitVec 12) : TrunkEntry :=
  { frame := { dst := 0, src := 1, cls := clsNtc, tag := 0, payload := eventSetBytes set }
    kind := .notice }

/-- The event set a notice carries. -/
def TrunkEntry.events (e : TrunkEntry) : BitVec 12 := BitVec.ofNat 12 (wordAt e.frame.payload 0)

/-- The frames already begun, and those not yet begun (R173). -/
def Trunk.sent (t : Trunk) : List TrunkEntry := if t.begun then t.queue.take 1 else []
def Trunk.unsent (t : Trunk) : List TrunkEntry := if t.begun then t.queue.drop 1 else t.queue

/-- A notice is due: it is placed, refreshed or held (R173). -/
def State.noticeDue (s : State) : State :=
  let set := s.events.pending
  let sent := s.trunk.sent
  let rest := s.trunk.unsent
  match rest.find? fun e => e.kind = .notice with
  | some old =>
    if isHigh set && !isHigh old.events then
      s.onTrunk fun t =>
        { t with queue := sent ++ noticeEntry set :: rest.filter fun e => e.kind ≠ .notice }
    else
      s.onTrunk fun t =>
        { t with queue := sent ++ rest.map fun e => if e.kind = .notice then noticeEntry set else e }
  | none =>
    if s.trunkFull then s.onTrunk fun t => { t with held := true }
    else if isHigh set then
      s.onTrunk fun t => { t with queue := sent ++ noticeEntry set :: rest, held := false }
    else s.onTrunk fun t => { t with queue := sent ++ rest ++ [noticeEntry set], held := false }

/-- Raise an event: its pending flag is set, and a notice becomes due where the flag was clear and the
event is unmasked (R175). -/
def State.raise (s : State) (e : Event) : State :=
  if s.events.isPending e then s
  else
    let s1 := s.onEvents fun u => { u with pending := u.pending ||| e.bit }
    if s.events.isMasked e then s1 else s1.noticeDue

/-! ### The module table (R12, R65) -/

/-- The place of a node's entry: modules 1..64, then the head. -/
def nodeIndex (address : Nat) : Option Nat :=
  if 1 ≤ address && address ≤ 64 then some (address - 1)
  else if address = headAddress then some 64 else none

/-- The supervision entry of an address, if it has one. -/
def State.node? (s : State) (address : Nat) : Option Node :=
  (nodeIndex address).bind fun i => s.sup.nodes[i]?

/-- The channel count of an address, 0 where it has none. -/
def State.channels (s : State) (address : Nat) : Nat := ((s.node? address).map (·.channels)).getD 0

/-- Whether an address is a configured node (R65): the head always is. -/
def State.configured (s : State) (address : Nat) : Bool :=
  address = headAddress || (1 ≤ address && address ≤ 64 && s.channels address ≠ 0)

/-- Whether a node is Alive. -/
def State.alive (s : State) (address : Nat) : Bool := ((s.node? address).map (·.alive)).getD false

/-- The configured modules, in ascending address order (R51, R67). -/
def State.modules (s : State) : List Nat :=
  (List.range' 1 64).filter fun a => s.channels a ≠ 0

/-- Change the entry of a configured node; an address that is not configured keeps its entry (R65). -/
def State.onNode (s : State) (address : Nat) (f : Node → Node) : State :=
  if s.configured address then
    match nodeIndex address with
    | some i => s.onSup fun u => { u with nodes := u.nodes.modify i f }
    | none => s
  else s

/-- A valid frame has come from a node (R69). -/
def State.heardFrom (s : State) (address : Nat) : State :=
  s.onNode address fun n => { n with heard := true }

/-- A fault is recorded against a node (R70). -/
def State.faultAgainst (s : State) (address : Nat) : State :=
  s.onNode address fun n => { n with fault := true }

/-- What the Switch Sequencer believes of a module's relays; `none` is UNKNOWN (R48). -/
def State.believed (s : State) (module : Nat) : Option Masks :=
  if 1 ≤ module then (s.seq.believed[module - 1]?).join else none

/-- Set the believed state of a module. -/
def State.believe (s : State) (module : Nat) (m : Option Masks) : State :=
  if 1 ≤ module then s.onSeq fun q => { q with believed := q.believed.set (module - 1) m } else s

/-! ### The ring transmit queue and the wait list (R67, R171) -/

/-- A frame of the chip before it has a tag. -/
def ownFrame (dst : Nat) (cls : Byte) (payload : List Byte) : Frame :=
  { dst := byte dst, src := 0, cls, tag := 0, payload }

/-- What the owner of a frame does when it is placed with its tag: a transaction is QUEUED (R53), a HOME
has its tag (R61), a POL leaves the poll list (R67), an MSR has its tag (R78), an HVC frame of the open
stream shifts the tags unless it is the closing IDLE (R82). -/
def State.placedAct (s : State) (owner : RingOwner) (tag : Nat) : State :=
  match owner with
  | .switch m =>
    s.onSeq fun q =>
      { q with transactions := q.transactions.map fun t =>
          if t.module = m && t.phase = .waiting then { t with phase := .queued, tag := some tag } else t }
  | .home => s.onSeq fun q => { q with home := { q.home with tag := some tag } }
  | .poll a => s.onSup fun u => { u with pollList := u.pollList.erase a }
  | .msr => s.onMc fun m => { m with curTag := some tag }
  | .hvc n closing =>
    if s.mc.state = .stream && s.mc.stream = n && !closing then
      s.onMc fun m => { m with prevTag := m.curTag, curTag := some tag }
    else s
  | .passThrough => s

/-- Place an own frame in the ring transmit queue: it takes the own-tag counter's value as its TAG and
the counter advances, from 127 to 0 (R171). -/
def State.placeOwn (s : State) (e : RingEntry) : State :=
  let tag := s.ring.ownTag
  let s1 := s.onRing fun r =>
    { r with queue := r.queue ++ [{ e with frame := { e.frame with tag := byte tag } }]
             ownTag := (tag + 1) % 128 }
  s1.placedAct e.owner tag

/-- Whether a frame is a POL of the chip. -/
def RingEntry.isPoll (e : RingEntry) : Bool :=
  match e.owner with
  | .poll _ => true
  | _ => false

/-- Hand over the POL of the first address of the poll list, unless one still waits (R67). -/
def State.offerPoll (s : State) : State :=
  match s.sup.pollList with
  | [] => s
  | a :: _ =>
    if s.ring.wait.any RingEntry.isPoll then s
    else s.onRing fun r =>
      { r with wait := r.wait ++ [{ frame := ownFrame a clsPol [], owner := .poll a }] }

/-- Place the frames of the wait list, oldest first, while the queue has room (R171); the first argument
bounds the number of frames and need not exceed nine. -/
def State.fillQueue : Nat → State → State
  | 0, s => s
  | fuel + 1, s =>
    let s1 := s.offerPoll
    if 8 ≤ s1.ring.queue.length then s1
    else
      match s1.ring.wait with
      | [] => s1
      | e :: rest => fillQueue fuel ((s1.onRing fun r => { r with wait := rest }).placeOwn e)

/-- Place what can be placed. -/
def State.pump (s : State) : State := s.fillQueue 9

/-- Hand an own frame to the Ring Interface: it is placed, or it joins the wait list (R171). -/
def State.handOver (s : State) (e : RingEntry) : State :=
  (s.onRing fun r => { r with wait := r.wait ++ [e] }).pump

/-- Remove frames from the queue and the wait list; the others keep their order, and waiting frames take
the room (R54, R59, R83, R171). -/
def State.withdraw (s : State) (gone : RingEntry → Bool) : State :=
  (s.onRing fun r =>
    { r with queue := r.queue.filter fun e => !gone e, wait := r.wait.filter fun e => !gone e }).pump

/-! ### Small reads used by many blocks -/

/-- Whether a run is active (2.1 of chapter 02). -/
def Run.active (r : Run) : Bool :=
  r.state = .running || r.state = .paused || r.state = .stalled || r.state = .aborting

/-- Whether the ring is owned: a run is active or SAFE-HALT is set (2.2 of the scope chapter). -/
def State.ringOwned (s : State) : Bool := s.run.active || s.fault.safeHalt

/-- A bound of the dimensions record, 0 while it is absent. -/
def State.bound (s : State) (kind : TableKind) : Nat :=
  (s.tables.dims.map fun d => d.bound kind).getD 0

/-- The net in the hands of the Sweep Engine or the HV Controller, for a fault record (R177). -/
def State.currentNet (s : State) : Option Nat := s.sweep.netCursor <|> s.hv.net

end Sys2Proof.Machine
end

