-- ==== Sys2Proof/Machine/Arithmetic.lean ====
section
/-! DEFINITION. The computations of the Arithmetic Unit (chapter 05): exact in integers until their final
saturation or clamp (R84). -/

namespace Sys2Proof.Machine

/-! ### Low-voltage resistance (R85, R86) -/

/-- The pA of one code of a range, 0 where the range has none. -/
def Calibration.ilsbOf (c : Calibration) (range : Nat) : Nat := c.ilsb.getD range 0

/-- A sample whose range code is above 7 is treated as carrying OVL (R84). -/
def Sample.overload (x : Sample) : Bool := x.ovl || 7 < x.range

/-- The raw resistance of an MSR sample, in mΩ (R85). -/
def rawResistance (c : Calibration) (x : Sample) : Nat :=
  let v : Int := x.vcode.toInt * c.vlsbLv
  let i : Int := x.icode.toInt * c.ilsbOf x.range
  if x.overload || x.cmp || i ≤ 0 then rmax
  else if v ≤ 0 then 0
  else min rmax (v.toNat * 1000000000 / i.toNat)

/-- The compensated resistance: the leads are subtracted and a difference below 0 is clamped to 0; RMAX
stays RMAX (R86). -/
def compensate (raw leads : Nat) : Nat := if raw = rmax then rmax else raw - leads

/-- The new lead of a calibrated point, clamped to 0..65535 mΩ (R104). -/
def calibratedLead (raw reference : Nat) : Nat := min 65535 (raw - reference)

/-! ### Classification (R87, R88) -/

/-- The classes of a continuity result. -/
inductive ContClass where
  | pass | highR | opn
  deriving DecidableEq, Repr

/-- The class of a compensated resistance under a continuity set (R87). -/
def classify (c : ContSet) (r : Nat) : ContClass :=
  if r ≤ c.good then .pass else if r ≤ c.opn then .highR else .opn

/-- Whether a group measurement is low (R88). -/
def groupIsLow (l : IsoLimits) (raw : Nat) : Bool := raw < l.limit

/-- Whether a correlation result is a match (R88). -/
def isMatch (c : ContSet) (r : Nat) : Bool := r ≤ c.good

/-! ### Insulation (R89 to R92) -/

/-- The converted sample (R89). -/
def convert (c : Calibration) (x : Sample) : Conv :=
  { vh := x.vcode.toInt * c.vlsbHv, ih := x.icode.toInt * c.ilsbOf x.range, range := x.range
    ovl := x.overload, cmp := x.cmp, hv := x.hv, seq := x.seq }

/-- Step 3 of R90: the insulation resistance of an average, in MΩ. -/
def insulationResistance (vAvg iAvg : Int) : Nat :=
  if iAvg ≤ 0 then rmax
  else if vAvg ≤ 0 then 0
  else min rmax (vAvg.toNat * 1000 / iAvg.toNat)

/-- The outcomes of R90. -/
inductive Evaluation where
  | untested | leakLow (ir : Nat) | leak (ir : Nat) | pass
  deriving DecidableEq, Repr

/-- The evaluation of a net at dwell end, over the most recent samples of the window (R90). The floors
round toward minus infinity. -/
def evaluate (cls : InsulClass) (window : List Conv) : Evaluation :=
  let n := min cls.averaging window.length
  let used := window.drop (window.length - n)
  if n = 0 then .untested
  else
    let vAvg := Int.fdiv (used.map (·.vh)).sum n
    let iAvg := Int.fdiv (used.map (·.ih)).sum n
    let ir := insulationResistance vAvg iAvg
    if vAvg < (cls.volt * 900 : Nat) then .leakLow ir
    else if ir < cls.irLimit then .leak ir
    else .pass

/-- The one-sample evaluation at ramp expiry (R91). -/
def evaluateLast (window : List Conv) : Option Nat :=
  window.getLast?.map fun c => insulationResistance c.vh c.ih

/-- The arc test of one converted sample: the value of the ARC, or nothing where it is clean (R92). -/
def arcTest (arcStep : Nat) (predecessor : Option Int) (c : Conv) : Option Nat :=
  if c.ovl then some rmax
  else
    match predecessor with
    | none => none
    | some p =>
      if arcStep ≠ 0 && (arcStep : Int) < c.ih - p then some (min rmax (c.ih - p).toNat) else none

/-- Whether a converted sample is a safe sample under a safe level in V (R133). -/
def isSafeSample (safeLevel : Nat) (c : Conv) : Bool := !c.ovl && c.vh.natAbs ≤ safeLevel * 1000

/-- The length of the ramp timer, in ms (R128). -/
def rampTime (c : InsulClass) : Nat := 2 * (c.volt * 1000 / c.ramp) + 100

/-! ### Printable values (R93) -/

/-- Characters as bytes. -/
def ascii (cs : List Char) : List Byte := cs.map fun c => byte c.toNat

/-- A number as `width` decimal digits with leading zeros. -/
def digits (width n : Nat) : List Byte :=
  (List.range width).reverse.map fun i => byte (48 + n / 10 ^ i % 10)

/-- A number of at most ten digits without leading zeros. -/
def decimal (n : Nat) : List Byte :=
  match (digits 10 n).dropWhile fun b => b = 48 with
  | [] => [48]
  | ds => ds

/-- The units of values (R93, R142). -/
inductive ValueUnit where
  | milliohm | megohm | picoamp | count | moduleAddress
  deriving DecidableEq, Repr

/-- The unit a kind gives its value (R142). -/
def DefectKind.unit : DefectKind → ValueUnit
  | .opn | .highR | .short | .miswire | .calFail => .milliohm
  | .shortOverflow => .count
  | .leak => .megohm
  | .arc => .picoamp
  | .untested | .switchFault => .moduleAddress

/-- The text of a value (R93). -/
def valueText (u : ValueUnit) (v : Nat) : List Byte :=
  match u with
  | .milliohm =>
    if v = rmax then ascii ['O', 'P', 'E', 'N']
    else decimal (v / 1000) ++ ascii ['.'] ++ digits 3 (v % 1000) ++ ascii ['R']
  | .megohm => if v = rmax then ascii ['O', 'V', 'E', 'R'] else decimal v ++ ascii ['M']
  | .picoamp => decimal v ++ ascii ['P', 'A']
  | .count => decimal v
  | .moduleAddress => ascii ['M'] ++ digits 2 v

end Sys2Proof.Machine
end

