-- ==== Sys2Proof/Machine/Defects.lean ====
section
/-! DEFINITION. The Defect List (chapter 09): merging, appending, rewriting, marking and removal, as changes of
the list alone. -/

namespace Sys2Proof.Machine

/-- The record with a key, if it is in the list (R141, R146). -/
def findKey (ds : List Defect) (k : DefectKey) : Option Defect := ds.find? fun d => d.key = k

/-- Change the record with a key. -/
def changeKey (ds : List Defect) (k : DefectKey) (f : Defect → Defect) : List Defect :=
  ds.map fun d => if d.key = k then f d else d

/-- Change the record with a sequence number. -/
def changeSeq (ds : List Defect) (n : Nat) (f : Defect → Defect) : List Defect :=
  ds.map fun d => if d.seq = n then f d else d

/-- One more insert for a record, saturating at 255 (R141, R145). -/
def Defect.again (d : Defect) : Defect := { d with rep := min 255 (d.rep + 1) }

/-- A merge (R145). -/
def Defect.merge (d : Defect) (r : Insert) (step : Nat) : Defect :=
  { d.again with value := r.value, lowv := r.lowv, step }

/-- The record an append makes (R144). -/
def Defect.ofInsert (r : Insert) (seq step : Nat) (correlate : Bool) : Defect :=
  { seq, key := r.key, value := r.value, step, rep := 1
    provisional := (r.key.kind = .opn || r.key.kind = .short) && correlate
    explained := false, lowv := r.lowv, printed := false, retired := false }

/-- Whether a record is RETIRED and PRINTED, or RETIRED with printing OFF, so that it leaves (R150). -/
def Defect.leaves (d : Defect) (printingOff : Bool) : Bool := d.retired && (d.printed || printingOff)

/-- Remove the record with a sequence number. -/
def removeSeq (ds : List Defect) (n : Nat) : List Defect := ds.filter fun d => d.seq ≠ n

/-- Set RETIRED on a record; a PROVISIONAL record is passed over (R149). -/
def setRetired (ds : List Defect) (n : Nat) : List Defect :=
  changeSeq ds n fun d => if d.provisional then d else { d with retired := true }

/-- Set PRINTED on a record; it is refused for a PROVISIONAL record (R150). -/
def setPrinted (ds : List Defect) (n : Nat) : List Defect :=
  changeSeq ds n fun d => if d.provisional then d else { d with printed := true }

/-- Whether the record with a sequence number now leaves (R150). -/
def seqLeaves (ds : List Defect) (n : Nat) (printingOff : Bool) : Bool :=
  ds.any fun d => d.seq = n && d.leaves printingOff

/-- The rewrite of an OPEN record as a MISWIRE, in place or merged into a MISWIRE of an earlier ISO step,
which then absorbs the OPEN record (R146). -/
def rewrite (ds : List Defect) (own point other value step : Nat) : List Defect :=
  let openKey : DefectKey := { kind := .opn, netA := own, point := some point, netB := none }
  let newKey : DefectKey := { kind := .miswire, netA := own, point := some point, netB := some other }
  match findKey ds openKey with
  | none => ds
  | some d =>
    match findKey ds newKey with
    | none => changeKey ds openKey fun d => { d with key := newKey, value := some value, step }
    | some _ =>
      (changeKey ds newKey fun d => { d.again with value := some value, step }).filter fun x =>
        x.seq ≠ d.seq

/-- The key of the SHORT between two nets. -/
def shortKey (k other : Nat) : DefectKey :=
  { kind := .short, netA := k, point := none, netB := some other }

/-- The EXPLAINED marking of a SHORT (R146). -/
def explain (ds : List Defect) (k other : Nat) : List Defect :=
  changeKey ds (shortKey k other) fun d => { d with explained := true }

/-- Finalisation: every PROVISIONAL record has the flag cleared (R147). -/
def finalise (ds : List Defect) : List Defect := ds.map fun d => { d with provisional := false }

/-- Whether a record is final and not PRINTED (R150). -/
def Defect.printable (d : Defect) : Bool := !d.provisional && !d.printed

/-- The sequence numbers that RETIRE DEFECTS up to a number takes, in list order (R149). -/
def retirable (ds : List Defect) (upTo : Nat) : List Nat :=
  (ds.filter fun d => d.seq ≤ upTo && !d.provisional && !d.retired).map (·.seq)

end Sys2Proof.Machine
end

