-- ==== Sys2Proof/Machine/Print.lean ====
section
/-! DEFINITION. The Print Engine (chapter 10): the choice of the next line, its formatting, and the start of a
character. What follows the end of a line is in Printer.lean, since a removal may let a run go on. -/

namespace Sys2Proof.Machine

/-! ### Buffers -/

/-- One of the two buffers; `true` names buffer 1. -/
def Print.buffer (p : Print) (second : Bool) : Buffer := if second then p.buf1 else p.buf0

/-- Change one of the two buffers. -/
def Print.onBuffer (p : Print) (second : Bool) (f : Buffer → Buffer) : Print :=
  if second then { p with buf1 := f p.buf1 } else { p with buf0 := f p.buf0 }

/-- The first buffer in a state, if any. -/
def Print.bufferIn (p : Print) (st : BufState) : Option Bool :=
  if p.buf0.state = st then some false else if p.buf1.state = st then some true else none

/-- Whether a buffer holds the line of a record (R154). -/
def Buffer.isRecord (b : Buffer) : Bool :=
  match b.content with
  | some (.record _) => true
  | _ => false

/-! ### The text of a line (R156 to R158) -/

/-- CR and LF. -/
def crlf : List Byte := [0x0D, 0x0A]

/-- A run of spaces. -/
def spaces (n : Nat) : List Byte := List.replicate n 0x20

/-- Text at the left of a field. -/
def padRight (n : Nat) (t : List Byte) : List Byte := t ++ spaces (n - t.length)

/-- Text at the right of a field. -/
def padLeft (n : Nat) (t : List Byte) : List Byte := spaces (n - t.length) ++ t

/-- The print name of a kind (R156). -/
def DefectKind.printName : DefectKind → List Char
  | .opn => ['O', 'P', 'E', 'N']
  | .highR => ['H', 'I', 'G', 'H', '-', 'R']
  | .short => ['S', 'H', 'O', 'R', 'T']
  | .shortOverflow => ['O', 'V', 'E', 'R', 'F', 'L', 'O', 'W']
  | .miswire => ['M', 'I', 'S', 'W', 'I', 'R', 'E']
  | .leak => ['L', 'E', 'A', 'K']
  | .arc => ['A', 'R', 'C']
  | .untested => ['U', 'N', 'T', 'E', 'S', 'T', 'E', 'D']
  | .switchFault => ['S', 'W', 'F', 'A', 'U', 'L', 'T']
  | .calFail => ['C', 'A', 'L', 'F', 'A', 'I', 'L']

/-- The index form of a net (R157). -/
def indexForm (net : Nat) : List Byte := ascii ['N'] ++ digits 4 net ++ spaces 11

/-- A stored character as printed (R157). -/
def printable (b : Byte) : Byte := if 0x20 ≤ b.toNat && b.toNat ≤ 0x7E then b else 0x3F

/-- The line of a record (R156). -/
def recordLine (d : Defect) (nameA nameB value : List Byte) : List Byte :=
  digits 5 d.seq ++ spaces 1 ++ padRight 8 (ascii d.key.kind.printName) ++ spaces 1 ++ nameA
    ++ spaces 1
    ++ (match d.key.point with | some p => ascii ['P'] ++ digits 4 p | none => spaces 5)
    ++ spaces 1 ++ (if d.key.netB.isSome then nameB else spaces 16)
    ++ spaces 1 ++ padLeft 14 value ++ spaces 1
    ++ (if d.lowv then ascii ['L'] else spaces 1) ++ crlf

/-- The header line (R158). -/
def headerLine (step : Nat) : List Byte :=
  ascii ['R', 'U', 'N', ' ', 'S', 'T', 'A', 'R', 'T', ' ', 'S', 'T', 'E', 'P', ' '] ++ digits 4 step
    ++ crlf

/-- The name of a termination code (R44). -/
def Termination.printName : Termination → List Char
  | .complete => ['C', 'O', 'M', 'P', 'L', 'E', 'T', 'E']
  | .completeDefects =>
    ['C', 'O', 'M', 'P', 'L', 'E', 'T', 'E', '-', 'D', 'E', 'F', 'E', 'C', 'T', 'S']
  | .stopped => ['S', 'T', 'O', 'P', 'P', 'E', 'D']
  | .defectLimit => ['D', 'E', 'F', 'E', 'C', 'T', '-', 'L', 'I', 'M', 'I', 'T']
  | .aborted => ['A', 'B', 'O', 'R', 'T', 'E', 'D']
  | .hvAbort => ['H', 'V', '-', 'A', 'B', 'O', 'R', 'T']
  | .fault => ['F', 'A', 'U', 'L', 'T']

/-- The line of the summary block with so many lines left, this one included (R158). -/
def summaryLine (r : Termination × Nat × Nat) (left : Nat) : List Byte :=
  match left % 4 with
  | 0 => ascii ['R', 'E', 'S', 'U', 'L', 'T', ' '] ++ ascii r.1.printName ++ crlf
  | 3 => ascii ['D', 'E', 'F', 'E', 'C', 'T', 'S', ' '] ++ decimal r.2.1 ++ crlf
  | 2 => ascii ['S', 'T', 'E', 'P', 'S', ' '] ++ decimal r.2.2 ++ crlf
  | _ => crlf

/-! ### Sending a character (R159, R160) -/

/-- The frame of a character: one start bit (low), eight data bits with the least significant first, and one stop bit
(high) (R159). -/
def frameBits (b : Byte) : List Bool := false :: (List.range 8).map b.getLsbD ++ [true]

/-- The character at the send position of the SENDING buffer. -/
def Print.nextByte (p : Print) : Byte :=
  match p.bufferIn .sending with
  | some second => (p.buffer second).text.getD p.sendPos 0
  | none => 0

/-- The levels that PRN_TX goes through: the frame of the character being shifted out, and high at rest (R152,
R159). -/
def Print.tx (p : Print) : List Bool :=
  match p.char with
  | some c => c.bits
  | none => [true]

/-- A character is ready to begin: it begins at the rate then held, or it waits on PRN_BUSY and the BUSY
timer starts (R159, R160). -/
def State.beginChar (s : State) : State :=
  if s.pins.prnBusy then
    s.onPrint fun p => { p with busyTimer := some s.limits.timing.busy, char := none }
  else
    s.onPrint fun p =>
      { p with busyTimer := none, char := some { rate := s.limits.timing.rate, bits := frameBits p.nextByte } }

/-- A READY line begins to be sent (R159). -/
def State.startSending (s : State) (second : Bool) : State :=
  (s.onPrint fun p =>
    { p.onBuffer second (fun b => { b with state := .sending }) with
      state := .send, sendPos := 0 }).beginChar

/-- A line is complete in its buffer: it is READY, or begins to be sent where no line is sending and
printing goes on (R153, R155, R162). -/
def State.lineComplete (s : State) (second : Bool) (text : List Byte) : State :=
  let s1 := s.onPrint fun p => p.onBuffer second fun b => { b with state := .ready, text }
  if s1.print.state = .format || s1.print.state = .idle then s1.startSending second else s1

/-! ### Formatting (R155, R157, R158) -/

/-- A line begins formatting in a buffer, with the text that it has by then (R153, R154). -/
def State.startLine (s : State) (second : Bool) (c : LineContent) (text : List Byte) : State :=
  s.onPrint fun p =>
    { p.onBuffer second (fun _ => { state := .formatting, content := some c, text }) with
      state := if p.state = .idle then .format else p.state }

/-- A format operation is asked of the Arithmetic Unit (R84, R155). It is also what completes a line that has no request
of R155 to make, in an event of its own (log 17). -/
def State.askFormat (s : State) : State :=
  s.onArith fun a => { a with waiting := a.waiting ++ [.format] }

/-- The record line is complete (R155). -/
def State.recordComplete (s : State) (value : List Byte) : State :=
  match s.print.fmt with
  | none => s
  | some w =>
    (s.onPrint fun p => { p with fmt := none }).lineComplete w.second
      (recordLine w.defect w.nameA w.nameB value)

/-- The value of the record line: asked of the Arithmetic Unit, where the record has one (R155). A line without a value is
complete with the last of its reads; one without any read is no exception to R153, by which it rests in FORMAT (log 17). -/
def State.formatValue (s : State) : State :=
  match s.print.fmt with
  | none => s
  | some w =>
    if w.defect.value.isSome || w.stage = .begun then
      (s.onPrint fun p => { p with fmt := some { w with stage := .value } }).askFormat
    else s.recordComplete []

/-- Whether a net's record can be read for its name (R157). That this is judged with the dimensions held as the read is
asked for, so that a LOAD DIMENSIONS while the read waits is not seen by it, is the model's choice (log 60). -/
def State.netReadable (s : State) (net : Nat) : Bool := net < s.bound .nets

/-- Net B of the record line: its net record is read, or it prints in its index form (R155, R157). -/
def State.formatNetB (s : State) : State :=
  match s.print.fmt with
  | none => s
  | some w =>
    match w.defect.key.netB with
    | none => s.formatValue
    | some n =>
      if s.netReadable n then
        (s.onPrint fun p => { p with fmt := some { w with stage := .netB } }).askRead .nets n .print
      else (s.onPrint fun p => { p with fmt := some { w with nameB := indexForm n } }).formatValue

/-- Net A of the record line (R155, R157). -/
def State.formatNetA (s : State) : State :=
  match s.print.fmt with
  | none => s
  | some w =>
    let n := w.defect.key.netA
    if s.netReadable n then
      (s.onPrint fun p => { p with fmt := some { w with stage := .netA } }).askRead .nets n .print
    else (s.onPrint fun p => { p with fmt := some { w with nameA := indexForm n } }).formatNetB

/-- The name of net A or net B is known, and the formatting goes on (R155). -/
def State.nameKnown (s : State) (w : FmtWork) (name : List Byte) : State :=
  match w.stage with
  | .netA | .nameA =>
    (s.onPrint fun p => { p with fmt := some { w with nameA := name } }).formatNetB
  | _ => (s.onPrint fun p => { p with fmt := some { w with nameB := name } }).formatValue

/-- The net whose name a stage is about. -/
def FmtWork.net (w : FmtWork) : Nat :=
  match w.stage with
  | .netA | .nameA => w.defect.key.netA
  | _ => w.defect.key.netB.getD 0

/-- A read of the Print Engine completes: a net record leads to the read of its name, a name is placed,
and a parity failure or an unusable index gives the index form (R3, R157). That the name index is judged with the name count
held as the net record arrives, and that a name which arrives is used without another test, is the model's choice
(log 60). -/
def State.printRead (s : State) (bytes : Option (List Byte)) : State :=
  match s.print.fmt with
  | none => s
  | some w =>
    match bytes with
    | none => s.nameKnown w (indexForm w.net)
    | some bs =>
      match w.stage with
      | .nameA | .nameB => s.nameKnown w (bs.map printable)
      | _ =>
        match (decodeNet bs).name with
        | none => s.nameKnown w (indexForm w.net)
        | some i =>
          if i < s.bound .names then
            (s.onPrint fun p =>
              { p with fmt := some { w with stage := if w.stage = .netA then .nameA else .nameB } }).askRead
              .names i .print
          else s.nameKnown w (indexForm w.net)

/-! ### Choosing the next line (R154) -/

/-- The record whose line is in a buffer. -/
def Buffer.recordSeq (b : Buffer) : Option Nat :=
  match b.content with
  | some (.record n) => some n
  | _ => none

/-- The next summary line begins formatting, its text taken from the summary record (R158). That it is "formatted" then, so
that summary lines left falls as the line begins, and summary due clears as the last one does, is the model's choice
(log 17). -/
def State.startSummaryLine (s : State) (second : Bool) : State :=
  let text := match s.print.summary with
    | some r => summaryLine r s.print.summaryLeft
    | none => crlf
  ((s.onPrint fun p =>
      { p with summaryLeft := p.summaryLeft - 1, summaryDue := 1 < p.summaryLeft }).startLine second
    .summary text).askFormat

/-- The pending header line begins formatting (R158). That it is "formatted" then, so that the header pending becomes none
as the line begins and not as it is complete, is the model's choice (log 17). -/
def State.startHeaderLine (s : State) (second : Bool) (step : Nat) : State :=
  ((s.onPrint fun p => { p with header := none }).startLine second .header (headerLine step)).askFormat

/-- A record is selected and its line begins formatting (R155). -/
def State.startRecordLine (s : State) (second : Bool) (d : Defect) : State :=
  ((s.startLine second (.record d.seq) []).onPrint fun p =>
    { p with fmt := some { second, defect := d, stage := .begun, nameA := [], nameB := [] } }).formatNetA

/-- An EXPLAINED SHORT is passed over: PRINTED is set without a line, and it leaves where it is RETIRED
(R150, R154). No pending record can wait then: a SHORT is EXPLAINED and final only when no run is active. -/
def State.passOver (s : State) (d : Defect) : State :=
  s.onDefects fun ds =>
    let marked := setPrinted ds d.seq
    if seqLeaves marked d.seq (s.print.state = .off) then removeSeq marked d.seq else marked

/-- A line begins formatting, unless one is FORMATTING: at most one buffer is at any time (R152). -/
def State.beginLine (s : State) (start : State → State) : State :=
  if (s.print.bufferIn .formatting).isSome then s else start s

/-- The Print Engine looks for work (R154), wherever a buffer is EMPTY in IDLE, FORMAT or SEND. While the other buffer is
FORMATTING no line can begin (R152), and the look passes over an EXPLAINED SHORT all the same. It looks again at once only
where it passes over one. The first argument bounds the number of looks. -/
def State.look : Nat → State → State
  | 0, s => s
  | fuel + 1, s =>
    let p := s.print
    if !(p.state = .idle || p.state = .format || p.state = .send) then s
    else
      match p.bufferIn .empty with
      | none => s
      | some second =>
        if p.summaryDue && !(s.defects.any Defect.printable) && !p.buf0.isRecord && !p.buf1.isRecord then
          s.beginLine fun s => s.startSummaryLine second
        else
          match p.header with
          | some step => s.beginLine fun s => s.startHeaderLine second step
          | none =>
            let inOther := (p.buffer !second).recordSeq
            match s.defects.find? fun d => d.printable && inOther ≠ some d.seq with
            | none => s
            | some d =>
              if d.explained && d.key.kind = .short then look fuel (s.passOver d)
              else s.beginLine fun s => s.startRecordLine second d

/-- The look for work of one event, with the looks that follow at once on a pass-over: each but the last passes over a
record of the list. -/
def State.printLook (s : State) : State := s.look (s.defects.length + 1)

/-- START RUN hands over the first step and the copies count (R158). -/
def State.printRunStarts (s : State) (first copies : Nat) : State :=
  let s1 := s.onPrint fun p =>
    { p with copies, header := if p.state = .off then p.header else some first }
  if s.print.state = .off then s1 else s1.printLook

/-- The run has ended: the summary record is taken and the summary block becomes due (R45, R158). -/
def State.printRunEnds (s : State) (t : Termination) : State :=
  let s1 :=
    if s.print.state ≠ .off && s.print.copies ≠ 0 then
      s.onPrint fun p =>
        { p with summary := some (t, s.run.summary.defects, s.run.summary.stepsRun)
                 summaryDue := true, summaryLeft := 4 * p.copies }
    else s
  s1.printLook

end Sys2Proof.Machine
end

