-- ==== Sys2Proof/Machine/Cache.lean ====
section
/-! DEFINITION. The Point Translation Cache (R19, R20, R22). -/

namespace Sys2Proof.Machine

/-- The number of the valid entry that holds a point. -/
def Cache.find (c : Cache) (point : Nat) : Option Nat :=
  c.entries.findIdx? fun e => e.valid && e.tag = point

/-- A hit on an entry: the pointer advances where it names that entry (R19). -/
def Cache.hit (c : Cache) (i : Nat) : Cache :=
  if c.pointer = i then { c with pointer := (c.pointer + 1) % 32 } else c

/-- A lookup of a point: a hit returns the entry's copy; a miss asks for a fill; a lookup that comes while
another is served waits (R19). -/
def State.lookup (s : State) (point : Nat) (who : LookupFor) : State × Option PointRec :=
  if s.cache.fill.isSome then
    (s.onCache fun c => { c with waiting := c.waiting ++ [(point, who)] }, none)
  else
    match s.cache.find point with
    | some i => (s.onCache fun c => c.hit i, (s.cache.entries[i]?).map (·.copy))
    | none => ((s.askRead .points point .fill).onCache fun c => { c with fill := some (point, who) }, none)

/-- A fill that succeeded: the entry the pointer names holds the point, and the pointer advances (R19). -/
def Cache.filled (c : Cache) (point : Nat) (r : PointRec) : Cache :=
  { c with entries := c.entries.set c.pointer { valid := true, tag := point, copy := r }
           pointer := (c.pointer + 1) % 32 }

/-- The number of valid entries of a point, or of all entries (R20). -/
def Cache.count (c : Cache) (point : Option Nat) : Nat :=
  (c.entries.filter fun e => e.valid && (match point with | none => true | some p => e.tag = p)).length

/-- Clear the valid flag of the entries of a point, or of all entries (R20). -/
def Cache.invalidate (c : Cache) (point : Option Nat) : Cache :=
  { c with entries := c.entries.map fun e =>
      match point with
      | none => { e with valid := false }
      | some p => if e.valid && e.tag = p then { e with valid := false } else e }

/-- Write a lead through into the valid entry of a point, if there is one (R22, R105). -/
def Cache.writeLead (c : Cache) (point lead : Nat) : Cache :=
  { c with entries := c.entries.map fun e =>
      if e.valid && e.tag = point then { e with copy := { e.copy with lead } } else e }

/-- The lookups of a requester are no longer wanted: a fill in progress ends for nobody, and the lookups
that wait go (R59, R106). -/
def Cache.drop (c : Cache) (gone : LookupFor → Bool) : Cache :=
  { c with
    fill := c.fill.map fun f => if gone f.2 then (f.1, .dropped) else f
    waiting := c.waiting.filter fun w => !gone w.2 }

end Sys2Proof.Machine
end

