-- ==== Sys2Proof/Machine/Measure.lean ====
section
/-! DEFINITION. The Measurement Controller (chapter 05): the single request, HV streams and the drop of an
outstanding request. -/

namespace Sys2Proof.Machine

/-! ### HVC frames and streams (R82, R123) -/

/-- The payload of HVC OFF-DISCHARGE: the sample interval held at that moment (R123, R174). -/
def State.offPayload (s : State) : List Byte := [1, byte s.limits.timing.hvInterval]

/-- The payload of HVC RAMP for a class (R128, R174). -/
def State.rampPayload (s : State) (c : InsulClass) : List Byte :=
  [0] ++ be16 c.volt ++ be16 c.ramp ++ [byte s.limits.timing.hvInterval]

/-- An HVC frame of a stream. -/
def hvcEntry (stream : Nat) (closing : Bool) (payload : List Byte) : RingEntry :=
  { frame := ownFrame headAddress clsHvc payload, owner := .hvc stream closing }

/-- Place an HVC frame on the open stream (R82). -/
def State.placeHvc (s : State) (payload : List Byte) : State :=
  s.handOver (hvcEntry s.mc.stream false payload)

/-- Open a stream with an HVC frame. With the Measurement Controller not IDLE the request is refused with BUSY: the
frame is not placed (R82). -/
def State.openStream (s : State) (payload : List Byte) : State :=
  if s.mc.state ≠ .idle then s
  else
    (s.onMc fun m =>
      { m with state := .stream, requester := .hv, lastSeq := none, lost := 0, curTag := none
               prevTag := none, timer := none, stream := m.stream + 1 }).placeHvc payload

/-- Close the stream with HVC IDLE: its samples leave the queue and both tags become none (R82). -/
def State.closeStream (s : State) : State :=
  let n := s.mc.stream
  ((s.onMc fun m =>
      { m with state := .idle, requester := .none, curTag := none, prevTag := none, queue := [] }).onArith
    fun a => { a with waiting := a.waiting.filter fun r => r ≠ .sample }).handOver (hvcEntry n true [2])

/-- Whether an HVC frame of the open stream still waits in the wait list (R82). -/
def State.hvcWaits (s : State) : Bool :=
  s.ring.wait.any fun e => e.owner = .hvc s.mc.stream false

/-- The OFF-DISCHARGE due at a monitor period start: on the open stream, or opening one (R82, R134, R139,
R140). It is not handed over while an earlier HVC frame of the stream waits. -/
def State.periodDischarge (s : State) : State :=
  match s.mc.state with
  | .stream => if s.hvcWaits then s else s.placeHvc s.offPayload
  | .idle => s.openStream s.offPayload
  | _ => s

/-- The HV Controller asks again for the discharge stream of R138 once the Measurement Controller is IDLE;
the discharge timer starts when the OFF-DISCHARGE is placed. -/
def State.retryStream (s : State) : State :=
  if s.hv.streamWanted && s.mc.state = .idle then
    (s.onHv fun h =>
      { h with streamWanted := false, dischargeTimer := some s.limits.timing.discharge }).openStream
      s.offPayload
  else s

/-! ### The MSR (R77, R78, R81, R83) -/

/-- The MSR frame of an attempt (R78). -/
def msrEntry (range : Nat) : RingEntry :=
  { frame := ownFrame headAddress clsMsr [byte range], owner := .msr }

/-- A request for an MSR on a range, with its fault context and the points whose leads compensate it
(R77, R87); a refused request leaves the state as it is. -/
def State.requestMsr (s : State) (range : Nat) (net : Nat) (point : Option Nat) (leads : List Nat) :
    State :=
  if s.fault.safeHalt || s.mc.state ≠ .idle || s.hv.state ≠ .safe then s
  else
    (s.onMc fun m =>
      { m with state := .msrQueued, requester := .sweep, range, ctxNet := some net, ctxPoint := point
               attempt := 1, leads }).handOver (msrEntry range)

/-- The request ends: the controller is IDLE, and a stream that waits for it is opened (R81). The attempt number, the
current range and the fault context, which R76 gives for the outstanding request, keep their last values until the next
request: R81 says of the end only that it clears the request, and that it leaves these is the model's choice (log 51). -/
def State.mcIdle (s : State) : State :=
  (s.onMc fun m =>
    { m with state := .idle, requester := .none, timer := none, curTag := none, prevTag := none }).retryStream

/-- The low-voltage operation in service has no taker any more (R83, R106). -/
def Arith.dropLowVolt (a : Arith) : Arith :=
  { a with job := a.job.map fun j =>
      match j.op with
      | .lowVolt _ _ _ => { j with live := false }
      | _ => j }

/-- The stream operation in service has no taker any more (R135). -/
def Arith.dropStream (a : Arith) : Arith :=
  { a with job := a.job.map fun j =>
      match j.op with
      | .stream _ => { j with live := false }
      | _ => j }

/-- Whether a waiting operation is an evaluation. -/
def ArithReq.isEvaluate : ArithReq → Bool
  | .evaluate _ => true
  | _ => false

/-- The evaluation asked for has no taker any more: its ending record is discarded (R135). -/
def Arith.dropEvaluation (a : Arith) : Arith :=
  { job := a.job.map fun j =>
      match j.op with
      | .evaluate _ => { j with live := false }
      | _ => j
    waiting := a.waiting.filter fun r => !r.isEvaluate }

/-- The Run Engine drops the outstanding request (R83); an open stream stays open. -/
def State.dropMsr (s : State) : State :=
  match s.mc.state with
  | .msrQueued => (s.withdraw fun e => e.owner = .msr).mcIdle
  | .msrWait => s.mcIdle
  | .msrAnswered =>
    ((s.onMc fun m => { m with queue := [] }).onArith fun a =>
      Arith.dropLowVolt { a with waiting := a.waiting.filter fun r => r ≠ .sample }).mcIdle
  | .idle => s
  | .stream => s

end Sys2Proof.Machine
end

