-- ==== Sys2Proof/Machine/Switch.lean ====
section
/-! DEFINITION. The Switch Sequencer (chapter 03) apart from the answers it gives its requesters: what is
sent, what fails, what is abandoned, and the start of a HOME. -/

namespace Sys2Proof.Machine

/-- Whether a frame is an own SW frame of a transaction. -/
def RingEntry.isSwitch (e : RingEntry) : Bool :=
  match e.owner with
  | .switch _ => true
  | _ => false

/-- The SW frame of a transaction (R53). -/
def switchEntry (module : Nat) (m : Masks) : RingEntry :=
  { frame := ownFrame module clsSw (maskBytes m.a ++ maskBytes m.b), owner := .switch module }

/-- The transaction of a module, if any; a module appears at most once (R48). -/
def State.transaction (s : State) (module : Nat) : Option Transaction :=
  s.seq.transactions.find? fun t => t.module = module

/-- Change the transaction of a module. -/
def State.onTransaction (s : State) (module : Nat) (f : Transaction → Transaction) : State :=
  s.onSeq fun q =>
    { q with transactions := q.transactions.map fun t => if t.module = module then f t else t }

/-- The transaction of a module ends and leaves the list. -/
def State.endTransaction (s : State) (module : Nat) : State :=
  s.onSeq fun q => { q with transactions := q.transactions.filter fun t => t.module ≠ module }

/-- Put an address into the failed list, which ascends (R48). -/
def State.addFailed (s : State) (module : Nat) : State :=
  s.onSeq fun q => { q with failed := putAddress module q.failed }

/-- The current attempt of a module's transaction fails: it is resent, or on the fourth attempt the
transaction is exhausted and reported against the module (R56, R70). -/
def State.attemptFails (s : State) (module : Nat) : State :=
  match s.transaction module with
  | none => s
  | some t =>
    if t.attempt < 4 then
      (s.onTransaction module fun t =>
        { t with attempt := t.attempt + 1, tag := none, timer := none, phase := .waiting }).handOver
        (switchEntry module t.masks)
    else ((s.faultAgainst module).addFailed module).endTransaction module

/-- An SW frame of the chip is sent: the transaction is SENT, its echo timer starts, and the module's
believed state becomes UNKNOWN (R53). -/
def State.switchSent (s : State) (module tag : Nat) : State :=
  (s.onTransaction module fun t =>
    if t.phase = .queued && t.tag = some tag then
      { t with phase := .sent, timer := some s.limits.timing.echo }
    else t).believe module none

/-- The believed state of every configured module becomes UNKNOWN (R61). -/
def State.forgetModules (s : State) : State :=
  s.onSeq fun q =>
    { q with believed := q.believed.zipIdx.map fun p => if s.channels (p.2 + 1) ≠ 0 then none else p.1 }

/-- The HOME broadcast is sent: every configured module is UNKNOWN and the HOME's echo timer starts
(R61). -/
def State.homeSent (s : State) (tag : Nat) : State :=
  let s1 := s.forgetModules
  if s1.seq.state = .homing && s1.seq.home.tag = some tag then
    s1.onSeq fun q => { q with home := { q.home with timer := some s.limits.timing.echo } }
  else s1

/-- The sequencer has no work: IDLE, requester NONE (R59). -/
def Sequencer.rest (q : Sequencer) : Sequencer :=
  { q with state := .idle, requester := .none, transactions := [], failed := [], settleTimer := none
           todo := [], placed := [] }

/-- The configuration in progress is abandoned; a HOME in progress runs on (R59). -/
def State.abandonConfiguration (s : State) : State :=
  match s.seq.state with
  | .idle => s
  | .homing => s
  | .translating => (s.onSeq Sequencer.rest).onCache fun c => c.drop fun w => w = .translate
  | .verifying => (s.onSeq Sequencer.rest).withdraw RingEntry.isSwitch
  | .settling => s.onSeq Sequencer.rest

/-- The HOME in progress is over: the record is cleared and the sequencer is IDLE (R62). -/
def Sequencer.homeOver (q : Sequencer) : Sequencer :=
  { q with state := .idle, requester := .none, home := Home.none }

/-- The broadcast frame of a HOME (R61). -/
def homeEntry : RingEntry := { frame := ownFrame broadcastAddress clsSw [], owner := .home }

/-- The Run Engine requests HOME: it is started, or it joins the HOME in progress; the refusals change
nothing (R61). -/
def State.requestHome (s : State) : State :=
  if s.fault.safeHalt || s.seq.state ≠ .idle || s.hv.state ≠ .safe then s
  else
    (s.onSeq fun q =>
      { q with state := .homing, requester := .run
               home :=
                { tag := none, expected := s.modules.filter fun a => s.alive a, answered := []
                  timer := none } }).handOver homeEntry

/-- Whether every module of the HOME's expected set has answered (R62). -/
def Home.allAnswered (h : Home) : Bool := h.expected.all fun a => h.answered.contains a

/-- Whether an answer ends the HOME (R62): it completes the answered set. With an empty expected set no answer does, since
R61 ends that HOME as its frame is sent: so an ECH that carries the HOME's tag before the broadcast is sent leaves it in
progress, which is the model's choice (log 56). -/
def Home.answerEnds (h : Home) : Bool := !h.expected.isEmpty && h.allAnswered

/-- The frames that leave the queue and the wait list when the HV state leaves SAFE: every SW frame, and
every pass-through MSR (R54, R170). -/
def RingEntry.goesWithSafe (e : RingEntry) : Bool :=
  e.frame.cls = clsSw || (e.owner = .passThrough && e.frame.cls = clsMsr)

end Sys2Proof.Machine
end

