-- ==== Sys2Proof/Machine/Run.lean ====
section
/-! DEFINITION. The Run Engine (chapter 02), the Fault Monitor (R177, R179), the insert of a defect (R144) and
the HV Controller's part in a response (R135, R138, R140): what every owner of a step calls. -/

namespace Sys2Proof.Machine

/-! ### The end of a step and of a run -/

/-- One more measurement that yielded a result, saturating (R30). -/
def State.countMeasurement (s : State) : State :=
  s.onRun fun r =>
    { r with summary := { r.summary with measurements := min 4294967295 (r.summary.measurements + 1) } }

/-- Whether the step in hand is an INSUL step. -/
def Run.isInsul (r : Run) : Bool :=
  match r.stepRec with
  | some x => x.kind = .insul
  | none => false

/-- The final status of a step, given the termination the run is ending with, if it is ending (R32). -/
def Run.stepStatus (r : Run) (term : Option Termination) : StepStatus :=
  if term = some .aborted || term = some .hvAbort then .aborted
  else if term = some .fault then .fault
  else if r.isInsul && !r.rampFlag then .skipped
  else if r.insertFlag then .defects
  else .pass

/-- The step in progress ends: its status and step defect count are written, no step is in progress, and
STEP-END is raised (R32). -/
def State.stepEnd (s : State) (term : Option Termination) : State :=
  match s.run.step with
  | none => s
  | some i =>
    ((s.askWrite .steps i statusOffset
        ((s.run.stepStatus term).code :: be16 s.run.stepDefects) .runWrite).onRun fun r =>
      { r with inProgress := false }).raise .stepEnd

/-- The reads of a step that is given up end for nobody; a lead write goes on (R106), and so does one that still waits its
turn at the port (log 57). -/
def Owner.isStepRead : Owner → Bool
  | .sweepRead => true
  | .hvRead => true
  | .runRead => true
  | _ => false

/-- Give up the reads of the step in hand and the lookup of a LEADCAL reference (R106). That a read which waits its turn at
the port is withdrawn, with no parity failure of it to count, while a lead write that waits is carried out, is the model's
choice (log 57). -/
def State.dropReads (s : State) : State :=
  (s.onPort fun p => p.give Owner.isStepRead).onCache fun c => c.drop fun w => w = .reference

/-- The sweep record and the isolation record return to their reset values (R95, R106, R108, R121). -/
def State.sweepRest (s : State) : State := s.onSweep fun _ => Sweep.reset

/-- The run enters DONE (R45). -/
def State.enterDone (s : State) (t : Termination) : State :=
  let s1 := if s.run.inProgress then s.stepEnd (some t) else s
  let s2 := s1.onDefects finalise
  let s3 := s2.onRun fun r =>
    { r with state := .done, summary := { r.summary with term := some t }, pauseReq := false
             stopArmed := false, pauseCause := .none, abortCause := .none, slot := none
             stepRec := none, waiting := .none }
  let s4 := ((s3.dropReads.sweepRest).onHv fun h => { h with net := none, work := .idle, hold := false }).onArith
    Arith.dropEvaluation
  (s4.raise .runEnd).printRunEnds t

/-- The run enters PAUSED from RUNNING: the request is cleared and PAUSED is raised (R36). -/
def State.enterPaused (s : State) (cause : PauseCause) (wait : RunWait) : State :=
  if s.run.state = .running then
    (s.onRun fun r =>
      { r with state := .paused, pauseCause := cause, pauseReq := false, waiting := wait }).raise .paused
  else s

/-- A step is started by reading its record (R26). -/
def State.askStep (s : State) (index : Nat) : State :=
  (s.onRun fun r => { r with waiting := .stepRead index }).askRead .steps index .runRead

/-- The termination code of a run that reaches its last step's end (R27, R44). -/
def Run.completion (r : Run) : Termination :=
  if r.summary.defects = 0 then .complete else .completeDefects

/-- Whether the step in hand is an END step. -/
def Run.isEnd (r : Run) : Bool :=
  match r.stepRec with
  | some x => x.kind = .endStep
  | none => false

/-- The tests at a step boundary (R31). -/
def State.stepBoundary (s : State) : State :=
  match s.run.step with
  | none => s
  | some i =>
    if s.run.isEnd || s.bound .steps ≤ i + 1 then s.enterDone s.run.completion
    else if s.run.pauseReq then s.enterPaused .request (.heldStep (i + 1))
    else s.askStep (i + 1)

/-- The step has ended its last measurement: it ends, and the step boundary follows (R31, R32). -/
def State.stepFinished (s : State) : State :=
  ((s.sweepRest.onHv fun h => { h with net := none, work := .idle }).stepEnd none).stepBoundary

/-- The tests at a measurement boundary (R31): `last` says that it ends the step's last measurement, and
`goOn` is the owner's next measurement. -/
def State.runBoundary (s : State) (last : Bool) (goOn : State → State) : State :=
  if s.limits.timing.defectLimit ≤ s.run.summary.defects then s.enterDone .defectLimit
  else if s.run.stopArmed then s.enterDone .stopped
  else if last then s.stepFinished
  else if s.run.pauseReq then s.enterPaused .request .owner
  else goOn s

/-! ### The insert of a defect (R144) -/

/-- Whether an insert of the step arms STOP-ON-DEFECT (R29). -/
def Run.stopsOnDefect (r : Run) : Bool := (r.stepRec.map (·.stopOnDefect)).getD false

/-- What every insert reported does to the run record (R29). -/
def Run.inserted (r : Run) : Run :=
  { r with insertFlag := true, stopArmed := r.stopArmed || r.stopsOnDefect }

/-- What an appended record does to the run record besides (R29, R144). -/
def Run.appended (r : Run) : Run :=
  { r with stepDefects := min 65535 (r.stepDefects + 1)
           summary := { r.summary with defects := r.summary.defects + 1 } }

/-- The most records the defect list holds (R143). -/
def defectCapacity : Nat := 512

/-- The run enters STALLED from RUNNING (R38). -/
def State.enterStalled (s : State) : State :=
  if s.run.state = .running then (s.onRun fun r => { r with state := .stalled }).raise .stall else s

/-- An insert into the defect list (R144): merged, discarded at the run defect limit, held in the
pending-insert slot, or appended. The flag says that it is held and not yet inserted. -/
def State.insert (s : State) (r : Insert) : State × Bool :=
  let step := s.run.step.getD 0
  if (findKey s.defects r.key).isSome then
    ((s.onDefects fun ds => changeKey ds r.key fun d => d.merge r step).onRun Run.inserted, false)
  else if s.limits.timing.defectLimit ≤ s.run.summary.defects then (s, false)
  else if defectCapacity ≤ s.defects.length then
    let s1 := s.onRun fun x => { x with slot := some r }
    (if s.hv.state = .safe then s1.enterStalled else s1, true)
  else
    let d := Defect.ofInsert r (s.run.summary.defects + 1) step s.run.correlate
    let s1 := ((s.onDefects fun ds => ds ++ [d]).onRun fun x => x.inserted.appended).raise .defect
    (if d.provisional then s1 else s1.printLook, false)

/-! ### Responses (R40, R41, R43) -/

/-- The HV Controller abandons the net under test (R135). -/
def State.hvAbandon (s : State) : State :=
  let s1 :=
    match s.hv.state with
    | .safe => s.onHv fun h => { h with hold := false }
    | .ramp | .dwell =>
      ((s.onHv fun h =>
        { h with state := .discharge, cause := .test, rampTimer := none, dwellTimer := none, ending := none
                 safeWait := true, dischargeTimer := some s.limits.timing.discharge }).placeHvc
        s.offPayload).onArith Arith.dropStream
    | .discharge => s.onHv fun h => { h with ending := none, safeWait := true }
    | .stuck => s
  (s1.onHv fun h => { h with net := none, work := .idle }).onArith Arith.dropEvaluation

/-- Steps 1 to 5 of the response (R40); what the run waits for next is SAFE, or the HOME asked for. -/
def State.response (s : State) : State :=
  let s1 := s.dropMsr.abandonConfiguration
  let s2 := (s1.dropReads.sweepRest.onArith Arith.dropLowVolt).onRun fun r => { r with slot := none }
  let s3 := s2.hvAbandon
  if s3.hv.state = .safe then (s3.onRun fun r => { r with waiting := .home }).requestHome
  else s3.onRun fun r => { r with waiting := .safe }

/-- An active run enters ABORTING with a cause and its response begins (R40, R41, R43). The pause cause of a run that
was PAUSED is NONE from then on, not only at DONE (R45; log 47). -/
def State.beginAbort (s : State) (cause : AbortCause) : State :=
  if s.run.active then
    (s.onRun fun r =>
      { r with state := .aborting, abortCause := cause, pauseCause := .none }).response
  else s

/-! ### The Fault Monitor (R177, R179) -/

/-- A fault as its detector reports it, with the HV state at detection. -/
structure FaultReport where
  code : FaultCode
  hv : HvState
  net : Option Nat
  point : Option Nat
  table : Option (TableKind × Nat)
  deriving DecidableEq, Repr

/-- Step 1 of a report (R177). -/
def FaultMon.report (f : FaultMon) (step : Option Nat) (r : FaultReport) : FaultMon :=
  if f.valid then { f with second := true }
  else
    { f with valid := true, code := some r.code, step, net := r.net, point := r.point, hv := some r.hv
             table := r.table, second := false }

/-- SAFE-HALT is set, and every block takes its holding behaviour (R179). The HV Controller abandons as R135 gives
(R140), but its safe wait is cleared: the run is DONE and waits for nothing (R122; log 49). -/
def State.setSafeHalt (s : State) : State :=
  let s1 := (s.onFault fun f => { f with safeHalt := true }).raise .safeHalt
  let s2 := s1.abandonConfiguration
  let s3 :=
    if s2.seq.state = .homing then
      (s2.onSeq Sequencer.homeOver).onRing fun r =>
        { r with wait := r.wait.filter fun e => e.owner ≠ .home }
    else s2
  let s4 := s3.dropMsr.onSup fun u => { u with pollList := [] }
  let s5 := s4.onRing fun r => { r with wait := r.wait.filter fun e => !e.isPoll }
  s5.hvAbandon.onHv fun h => { h with safeWait := false }

/-- Whether a fault reported now is a double fault (R179). -/
def Run.inFaultResponse (r : Run) : Bool :=
  r.state = .aborting && (r.abortCause = .fault || r.abortCause = .hvAbort)

/-- A fault is reported (R177): recorded, FAULT raised, and handed to the Run Engine, which acts as R42 and
R43 give. -/
def State.reportFault (s : State) (r : FaultReport) : State :=
  let step := if s.run.active then s.run.step else none
  let s1 := (s.onFault fun f => f.report step r).raise .fault
  if !s.run.active then s1
  else if s.run.inFaultResponse then (s1.enterDone .fault).setSafeHalt
  else if r.code = .dischargeTimeout then s1.enterDone .fault
  else s1.beginAbort .fault

/-- A fault TABLE-PARITY (R3, R177). -/
def State.tableParity (s : State) (kind : TableKind) (index : Nat) (point : Option Nat) : State :=
  s.reportFault
    { code := .tableParity, hv := s.hv.state, net := s.currentNet, point, table := some (kind, index) }

/-! ### HOME ends (R25, R62) -/

/-- The termination code of a response by its abort cause (R40, R41, R43). -/
def AbortCause.termination : AbortCause → Termination
  | .hvAbort => .hvAbort
  | .fault => .fault
  | .abort => .aborted
  | .none => .aborted

/-- The Run Engine is told that HOME has ended (R25, R40). -/
def State.runHomeEnded (s : State) : State :=
  match s.run.waiting with
  | .startHome first =>
    if s.run.pauseReq then s.enterPaused .request (.heldStep first) else s.askStep first
  | .home => s.enterDone s.run.abortCause.termination
  | _ => s

/-- The HOME in progress ends (R62). -/
def State.homeEnd (s : State) : State := (s.onSeq Sequencer.homeOver).runHomeEnded

/-! ### The HV state leaves SAFE (R54, R60, R138, R170) -/

/-- The HV state leaves SAFE as `f` gives. The Switch Sequencer has stopped a configuration and every SW frame
not yet sent is gone before that (R54, R60, R170). The configuration is reported refused, on which its
requester waits (R100, R126). -/
def State.leaveSafe (s : State) (f : Hv → Hv) : State :=
  ((s.abandonConfiguration.onRing fun r =>
      { r with queue := r.queue.filter fun e => !e.goesWithSafe
               wait := r.wait.filter fun e => !e.goesWithSafe }).onHv f).pump

/-- A HOME in progress ends at once when the HV state leaves SAFE (R60, R62). -/
def State.homeCut (s : State) : State := if s.seq.state = .homing then s.homeEnd else s

/-- The head reports high voltage (R138): in SAFE it is a fault and a discharge begins; in any other HV
state it has no effect. -/
def State.hvEvidence (s : State) : State :=
  if s.hv.state ≠ .safe then s
  else
    let s1 := s.leaveSafe fun h => { h with state := .discharge, cause := .unexpected, hold := false }
    let s2 := s1.reportFault
      { code := .hvUnexpected, hv := .safe, net := s.hv.net, point := none, table := none }
    (s2.homeCut.onHv fun h => { h with streamWanted := true }).retryStream

end Sys2Proof.Machine
end

