-- ==== Sys2Proof/Machine/Hv.lean ====
section
/-! DEFINITION. The HV Controller (chapter 08): the walk of an INSUL step, the interlock, ramp, dwell and
discharge, HV-ABORT, and the discharges at monitor period starts. What follows its reads is in
SweepReads.lean. -/

namespace Sys2Proof.Machine

/-! ### Nets (R124, R125) -/

/-- The net under test, 0 while it is NONE. -/
def Hv.cursor (h : Hv) : Nat := h.net.getD 0

/-- The net record of the net under test is read (R124). -/
def State.hvTakeNet (s : State) : State :=
  (s.onHv fun h => { h with work := .readingNet, pairs := [] }).askRead .nets s.hv.cursor .hvRead

/-- The next net is taken, or the step has ended its last measurement (R124). -/
def State.hvNextNet (s : State) : State :=
  if s.hv.cursor = s.hv.lastNet then s.stepFinished
  else (s.onHv fun h => { h with net := h.net.map (· + 1) }).hvTakeNet

/-- The net under test has reached its measurement boundary (R133). A run that is PAUSED there keeps this net as the
net under test until RESUME takes the next one (log 48). -/
def State.hvBoundary (s : State) : State :=
  (s.onHv fun h => { h with work := .idle }).runBoundary (s.hv.cursor = s.hv.lastNet) State.hvNextNet

/-- A record about the net under test: no point and no net B (R125, R126, R130 to R132). -/
def Hv.record (h : Hv) (kind : DefectKind) (value : Option Nat) (lowv : Bool) : Insert :=
  { key := { kind, netA := h.cursor, point := none, netB := none }, value, lowv }

/-- A record made before any ramp is inserted, and the boundary follows (R125, R126). -/
def State.hvInsert (s : State) (r : Insert) : State :=
  let p := (s.onHv fun h => { h with work := .inserting }).insert r
  if p.2 then p.1 else p.1.hvBoundary

/-- The lowest configured module that is not Alive, if any (R125). -/
def State.lostModule (s : State) : Option Nat := s.modules.find? fun a => !s.alive a

/-- The net record of the net under test is read (R124, R125, R126). -/
def State.hvNetRead (s : State) (r : NetRec) : State :=
  match r.insulClass with
  | none => s.hvNextNet
  | some c =>
    match s.lostModule with
    | some m => s.hvInsert (s.hv.record .untested (some m) false)
    | none =>
      (s.onHv fun h => { h with work := .readingMap 0, classIndex := c, pairs := [] }).askRead .points 0
        .hvRead

/-- The Run Engine hands an INSUL step to the HV Controller (R124). -/
def State.hvStart (s : State) (x : StepRec) : State :=
  (s.onHv fun h =>
    { h with net := some x.firstNet, lastNet := x.lastNet, settle := x.settle }).hvTakeNet

/-- The configuration failed on modules, the lowest given (R126). -/
def State.hvFailed (s : State) (lowest : Nat) : State :=
  s.hvInsert (s.hv.record .switchFault (some lowest) false)

/-! ### The interlock and the ramp (R127, R128) -/

/-- The ramp of the net under test is started (R128). Steps 5 and 6 follow the placing of HVC RAMP: where the request
for the stream is refused with BUSY, no ramp begins and the HV state stays SAFE (R82, log 43). -/
def State.rampStart (s : State) : State :=
  let c := s.limits.insulClass s.hv.classIndex
  let s1 := s.onHv fun h =>
    { h with cls := c, keepalive := s.limits.timing.keepalive, window := [], arcPred := none }
  if s.mc.state ≠ .idle then s1
  else
    let s2 := (s1.openStream (s1.rampPayload c)).leaveSafe fun h =>
      { h with state := .ramp, rampTimer := some (rampTime c) }
    (s2.onRun fun r => { r with rampFlag := true }).homeCut

/-- The interlock test (R127). -/
def State.interlockTest (s : State) : State :=
  if s.pins.interlockClosed then (s.onHv fun h => { h with hold := false }).rampStart
  else s.enterPaused .interlock .owner

/-- The configuration is ready: the hold is set and the interlock test is made (R126, R127). -/
def State.hvReady (s : State) : State :=
  (s.onHv fun h => { h with hold := true, work := .testing }).interlockTest

/-! ### The end of a test (R132, R136) -/

/-- Steps 1 to 4 of the end of a test (R132). -/
def State.hvEnd (s : State) : State :=
  (s.onHv fun h =>
    { h with state := .discharge, cause := .test, rampTimer := none, dwellTimer := none, work := .ended
             dischargeTimer := some s.limits.timing.discharge }).placeHvc s.offPayload

/-- Step 5: the ending record, if there is one, is handed to the Defect List (R132). -/
def State.hvRecord (s : State) (ending : Option Insert) : State :=
  match ending with
  | some r => (s.insert r).1
  | none => s

/-- HV-ABORT (R41, R136). -/
def State.hvAbort (s : State) : State :=
  ((s.hvEnd.hvRecord (some (s.hv.record .untested none false))).raise .hvAbort).beginAbort .hvAbort

/-- The evaluation of the net whose test has ended: the ending record, if there is one, and whether it is a
measurement that yielded a result (R90, R91, R130 to R132). The window and the class copy stay as the ending left
them. -/
def Hv.evaluated (h : Hv) (ramp : Bool) : Option Insert × Bool :=
  if ramp then (some (h.record .leak (evaluateLast h.window) true), true)
  else
    match evaluate h.cls h.window with
    | .untested => (some (h.record .untested none false), false)
    | .leakLow ir => (some (h.record .leak (some ir) true), true)
    | .leak ir => (some (h.record .leak (some ir) false), true)
    | .pass => (none, true)

/-- The evaluation is known: the ending record is handed over and the result is counted (R30, R131, R132). -/
def State.hvEvaluate (s : State) (ramp : Bool) : State :=
  let p := s.hv.evaluated ramp
  let s1 := s.hvRecord p.1
  if p.2 then s1.countMeasurement else s1

/-- The ramp timer expires in RAMP, or the dwell timer in DWELL (R130, R131): the test ends, and its evaluation is
asked of the Arithmetic Unit. A free unit makes it at once; otherwise it waits its turn behind the operations asked
before it, and the ending record is handed over when it comes (R84, log 15). -/
def State.hvExpired (s : State) (ramp : Bool) : State :=
  let s1 := s.hvEnd
  if s.arith.job.isNone && s.arith.waiting.isEmpty then s1.hvEvaluate ramp
  else
    (s1.onHv fun h => { h with work := .evaluating }).onArith fun a =>
      { a with waiting := a.waiting ++ [.evaluate ramp] }

/-! ### Samples (R129, R130, R133) -/

/-- The averaging window with one more sample: the 64 most recent, oldest first (R89). -/
def pushWindow (w : List Conv) (c : Conv) : List Conv :=
  let all := w ++ [c]
  all.drop (all.length - 64)

/-- The dwell begins (R130). -/
def State.dwellStart (s : State) : State :=
  s.onHv fun h =>
    { h with state := .dwell, rampTimer := none, window := [], dwellTimer := some h.cls.dwell }

/-- A converted sample taken in RAMP or DWELL (R129). -/
def State.liveSample (s : State) (c : Conv) : State :=
  let s1 := s.onHv fun h => { h with keepalive := h.keepalive - 1 }
  match arcTest s.hv.cls.arcStep s.hv.arcPred c with
  | some v => (s1.hvEnd.hvRecord (some (s.hv.record .arc (some v) false))).countMeasurement
  | none =>
    let s2 := s1.onHv fun h => { h with window := pushWindow h.window c, arcPred := some c.ih }
    if s2.hv.keepalive = 0 then s2.hvAbort
    else if s2.hv.state = .ramp && ((s2.hv.cls.volt * 950 : Nat) : Int) ≤ c.vh then s2.dwellStart
    else s2

/-- The Run Engine is told that the HV state is SAFE, and asks for HOME (R40, R133). -/
def State.runToldSafe (s : State) : State :=
  if s.run.waiting = .safe then (s.onRun fun r => { r with waiting := .home }).requestHome else s

/-- The net's measurement is complete at SAFE, or its record waits and the run stalls (R38, R133). -/
def State.testComplete (s : State) : State :=
  if s.hv.work ≠ .ended then s
  else if s.run.slot.isSome then s.enterStalled
  else s.hvBoundary

/-- An evaluation that waited its turn is made: the ending record is handed over, and where the HV state is SAFE by
then the measurement is complete with it (R84, R131, R133, log 15). -/
def State.evaluationDone (s : State) (ramp : Bool) : State :=
  let s1 := (s.onHv fun h => { h with work := .ended }).hvEvaluate ramp
  if s.hv.state = .safe then s1.testComplete else s1

/-- A safe sample (R133). -/
def State.safeSample (s : State) : State :=
  let s1 := ((s.onHv fun h => { h with dischargeTimer := none }).closeStream).onHv fun h =>
    { h with state := .safe, cause := .none }
  if s.hv.safeWait then (s1.onHv fun h => { h with safeWait := false }).runToldSafe
  else if s.hv.cause = .test then s1.testComplete
  else s1

/-- A converted stream sample is handed to the HV Controller (R129, R133). -/
def State.hvSample (s : State) (c : Conv) : State :=
  match s.hv.state with
  | .ramp | .dwell => s.liveSample c
  | .discharge | .stuck => if isSafeSample s.limits.timing.safeLevel c then s.safeSample else s
  | .safe => s

/-! ### The discharge timer and monitor period starts (R134, R139, R140) -/

/-- The discharge timer expires in DISCHARGE: the fault is reported with that state at detection, an active
run ends, and the HV state is STUCK (R42, R134). -/
def State.dischargeExpired (s : State) : State :=
  ((s.onHv fun h => { h with dischargeTimer := none, safeWait := false }).reportFault
      { code := .dischargeTimeout, hv := .discharge, net := s.hv.net, point := none, table := none }).onHv
    fun h => { h with state := .stuck }

/-- A monitor period has started (R134, R139, R140). -/
def State.hvPeriod (s : State) : State :=
  match s.hv.state with
  | .safe =>
    if s.fault.safeHalt then
      ((s.leaveSafe fun h => { h with state := .discharge, cause := .halt }).homeCut).periodDischarge
    else s
  | .discharge => if s.hv.cause = .startUp || s.fault.safeHalt then s.periodDischarge else s
  | .stuck => s.periodDischarge
  | _ => s

/-- The Run Engine reports the held record inserted: the measurement boundary follows where the test has
ended (R125, R133). -/
def State.hvInserted (s : State) : State :=
  if s.hv.state = .safe && (s.hv.work = .ended || s.hv.work = .inserting) then s.hvBoundary else s

end Sys2Proof.Machine
end

