-- ==== Sys2Proof/Machine/Sweep.lean ====
section
/-! DEFINITION. The Sweep Engine (chapters 06 and 07): the walk of a CONT, LEADCAL or ISO step, its boundaries
and the answers to its configurations and measurements. What follows its reads is in SweepReads.lean. -/

namespace Sys2Proof.Machine

/-! ### Reads and scans -/

/-- Ask for a direct read (R96). -/
def State.sweepRead (s : State) (kind : TableKind) (index : Nat) (which : SweepRead) : State :=
  (s.onSweep fun w => { w with state := .reading, reading := which }).askRead kind index .sweepRead

/-- Begin a scan of a net's members with the read of its net record (R109, R110, R112, R118, R119). -/
def State.startScan (s : State) (purpose : ScanFor) (net : Nat) : State :=
  (s.onSweep fun w =>
    { w with scan := { purpose, net, record := NetRec.zero, pos := 0, points := [] } }).sweepRead .nets
    net .scanNet

/-- The net cursor, 0 while it is NONE. -/
def Sweep.cursor (w : Sweep) : Nat := w.netCursor.getD 0

/-! ### Nets (R95, R108, R109) -/

/-- The net under the cursor is begun. -/
def State.sweepNet (s : State) : State :=
  match s.sweep.kind with
  | some .iso =>
    (s.onSweep fun w =>
      { w with shortCount := 0, skipped := 0, candidates := [], stack := [], inHand := none
               work := [] }).startScan .startK s.sweep.cursor
  | _ => s.sweepRead .nets s.sweep.cursor .net

/-- The net under the cursor is finished: the next is begun, or the step has ended its last measurement. -/
def State.sweepNextNet (s : State) : State :=
  if s.sweep.cursor = s.sweep.lastNet then s.stepFinished
  else
    (s.onSweep fun w =>
      { w with netCursor := w.netCursor.map (· + 1), memberCursor := none, visitedPoint := none
               visitedModule := none, netDone := false
               fixedPoint := if w.kind = some .cont then none else w.fixedPoint
               fixedModule := if w.kind = some .cont then none else w.fixedModule }).sweepNet

/-- The first member position to visit from a position on: CONT passes over the anchor (R95, R97). -/
def Sweep.positionFrom (w : Sweep) (pos : Nat) : Option Nat :=
  let p := if w.kind = some .cont && pos = w.net.anchor then pos + 1 else pos
  if p < w.net.count then some p else none

/-- The member position after the one under the cursor. -/
def Sweep.nextPosition (w : Sweep) : Option Nat :=
  w.positionFrom (match w.memberCursor with | some p => p + 1 | none => 0)

/-- Whether the net under the cursor has nothing left: no member position, or no group (R95, R111). The positions after
the cursor are not read ahead: in a LEADCAL net whose last position holds the reference point, the boundary of the position
before it is not the net's last (R102, R103, log 39). -/
def Sweep.netOver (w : Sweep) : Bool :=
  match w.kind with
  | some .iso => w.stack.isEmpty
  | _ => w.netDone || w.nextPosition.isNone

/-- Whether the net under the cursor is the step's last. -/
def Sweep.onLastNet (w : Sweep) : Bool := w.cursor = w.lastNet

/-! ### A record that ends its net (R98, R103, R109, R112) -/

/-- The record of a test not made or a configuration that failed (R98, R99, R100, R113, R119). -/
def moduleRecord (kind : DefectKind) (netA : Nat) (point netB : Option Nat) (module : Nat) : Insert :=
  { key := { kind, netA, point, netB }, value := some module, lowv := false }

/-- The record produced has been inserted, merged or discarded: it is no result record any more (R94, R107). -/
def State.resultTaken (s : State) : State := s.onSweep fun w => { w with results := [] }

/-- Hand a record to the Defect List in INSERTING, and note what follows it (R102, R116); the flag says
that it is held, and a held record stays among the result records until it is inserted (R94, R107). -/
def State.sweepInsert (s : State) (r : Insert) (after : SweepAfter) : State × Bool :=
  let p := (s.onSweep fun w => { w with state := .inserting, results := [r], after }).insert r
  (if p.2 then p.1 else p.1.resultTaken, p.2)

/-- The boundary that ends the net under the cursor (R98, R102, R109, R112). -/
def State.netEndBoundary (s : State) : State :=
  (s.onSweep fun w => { w with state := .idle, netDone := true, stack := [], inHand := none }).runBoundary
    s.sweep.onLastNet State.sweepNextNet

/-- A record that ends the net under the cursor. -/
def State.netEndRecord (s : State) (r : Insert) : State :=
  let p := s.sweepInsert r .netEnd
  if p.2 then p.1 else p.1.netEndBoundary

/-! ### Member visits (R98, R103) -/

/-- A member visit begins with the Alive flag of the fixed module, then the read of the member position. -/
def State.sweepVisit (s : State) (pos : Nat) : State :=
  let s1 := s.onSweep fun w =>
    { w with memberCursor := some pos, visitedPoint := none, visitedModule := none }
  let fixed := s.sweep.fixedModule.getD 0
  if s.alive fixed then s1.sweepRead .members (s.sweep.net.first + pos) .memberPos
  else s1.netEndRecord (moduleRecord .untested s.sweep.cursor s.sweep.fixedPoint none fixed)

/-- The next member position is visited, or the net is finished. -/
def State.sweepNextMember (s : State) : State :=
  match s.sweep.nextPosition with
  | some p => s.sweepVisit p
  | none => s.sweepNextNet

/-! ### Groups (R111, R112) -/

/-- The nets of a group. -/
def Sweep.groupNets (w : Sweep) (g : Group) : List Nat := (w.candidates.drop g.start).take g.length

/-- The group on top of the stack is popped and examined; with no group left, net k is finished. -/
def State.popGroup (s : State) : State :=
  match s.sweep.stack with
  | [] => s.sweepNextNet
  | g :: rest =>
    (s.onSweep fun w =>
      { w with stack := rest, inHand := some g, groupTodo := w.groupNets g, busA := [], busB := []
               shortOther := none }).startScan .groupK s.sweep.cursor

/-! ### Boundaries (R102, R116) -/

/-- The Run Engine lets the sweep go on. -/
def State.sweepGoOn (s : State) : State :=
  if s.sweep.netOver then s.sweepNextNet
  else
    match s.sweep.kind with
    | some .iso => s.popGroup
    | _ => s.sweepNextMember

/-- A visit or a group measurement has reached its boundary. -/
def State.atBoundary (s : State) : State :=
  (s.onSweep fun w => { w with state := .idle, inHand := none }).runBoundary
    (s.sweep.netOver && s.sweep.onLastNet) State.sweepGoOn

/-- A record is inserted and the boundary follows. -/
def State.insertThenBoundary (s : State) (r : Insert) : State :=
  let p := s.sweepInsert r .boundary
  if p.2 then p.1 else p.1.atBoundary

/-! ### The short cap and correlation (R115, R117 to R119) -/

/-- The nets that a stopped search leaves unexamined (R115). -/
def Sweep.unexamined (w : Sweep) : Nat := (w.stack.map (·.length)).sum + w.skipped

/-- The search of net k is stopped: the stack is emptied and the skipped count is 0, and net k is finished at this
boundary (R115). -/
def State.searchStopped (s : State) : State :=
  (s.onSweep fun w => { w with stack := [], skipped := 0 }).atBoundary

/-- The cap test after a SHORT: the SHORT-OVERFLOW is inserted before the stack is emptied (R115). -/
def State.capTest (s : State) : State :=
  if s.limits.iso.shortCap ≤ s.sweep.shortCount then
    let u := s.sweep.unexamined
    if 0 < u then
      let p := s.sweepInsert
        { key := { kind := .shortOverflow, netA := s.sweep.cursor, point := none, netB := none }
          value := some u, lowv := false } .overflow
      if p.2 then p.1 else p.1.searchStopped
    else s.searchStopped
  else s.atBoundary

/-- The entry under the work cursor. -/
def Sweep.entry (w : Sweep) : Option WorkEntry := w.work[w.workCursor]?

/-- The entry under the work cursor is taken, or the correlation has ended and the cap test follows
(R119). -/
def State.takeEntry (s : State) : State :=
  match s.sweep.entry with
  | some e => s.startScan .entryOther e.other
  | none => (s.onSweep fun w => { w with work := [], shortOther := none }).capTest

/-- The entry in hand is finished (R119). -/
def State.nextEntry (s : State) : State :=
  (s.onSweep fun w => { w with workCursor := w.workCursor + 1 }).takeEntry

/-- The SHORT to net g has been inserted or discarded: correlation where the list holds it, else the cap
test (R114, R117). The work list is built by scans that read the net records of k and of g again before their member
positions, which alone R118 names (log 44). The work cursor is 0 from the start of the building, where R118 sets it with
the list built (log 54). -/
def State.afterShort (s : State) (g : Nat) : State :=
  if s.sweep.correlate && (findKey s.defects (shortKey s.sweep.cursor g)).isSome then
    (s.onSweep fun w => { w with work := [], workCursor := 0, shortOther := some g }).startScan .workK
      s.sweep.cursor
  else s.capTest

/-- The Run Engine reports the held record inserted (R39, R102, R116). -/
def State.sweepInserted (s : State) : State :=
  if s.sweep.state ≠ .inserting then s
  else
    let s1 := s.resultTaken
    match s.sweep.after with
    | .boundary => s1.atBoundary
    | .netEnd => s1.netEndBoundary
    | .short g => s1.afterShort g
    | .entry => s1.nextEntry
    | .overflow => s1.searchStopped

/-! ### Answers of the Switch Sequencer (R100, R103, R113, R119) -/

/-- The configuration is ready: the MSR is asked for (R87). -/
def State.sweepReady (s : State) : State :=
  let w := s.sweep
  let s1 := s.onSweep fun w => { w with state := .measuring }
  let fixed := w.fixedPoint.getD 0
  let visited := w.visitedPoint.getD 0
  match w.kind with
  | some .cont =>
    s1.requestMsr (s.limits.contSet w.net.contSet).range w.cursor w.visitedPoint [fixed, visited]
  | some .leadcal => s1.requestMsr (s.limits.contSet w.net.contSet).range w.cursor w.visitedPoint []
  | some .iso =>
    match w.entry with
    | some e =>
      s1.requestMsr (s.limits.contSet e.contSet).range e.own (some e.point) [e.point, w.otherAnchor]
    | none => s1.requestMsr s.limits.iso.range w.cursor none []
  | none => s

/-- The configuration failed on modules, the lowest given (R100, R113, R119). -/
def State.sweepFailed (s : State) (lowest : Nat) : State :=
  let w := s.sweep
  match w.kind with
  | some .iso =>
    match w.entry with
    | some e =>
      let p := s.sweepInsert (moduleRecord .switchFault e.own (some e.point) (some e.other) lowest) .entry
      if p.2 then p.1 else p.1.nextEntry
    | none =>
      let g := w.inHand.getD { start := 0, length := 0 }
      (s.onSweep fun w => { w with skipped := w.skipped + g.length, inHand := none }).insertThenBoundary
        (moduleRecord .switchFault w.cursor none (w.candidates[g.start]?) lowest)
  | some _ => s.insertThenBoundary (moduleRecord .switchFault w.cursor w.visitedPoint none lowest)
  | none => s

/-! ### Results (R101, R104, R114, R120) -/

/-- A continuity result (R101). -/
def State.contResult (s : State) (r : Nat) : State :=
  let record (kind : DefectKind) : Insert :=
    { key := { kind, netA := s.sweep.cursor, point := s.sweep.visitedPoint, netB := none }
      value := some r, lowv := false }
  match classify (s.limits.contSet s.sweep.net.contSet) r with
  | .pass => s.atBoundary
  | .highR => s.insertThenBoundary (record .highR)
  | .opn => s.insertThenBoundary (record .opn)

/-- The lead of the reference is known: the new lead of the visited point is written (R104, R105). -/
def State.referenceKnown (s : State) (reference : PointRec) : State :=
  let lead := calibratedLead s.sweep.raw reference.lead
  let p := s.sweep.visitedPoint.getD 0
  (s.onSweep fun w => { w with state := .writing }).askWrite .points p leadOffset (be16 lead)
    (.sweepLead p lead)

/-- A LEADCAL result (R104). While the lookup of the reference waits for a fill the sweep state stays MEASURING: the
rule names no state for this wait (log 45). -/
def State.leadcalResult (s : State) (raw : Nat) : State :=
  if raw = rmax then
    s.insertThenBoundary
      { key := { kind := .calFail, netA := s.sweep.cursor, point := s.sweep.visitedPoint, netB := none }
        value := some rmax, lowv := false }
  else
    let p := (s.onSweep fun w => { w with raw }).lookup (s.sweep.fixedPoint.getD 0) .reference
    match p.2 with
    | some r => p.1.referenceKnown r
    | none => p.1

/-- The two parts of a split group, the first on top (R111). -/
def Group.split (g : Group) : List Group :=
  [{ start := g.start, length := (g.length + 1) / 2 },
   { start := g.start + (g.length + 1) / 2, length := g.length / 2 }]

/-- A group result (R114). The group in hand is finished at the boundary, a SHORT's correlation and cap test with it
(R107, R111). -/
def State.groupResult (s : State) (raw : Nat) : State :=
  let g := s.sweep.inHand.getD { start := 0, length := 0 }
  if !groupIsLow s.limits.iso raw then s.atBoundary
  else if g.length ≤ 1 then
    let other := (s.sweep.candidates[g.start]?).getD 0
    let p := (s.onSweep fun w => { w with shortCount := w.shortCount + 1 }).sweepInsert
      { key := shortKey s.sweep.cursor other, value := some raw, lowv := false } (.short other)
    if p.2 then p.1 else p.1.afterShort other
  else (s.onSweep fun w => { w with stack := g.split ++ w.stack }).atBoundary

/-- A correlation result (R88, R120): a match rewrites the OPEN record and marks the SHORT. -/
def State.correlationResult (s : State) (e : WorkEntry) (r : Nat) : State :=
  if isMatch (s.limits.contSet e.contSet) r then
    let k := s.sweep.cursor
    let g := s.sweep.shortOther.getD 0
    (s.onDefects fun ds =>
      explain (rewrite ds e.own e.point e.other r (s.run.step.getD 0)) k g).nextEntry
  else s.nextEntry

/-- A low-voltage result reaches the Sweep Engine: R_raw and the compensated R (R30, R87). -/
def State.sweepResult (s : State) (raw r : Nat) : State :=
  if s.sweep.state ≠ .measuring then s
  else
    let s1 := s.countMeasurement
    match s.sweep.kind with
    | some .cont => s1.contResult r
    | some .leadcal => s1.leadcalResult raw
    | some .iso =>
      match s.sweep.entry with
      | some e => s1.correlationResult e r
      | none => s1.groupResult raw
    | none => s

/-! ### The start of a step (R95, R103, R108) -/

/-- The Run Engine hands a CONT, LEADCAL or ISO step to the Sweep Engine, which begins the first net. A LEADCAL step has
its reference point as the fixed point, whose record follows the first net record in the order of R96 (`State.visitNet`). -/
def State.sweepStart (s : State) (kind : SweepKind) (x : StepRec) : State :=
  let s1 := s.onSweep fun _ =>
    { Sweep.reset with
      kind := some kind, settle := x.settle, netCursor := some x.firstNet, lastNet := x.lastNet
      correlate := kind = .iso && x.correlate && s.run.correlate
      fixedPoint := if kind = .leadcal then some x.refPoint else none }
  s1.sweepNet

end Sys2Proof.Machine
end

