-- ==== Sys2Proof/Machine/Configure.lean ====
section
/-! DEFINITION. The configurations of the Switch Sequencer with their answers (R49 to R52, R55 to R58), the
echoes of a HOME (R62), and the failure of an MSR attempt (R81). -/

namespace Sys2Proof.Machine

/-! ### Answers -/

/-- The configuration is over: IDLE, requester NONE; the failed list stays until the next request. -/
def Sequencer.over (q : Sequencer) : Sequencer :=
  { q with state := .idle, requester := .none, transactions := [], settleTimer := none, todo := []
           placed := [] }

/-- The configuration is reported ready (R51, R58). -/
def State.configReady (s : State) : State :=
  let s1 := s.onSeq Sequencer.over
  match s.seq.requester with
  | .sweep => s1.sweepReady
  | .hv => s1.hvReady
  | _ => s1

/-- The configuration is reported failed; the failed list ascends (R57). -/
def State.configFailed (s : State) : State :=
  let s1 := s.onSeq Sequencer.over
  let lowest := s.seq.failed.headD 0
  match s.seq.requester with
  | .sweep => s1.sweepFailed lowest
  | .hv => s1.hvFailed lowest
  | _ => s1

/-! ### Building the masks (R51, R52) -/

/-- The masks with nothing marked. -/
def Masks.clear : Masks := { a := 0, b := 0 }

/-- The desired masks of a module from the translated pairs (R51). -/
def desiredMasks (placed : List Placed) (module : Nat) : Masks :=
  (placed.filter fun x => x.module = module).foldl
    (fun m x =>
      match x.bus with
      | .a => { m with a := maskMark m.a x.channel }
      | .b => { m with b := maskMark m.b x.channel })
    Masks.clear

/-- Whether masks close both relays of some channel (R52). -/
def Masks.conflict (m : Masks) : Bool := m.a &&& m.b ≠ 0

/-- Whether a module gets a transaction (R51). -/
def State.needsTransaction (s : State) (module : Nat) (desired : Masks) : Bool :=
  match s.believed module with
  | some m => m ≠ desired
  | none => desired ≠ Masks.clear || s.alive module

/-- The transaction of a module before its first attempt is placed (R48, R51). -/
def Transaction.fresh (module : Nat) (masks : Masks) : Transaction :=
  { module, masks, attempt := 1, tag := none, timer := none, phase := .waiting }

/-- The transactions of the configuration, in ascending module address (R51). -/
def State.newTransactions (s : State) : List Transaction :=
  (s.modules.map fun a => Transaction.fresh a (desiredMasks s.seq.placed a)).filter fun t =>
    s.needsTransaction t.module t.masks

/-- Queue the first attempts, in ascending module address (R53). -/
def State.queueAttempts (s : State) (ts : List Transaction) : State :=
  ts.foldl (fun acc t => acc.handOver (switchEntry t.module t.masks)) s

/-- Every point is translated: the masks are tested and compared (R51, R52). -/
def State.buildMasks (s : State) : State :=
  if s.modules.any fun a => (desiredMasks s.seq.placed a).conflict then s.onSeq Sequencer.over
  else
    match s.newTransactions with
    | [] => s.configReady
    | ts =>
      (s.onSeq fun q => { q with state := .verifying, transactions := ts, placed := [] }).queueAttempts ts

/-! ### Translation (R49, R50) -/

/-- A pair is translated (R50). -/
def Sequencer.translated (q : Sequencer) (r : PointRec) : Sequencer :=
  match q.todo with
  | [] => q
  | p :: rest =>
    { q with todo := rest
             placed := q.placed ++ [{ module := r.module, channel := r.channel, bus := p.2 }] }

/-- Translate the pairs still to do, until a lookup has to wait; the first argument bounds their number. -/
def State.translate : Nat → State → State
  | fuel, s =>
    match s.seq.todo with
    | [] => s.buildMasks
    | p :: _ =>
      match fuel with
      | 0 => s
      | fuel + 1 =>
        let found := s.lookup p.1 .translate
        match found.2 with
        | some r => translate fuel (found.1.onSeq fun q => q.translated r)
        | none => found.1

/-- A requester asks for a configuration (R49). A refused request changes nothing, and its requester goes
on waiting (R100, R126). -/
def State.configRequest (s : State) (who : Requester) (settle : Nat) (pairs : List (Nat × Bus)) : State :=
  if s.fault.safeHalt || s.seq.state ≠ .idle || s.hv.state ≠ .safe then s
  else
    let todo := pairs.eraseDups
    (s.onSeq fun q =>
      { q with state := .translating, requester := who, settle, failed := [], todo
               placed := [] }).translate todo.length

/-- A lookup of the translation has been answered after a fill. -/
def State.translationFound (s : State) (r : PointRec) : State :=
  if s.seq.state ≠ .translating then s
  else (s.onSeq fun q => q.translated r).translate s.seq.todo.length

/-! ### Verification (R55 to R57) -/

/-- The configuration ends when its transaction list is empty (R57). -/
def State.configEnd (s : State) : State :=
  if s.seq.state ≠ .verifying || !s.seq.transactions.isEmpty then s
  else if s.seq.failed.isEmpty then
    s.onSeq fun q => { q with state := .settling, settleTimer := some (settleDelay q.settle) }
  else s.configFailed

/-- The transaction that an answer of a module with a tag belongs to: SENT, with that tag (R55, R56). -/
def State.answered (s : State) (module tag : Nat) : Option Transaction :=
  s.seq.transactions.find? fun t => t.module = module && t.tag = some tag && t.phase = .sent

/-- An own-tag ECH in VERIFYING (R55). -/
def State.verifyEcho (s : State) (module tag countA countB : Nat) : State :=
  match s.answered module tag with
  | none => s
  | some t =>
    if maskCount t.masks.a = countA && maskCount t.masks.b = countB then
      ((s.believe module (some t.masks)).endTransaction module).configEnd
    else ((s.faultAgainst module).attemptFails module).configEnd

/-- An answer to the HOME in progress (R62): counts of 0 and 0 leave the module all-open, any other counts leave it
UNKNOWN. An answer may come before the broadcast is sent, from a frame that had the tag before; it counts as any other
(log 56). -/
def State.homeEcho (s : State) (module tag countA countB : Nat) : State :=
  if s.seq.home.tag ≠ some tag || !(s.modules.contains module) then s
  else
    let s1 := s.believe module (if countA = 0 && countB = 0 then some Masks.clear else none)
    let s2 := s1.onSeq fun q =>
      { q with home := { q.home with answered := putAddress module q.home.answered } }
    if s2.seq.home.answerEnds then s2.homeEnd else s2

/-- An own-tag ECH is handed to the Switch Sequencer (R55, R62). -/
def State.ownEcho (s : State) (module tag countA countB : Nat) : State :=
  match s.seq.state with
  | .verifying => s.verifyEcho module tag countA countB
  | .homing => s.homeEcho module tag countA countB
  | _ => s

/-- An own SW frame comes back unclaimed (R56). -/
def State.switchUnclaimed (s : State) (module tag : Nat) : State :=
  match s.answered module tag with
  | none => s
  | some _ => (s.attemptFails module).configEnd

/-! ### The failure of an MSR attempt (R81) -/

/-- The attempt in MSR-WAIT fails: it is resent, or HEAD-TIMEOUT is reported. -/
def State.msrFails (s : State) : State :=
  if s.mc.attempt < 3 then
    (s.onMc fun m =>
      { m with state := .msrQueued, attempt := m.attempt + 1, timer := none, curTag := none }).handOver
      (msrEntry s.mc.range)
  else
    (s.mcIdle).reportFault
      { code := .headTimeout, hv := s.hv.state, net := s.mc.ctxNet, point := s.mc.ctxPoint, table := none }

end Sys2Proof.Machine
end

