-- ==== Sys2Proof/Machine/SweepReads.lean ====
section
/-! DEFINITION. What follows the reads of the Run Engine, the Sweep Engine and the HV Controller: the start of
a step (R26, R27), the reads of a visit (R96 to R103), the scans of an ISO step (R109 to R119) and the
point map of an INSUL step (R126). -/

namespace Sys2Proof.Machine

/-! ### Configurations (R100, R103, R112, R119, R126) -/

/-- The Sweep Engine asks for a configuration of points on the two buses. R112 and R119 give the points of each bus and
no order of the pairs, which R50 looks up in list order: bus A comes first, then bus B, each in the order in which its points
were read, net by net and member by member (log 52). -/
def State.sweepConfigure (s : State) (busA busB : List Nat) : State :=
  (s.onSweep fun w => { w with state := .configuring, reading := .none }).configRequest .sweep s.sweep.settle
    ((busA.map fun p => (p, Bus.a)) ++ busB.map fun p => (p, Bus.b))

/-- The HV Controller asks for the configuration of the net under test. R126 gives no order of its pairs, which R50 looks
up in list order: they ascend by point index, as they were read (log 52). -/
def State.hvConfigure (s : State) : State :=
  (s.onHv fun h => { h with work := .configuring }).configRequest .hv s.hv.settle s.hv.pairs.reverse

/-! ### Member visits (R96, R99, R103) -/

/-- The visited point is known: LEADCAL passes over its reference, any other point's record is read. -/
def State.visitPoint (s : State) (point : Nat) : State :=
  if s.sweep.kind = some .leadcal && s.sweep.fixedPoint = some point then s.sweepNextMember
  else (s.onSweep fun w => { w with visitedPoint := some point }).sweepRead .points point .memberPoint

/-- The module of the visited point is known (R99, R100). -/
def State.visitModule (s : State) (module : Nat) : State :=
  let s1 := s.onSweep fun w => { w with visitedModule := some module }
  if s.alive module then
    s1.sweepConfigure [s.sweep.fixedPoint.getD 0] [s.sweep.visitedPoint.getD 0]
  else s1.insertThenBoundary (moduleRecord .untested s.sweep.cursor s.sweep.visitedPoint none module)

/-- The net record of a CONT or LEADCAL net is known. A LEADCAL step reads the record of its reference point after the
record of its first net, and once: the fixed module is NONE until then (R96, R97, R103). -/
def State.visitNet (s : State) (r : NetRec) : State :=
  let s1 := s.onSweep fun w => { w with net := r }
  if s.sweep.kind = some .cont then
    if r.count = 1 || r.kind = .spare then s1.sweepNextNet
    else s1.sweepRead .members (r.first + r.anchor) .anchorPos
  else if s.sweep.fixedModule.isNone then s1.sweepRead .points (s.sweep.fixedPoint.getD 0) .refPoint
  else s1.sweepNextMember

/-! ### Scans (R109, R110, R112, R118, R119) -/

/-- Read the member position of the scan. -/
def State.scanNextMember (s : State) : State :=
  s.sweepRead .members (s.sweep.scan.record.first + s.sweep.scan.pos) .scanMember

/-- The next candidate of net k, or the search begins (R110). -/
def State.nextCandidate (s : State) (j : Nat) : State :=
  if j < s.bound .nets then s.startScan .candidate j
  else
    match s.sweep.candidates with
    | [] => s.sweepNextNet
    | cs =>
      (s.onSweep fun w => { w with stack := [{ start := 0, length := cs.length }] }).popGroup

/-- The next net of the group in hand, or the group's configuration (R112). -/
def State.nextGroupNet (s : State) : State :=
  match s.sweep.groupTodo with
  | g :: rest => (s.onSweep fun w => { w with groupTodo := rest }).startScan .groupNet g
  | [] => s.sweepConfigure s.sweep.busA s.sweep.busB

/-- The work list is built: its first entry is taken, or the correlation has ended (R118, R119). -/
def State.workBuilt (s : State) : State := (s.onSweep fun w => { w with workCursor := 0 }).takeEntry

/-- The scan has read every member, all on Alive modules. For an entry the members of the other net come first, each
position with its point record, then the anchor position, then the record of p: R119 names these reads and not their
order (log 44). -/
def State.scanDone (s : State) : State :=
  let c := s.sweep.scan
  match c.purpose with
  | .startK => s.nextCandidate (c.net + 1)
  | .candidate => (s.onSweep fun w => { w with candidates := w.candidates ++ [c.net] }).nextCandidate (c.net + 1)
  | .groupK => (s.onSweep fun w => { w with busA := c.points }).nextGroupNet
  | .groupNet => (s.onSweep fun w => { w with busB := w.busB ++ c.points }).nextGroupNet
  | .entryOther =>
    (s.onSweep fun w => { w with busB := c.points }).sweepRead .members (c.record.first + c.record.anchor)
      .entryAnchor
  | .workK | .workG => s.workBuilt

/-- The scan has found a member on a module that is not Alive (R109, R110, R112, R119). -/
def State.scanLost (s : State) (point module : Nat) : State :=
  match s.sweep.scan.purpose with
  | .startK => s.netEndRecord (moduleRecord .untested s.sweep.cursor (some point) none module)
  | .candidate => s.nextCandidate (s.sweep.scan.net + 1)
  | .groupK =>
    (s.onSweep fun w => { w with stack := [], inHand := none, skipped := 0 }).netEndRecord
      (moduleRecord .untested s.sweep.cursor (some point) none module)
  | .groupNet =>
    let g := s.sweep.inHand.getD { start := 0, length := 0 }
    (s.onSweep fun w => { w with skipped := w.skipped + g.length, inHand := none }).popGroup
  | .entryOther => s.nextEntry
  | .workK | .workG => s

/-- The members of the work list's nets are asked about one by one, up to eight entries (R118). -/
def State.workMember (s : State) (point : Nat) : State :=
  let c := s.sweep.scan
  let k := s.sweep.cursor
  let g := s.sweep.shortOther.getD 0
  let other := if c.purpose = .workK then g else k
  let isOpen := (findKey s.defects
    { kind := .opn, netA := c.net, point := some point, netB := none }).isSome
  let work :=
    if isOpen then
      s.sweep.work ++ [{ point, own := c.net, other, contSet := c.record.contSet }]
    else s.sweep.work
  let s1 := s.onSweep fun w => { w with work, scan := { w.scan with pos := w.scan.pos + 1 } }
  if 8 ≤ work.length then s1.workBuilt
  else if c.pos + 1 < c.record.count then s1.scanNextMember
  else if c.purpose = .workK then s1.startScan .workG g
  else s1.workBuilt

/-- A member position of the scan is known. -/
def State.scanMember (s : State) (point : Nat) : State :=
  match s.sweep.scan.purpose with
  | .workK | .workG => s.workMember point
  | _ => s.sweepRead .points point (.scanPoint point)

/-- The module of a member of the scan is known. -/
def State.scanModule (s : State) (point module : Nat) : State :=
  if s.alive module then
    let s1 := s.onSweep fun w =>
      { w with scan := { w.scan with pos := w.scan.pos + 1, points := w.scan.points ++ [point] } }
    if s1.sweep.scan.pos < s1.sweep.scan.record.count then s1.scanNextMember else s1.scanDone
  else s.scanLost point module

/-- The module of the point of the work list entry is known (R119). -/
def State.entryModule (s : State) (point module : Nat) : State :=
  if s.alive module then s.sweepConfigure [point] s.sweep.busB else s.nextEntry

/-! ### The reads of the Sweep Engine -/

/-- The visited point of a failed read, for the fault record (R96, R177, log 37). -/
def Sweep.readPoint (w : Sweep) : Option Nat :=
  match w.reading with
  | .refPoint => w.fixedPoint
  | .anchorPoint => w.fixedPoint
  | .memberPoint => w.visitedPoint
  | .scanPoint p => some p
  | .entryPoint => w.entry.map (·.point)
  | _ => none

/-- A direct read of the Sweep Engine completes with the bytes of its record (R96). -/
def State.sweepReadDone (s : State) (bs : List Byte) : State :=
  let point := decodePoint bs
  let member := wordAt bs 0
  match s.sweep.reading with
  | .none => s
  | .refPoint => (s.onSweep fun w => { w with fixedModule := some point.module }).sweepNextMember
  | .net => s.visitNet (decodeNet bs)
  | .anchorPos =>
    (s.onSweep fun w => { w with fixedPoint := some member }).sweepRead .points member .anchorPoint
  | .anchorPoint => (s.onSweep fun w => { w with fixedModule := some point.module }).sweepNextMember
  | .memberPos => s.visitPoint member
  | .memberPoint => s.visitModule point.module
  | .scanNet =>
    (s.onSweep fun w => { w with scan := { w.scan with record := decodeNet bs } }).scanNextMember
  | .scanMember => s.scanMember member
  | .scanPoint p => s.scanModule p point.module
  | .entryAnchor =>
    let e := s.sweep.entry.map (·.point) |>.getD 0
    (s.onSweep fun w => { w with otherAnchor := member }).sweepRead .points e .entryPoint
  | .entryPoint => s.entryModule (s.sweep.entry.map (·.point) |>.getD 0) point.module

/-! ### The reads of the HV Controller (R124, R126) -/

/-- The point read for the point map, for the fault record (R177). -/
def Hv.readPoint (h : Hv) : Option Nat :=
  match h.work with
  | .readingMap p => some p
  | _ => none

/-- Where a point stands in the configuration of net k: its net on bus A, every other on bus B (R126). -/
def hvPlace (k point : Nat) (r : PointRec) : List (Nat × Bus) :=
  match r.net with
  | none => []
  | some n => [(point, if n = k then Bus.a else Bus.b)]

/-- A read of the HV Controller completes with the bytes of its record. -/
def State.hvReadDone (s : State) (bs : List Byte) : State :=
  match s.hv.work with
  | .readingNet => s.hvNetRead (decodeNet bs)
  | .readingMap p =>
    let s1 := s.onHv fun h => { h with pairs := hvPlace h.cursor p (decodePoint bs) ++ h.pairs }
    if p + 1 < s.bound .points then
      (s1.onHv fun h => { h with work := .readingMap (p + 1) }).askRead .points (p + 1) .hvRead
    else s1.hvConfigure
  | _ => s

/-! ### The start of a step (R26, R27) -/

/-- The step's record is read, and the step is started (R26). -/
def State.stepStarts (s : State) (index : Nat) (x : StepRec) : State :=
  let s1 := (s.askWrite .steps index statusOffset [StepStatus.inProgress.code, 0, 0] .runWrite).onRun
    fun r =>
      { r with step := some index, inProgress := true, stepDefects := 0, insertFlag := false
               rampFlag := false, stopArmed := false, stepRec := some x, waiting := .owner
               summary := { r.summary with stepsRun := r.summary.stepsRun + 1, lastStep := some index } }
  match x.kind with
  | .cont => s1.sweepStart .cont x
  | .leadcal => s1.sweepStart .leadcal x
  | .iso => s1.sweepStart .iso x
  | .insul => s1.hvStart x
  | .mark => (s1.raise .mark).stepFinished
  | .endStep => s1.stepFinished
  | .other _ => s1.stepFinished

/-- The Run Engine's read of a step record completes (R26). -/
def State.runReadDone (s : State) (bs : List Byte) : State :=
  match s.run.waiting with
  | .stepRead i => s.stepStarts i (decodeStep bs)
  | _ => s

end Sys2Proof.Machine
end

