-- ==== Sys2Proof/Machine/Tables.lean ====
section
/-! DEFINITION. The Table Memory Controller (chapter 01): the table check, the end of a cache fill with the
lookups that waited for it, and the completion of a record access. -/

namespace Sys2Proof.Machine

/-! ### The table check (R17, R18) -/

/-- The check fails (R17). -/
def State.checkFails (s : State) (reason : CheckReason) (kind : TableKind) (index : Nat) : State :=
  (s.onTables fun t =>
    { t with result := .fail reason kind index, state := .loaded, check := none }).raise .checkDone

/-- The check passes (R17). -/
def State.checkPasses (s : State) : State :=
  ((s.onTables fun t => { t with result := .pass, state := .ready, check := none }).onCache fun c =>
    c.invalidate none).raise .checkDone

/-- The record that a place of the check reads. -/
def CheckWork.target (w : CheckWork) : TableKind × Nat :=
  match w.pos with
  | .point i => (.points, i)
  | .net j => (.nets, j)
  | .name _ i => (.names, i)
  | .member _ pos => (.members, w.net.first + pos)
  | .memberPoint _ _ p => (.points, p)
  | .found i => (.points, i)
  | .step i => (.steps, i)

/-- The check goes on with a place: its record is asked for. -/
def State.checkAt (s : State) (w : CheckWork) : State :=
  (s.onTables fun t => { t with check := some w }).askRead w.target.1 w.target.2 .check

/-- The check starts with its first pass, both working sets empty (R18). -/
def State.checkStarts (s : State) : State :=
  s.checkAt { pos := .point 0, net := NetRec.zero, claimed := [], found := [] }

/-- Whether the net and the kind of a point record go together (R18, pass 1). -/
def PointRec.netFits (r : PointRec) (nets : Nat) : Bool :=
  match r.net with
  | none => r.kind = .unused
  | some n => n < nets && r.kind ≠ .unused

/-- Pass 1 (R18). -/
def State.checkPoint (s : State) (w : CheckWork) (i : Nat) (r : PointRec) : State :=
  if r.module = headAddress || !s.configured r.module then s.checkFails .moduleUnconf .points i
  else if s.channels r.module ≤ r.channel then s.checkFails .channelRange .points i
  else if w.claimed.contains (r.module, r.channel) then s.checkFails .dupChannel .points i
  else if !r.netFits (s.bound .nets) then s.checkFails .netMismatch .points i
  else
    let w1 := { w with claimed := (r.module, r.channel) :: w.claimed }
    s.checkAt { w1 with pos := if i + 1 < s.bound .points then .point (i + 1) else .net 0 }

/-- Pass 2, a net (R18). R3 has the table check read all five tables, and the passes of R18 list no read of a name: that a
net which passes its four tests has its name read next, for parity alone, and that a name which no net names is not read, is
the model's choice (log 58). -/
def State.checkNet (s : State) (w : CheckWork) (j : Nat) (r : NetRec) : State :=
  if s.bound .members < r.first + r.count then s.checkFails .memberRange .nets j
  else if r.count ≤ r.anchor then s.checkFails .anchorRange .nets j
  else if (r.name.map fun n => decide (s.bound .names ≤ n)).getD false then s.checkFails .nameRange .nets j
  else if r.kind = .spare && r.count ≠ 1 then s.checkFails .spareShape .nets j
  else
    s.checkAt
      { w with net := r, pos := match r.name with
                                | none => .member j 0
                                | some i => .name j i }

/-- Pass 2, a member position (R18). -/
def State.checkMember (s : State) (w : CheckWork) (j pos p : Nat) : State :=
  if s.bound .points ≤ p then s.checkFails .memberRange .members (w.net.first + pos)
  else if w.found.contains p then s.checkFails .dupMember .members (w.net.first + pos)
  else s.checkAt { w with found := p :: w.found, pos := .memberPoint j pos p }

/-- Whether a member's kind fits its net's: WIRED in a WIRED net, SPARE in a SPARE net (R18). -/
def NetKind.fits : NetKind → PointKind → Bool
  | .wired, .wired => true
  | .spare, .spare => true
  | _, _ => false

/-- Pass 2, the point of a member position (R18). -/
def State.checkMemberPoint (s : State) (w : CheckWork) (j pos : Nat) (r : PointRec) : State :=
  if r.net ≠ some j then s.checkFails .netMismatch .members (w.net.first + pos)
  else if !(w.net.kind.fits r.kind) then s.checkFails .spareShape .members (w.net.first + pos)
  else
    s.checkAt
      { w with pos := if pos + 1 < w.net.count then .member j (pos + 1)
                      else if j + 1 < s.bound .nets then .net (j + 1) else .found 0 }

/-- Pass 3 (R18). -/
def State.checkFound (s : State) (w : CheckWork) (i : Nat) (r : PointRec) : State :=
  if r.net.isSome && !w.found.contains i then s.checkFails .netMismatch .points i
  else s.checkAt { w with pos := if i + 1 < s.bound .points then .found (i + 1) else .step 0 }

/-- Whether the kind code of a step names a kind (R10). -/
def StepKind.named : StepKind → Bool
  | .other _ => false
  | _ => true

/-- Pass 4 (R18). -/
def State.checkStep (s : State) (w : CheckWork) (i : Nat) (r : StepRec) : State :=
  if !r.kind.named || r.lastNet < r.firstNet || s.bound .nets ≤ r.lastNet
      || (r.kind = .leadcal && s.bound .points ≤ r.refPoint) then s.checkFails .stepRange .steps i
  else if i + 1 < s.bound .steps then s.checkAt { w with pos := .step (i + 1) }
  else s.checkPasses

/-- A read of the check completes (R18). -/
def State.checkReadDone (s : State) (bytes : Option (List Byte)) : State :=
  match s.tables.check with
  | none => s
  | some w =>
    match bytes with
    | none => s.checkFails .parity w.target.1 w.target.2
    | some bs =>
      match w.pos with
      | .point i => s.checkPoint w i (decodePoint bs)
      | .net j => s.checkNet w j (decodeNet bs)
      | .name j _ => s.checkAt { w with pos := .member j 0 }
      | .member j pos => s.checkMember w j pos (wordAt bs 0)
      | .memberPoint j pos _ => s.checkMemberPoint w j pos (decodePoint bs)
      | .found i => s.checkFound w i (decodePoint bs)
      | .step i => s.checkStep w i (decodeStep bs)

/-! ### Leads of an arithmetic operation (R86) -/

/-- A lead is known: it is added to the sum. -/
def ArithOp.leadKnown (o : ArithOp) (lead : Nat) : ArithOp :=
  match o with
  | .lowVolt raw (_ :: rest) sum => .lowVolt raw rest (sum + lead)
  | other => other

/-- The point whose lead the operation in service looks up next. -/
def Arith.nextLead (a : Arith) : Option Nat :=
  match a.job with
  | some { op := .lowVolt _ (p :: _) _, live := _ } => some p
  | _ => none

/-- A lead of the operation in service is known. -/
def State.leadKnown (s : State) (r : PointRec) : State :=
  s.onArith fun a => { a with job := a.job.map fun j => { j with op := j.op.leadKnown r.lead } }

/-- Look up the leads of the operation in service, that of the source point before that of the sink point, until a
lookup has to wait (R86 gives no order of the two; log 45). The first argument bounds their number (two). -/
def State.lookupLeads : Nat → State → State
  | 0, s => s
  | fuel + 1, s =>
    match s.arith.nextLead with
    | none => s
    | some p =>
      let found := s.lookup p .lead
      match found.2 with
      | some r => lookupLeads fuel (found.1.leadKnown r)
      | none => found.1

/-! ### The end of a fill (R3, R19, R20, R50, R86, R104) -/

/-- A lookup is answered after it had to wait. -/
def State.deliver (s : State) (who : LookupFor) (r : PointRec) : State :=
  match who with
  | .translate => s.translationFound r
  | .lead => (s.leadKnown r).lookupLeads 2
  | .reference => if s.sweep.state = .measuring then s.referenceKnown r else s
  | .dropped => s

/-- The lookups that wait are served, earliest first, until one has to be filled; the first argument
bounds their number. -/
def State.serveWaiting : Nat → State → State
  | 0, s => s
  | fuel + 1, s =>
    match s.cache.waiting with
    | [] => s
    | (p, who) :: rest =>
      if s.cache.fill.isSome then s
      else
        let found := (s.onCache fun c => { c with waiting := rest }).lookup p who
        match found.2 with
        | some r => serveWaiting fuel (found.1.deliver who r)
        | none => found.1

/-- The INVALIDATE MAP commands that waited for the fill of a point clear its entry and are answered, each
with the number of entries it cleared (R20). -/
def State.answerInvalidates (s : State) (point : Nat) : State :=
  s.cache.invalidates.foldl
    (fun acc tag =>
      (acc.onCache fun c => c.invalidate (some point)).reply tag 0x15 .ok [byte (acc.cache.count (some point))])
    (s.onCache fun c => { c with invalidates := [] })

/-- What the requester of a failed fill does, before the fault is reported: the translation stops, or the
operation ends without a result (R50, R86). -/
def State.fillFailed (s : State) (who : LookupFor) : State :=
  match who with
  | .translate => if s.seq.state = .translating then s.onSeq Sequencer.over else s
  | .lead => s.onArith fun a => { a with job := none }
  | _ => s

/-- The read of a fill completes (R19). R20 and R19 let both an INVALIDATE MAP and a lookup wait for the end of the fill
and do not order them: the INVALIDATE MAP is carried out and answered first, then the lookups that waited, then the
requester (log 28). -/
def State.fillDone (s : State) (bytes : Option (List Byte)) : State :=
  match s.cache.fill with
  | none => s
  | some (p, who) =>
    match bytes with
    | some bs =>
      let r := decodePoint bs
      let s1 := (s.onCache fun c => { c.filled p r with fill := none }).answerInvalidates p
      (s1.serveWaiting s1.cache.waiting.length).deliver who r
    | none =>
      let s1 := ((s.onCache fun c => { c with fill := none }).answerInvalidates p).fillFailed who
      (s1.tableParity .points p (some p)).serveWaiting s1.cache.waiting.length

/-! ### The completion of a record access (R2, R3) -/

/-- A failed record read is counted (R3). -/
def Tables.parityFailed (t : Tables) (kind : TableKind) (index : Nat) : Tables :=
  { t with parityCount := min 255 (t.parityCount + 1), parityLast := some (kind, index) }

/-- The reply of READ TABLE for a record of table memory (R11). -/
def State.answerReadTable (s : State) (tag : Byte) (kind : TableKind) (index : Nat)
    (bytes : Option (List Byte)) : State :=
  match bytes with
  | some bs => s.reply tag 0x0C .ok (byte kind.code :: be16 index ++ kind.sent bs)
  | none => s.reply tag 0x0C .tableError (byte kind.code :: be16 index)

/-- A lead has been written through: the cache entry of the point takes it, and the visit reaches its
boundary (R22, R105). -/
def State.leadWritten (s : State) (point lead : Nat) : State :=
  let s1 := s.onCache fun c => c.writeLead point lead
  if s.sweep.state = .writing && s.sweep.visitedPoint = some point then s1.atBoundary else s1

/-- The requester of a completed access goes on with the bytes read, or with the failure (R3). A direct read whose
reader has abandoned it has no owner any more: its data is not used (R106), and where it fails parity the failure is
counted and no fault is reported (log 46). -/
def State.accessDone (s : State) (a : Access) (bytes : Option (List Byte)) : State :=
  match a.owner with
  | .load tag code last => if last then s.reply tag code .ok else s
  | .leads tag last => if last then s.reply tag 0x0B .ok else s
  | .readTable tag => s.answerReadTable tag a.kind a.index bytes
  | .check => s.checkReadDone bytes
  | .fill => s.fillDone bytes
  | .runRead =>
    match bytes with
    | some bs => s.runReadDone bs
    | none => s.tableParity a.kind a.index none
  | .sweepRead =>
    match bytes with
    | some bs => s.sweepReadDone bs
    | none => s.tableParity a.kind a.index s.sweep.readPoint
  | .sweepLead point lead => s.leadWritten point lead
  | .hvRead =>
    match bytes with
    | some bs => s.hvReadDone bs
    | none => s.tableParity a.kind a.index s.hv.readPoint
  | .print =>
    let s1 := s.printRead bytes
    if s1.print.fmt.isNone then s1.printLook else s1
  | .runWrite => s
  | .dropped => s

/-- An access leaves the port; a command reset that waited for it can take effect (R2, R181). -/
def State.portDone (s : State) : State :=
  (s.onPort fun p => { p with queue := p.queue.drop 1 }).onRst fun r =>
    if r.phase = .accessing then { r with phase := .ready } else r

/-- A byte of the record comes to fail its parity check before the access (R3, log 9). -/
def State.upsetRecord (s : State) (a : Access) (upset : Option Nat) : State :=
  match upset with
  | some i => if i < a.kind.size then s.onMem fun m => m.upset (recordAddress a.kind a.index + i) else s
  | none => s

/-- The access in progress completes (R2, R3). -/
def State.completeAccess (s : State) (a : Access) : State :=
  match a.write with
  | some (offset, bytes) =>
    ((s.onMem fun m => m.writeRun (recordAddress a.kind a.index + offset) bytes).portDone).accessDone a none
  | none =>
    match s.mem.record a.kind a.index with
    | some bs => s.portDone.accessDone a (some bs)
    | none => (s.portDone.onTables fun t => t.parityFailed a.kind a.index).accessDone a none

end Sys2Proof.Machine
end

