-- ==== Sys2Proof/Machine/Printer.lean ====
section
/-! DEFINITION. Removals from the defect list and what they bring about (R39, R149, R150), the end of a line, and
PRINT DISABLE taking effect (R159 to R161). -/

namespace Sys2Proof.Machine

/-! ### Removals (R39, R150) -/

/-- The work that produced the pending record goes on (R39). -/
def State.producerInserted (s : State) : State :=
  if s.run.isInsul then s.hvInserted else s.sweepInserted

/-- A removal is reported to the Run Engine: the pending record, if there is one, is inserted, and a stall
ends (R39). -/
def State.removalReported (s : State) : State :=
  match s.run.slot with
  | none => s
  | some r =>
    let s1 := ((s.onRun fun x => { x with slot := none }).insert r).1
    if s.run.state = .stalled then (s1.onRun fun x => { x with state := .running }).producerInserted
    else s1

/-- A record leaves the list, and its removal is reported (R150). -/
def State.removeRecord (s : State) (seq : Nat) : State :=
  (s.onDefects fun ds => removeSeq ds seq).removalReported

/-- A record leaves if it may leave by now (R150). -/
def State.removeIfLeaving (s : State) (seq : Nat) : State :=
  if seqLeaves s.defects seq (s.print.state = .off) then s.removeRecord seq else s

/-- RETIRED is set on a record, and it leaves if it may (R149). -/
def State.retireRecord (s : State) (seq : Nat) : State :=
  (s.onDefects fun ds => setRetired ds seq).removeIfLeaving seq

/-- The records of one RETIRE DEFECTS, one at a time (R149). -/
def State.retireAll (s : State) (seqs : List Nat) : State := seqs.foldl State.retireRecord s

/-! ### PRINT DISABLE takes effect (R161) -/

/-- The Print Engine when PRINT DISABLE takes effect: the copies count is kept (R161). -/
def Print.off (p : Print) : Print := { Print.reset with copies := p.copies }

/-- A format operation has no line to go to any more: a waiting one is withdrawn, and the result of one in service goes
unused (log 55). -/
def Arith.dropFormat (a : Arith) : Arith :=
  { job := a.job.map fun j =>
      match j.op with
      | .format _ => { j with live := false }
      | _ => j
    waiting := a.waiting.filter fun r => r ≠ .format }

/-- PRINT DISABLE takes effect, and then every RETIRED record leaves, one at a time (R150, R161). Of a line that is discarded
while it is formatted, the waiting table read and format request are withdrawn, and those in progress end unused (log 55). -/
def State.printOff (s : State) : State :=
  let s1 := ((s.onPrint Print.off).onPort fun p => p.give fun o => o = .print).onArith Arith.dropFormat
  ((s1.defects.filter (·.retired)).map (·.seq)).foldl State.removeRecord s1

/-! ### Characters (R159, R160) -/

/-- The Print Engine goes on after a line, no request being set: step 4 (R159). The buffer that became EMPTY brings a look
for work in each case (R154), though no line can begin while the other is FORMATTING. -/
def State.afterLine (s : State) : State :=
  match s.print.bufferIn .ready with
  | some second => (s.startSending second).printLook
  | none =>
    (s.onPrint fun p =>
      { p with state := if (p.bufferIn .formatting).isSome then .format else .idle }).printLook

/-- The LF of the line of a buffer has been sent (R159). Where the removal of step 1 lets the pending record be appended,
that append is an event of R154 of its own: its look is made at step 1, while the buffer of the line sent is not yet EMPTY
and whatever request is set, so that the record's line can only begin in the other buffer; the buffer becoming EMPTY brings
the look of step 4 (log 50). -/
def State.lineEnd (s : State) (second : Bool) : State :=
  let s1 :=
    match (s.print.buffer second).recordSeq with
    | some n => (s.onDefects fun ds => setPrinted ds n).removeIfLeaving n
    | none => s
  let s2 := s1.onPrint fun p =>
    { p.onBuffer second (fun _ => Buffer.empty) with sendPos := 0, char := none }
  if s2.print.disableReq then s2.printOff
  else if s2.print.holdReq then s2.onPrint fun p => { p with state := .held, holdReq := false }
  else s2.afterLine

/-- A character has been sent: the next is examined and begun, or the line has ended (R159). -/
def State.charSent (s : State) : State :=
  match s.print.char, s.print.bufferIn .sending with
  | some _, some second =>
    if s.print.sendPos + 1 < (s.print.buffer second).text.length then
      (s.onPrint fun p => { p with sendPos := p.sendPos + 1 }).beginChar
    else s.lineEnd second
  | _, _ => s

/-- The BUSY timer expires while a character waits (R160, R161). -/
def State.busyExpired (s : State) : State :=
  let s1 := (s.onPrint fun p => { p with state := .faulted, busyTimer := none }).raise .printerFault
  if s1.print.disableReq then s1.printOff else s1

end Sys2Proof.Machine
end

