-- ==== Sys2Proof/WellFormed.lean ====
section
/-! DEFINITION. Which operands spell an arrival of their row. A term that is not well formed is no such arrival: a
frame that R165 or R169 discards, an address out of range, or bytes that another row takes. Such a term too has an
outcome: a frame that is discarded does nothing (log 4, log 38). -/

namespace Sys2Proof

/-- A command code and its arguments fit one frame (R164, R172). -/
def argsFit (args : List Byte) : Bool := args.length ≤ 63

/-- The address of a node that answers (R169). -/
def isNodeAddress (src : Byte) : Bool := 1 ≤ src.toNat && src.toNat ≤ 126

/-- A payload that a frame of the trunk can carry (R164, R165). -/
def payloadFits (payload : List Byte) : Bool := payload.length ≤ 64

/-- A returned frame that R165 lets through (R164, R165, R169). -/
def isReturned (cls : Byte) (payload : List Byte) : Bool :=
  payloadFits payload && ringLengthAllowed cls payload.length

/-- The operands that spell an arrival of their row. -/
def Instr.WellFormed : Instr → Bool
  | .identify _ args => argsFit args
  | .readStatus _ args => argsFit args.bytes
  | .loadDimensions _ args => argsFit args
  | .loadPoints _ args => argsFit args
  | .loadNets _ args => argsFit args
  | .loadMembers _ args => argsFit args
  | .loadNames _ args => argsFit args
  | .loadSteps _ args => argsFit args
  | .loadModules _ args => argsFit args
  | .loadLimits _ args => argsFit args
  | .loadLeads _ args => argsFit args
  | .readTable _ args => argsFit args
  | .checkTables _ args => argsFit args
  | .startRun _ args => argsFit args
  | .pause _ args => argsFit args
  | .resume _ args => argsFit args
  | .abort _ args => argsFit args
  | .release _ args => argsFit args
  | .readDefects _ args => argsFit args
  | .retireDefects _ args => argsFit args
  | .invalidateMap _ args => argsFit args
  | .probeMap _ args => argsFit args
  | .keep _ args => argsFit args
  | .readEvents _ args => argsFit args
  | .clearEvents _ args => argsFit args
  | .setEventMask _ args => argsFit args
  | .printEnable _ args => argsFit args
  | .printDisable _ args => argsFit args
  | .printHold _ args => argsFit args
  | .printGo _ args _ => argsFit args
  | .readModules _ args => argsFit args
  | .readFault _ args => argsFit args
  | .clearFault _ args => argsFit args
  | .resetChip _ args => argsFit args
  | .unknownCommand _ _ args => argsFit args
  | .passThroughRequest frame => payloadFits frame.payload
  | .frameDiscarded link bytes => frameIsDiscarded link bytes
  | .trunkFrameSent => true
  | .ringFrameSent => true
  | .returnedFrame dst cls _ payload => dst.toNat ≤ 127 && isReturned cls payload
  | .echReceived src _ _ _ => isNodeAddress src
  | .staReceived src _ _ _ _ _ _ => isNodeAddress src
  | .smpReceived src _ _ _ _ _ _ => isNodeAddress src
  | .echoTimeout module => 1 ≤ module && module ≤ 64
  | .homeEchoTimeout => true
  | .settleTimeout => true
  | .sampleTimeout => true
  | .monitorPeriodExpiry => true
  | .rampTimerExpiry => true
  | .dwellTimerExpiry => true
  | .dischargeTimerExpiry => true
  | .keepaliveExpiry => true
  | .busyTimeout => true
  | .interlockOpens => true
  | .interlockCloses => true
  | .prnBusyFalls => true
  | .printCharacterSent _ => true
  | .powerOnReset _ => true
  | .pinReset => true
  | .clockLossReset => true
  | .commandReset => true
  | .resetEnd => true
  | .tableAccessComplete _ _ => true
  | .arithmeticOperationStart => true
  | .arithmeticOperationEnd _ => true

end Sys2Proof
end

