-- ==== Sys2Proof/Machine/Resets.lean ====
section
/-! DEFINITION. Resets (R180, R181, and the reset paragraph of each block), monitor period starts (R66), and the
frame in which every row of the operation table stands. -/

namespace Sys2Proof.Machine

/-- What a row answers. -/
abbrev Answer := Host.Outcome State Fault Refusal

/-! ### The frame of an event -/

/-- At the end of an event the head of the trunk transmit queue is being sent (R173, log 12). -/
def State.endEvent (s : State) : State := s.onTrunk fun t => { t with begun := !t.queue.isEmpty }

/-- An event of a chip that is out of reset; while it is held in reset nothing happens (R180). -/
def State.event (s : State) (f : State → State) : Answer :=
  if s.rst.held then .next s else .next (f s).endEvent

/-- Whether a frame from TRK_RX is discarded before it is looked at: the chip is held in reset, RESET CHIP has
been taken (R181), or the transmit queue has no room (R167). -/
def State.trunkDeaf (s : State) : Bool := s.rst.held || s.rst.phase ≠ .none || s.trunkFull

/-- A command arrives. Arguments that no frame can carry are discarded with it: LEN exceeds 64 (R165). In SAFE-HALT
a command is answered HALTED unless it is one of the four that are taken there (R172). -/
def State.command (s : State) (tag code : Byte) (inHalt : Bool) (args : List Byte) (body : State → State) :
    Answer :=
  if s.trunkDeaf || !argsFit args then .next s
  else if s.fault.safeHalt && !inHalt then .next (s.reply tag code .halted).endEvent
  else .next (body s).endEvent

/-- A command without arguments: any argument byte is answered BAD-ARG (R172, log 22). -/
def State.bareCommand (s : State) (tag code : Byte) (inHalt : Bool) (args : List Byte)
    (body : State → State) : Answer :=
  s.command tag code inHalt args fun s => if args.isEmpty then body s else s.reply tag code .badArg

/-! ### Monitor period starts (R66, R67) -/

/-- A monitor period starts: the timer, the poll round, and the signal to the HV Controller. -/
def State.periodStart (s : State) : State :=
  ((s.onSup fun u =>
    { u with timer := some s.limits.timing.period
             pollList := if s.fault.safeHalt then [] else s.modules ++ [headAddress] }).pump).hvPeriod

/-! ### Resets -/

/-- The table state after a command reset (R16). -/
def TableState.afterCommandReset : TableState → TableState
  | .empty => .empty
  | _ => .loaded

/-- Every block after a reset, the chip being held in it: what the command reset keeps is given by the
table of R181. -/
def State.inReset (s : State) (cause : ResetCause) (command : Bool) : State :=
  { State.reset with
    mem := s.mem
    tables :=
      { State.reset.tables with
        dims := if command then s.tables.dims else none
        state := if command then s.tables.state.afterCommandReset else .empty }
    limits := if command then s.limits else Limits.default
    sup := Supervisor.reset (if command then s.sup.nodes.map fun n => Node.cleared n.channels
                             else List.replicate 65 (Node.cleared 0))
    rst := { held := true, cause, phase := .none }
    pins := s.pins
    torn := s.torn
    pending := s.pending }

/-- The access in progress is abandoned by a power, pin or clock reset: of a write, some bytes are new (R2,
log 7). -/
def State.tearWrite (s : State) : State :=
  match s.port.queue with
  | { kind, index, write := some (offset, bytes), owner := _ } :: _ =>
    { s with mem := s.mem.writeTorn s.torn (recordAddress kind index + offset) 0 bytes, torn := s.torn + 1 }
  | _ => s

/-- Table memory loses its power: its contents and their parity are unknown (R2, log 8). -/
def TableMem.lost (m : TableMem) : TableMem := { cells := [], dp := [], epoch := m.epoch + 1 }

/-- The reply of RESET CHIP has left TRK_TX: the command reset waits for the record access in progress, if
any (R2, R181). -/
def State.resetReplySent (s : State) : State :=
  s.onRst fun r => { r with phase := if s.port.queue.isEmpty then .ready else .accessing }

/-- A supply falls below its range (R180). -/
def execPowerOnReset (memoryPowered : Bool) (s : State) : Answer :=
  let s1 := s.tearWrite
  .next ((if memoryPowered then s1 else s1.onMem TableMem.lost).inReset .power false)

/-- RESET# goes low (R180). -/
def execPinReset (s : State) : Answer := .next (s.tearWrite.inReset .pin false)

/-- REFCLK shows no edge for 100 µs (R180). -/
def execClockLossReset (s : State) : Answer := .next (s.tearWrite.inReset .clock false)

/-- The command reset takes effect (R181, log 32). -/
def execCommandReset (s : State) : Answer :=
  if s.rst.phase = .ready then .next (s.inReset .command true) else .next s

/-- No reset condition holds any longer: the chip leaves reset and the first monitor period starts (R66,
R139, R180, log 35). -/
def execResetEnd (s : State) : Answer :=
  if s.rst.held then .next ((s.onRst fun r => { r with held := false }).periodStart).endEvent
  else .next s

end Sys2Proof.Machine
end

