-- ==== Sys2Proof/Machine/LinkEvents.lean ====
section
/-! DEFINITION. Arrivals and departures of frames that are no commands (chapters 03, 04, 05 and 11): pass-through
requests, discarded frames, frames sent, returned frames, and the answers of the nodes. -/

namespace Sys2Proof.Machine

/-! ### Pass-through (R170) -/

/-- Whether a pass-through class allows a length (R170, R174). -/
def passLengthAllowed (cls : Byte) (len : Nat) : Bool :=
  if cls = clsSw then len = 0 || len = 32
  else if cls = clsPol then len = 0
  else if cls = clsMsr then len = 1
  else false

/-- The first refusal of a pass-through request that applies (R170). -/
def State.passRefusal (s : State) (f : Frame) : Option Result :=
  if f.cls = clsHvc then some .hvLive
  else if f.tag.toNat < 128 then some .badTag
  else if f.src ≠ 0 || f.dst = 0 || !passLengthAllowed f.cls f.payload.length then some .badArg
  else if s.ringOwned then some .ringOwned
  else if (f.cls = clsSw || f.cls = clsMsr) && s.hv.state ≠ .safe then some .hvLive
  else if 8 ≤ s.ring.queue.length then some .busy
  else none

/-- A pass-through request is refused, or placed at the tail of the ring transmit queue as received (R170). -/
def State.passThrough (s : State) (f : Frame) : State :=
  match s.passRefusal f with
  | some r => s.reply f.tag 0x00 r [f.dst, f.cls]
  | none => s.onRing fun x => { x with queue := x.queue ++ [{ frame := f, owner := .passThrough }] }

/-- A frame of class SW, POL, MSR or HVC arrives from the controller (R167, R170). -/
def execPassThroughRequest (frame : PassRequest) (s : State) : Answer :=
  if s.trunkDeaf || !payloadFits frame.payload then .next s
  else .next (s.passThrough frame.frame).endEvent

/-- A received frame is discarded, with no effect of any kind (R165, R167, R169, R172). -/
def execFrameDiscarded (_link : Link) (_bytes : List Byte) (s : State) : Answer := .next s

/-! ### Frames sent (R171, R173) -/

/-- The head frame has left TRK_TX: a held notice takes the freed room, and the reply of RESET CHIP lets the
command reset come (R173, R181). -/
def State.trunkSent (s : State) : State :=
  match s.trunk.queue with
  | [] => s
  | e :: rest =>
    let s1 := s.onTrunk fun t => { t with queue := rest, begun := false }
    let s2 := if s.trunk.held then s1.noticeDue else s1
    if e.kind = .resetReply then s2.resetReplySent else s2

/-- A frame finishes leaving TRK_TX (R173). -/
def execTrunkFrameSent (s : State) : Answer := s.event State.trunkSent

/-- The MSR frame of the outstanding request has been sent (R78). -/
def State.msrSent (s : State) (tag : Nat) : State :=
  if s.mc.state = .msrQueued && s.mc.curTag = some tag then
    s.onMc fun m => { m with state := .msrWait, timer := some s.limits.timing.sample }
  else s

/-- The HOME broadcast has been sent; with nothing to wait for, the HOME ends (R61). -/
def State.homeFrameSent (s : State) (tag : Nat) : State :=
  let s1 := s.homeSent tag
  if s1.seq.state = .homing && s1.seq.home.tag = some tag && s1.seq.home.allAnswered then s1.homeEnd
  else s1

/-- What the owner of a frame does when the frame is sent (R53, R61, R78, R171). -/
def State.sentAct (s : State) (e : RingEntry) : State :=
  match e.owner with
  | .switch m => s.switchSent m e.frame.tag.toNat
  | .home => s.homeFrameSent e.frame.tag.toNat
  | .msr => s.msrSent e.frame.tag.toNat
  | _ => s

/-- The Ring Interface takes the head frame to send it, and the oldest waiting frame is placed. An SW frame is
not sent while the HV state is not SAFE (R54, R171). -/
def State.ringSent (s : State) : State :=
  match s.ring.queue with
  | [] => s
  | e :: rest =>
    let s1 := (s.onRing fun r => { r with queue := rest }).pump
    if e.frame.cls = clsSw && s.hv.state ≠ .safe then s1 else s1.sentAct e

/-- The Ring Interface takes the head frame of the ring transmit queue to send it (R171). -/
def execRingFrameSent (s : State) : Answer := s.event State.ringSent

/-! ### Returned frames (R169) -/

/-- An own frame comes back unclaimed and goes to its owner by class (R56, R81). -/
def State.ownUnclaimed (s : State) (dst : Nat) (cls : Byte) (tag : Nat) : State :=
  if cls = clsSw then s.switchUnclaimed dst tag
  else if cls = clsMsr && s.mc.state = .msrWait && s.mc.curTag = some tag then s.msrFails
  else s

/-- A frame with SRC 0 arrives at RING_IN (R169). A DST above 127, which R164 knows no node by, is discarded
(log 38). -/
def State.frameReturned (s : State) (f : Frame) : State :=
  let dst := f.dst.toNat
  if dst = 0 || 127 < dst then s
  else if dst = broadcastAddress then if f.tag.toNat < 128 then s else s.copyUp f
  else
    let s1 := s.faultAgainst dst
    if f.tag.toNat < 128 then s1.ownUnclaimed dst f.cls f.tag.toNat else s1.copyUp f

/-- A frame with SRC 0 arrives at RING_IN (R169); one with a length its class does not allow is discarded (R165). -/
def execReturnedFrame (dst cls tag : Byte) (payload : List Byte) (s : State) : Answer :=
  s.event fun s =>
    if isReturned cls payload then s.frameReturned { dst, src := 0, cls, tag, payload } else s

/-! ### ECH (R55, R62, R69) -/

/-- An ECH arrives from a node. -/
def State.echoArrives (s : State) (src tag countA countB : Byte) : State :=
  let s1 := s.heardFrom src.toNat
  if tag.toNat < 128 then s1.ownEcho src.toNat tag.toNat countA.toNat countB.toNat
  else s1.copyUp { dst := 0, src, cls := clsEch, tag, payload := [countA, countB] }

/-- An ECH addressed to the chip arrives (R55); one whose SRC is no node's address is discarded (R169, log 38). -/
def execEchReceived (src tag countA countB : Byte) (s : State) : Answer :=
  s.event fun s => if isNodeAddress src then s.echoArrives src tag countA countB else s

/-! ### STA (R68, R69) -/

/-- The kind that a STA reports (R68, R174). -/
def reportedKind (kind : Byte) : NodeKind :=
  if kind = 0 then .module else if kind = 1 then .head else .other

/-- A module whose closed counts differ from its believed state becomes UNKNOWN (R68). -/
def State.checkBelief (s : State) (module countA countB : Nat) : State :=
  if s.modules.contains module then
    match s.believed module with
    | some m =>
      if maskCount m.a = countA && maskCount m.b = countB then s else s.believe module none
    | none => s
  else s

/-- A STA arrives from a node (R68). -/
def State.statusArrives (s : State) (src tag kind channels countA countB flags : Byte) : State :=
  let s1 := (s.heardFrom src.toNat).onNode src.toNat fun n =>
    { n with kind := reportedKind kind, reported := channels.toNat }
  let s2 := s1.checkBelief src.toNat countA.toNat countB.toNat
  let s3 := if src.toNat = headAddress && staHvPresent flags then s2.hvEvidence else s2
  if tag.toNat < 128 then s3
  else s3.copyUp { dst := 0, src, cls := clsSta, tag, payload := [kind, channels, countA, countB, flags] }

/-- A STA addressed to the chip arrives (R68); one whose SRC is no node's address is discarded (R169, log 38). -/
def execStaReceived (src tag kind channels countA countB flags : Byte) (s : State) : Answer :=
  s.event fun s =>
    if isNodeAddress src then s.statusArrives src tag kind channels countA countB flags else s

/-! ### SMP (R69, R79) -/

/-- One more own-tag sample discarded, saturating (R76). -/
def Measure.discard (m : Measure) : Measure := { m with discards := min 65535 (m.discards + 1) }

/-- Whether an own-tag sample matches the outstanding request (R79). -/
def Measure.matchesTag (m : Measure) (tag : Nat) : Bool :=
  match m.state with
  | .msrWait => m.curTag = some tag
  | .stream => m.curTag = some tag || m.prevTag = some tag
  | _ => false

/-- A matched sample joins the sample queue; in MSR-WAIT it answers the request (R79). -/
def State.admitSample (s : State) (x : Sample) : State :=
  (s.onMc fun m =>
    { m with queue := m.queue ++ [x], timer := none
             state := if m.state = .msrWait then .msrAnswered else m.state }).onArith fun a =>
    { a with waiting := a.waiting ++ [.sample] }

/-- An own-tag sample is matched (R79, steps 4 to 6). -/
def State.ownSample (s : State) (tag : Nat) (x : Sample) : State :=
  if !(s.mc.matchesTag tag) || 8 ≤ s.mc.queue.length then s.onMc Measure.discard else s.admitSample x

/-- A sample from the head arrives (R79, steps 2 to 6). -/
def State.sampleArrives (s : State) (tag seq : Byte) (vcode icode : BitVec 16) (range flags : Byte) :
    State :=
  let s1 := s.heardFrom headAddress
  let s2 := if sampleHv flags then s1.hvEvidence else s1
  if tag.toNat < 128 then
    s2.ownSample tag.toNat
      { seq := seq.toNat, vcode, icode, range := range.toNat, ovl := sampleOvl flags
        cmp := sampleCmp flags, hv := sampleHv flags }
  else
    s2.copyUp
      { dst := 0, src := byte headAddress, cls := clsSmp, tag
        payload := [seq] ++ be16 vcode.toNat ++ be16 icode.toNat ++ [range, flags] }

/-- An SMP arrives; one that is not from the head is discarded (R79, step 1). R76 has the sample discard count cover own-tag
SMP frames discarded on arrival, and step 1 states no increment: that such a frame with an own tag leaves the count as it is
is the model's choice (log 53). -/
def execSmpReceived (src tag seq : Byte) (vcode icode : BitVec 16) (range flags : Byte) (s : State) :
    Answer :=
  s.event fun s =>
    if src.toNat = headAddress then s.sampleArrives tag seq vcode icode range flags else s

end Sys2Proof.Machine
end

