-- ==== Sys2Proof/Machine/LoadCommands.lean ====
section
/-! DEFINITION. The commands of the Table Memory Controller and of the Point Translation Cache (chapter 01): the
structural loads, LOAD LIMITS, LOAD LEADS, READ TABLE, CHECK TABLES, INVALIDATE MAP and PROBE MAP. -/

namespace Sys2Proof.Machine

/-! ### Structural loads (R5) -/

/-- The refusals of a structural load before its payload is looked at: steps 2 to 4 of R5. -/
def State.loadRefusal (s : State) (needsDims : Bool) : Option Result :=
  if s.run.active then some .busy
  else if s.tables.state = .checking then some .busy
  else if needsDims && s.tables.dims.isNone then some .notReady
  else none

/-- An accepted structural load moves the table state to LOADED and sets the check result to NONE (R5). -/
def Tables.loaded (t : Tables) : Tables := { t with state := .loaded, result := .none }

/-- The first index and the records of a load of a table of table memory, or nothing where R5 step 5 refuses
it. -/
def State.loadRecords (s : State) (kind : TableKind) (args : List Byte) : Option (Nat × List (List Byte)) :=
  if args.length < 2 then none
  else
    let first := wordAt args 0
    match records kind.loadSize (args.drop 2) with
    | none => none
    | some rs =>
      if first + rs.length ≤ s.bound kind && rs.all kind.loadOk then some (first, rs) else none

/-- Ask for the writes of the records of a load; the reply follows the last (R5, log 10, 14). -/
def State.askLoad (s : State) (kind : TableKind) (tag code : Byte) (first : Nat) :
    List (List Byte) → State
  | [] => s
  | r :: rest =>
    (s.askWrite kind first 0 (kind.stored r) (.load tag code rest.isEmpty)).askLoad kind tag code (first + 1)
      rest

/-- A load of a table of table memory (R5 to R10). -/
def State.loadTable (s : State) (kind : TableKind) (tag code : Byte) (args : List Byte) : State :=
  match s.loadRefusal true with
  | some r => s.reply tag code r
  | none =>
    match s.loadRecords kind args with
    | none => s.reply tag code .badArg
    | some (first, rs) => (s.onTables Tables.loaded).askLoad kind tag code first rs

/-- LOAD DIMENSIONS (R4). -/
def execLoadDimensions (tag : Byte) (args : List Byte) (s : State) : Answer :=
  s.command tag 0x03 false args fun s =>
    match s.loadRefusal false with
    | some r => s.reply tag 0x03 r
    | none =>
      match decodeDimensions args with
      | none => s.reply tag 0x03 .badArg
      | some d => (s.onTables fun t => { t.loaded with dims := some d }).reply tag 0x03 .ok

/-- LOAD POINTS (R6). -/
def execLoadPoints (tag : Byte) (args : List Byte) (s : State) : Answer :=
  s.command tag 0x04 false args fun s => s.loadTable .points tag 0x04 args

/-- LOAD NETS (R7). -/
def execLoadNets (tag : Byte) (args : List Byte) (s : State) : Answer :=
  s.command tag 0x05 false args fun s => s.loadTable .nets tag 0x05 args

/-- LOAD MEMBERS (R8). -/
def execLoadMembers (tag : Byte) (args : List Byte) (s : State) : Answer :=
  s.command tag 0x06 false args fun s => s.loadTable .members tag 0x06 args

/-- LOAD NAMES (R9). -/
def execLoadNames (tag : Byte) (args : List Byte) (s : State) : Answer :=
  s.command tag 0x07 false args fun s => s.loadTable .names tag 0x07 args

/-- LOAD STEPS (R10). -/
def execLoadSteps (tag : Byte) (args : List Byte) (s : State) : Answer :=
  s.command tag 0x08 false args fun s => s.loadTable .steps tag 0x08 args

/-! ### LOAD MODULES (R12, R63, R73) -/

/-- The first address and the channel counts, or nothing where R5 or R12 refuses them. -/
def loadModulesArgs (args : List Byte) : Option (Nat × List Nat) :=
  let first := wordAt args 0
  let counts := (args.drop 2).map (·.toNat)
  if args.length < 3 || first = 0 || 65 < first + counts.length || counts.any (128 < ·) then none
  else some (first, counts)

/-- Write channel counts from an address on: each address written becomes UNKNOWN (R12, R63). -/
def State.writeChannels (s : State) (address : Nat) : List Nat → State
  | [] => s
  | c :: rest =>
    (((s.onSup fun u =>
        { u with nodes := u.nodes.modify (address - 1) fun n => { n with channels := c } }).believe address
      none)).writeChannels (address + 1) rest

/-- The flags of every entry are cleared, the reported kind and channels are kept (R73). -/
def Node.flagsCleared (n : Node) : Node := { n with heard := false, fault := false, alive := false }

/-- What an accepted LOAD MODULES does to supervision (R73). -/
def State.modulesLoaded (s : State) : State :=
  let s1 := s.onSup fun u => { u with nodes := u.nodes.map Node.flagsCleared }
  let s2 := if s.sup.nodes.any (·.alive) then s1.raise .moduleChange else s1
  s2.periodStart

/-- LOAD MODULES (R12). -/
def execLoadModules (tag : Byte) (args : List Byte) (s : State) : Answer :=
  s.command tag 0x09 false args fun s =>
    match s.loadRefusal false with
    | some r => s.reply tag 0x09 r
    | none =>
      match loadModulesArgs args with
      | none => s.reply tag 0x09 .badArg
      | some (first, counts) =>
        (((s.onTables Tables.loaded).writeChannels first counts).reply tag 0x09 .ok).modulesLoaded

/-! ### LOAD LIMITS (R13) -/

/-- The section and its fields, or nothing where R13 refuses the payload. -/
def loadLimitsArgs (args : List Byte) : Option (Section × List Byte) :=
  match args with
  | [] => none
  | sel :: fields =>
    match Section.ofCode sel.toNat with
    | none => none
    | some sec => if fields.length = sec.size then some (sec, fields) else none

/-- LOAD LIMITS (R13): CLAMPED where the stored section differs from the one carried. -/
def execLoadLimits (tag : Byte) (args : List Byte) (s : State) : Answer :=
  s.command tag 0x0A false args fun s =>
    if s.run.active then s.reply tag 0x0A .busy
    else
      match loadLimitsArgs args with
      | none => s.reply tag 0x0A .badArg
      | some (sec, fields) =>
        let s1 := s.onLimits fun l => l.load s.run.summary.defects sec fields
        s1.reply tag 0x0A (if s1.limits.section sec = fields then .ok else .clamped)

/-! ### LOAD LEADS (R21) -/

/-- Ask for the writes of leads; the reply follows the last (R21, log 10, 14). -/
def State.askLeads (s : State) (tag : Byte) (point : Nat) : List (List Byte) → State
  | [] => s
  | l :: rest =>
    (s.askWrite .points point leadOffset l (.leads tag rest.isEmpty)).askLeads tag (point + 1) rest

/-- The first point and the leads, or nothing where R21 refuses the payload. -/
def State.loadLeadsArgs (s : State) (args : List Byte) : Option (Nat × List (List Byte)) :=
  if args.length < 2 then none
  else
    match records 2 (args.drop 2) with
    | none => none
    | some ls =>
      if wordAt args 0 + ls.length ≤ s.bound .points then some (wordAt args 0, ls) else none

/-- LOAD LEADS (R21). -/
def execLoadLeads (tag : Byte) (args : List Byte) (s : State) : Answer :=
  s.command tag 0x0B false args fun s =>
    if s.run.active then s.reply tag 0x0B .busy
    else if s.tables.dims.isNone then s.reply tag 0x0B .notReady
    else
      match s.loadLeadsArgs args with
      | none => s.reply tag 0x0B .badArg
      | some (first, ls) => s.askLeads tag first ls

/-! ### READ TABLE (R11) -/

/-- The record of an on-chip table, or nothing where its index is out of range (R1, R11). -/
def State.onChipRecord (s : State) (kind : TableKind) (index : Nat) : Option (List Byte) :=
  match kind with
  | .dimensions => if index = 0 then some (encodeDimensions s.tables.dims) else none
  | .modules => if 1 ≤ index && index ≤ 64 then some [byte (s.channels index)] else none
  | .limits => (Section.ofCode index).map s.limits.section
  | _ => none

/-- READ TABLE of a kind and an index: a record of table memory is read before it is answered (R11). -/
def State.readRecord (s : State) (tag : Byte) (kind : TableKind) (index : Nat) : State :=
  match kind with
  | .dimensions | .modules | .limits =>
    match s.onChipRecord kind index with
    | some bs => s.reply tag 0x0C .ok (byte kind.code :: be16 index ++ bs)
    | none => s.reply tag 0x0C .badArg
  | _ =>
    if s.tables.dims.isNone then s.reply tag 0x0C .notReady
    else if s.bound kind ≤ index then s.reply tag 0x0C .badArg
    else s.askRead kind index (.readTable tag)

/-- READ TABLE (R11). -/
def execReadTable (tag : Byte) (args : List Byte) (s : State) : Answer :=
  s.command tag 0x0C false args fun s =>
    match args with
    | [code, _, _] =>
      match TableKind.ofCode code.toNat with
      | none => s.reply tag 0x0C .badArg
      | some kind => s.readRecord tag kind (wordAt args 1)
    | _ => s.reply tag 0x0C .badArg

/-! ### CHECK TABLES (R17) -/

/-- CHECK TABLES (R17). -/
def execCheckTables (tag : Byte) (args : List Byte) (s : State) : Answer :=
  s.bareCommand tag 0x0D false args fun s =>
    if s.run.active then s.reply tag 0x0D .busy
    else if s.tables.state = .checking then s.reply tag 0x0D .busy
    else if s.tables.state = .empty || s.tables.dims.isNone then s.reply tag 0x0D .notReady
    else
      ((s.onTables fun t => { t with state := .checking, result := .none }).reply tag 0x0D .ok).checkStarts

/-! ### INVALIDATE MAP and PROBE MAP (R20) -/

/-- The point that INVALIDATE MAP names, or all of them; nothing for any other value (R20). -/
def invalidateTarget (args : List Byte) : Option (Option Nat) :=
  if args.length ≠ 2 then none
  else if wordAt args 0 = 0xFFFF then some none
  else if wordAt args 0 ≤ 8191 then some (some (wordAt args 0))
  else none

/-- INVALIDATE MAP of a point or of all: a point that is being filled is waited for (R20). -/
def State.invalidateMap (s : State) (tag : Byte) (target : Option Nat) : State :=
  let waits : Bool :=
    match target, s.cache.fill with
    | some p, some (q, _) => decide (p = q)
    | _, _ => false
  if waits then s.onCache fun c => { c with invalidates := c.invalidates ++ [tag] }
  else (s.onCache fun c => c.invalidate target).reply tag 0x15 .ok [byte (s.cache.count target)]

/-- INVALIDATE MAP (R20). -/
def execInvalidateMap (tag : Byte) (args : List Byte) (s : State) : Answer :=
  s.command tag 0x15 false args fun s =>
    match invalidateTarget args with
    | none => s.reply tag 0x15 .badArg
    | some target => s.invalidateMap tag target

/-- The data of PROBE MAP: hit or miss as a set-or-clear item, 1 for a hit, and a miss carries no entry (R20, R174,
log 21). -/
def Cache.probe (c : Cache) (point : Nat) : List Byte :=
  match c.find point with
  | none => [boolByte false, byte c.pointer]
  | some i =>
    let r := ((c.entries[i]?).map (·.copy)).getD PointRec.zero
    [boolByte true, byte c.pointer, byte i, byte r.module, byte r.channel, r.kind.code] ++ be16 r.lead
      ++ optWord r.net

/-- PROBE MAP (R20). -/
def execProbeMap (tag : Byte) (args : List Byte) (s : State) : Answer :=
  s.command tag 0x16 false args fun s =>
    if args.length = 2 && wordAt args 0 ≤ 8191 then
      s.reply tag 0x16 .ok (s.cache.probe (wordAt args 0))
    else s.reply tag 0x16 .badArg

end Sys2Proof.Machine
end

