-- ==== Sys2Proof/Machine/RunCommands.lean ====
section
/-! DEFINITION. The commands of the Run Engine, the HV Controller, the Defect List, the Event Unit and the Print
Engine (chapters 02, 08, 09, 10 and 12). -/

namespace Sys2Proof.Machine

/-! ### START RUN (R24, R25) -/

/-- The first refusal of START RUN that applies, its payload being of the right shape (R24). -/
def State.startRefusal (s : State) (first copies : Nat) : Option Result :=
  if s.run.state ≠ .idle then some .busy
  else if s.tables.state ≠ .ready then some .notReady
  else if s.hv.state ≠ .safe then some .hvLive
  else if !s.alive headAddress then some .headDown
  else if !s.defects.isEmpty then some .defectsPending
  else if s.bound .steps ≤ first || 4 < copies then some .badArg
  else none

/-- The run record of an accepted START RUN (R25). -/
def Run.started (r : Run) (correlate : Bool) (first : Nat) : Run :=
  { r with state := .running, correlate, step := none, inProgress := false, stepDefects := 0
           insertFlag := false, rampFlag := false, stopArmed := false, pauseReq := false
           pauseCause := .none, abortCause := .none, slot := none, summary := Summary.cleared
           stepRec := none, waiting := .startHome first }

/-- An accepted START RUN (R25). -/
def State.runStarts (s : State) (correlate : Bool) (first copies : Nat) : State :=
  ((s.onRun fun r => r.started correlate first).printRunStarts first copies).requestHome

/-- START RUN (R24, R25). That a run option byte with an undefined bit is BAD-ARG is the model's choice, and so is the place
of that test: with the test of the payload's shape, after HALTED and before tests 2 to 6 of R24, so that such a START RUN is
BAD-ARG and not BUSY while a run is active (log 22, log 23). -/
def execStartRun (tag : Byte) (args : List Byte) (s : State) : Answer :=
  s.command tag 0x0E false args fun s =>
    match args with
    | [_, _, options, copies] =>
      if 1 < options.toNat then s.reply tag 0x0E .badArg
      else
        match s.startRefusal (wordAt args 0) copies.toNat with
        | some r => s.reply tag 0x0E r
        | none =>
          (s.reply tag 0x0E .ok).runStarts (options.getLsbD 0) (wordAt args 0) copies.toNat
    | _ => s.reply tag 0x0E .badArg

/-! ### PAUSE, RESUME, ABORT, RELEASE (R35, R37, R40, R46) -/

/-- PAUSE (R35). -/
def execPause (tag : Byte) (args : List Byte) (s : State) : Answer :=
  s.bareCommand tag 0x0F false args fun s =>
    if s.run.state = .running then (s.onRun fun r => { r with pauseReq := true }).reply tag 0x0F .ok
    else s.reply tag 0x0F .badState

/-- The run goes on with what the pause held back (R37). -/
def State.runContinues (s : State) : State :=
  match s.run.waiting with
  | .heldStep i => s.askStep i
  | .owner => if s.run.isInsul then s.hvNextNet else s.sweepGoOn
  | _ => s

/-- The run leaves PAUSED (R37). -/
def Run.resumed (r : Run) : Run := { r with state := .running, pauseCause := .none }

/-- RESUME (R37). Of a pause at the interlock, the interlock test that it brings is made in the same event: that no opening
of INTERLOCK can fall between the two, so that the run does not pause again there, is the model's choice (log 59). -/
def execResume (tag : Byte) (args : List Byte) (s : State) : Answer :=
  s.bareCommand tag 0x10 false args fun s =>
    if s.run.state ≠ .paused then s.reply tag 0x10 .badState
    else if s.run.pauseCause = .interlock then
      if s.pins.interlockClosed then ((s.reply tag 0x10 .ok).onRun Run.resumed).interlockTest
      else s.reply tag 0x10 .badState
    else ((s.reply tag 0x10 .ok).onRun Run.resumed).runContinues

/-- ABORT (R40). -/
def execAbort (tag : Byte) (args : List Byte) (s : State) : Answer :=
  s.bareCommand tag 0x11 false args fun s =>
    match s.run.state with
    | .running | .paused | .stalled => (s.reply tag 0x11 .ok).beginAbort .abort
    | .aborting => s.reply tag 0x11 .ok
    | .idle | .done => s.reply tag 0x11 .badState

/-- RELEASE (R46). -/
def execRelease (tag : Byte) (args : List Byte) (s : State) : Answer :=
  s.bareCommand tag 0x12 false args fun s =>
    if s.run.state = .done then (s.onRun fun r => { r with state := .idle }).reply tag 0x12 .ok
    else s.reply tag 0x12 .badState

/-! ### KEEP (R137) -/

/-- KEEP (R137). -/
def execKeep (tag : Byte) (args : List Byte) (s : State) : Answer :=
  s.bareCommand tag 0x17 false args fun s =>
    if s.hv.state = .ramp || s.hv.state = .dwell then
      (s.onHv fun h => { h with keepalive := s.limits.timing.keepalive }).reply tag 0x17 .ok
        (be16 s.limits.timing.keepalive)
    else s.reply tag 0x17 .badState

/-! ### READ DEFECTS and RETIRE DEFECTS (R148, R149) -/

/-- The data of READ DEFECTS from a seq on: the number of records in the list, and up to three of them
(R148). -/
def defectReport (ds : List Defect) (start : Nat) : List Byte :=
  be16 ds.length ++ (((ds.filter fun d => start ≤ d.seq).take 3).map Defect.bytes).flatten

/-- READ DEFECTS (R148). -/
def execReadDefects (tag : Byte) (args : List Byte) (s : State) : Answer :=
  s.command tag 0x13 false args fun s =>
    if args.length = 2 then s.reply tag 0x13 .ok (defectReport s.defects (wordAt args 0))
    else s.reply tag 0x13 .badArg

/-- RETIRE DEFECTS (R149). -/
def execRetireDefects (tag : Byte) (args : List Byte) (s : State) : Answer :=
  s.command tag 0x14 false args fun s =>
    if args.length = 2 then
      let seqs := retirable s.defects (wordAt args 0)
      (s.reply tag 0x14 .ok (be16 seqs.length)).retireAll seqs
    else s.reply tag 0x14 .badArg

/-! ### The Event Unit (R176) -/

/-- The event set of a payload, or nothing where its shape is wrong or a high bit is set (R176). -/
def eventSetArg (args : List Byte) : Option (BitVec 12) :=
  if args.length = 2 && wordAt args 0 < 4096 then some (BitVec.ofNat 12 (wordAt args 0)) else none

/-- READ EVENTS (R176). -/
def execReadEvents (tag : Byte) (args : List Byte) (s : State) : Answer :=
  s.bareCommand tag 0x18 false args fun s =>
    s.reply tag 0x18 .ok (eventSetBytes s.events.pending ++ eventSetBytes s.events.mask)

/-- CLEAR EVENTS (R176). -/
def execClearEvents (tag : Byte) (args : List Byte) (s : State) : Answer :=
  s.command tag 0x19 false args fun s =>
    match eventSetArg args with
    | none => s.reply tag 0x19 .badArg
    | some set =>
      let left := s.events.pending &&& ~~~set
      (s.onEvents fun u => { u with pending := left }).reply tag 0x19 .ok (eventSetBytes left)

/-- SET EVENT MASK (R176). -/
def execSetEventMask (tag : Byte) (args : List Byte) (s : State) : Answer :=
  s.command tag 0x1A false args fun s =>
    match eventSetArg args with
    | none => s.reply tag 0x1A .badArg
    | some set =>
      let s1 := (s.onEvents fun u => { u with mask := set }).reply tag 0x1A .ok (eventSetBytes set)
      if s.events.pending &&& s.events.mask &&& ~~~set ≠ 0 then s1.noticeDue else s1

/-! ### The Print Engine (R161, R162) -/

/-- PRINT ENABLE (R161): where it takes effect the Print Engine looks for work (R154). -/
def State.printEnable (s : State) : State :=
  match s.print.state with
  | .off => (s.onPrint fun p => { p with state := .idle }).printLook
  | .send =>
    if s.print.disableReq then (s.onPrint fun p => { p with disableReq := false }).printLook else s
  | _ => s

/-- PRINT ENABLE (R161). -/
def execPrintEnable (tag : Byte) (args : List Byte) (s : State) : Answer :=
  s.bareCommand tag 0x1B false args fun s => (s.reply tag 0x1B .ok).printEnable

/-- PRINT DISABLE (R161). -/
def State.printDisable (s : State) : State :=
  match s.print.state with
  | .off => s
  | .send => s.onPrint fun p => { p with disableReq := true }
  | _ => s.printOff

/-- PRINT DISABLE (R161). -/
def execPrintDisable (tag : Byte) (args : List Byte) (s : State) : Answer :=
  s.bareCommand tag 0x1C false args fun s => (s.reply tag 0x1C .ok).printDisable

/-- PRINT HOLD (R162). -/
def execPrintHold (tag : Byte) (args : List Byte) (s : State) : Answer :=
  s.bareCommand tag 0x1D false args fun s =>
    match s.print.state with
    | .idle | .format => (s.onPrint fun p => { p with state := .held }).reply tag 0x1D .ok
    | .send | .faulted => (s.onPrint fun p => { p with holdReq := true }).reply tag 0x1D .ok
    | .held => s.reply tag 0x1D .ok
    | .off => s.reply tag 0x1D .badState

/-- PRINT GO in HELD (R162). -/
def State.printGoHeld (s : State) : State :=
  match s.print.bufferIn .ready with
  | some second => (s.startSending second).printLook
  | none =>
    (s.onPrint fun p =>
      { p with state := if (p.bufferIn .formatting).isSome then .format else .idle }).printLook

/-- PRINT GO in FAULTED: sending resumes from the next unsent character (R162). -/
def State.printGoFaulted (s : State) : State :=
  ((s.onPrint fun p => { p with state := .send }).beginChar).printLook

/-- PRINT GO (R162). -/
def execPrintGo (tag : Byte) (args : List Byte) (busy : Bool) (s : State) : Answer :=
  (s.onPins fun p => { p with prnBusy := busy }).bareCommand tag 0x1E false args fun s =>
    match s.print.state with
    | .held => (s.reply tag 0x1E .ok).printGoHeld
    | .faulted => (s.reply tag 0x1E .ok).printGoFaulted
    | _ => s.reply tag 0x1E .badState

end Sys2Proof.Machine
end

