-- ==== Sys2Proof/Machine/StatusCommands.lean ====
section
/-! DEFINITION. The commands that report state (IDENTIFY, READ STATUS, READ MODULES, READ FAULT), the two that act
on the Fault Monitor and the Reset Monitor (CLEAR FAULT, RESET CHIP), and unknown commands. -/

namespace Sys2Proof.Machine

/-! ### IDENTIFY (R182) -/

/-- The six characters of the part identity (R182). -/
def partIdentity : List Byte := ascii ['P', 'T', '-', '8', '1', '6']

/-- The revision, 1..255 (R182, log 24). -/
def revision : Byte := byte (Config.revisionLessOne.val + 1)

/-- The data of IDENTIFY (R182). -/
def State.identity (s : State) : List Byte :=
  partIdentity ++ [revision, byte s.rst.cause.code, boolByte s.fault.safeHalt]

/-- IDENTIFY (R182). -/
def execIdentify (tag : Byte) (args : List Byte) (s : State) : Answer :=
  s.bareCommand tag 0x01 true args fun s => s.reply tag 0x01 .ok s.identity

/-! ### READ STATUS (R174) -/

/-- An optional table kind and index, all ones where absent. -/
def optTable : Option (TableKind × Nat) → List Byte
  | some (k, i) => byte k.code :: be16 i
  | none => [0xFF, 0xFF, 0xFF]

/-- The check result with its reason, table kind and index, all ones unless FAIL (R174, log 19). -/
def CheckResult.bytes : CheckResult → List Byte
  | .none => [0xFF, 0xFF, 0xFF, 0xFF, 0xFF]
  | .pass => [1, 0xFF, 0xFF, 0xFF, 0xFF]
  | .fail reason kind index => [2, byte reason.code, byte kind.code] ++ be16 index

/-- Section 0 (R174). -/
def Tables.status (t : Tables) : List Byte :=
  [byte t.state.code] ++ t.result.bytes ++ [byte t.parityCount] ++ optTable t.parityLast

/-- Section 1 (R174). -/
def Run.status (r : Run) : List Byte :=
  [byte r.state.code,
    flagsByte [r.correlate, r.inProgress, r.insertFlag, r.rampFlag, r.stopArmed, r.pauseReq,
      r.slot.isSome]]
    ++ optWord r.step ++ be16 r.stepDefects ++ [byte r.pauseCause.code, byte r.abortCause.code]
    ++ optByte (r.slot.map (·.key.kind.code)) ++ optWord (r.slot.map (·.key.netA))
    ++ optByte (r.summary.term.map (·.code)) ++ optWord r.summary.lastStep ++ be16 r.summary.stepsRun
    ++ be16 r.summary.defects ++ be32 r.summary.measurements

/-- Section 2 (R174). -/
def Sequencer.status (q : Sequencer) : List Byte :=
  [byte q.state.code, byte q.requester.code, byte q.transactions.length]

/-- Section 3 (R174). -/
def Measure.status (m : Measure) : List Byte :=
  [byte m.state.code, byte m.requester.code, byte m.attempt, byte m.queue.length] ++ be16 m.lost
    ++ be16 m.discards

/-- Section 4 (R174): the items from the candidate list length on are 0 for any step kind but ISO. -/
def Sweep.status (w : Sweep) : List Byte :=
  [byte w.state.code] ++ optByte (w.kind.map (·.code)) ++ optWord w.netCursor ++ optByte w.memberCursor
    ++ (if w.kind = some .iso then
          be16 w.candidates.length ++ [byte w.stack.length, byte w.shortCount] ++ be16 w.skipped
            ++ [byte w.work.length, byte w.workCursor]
        else List.replicate 8 0)

/-- Section 5 (R174). -/
def Hv.status (h : Hv) : List Byte :=
  [byte h.state.code, byte h.cause.code] ++ optWord h.net ++ be16 h.keepalive ++ [byte h.window.length]
    ++ [flagsByte [h.rampTimer.isSome, h.dwellTimer.isSome, h.dischargeTimer.isSome]]

/-- Section 6 (R143, R174). -/
def defectStatus (ds : List Defect) : List Byte :=
  be16 ds.length ++ be16 (ds.filter (·.provisional)).length ++ be16 (ds.filter (·.retired)).length
    ++ optWord (ds.getLast?.map (·.seq))

/-- A line buffer in section 7 (R174). -/
def Buffer.status (b : Buffer) : List Byte :=
  [byte b.state.code]
    ++ (match b.content with
        | none => [0xFF, 0xFF, 0xFF]
        | some (.record n) => [0] ++ be16 n
        | some .header => [1, 0xFF, 0xFF]
        | some .summary => [2, 0xFF, 0xFF])

/-- Section 7 (R152, R174). -/
def Print.status (p : Print) (busy : Bool) : List Byte :=
  [byte p.state.code] ++ p.buf0.status ++ p.buf1.status
    ++ [flagsByte [p.holdReq, p.disableReq, p.header.isSome, p.summaryDue, busy, p.busyTimer.isSome],
        byte p.summaryLeft, byte p.copies]

/-- The data of a section of READ STATUS; a section above 7 has none (R174). -/
def State.status (s : State) (sec : Nat) : Option (List Byte) :=
  match sec with
  | 0 => some s.tables.status
  | 1 => some s.run.status
  | 2 => some s.seq.status
  | 3 => some s.mc.status
  | 4 => some s.sweep.status
  | 5 => some s.hv.status
  | 6 => some (defectStatus s.defects)
  | 7 => some (s.print.status s.pins.prnBusy)
  | _ => none

/-- READ STATUS (R174). The level of PRN_BUSY that it reports is the pin's at this event (R152, log 18). -/
def execReadStatus (tag : Byte) (args : StatusArgs) (s : State) : Answer :=
  (s.onPins fun p => { p with prnBusy := args.busy }).command tag 0x02 true args.bytes fun s =>
    match args.bytes with
    | [sec] =>
      match s.status sec.toNat with
      | some data => s.reply tag 0x02 .ok data
      | none => s.reply tag 0x02 .badArg
    | _ => s.reply tag 0x02 .badArg

/-! ### READ MODULES (R64, R75, R174) -/

/-- The addresses that READ MODULES covers from a first address on, at most eight. -/
def moduleAddresses (first : Nat) : List Nat :=
  ((List.range' 1 64 ++ [headAddress]).filter fun a => first ≤ a).take 8

/-- The entry of an address in READ MODULES; the head has no channel count and no believed state. -/
def State.moduleEntry (s : State) (a : Nat) : List Byte :=
  let n := (s.node? a).getD (Node.cleared 0)
  let known := if a = headAddress then none else s.believed a
  [byte a, if a = headAddress then 0xFF else byte n.channels,
    flagsByte [n.heard, n.fault, n.alive, known.isSome], byte n.kind.code, byte n.reported,
    byte ((known.map fun m => maskCount m.a).getD 0), byte ((known.map fun m => maskCount m.b).getD 0)]

/-- The data of READ MODULES: the monitor period in force, the poll list count and the entries. -/
def State.moduleReport (s : State) (first : Nat) : List Byte :=
  [byte (s.sup.timer.getD s.limits.timing.period), byte s.sup.pollList.length]
    ++ ((moduleAddresses first).map s.moduleEntry).flatten

/-- READ MODULES (R75). -/
def execReadModules (tag : Byte) (args : List Byte) (s : State) : Answer :=
  s.command tag 0x1F false args fun s =>
    match args with
    | [first] =>
      if (nodeIndex first.toNat).isSome then s.reply tag 0x1F .ok (s.moduleReport first.toNat)
      else s.reply tag 0x1F .badArg
    | _ => s.reply tag 0x1F .badArg

/-! ### The Fault Monitor (R178) -/

/-- The data of READ FAULT: the fault record in the order of R177, then SAFE-HALT. -/
def FaultMon.bytes (f : FaultMon) : List Byte :=
  [boolByte f.valid] ++ optByte (f.code.map (·.code)) ++ optWord f.step ++ optWord f.net
    ++ optWord f.point ++ optByte (f.hv.map (·.code)) ++ optTable f.table
    ++ [boolByte f.second, boolByte f.safeHalt]

/-- READ FAULT (R178). -/
def execReadFault (tag : Byte) (args : List Byte) (s : State) : Answer :=
  s.bareCommand tag 0x20 true args fun s => s.reply tag 0x20 .ok s.fault.bytes

/-- CLEAR FAULT (R178). -/
def execClearFault (tag : Byte) (args : List Byte) (s : State) : Answer :=
  s.bareCommand tag 0x21 false args fun s =>
    if s.run.active then s.reply tag 0x21 .badState
    else (s.onFault fun _ => FaultMon.reset).reply tag 0x21 .ok

/-! ### RESET CHIP (R181) -/

/-- RESET CHIP is taken: its reply is placed at the tail, and frames from TRK_RX are discarded from then on. -/
def State.resetChip (s : State) (tag : Byte) : State :=
  (s.trunkPut { frame := replyFrame tag 0x22 .ok [], kind := .resetReply }).onRst fun r =>
    { r with phase := .replying }

/-- RESET CHIP (R181). -/
def execResetChip (tag : Byte) (args : List Byte) (s : State) : Answer :=
  s.bareCommand tag 0x22 true args fun s => s.resetChip tag

/-! ### Unknown commands (R172) -/

/-- A command code that names no command is answered UNKNOWN, in SAFE-HALT too (R172). -/
def execUnknownCommand (tag : Byte) (code : UnknownCode) (args : List Byte) (s : State) : Answer :=
  s.command tag code.code true args fun s => s.reply tag code.code .unknown

end Sys2Proof.Machine
end

