-- ==== Sys2Proof/Machine/TimerEvents.lean ====
section
/-! DEFINITION. Expiries of timers, changes of pins, and the completions of the printer port, the table memory
port and the Arithmetic Unit. An event that cannot occur in a state leaves it as it is (log 3). -/

namespace Sys2Proof.Machine

/-! ### Matrix switching (R56, R58, R62) -/

/-- The echo timer of the transaction of a module expires (R56). -/
def State.echoExpired (s : State) (module : Nat) : State :=
  match s.transaction module with
  | none => s
  | some t => if t.phase = .sent && t.timer.isSome then (s.attemptFails module).configEnd else s

/-- ECHO_TIMEOUT (R56). -/
def execEchoTimeout (module : Nat) (s : State) : Answer := s.event fun s => s.echoExpired module

/-- HOME_ECHO_TIMEOUT (R62). -/
def execHomeEchoTimeout (s : State) : Answer :=
  s.event fun s => if s.seq.state = .homing && s.seq.home.timer.isSome then s.homeEnd else s

/-- SETTLE_TIMEOUT (R58). -/
def execSettleTimeout (s : State) : Answer :=
  s.event fun s => if s.seq.state = .settling && s.seq.settleTimer.isSome then s.configReady else s

/-- SAMPLE_TIMEOUT (R81). -/
def execSampleTimeout (s : State) : Answer :=
  s.event fun s => if s.mc.state = .msrWait && s.mc.timer.isSome then s.msrFails else s

/-! ### Ring supervision (R71, R72) -/

/-- A node after the expiry, judged from its flags (R71). -/
def Node.judged (n : Node) : Node := { n with alive := n.heard && !n.fault, heard := false, fault := false }

/-- Whether the verdict on a node changes (R71). -/
def Node.changes (n : Node) : Bool := n.alive != (n.heard && !n.fault)

/-- A monitor period expires (R71, R72). -/
def State.periodExpired (s : State) : State :=
  let s1 := s.onSup fun u => { u with nodes := u.nodes.map Node.judged }
  let s2 := if s.sup.nodes.any Node.changes then s1.raise .moduleChange else s1
  let lost := s.alive headAddress && !s2.alive headAddress && s.run.active
  let s3 :=
    if lost then
      s2.reportFault { code := .headLost, hv := s.hv.state, net := none, point := none, table := none }
    else s2
  s3.periodStart

/-- MONITOR_PERIOD_EXPIRY (R71). -/
def execMonitorPeriodExpiry (s : State) : Answer :=
  s.event fun s => if s.sup.timer.isSome then s.periodExpired else s

/-! ### Insulation testing (R130, R131, R134, R136) -/

/-- RAMP_TIMER_EXPIRY (R130). -/
def execRampTimerExpiry (s : State) : Answer :=
  s.event fun s => if s.hv.state = .ramp && s.hv.rampTimer.isSome then s.hvExpired true else s

/-- DWELL_TIMER_EXPIRY (R131). -/
def execDwellTimerExpiry (s : State) : Answer :=
  s.event fun s => if s.hv.state = .dwell && s.hv.dwellTimer.isSome then s.hvExpired false else s

/-- DISCHARGE_TIMER_EXPIRY (R134). -/
def execDischargeTimerExpiry (s : State) : Answer :=
  s.event fun s =>
    if s.hv.state = .discharge && s.hv.dischargeTimer.isSome then s.dischargeExpired else s

/-- Whether the high voltage is up. -/
def Hv.live (h : Hv) : Bool := h.state = .ramp || h.state = .dwell

/-- KEEPALIVE_EXPIRY: the counter reaches 0 in RAMP or DWELL (R136, log 16). -/
def execKeepaliveExpiry (s : State) : Answer :=
  s.event fun s => if s.hv.live then (s.onHv fun h => { h with keepalive := 0 }).hvAbort else s

/-! ### Pins (R127, R136, R160) -/

/-- INTERLOCK_OPENS: in RAMP or DWELL it begins HV-ABORT, in any other HV state the level alone changes
(R127, R136). -/
def execInterlockOpens (s : State) : Answer :=
  (s.onPins fun p => { p with interlockClosed := false }).event fun s =>
    if s.hv.live then s.hvAbort else s

/-- INTERLOCK_CLOSES: the level alone changes (R127). -/
def execInterlockCloses (s : State) : Answer :=
  (s.onPins fun p => { p with interlockClosed := true }).event fun s => s

/-- PRN_BUSY_FALLS: the waiting character begins (R160). -/
def execPrnBusyFalls (s : State) : Answer :=
  (s.onPins fun p => { p with prnBusy := false }).event fun s =>
    if s.print.busyTimer.isSome then s.beginChar else s

/-! ### The print port (R159, R160) -/

/-- BUSY_TIMEOUT (R160). -/
def execBusyTimeout (s : State) : Answer :=
  s.event fun s => if s.print.busyTimer.isSome then s.busyExpired else s

/-- PRINT_CHARACTER_SENT (R159). -/
def execPrintCharacterSent (busy : Bool) (s : State) : Answer :=
  (s.onPins fun p => { p with prnBusy := busy }).event State.charSent

/-! ### The table memory port (R2) -/

/-- TABLE_ACCESS_COMPLETE (R2). Once a command reset may take effect no further access is begun (log 32). -/
def execTableAccessComplete (upset : Option Nat) (busy : Bool) (s : State) : Answer :=
  let s1 := s.onPins fun p => { p with prnBusy := busy }
  match s1.port.queue with
  | [] => .next s1
  | a :: _ =>
    if s1.rst.held || s1.rst.phase = .ready then .next s1
    else if a.kind.capacity ≤ a.index then .fault .noSuchRecord
    else .next ((s1.upsetRecord a upset).completeAccess a).endEvent

/-! ### The Arithmetic Unit (R80, R84) -/

/-- The oldest queued sample is taken out of the queue. -/
def Measure.taken (m : Measure) : Measure := { m with queue := m.queue.drop 1 }

/-- An operation is in service. -/
def State.serve (s : State) (op : ArithOp) : State :=
  s.onArith fun a => { a with job := some { op, live := true } }

/-- The answering sample of an MSR is taken (R80, R85, R86). -/
def State.takeAnswer (s : State) (x : Sample) : State :=
  if x.hv then s.mcIdle
  else
    let raw := rawResistance s.limits.calib x
    (s.serve (.lowVolt raw (if raw = rmax then [] else s.mc.leads) 0)).lookupLeads 2

/-- How far the seq of a stream sample is from the last one taken (R80). -/
def Measure.seqStep (m : Measure) (x : Sample) : Option Nat :=
  m.lastSeq.map fun last => (x.seq + 256 - last) % 256

/-- A stream sample is taken: a repeat is discarded, a gap is counted (R80). -/
def State.takeStream (s : State) (x : Sample) : State :=
  match s.mc.seqStep x with
  | some 0 => s.onMc fun m => { m with discards := min 65535 (m.discards + 1) }
  | some d =>
    (s.onMc fun m =>
      { m with lost := min 65535 (m.lost + (d - 1)), lastSeq := some x.seq }).serve
      (.stream (convert s.limits.calib x))
  | none =>
    (s.onMc fun m => { m with lastSeq := some x.seq }).serve (.stream (convert s.limits.calib x))

/-- The oldest sample of the queue is taken (R80). -/
def State.takeSample (s : State) : State :=
  match s.mc.queue with
  | [] => s
  | x :: _ =>
    let s1 := s.onMc Measure.taken
    match s.mc.state with
    | .msrAnswered => s1.takeAnswer x
    | .stream => s1.takeStream x
    | _ => s1

/-- The value text of a record line, empty where the record has no value (R93, R155). -/
def FmtWork.valueText (w : FmtWork) : List Byte :=
  match w.defect.value with
  | some v => Sys2Proof.Machine.valueText w.defect.key.kind.unit v
  | none => []

/-- The value of the line being formatted is taken (R93, R155); a header or summary line has its text already
(log 17). -/
def State.takeFormat (s : State) : State :=
  match s.print.fmt with
  | none => s.serve (.format [])
  | some w => s.serve (.format w.valueText)

/-- The Arithmetic Unit, free, takes the operation asked for earliest (R84). -/
def State.arithStart (s : State) : State :=
  if s.arith.job.isSome then s
  else
    match s.arith.waiting with
    | [] => s
    | r :: rest =>
      let s1 := s.onArith fun a => { a with waiting := rest }
      match r with
      | .sample => s1.takeSample
      | .evaluate ramp => s1.serve (.evaluate ramp)
      | .format => s1.takeFormat

/-- ARITHMETIC_OPERATION_START (R84). -/
def execArithmeticOperationStart (s : State) : Answer := s.event State.arithStart

/-- The operation in service is over. -/
def State.served (s : State) : State := s.onArith fun a => { a with job := none }

/-- A header or summary line is complete in its buffer (R153, R158, log 17). -/
def State.textComplete (s : State) : State :=
  match s.print.bufferIn .formatting with
  | some second => s.lineComplete second (s.print.buffer second).text
  | none => s

/-- The format operation has ended: the line is complete, a record line with its value text (R93, R155), and the Print
Engine looks for work, a buffer being EMPTY (R154). -/
def State.formatDone (s : State) (text : List Byte) : State :=
  (if s.print.fmt.isSome then s.recordComplete text else s.textComplete).printLook

/-- The Arithmetic Unit completes its operation; a low-voltage operation that waits for a lead is not at its
end (R80, R84). -/
def State.arithEnd (s : State) : State :=
  match s.arith.job with
  | none => s
  | some j =>
    match j.op with
    | .lowVolt raw [] leads => if j.live then s.served.mcIdle.sweepResult raw (compensate raw leads) else s.served
    | .lowVolt _ (_ :: _) _ => s
    | .stream c => if j.live then s.served.hvSample c else s.served
    | .evaluate ramp => if j.live then s.served.evaluationDone ramp else s.served
    | .format text => if j.live then s.served.formatDone text else s.served

/-- ARITHMETIC_OPERATION_END (R84). -/
def execArithmeticOperationEnd (busy : Bool) (s : State) : Answer :=
  (s.onPins fun p => { p with prnBusy := busy }).event State.arithEnd

end Sys2Proof.Machine
end

