-- ==== Sys2Proof/Machine/Dispatch.lean ====
section
/-! DEFINITION. The meaning of every row of the operation table: one call each. -/

namespace Sys2Proof.Machine

def exec (i : Instr) (s : State) : Host.Outcome State Fault Refusal :=
  match i with
  | .identify tag args => Sys2Proof.Machine.execIdentify tag args s
  | .readStatus tag args => Sys2Proof.Machine.execReadStatus tag args s
  | .loadDimensions tag args => Sys2Proof.Machine.execLoadDimensions tag args s
  | .loadPoints tag args => Sys2Proof.Machine.execLoadPoints tag args s
  | .loadNets tag args => Sys2Proof.Machine.execLoadNets tag args s
  | .loadMembers tag args => Sys2Proof.Machine.execLoadMembers tag args s
  | .loadNames tag args => Sys2Proof.Machine.execLoadNames tag args s
  | .loadSteps tag args => Sys2Proof.Machine.execLoadSteps tag args s
  | .loadModules tag args => Sys2Proof.Machine.execLoadModules tag args s
  | .loadLimits tag args => Sys2Proof.Machine.execLoadLimits tag args s
  | .loadLeads tag args => Sys2Proof.Machine.execLoadLeads tag args s
  | .readTable tag args => Sys2Proof.Machine.execReadTable tag args s
  | .checkTables tag args => Sys2Proof.Machine.execCheckTables tag args s
  | .startRun tag args => Sys2Proof.Machine.execStartRun tag args s
  | .pause tag args => Sys2Proof.Machine.execPause tag args s
  | .resume tag args => Sys2Proof.Machine.execResume tag args s
  | .abort tag args => Sys2Proof.Machine.execAbort tag args s
  | .release tag args => Sys2Proof.Machine.execRelease tag args s
  | .readDefects tag args => Sys2Proof.Machine.execReadDefects tag args s
  | .retireDefects tag args => Sys2Proof.Machine.execRetireDefects tag args s
  | .invalidateMap tag args => Sys2Proof.Machine.execInvalidateMap tag args s
  | .probeMap tag args => Sys2Proof.Machine.execProbeMap tag args s
  | .keep tag args => Sys2Proof.Machine.execKeep tag args s
  | .readEvents tag args => Sys2Proof.Machine.execReadEvents tag args s
  | .clearEvents tag args => Sys2Proof.Machine.execClearEvents tag args s
  | .setEventMask tag args => Sys2Proof.Machine.execSetEventMask tag args s
  | .printEnable tag args => Sys2Proof.Machine.execPrintEnable tag args s
  | .printDisable tag args => Sys2Proof.Machine.execPrintDisable tag args s
  | .printHold tag args => Sys2Proof.Machine.execPrintHold tag args s
  | .printGo tag args busy => Sys2Proof.Machine.execPrintGo tag args busy s
  | .readModules tag args => Sys2Proof.Machine.execReadModules tag args s
  | .readFault tag args => Sys2Proof.Machine.execReadFault tag args s
  | .clearFault tag args => Sys2Proof.Machine.execClearFault tag args s
  | .resetChip tag args => Sys2Proof.Machine.execResetChip tag args s
  | .unknownCommand tag code args => Sys2Proof.Machine.execUnknownCommand tag code args s
  | .passThroughRequest frame => Sys2Proof.Machine.execPassThroughRequest frame s
  | .frameDiscarded link bytes => Sys2Proof.Machine.execFrameDiscarded link bytes s
  | .trunkFrameSent => Sys2Proof.Machine.execTrunkFrameSent s
  | .ringFrameSent => Sys2Proof.Machine.execRingFrameSent s
  | .returnedFrame dst cls tag payload => Sys2Proof.Machine.execReturnedFrame dst cls tag payload s
  | .echReceived src tag countA countB => Sys2Proof.Machine.execEchReceived src tag countA countB s
  | .staReceived src tag kind channels countA countB flags => Sys2Proof.Machine.execStaReceived src tag kind channels countA countB flags s
  | .smpReceived src tag seq vcode icode range flags => Sys2Proof.Machine.execSmpReceived src tag seq vcode icode range flags s
  | .echoTimeout module => Sys2Proof.Machine.execEchoTimeout module s
  | .homeEchoTimeout => Sys2Proof.Machine.execHomeEchoTimeout s
  | .settleTimeout => Sys2Proof.Machine.execSettleTimeout s
  | .sampleTimeout => Sys2Proof.Machine.execSampleTimeout s
  | .monitorPeriodExpiry => Sys2Proof.Machine.execMonitorPeriodExpiry s
  | .rampTimerExpiry => Sys2Proof.Machine.execRampTimerExpiry s
  | .dwellTimerExpiry => Sys2Proof.Machine.execDwellTimerExpiry s
  | .dischargeTimerExpiry => Sys2Proof.Machine.execDischargeTimerExpiry s
  | .keepaliveExpiry => Sys2Proof.Machine.execKeepaliveExpiry s
  | .busyTimeout => Sys2Proof.Machine.execBusyTimeout s
  | .interlockOpens => Sys2Proof.Machine.execInterlockOpens s
  | .interlockCloses => Sys2Proof.Machine.execInterlockCloses s
  | .prnBusyFalls => Sys2Proof.Machine.execPrnBusyFalls s
  | .printCharacterSent busy => Sys2Proof.Machine.execPrintCharacterSent busy s
  | .powerOnReset memoryPowered => Sys2Proof.Machine.execPowerOnReset memoryPowered s
  | .pinReset => Sys2Proof.Machine.execPinReset s
  | .clockLossReset => Sys2Proof.Machine.execClockLossReset s
  | .commandReset => Sys2Proof.Machine.execCommandReset s
  | .resetEnd => Sys2Proof.Machine.execResetEnd s
  | .tableAccessComplete upset busy => Sys2Proof.Machine.execTableAccessComplete upset busy s
  | .arithmeticOperationStart => Sys2Proof.Machine.execArithmeticOperationStart s
  | .arithmeticOperationEnd busy => Sys2Proof.Machine.execArithmeticOperationEnd busy s

end Sys2Proof.Machine
end

