-- ==== Sys2Proof/Machine/Step.lean ====
section
/-! DEFINITION. One step: the command at the front of the queue takes effect (log 1). -/

namespace Sys2Proof.Machine

/-- The state with the front of its queue taken off. -/
def State.dequeued (s : State) : State := { s with pending := s.pending.drop 1 }

/-- One step: on an empty queue the block idles (log 1). -/
def step (s : State) : Host.Outcome State Fault Refusal :=
  match s.pending with
  | [] => .next s
  | c :: _ => exec c s.dequeued

/-- The command that a word of the operation table spells is put at the front of the queue; a word that spells
none leaves the state as it is, and since no row has bits that is every word (log 2). -/
def State.withFetchWord (s : State) (nbits w : Nat) : State :=
  match decodeTableWord nbits w with
  | some c => { s with pending := c :: s.pending }
  | none => s

end Sys2Proof.Machine
end

