-- ==== Sys2Proof/Safety.lean ====
section
/-! DEFINITION. What a sound state is, in the terms the claims use: one property for each block, kept by every
step, and the small functions in which claims about a command are stated. -/

namespace Sys2Proof

/-- The rows that reset the chip (R180, R181). -/
def Instr.resets (i : Instr) : Bool :=
  i = .powerOnReset true || i = .powerOnReset false || i = .pinReset || i = .clockLossReset
    || i = .commandReset

/-- The frame of a command: DST 1, SRC 0, and the command code before the arguments (R166, R167, R172). -/
def cmdFrame (tag code : Byte) (args : List Byte) : Frame :=
  { dst := 1, src := 0, cls := clsCmd, tag, payload := code :: args }

/-- The frame that brings a row from the controller; a row that is no command has none. -/
def Instr.frame? (i : Instr) : Option Frame :=
  match i with
  | .identify tag args => some (cmdFrame tag 0x01 args)
  | .readStatus tag args => some (cmdFrame tag 0x02 args.bytes)
  | .loadDimensions tag args => some (cmdFrame tag 0x03 args)
  | .loadPoints tag args => some (cmdFrame tag 0x04 args)
  | .loadNets tag args => some (cmdFrame tag 0x05 args)
  | .loadMembers tag args => some (cmdFrame tag 0x06 args)
  | .loadNames tag args => some (cmdFrame tag 0x07 args)
  | .loadSteps tag args => some (cmdFrame tag 0x08 args)
  | .loadModules tag args => some (cmdFrame tag 0x09 args)
  | .loadLimits tag args => some (cmdFrame tag 0x0A args)
  | .loadLeads tag args => some (cmdFrame tag 0x0B args)
  | .readTable tag args => some (cmdFrame tag 0x0C args)
  | .checkTables tag args => some (cmdFrame tag 0x0D args)
  | .startRun tag args => some (cmdFrame tag 0x0E args)
  | .pause tag args => some (cmdFrame tag 0x0F args)
  | .resume tag args => some (cmdFrame tag 0x10 args)
  | .abort tag args => some (cmdFrame tag 0x11 args)
  | .release tag args => some (cmdFrame tag 0x12 args)
  | .readDefects tag args => some (cmdFrame tag 0x13 args)
  | .retireDefects tag args => some (cmdFrame tag 0x14 args)
  | .invalidateMap tag args => some (cmdFrame tag 0x15 args)
  | .probeMap tag args => some (cmdFrame tag 0x16 args)
  | .keep tag args => some (cmdFrame tag 0x17 args)
  | .readEvents tag args => some (cmdFrame tag 0x18 args)
  | .clearEvents tag args => some (cmdFrame tag 0x19 args)
  | .setEventMask tag args => some (cmdFrame tag 0x1A args)
  | .printEnable tag args => some (cmdFrame tag 0x1B args)
  | .printDisable tag args => some (cmdFrame tag 0x1C args)
  | .printHold tag args => some (cmdFrame tag 0x1D args)
  | .printGo tag args _ => some (cmdFrame tag 0x1E args)
  | .readModules tag args => some (cmdFrame tag 0x1F args)
  | .readFault tag args => some (cmdFrame tag 0x20 args)
  | .clearFault tag args => some (cmdFrame tag 0x21 args)
  | .resetChip tag args => some (cmdFrame tag 0x22 args)
  | .unknownCommand tag code args => some (cmdFrame tag code.code args)
  | .passThroughRequest frame => some frame.frame
  | .frameDiscarded _ _ => none
  | .trunkFrameSent => none
  | .ringFrameSent => none
  | .returnedFrame _ _ _ _ => none
  | .echReceived _ _ _ _ => none
  | .staReceived _ _ _ _ _ _ _ => none
  | .smpReceived _ _ _ _ _ _ _ => none
  | .echoTimeout _ => none
  | .homeEchoTimeout => none
  | .settleTimeout => none
  | .sampleTimeout => none
  | .monitorPeriodExpiry => none
  | .rampTimerExpiry => none
  | .dwellTimerExpiry => none
  | .dischargeTimerExpiry => none
  | .keepaliveExpiry => none
  | .busyTimeout => none
  | .interlockOpens => none
  | .interlockCloses => none
  | .prnBusyFalls => none
  | .printCharacterSent _ => none
  | .powerOnReset _ => none
  | .pinReset => none
  | .clockLossReset => none
  | .commandReset => none
  | .resetEnd => none
  | .tableAccessComplete _ _ => none
  | .arithmeticOperationStart => none
  | .arithmeticOperationEnd _ => none

end Sys2Proof

namespace Sys2Proof.Machine

/-! ### Tables (chapter 01) -/

/-- A continuity set within the ranges of R14. -/
def ContSet.inRange (c : ContSet) : Bool :=
  c.good ≤ c.opn && c.opn ≤ rmax - 1 && c.range ≤ 7

/-- The ISOLATION section within the ranges of R14. -/
def IsoLimits.inRange (l : IsoLimits) : Bool :=
  1 ≤ l.limit && l.limit ≤ rmax - 1 && l.range ≤ 7 && 1 ≤ l.shortCap && l.shortCap ≤ 64

/-- An insulation class within the ranges of R14. -/
def InsulClass.inRange (c : InsulClass) : Bool :=
  50 ≤ c.volt && c.volt ≤ 1500 && 50 ≤ c.ramp && c.ramp ≤ 5000 && 10 ≤ c.dwell && c.dwell ≤ 60000
    && 1 ≤ c.irLimit && c.irLimit ≤ rmax - 1 && c.arcStep ≤ maxPicoamp && c.avgCode ≤ 6

/-- The TIMING section within the ranges of R15. -/
def Timing.inRange (t : Timing) : Bool :=
  1 ≤ t.echo && t.echo ≤ 50 && 1 ≤ t.sample && t.sample ≤ 255 && 1 ≤ t.period && t.period ≤ 255
    && 16 ≤ t.keepalive && t.keepalive ≤ 65535 && 1 ≤ t.hvInterval && t.hvInterval ≤ 100
    && 10 ≤ t.safeLevel && t.safeLevel ≤ 60 && 100 ≤ t.discharge && t.discharge ≤ 10000
    && 1 ≤ t.defectLimit && t.defectLimit ≤ 65535 && 1 ≤ t.busy && t.busy ≤ 60 && t.rate ≤ 7

/-- The CALIBRATION section within the ranges of R15. -/
def Calibration.inRange (c : Calibration) : Bool :=
  1 ≤ c.vlsbLv && c.vlsbLv ≤ 65535 && 1 ≤ c.vlsbHv && c.vlsbHv ≤ 1000 && c.ilsb.length = 8
    && c.ilsb.all fun n => 1 ≤ n && n ≤ maxPicoamp

/-- The limits block within the ranges of R14 and R15, with eight continuity sets and eight insulation
classes. -/
def Limits.inRange (l : Limits) : Bool :=
  l.cont.length = 8 && l.cont.all ContSet.inRange && l.iso.inRange && l.insul.length = 8
    && l.insul.all InsulClass.inRange && l.timing.inRange && l.calib.inRange

/-- The limits block in its ranges; the run defect limit is not below the run defect count of the run summary
(R14, R15). -/
def State.limitsSound (s : State) : Prop :=
  s.limits.inRange = true ∧ s.run.summary.defects ≤ s.limits.timing.defectLimit

/-- The cache (R19): 32 entries, a pointer that names one of them, no point in two valid entries, and none for
the point of a fill in progress. -/
def State.cacheSound (s : State) : Prop :=
  s.cache.entries.length = 32 ∧ s.cache.pointer < 32 ∧
    s.cache.entries.Pairwise (fun e f => ¬(e.valid = true ∧ f.valid = true ∧ e.tag = f.tag)) ∧
    ∀ f ∈ s.cache.fill, ∀ e ∈ s.cache.entries, ¬(e.valid = true ∧ e.tag = f.1)

/-- A run is active only over READY tables and never with the HV state STUCK, a table check is in progress only
in CHECKING, and SAFE-HALT is set only with the run DONE (R5, R17, R24, R42, R179). -/
def State.runSound (s : State) : Prop :=
  (s.run.active = true → s.tables.state = .ready ∧ s.hv.state ≠ .stuck) ∧
    (s.tables.check.isSome = true → s.tables.state = .checking) ∧
    (s.fault.safeHalt = true → s.run.state = .done)

/-! ### Links (chapter 11) -/

/-- The ring transmit queue holds at most eight frames and the own-tag counter is below 128 (R171); the trunk
transmit queue with the replies that hold a place in it holds at most eight (R173, log 10). -/
def State.linksSound (s : State) : Prop :=
  s.ring.queue.length ≤ 8 ∧ s.ring.ownTag < 128 ∧ s.trunk.queue.length + s.repliesOwed ≤ 8

/-! ### Relays (chapter 03) -/

/-- A frame that sets relays. -/
def RingEntry.setsRelays (e : RingEntry) : Prop := e.frame.cls = clsSw

/-- Masks that close no channel on both buses (R52). -/
def Masks.apart (m : Masks) : Prop := m.a &&& m.b = 0

/-- A frame of a transaction carries masks that close no channel on both buses (R52, R53). -/
def RingEntry.relaysApart (e : RingEntry) : Prop :=
  ∀ module, e.owner = .switch module →
    ∃ m : Masks, m.apart ∧ e.frame.payload = maskBytes m.a ++ maskBytes m.b

/-- The relays are safe. No transaction and no frame of one, in the ring transmit queue or the wait list, closes
both relays of a channel (R52); transactions exist only in VERIFYING (R48, R57); and while the HV state is not SAFE
no frame that sets relays is in the ring transmit queue or the wait list, and no configuration is being translated
or verified (R54, R60, R170). -/
def State.relaysSound (s : State) : Prop :=
  (∀ t ∈ s.seq.transactions, t.masks.apart) ∧
    (∀ e ∈ s.ring.queue ++ s.ring.wait, e.relaysApart) ∧
    (s.seq.transactions ≠ [] → s.seq.state = .verifying) ∧
    (s.hv.state ≠ .safe →
      (∀ e ∈ s.ring.queue ++ s.ring.wait, ¬e.setsRelays) ∧ s.seq.state ≠ .translating ∧
        s.seq.state ≠ .verifying)

/-! ### Supervision (chapter 04) -/

/-- There are 65 supervision entries, and the flags of a module that is not configured are clear (R65, R73). -/
def State.nodesSound (s : State) : Prop :=
  s.sup.nodes.length = 65 ∧
    ∀ i < 64, ∀ n ∈ s.sup.nodes[i]?, n.channels = 0 → n.heard = false ∧ n.fault = false ∧ n.alive = false

/-! ### Measurement and insulation (chapters 05 and 08) -/

/-- The sample queue holds at most eight samples and the averaging window at most 64 (R76, R89); in RAMP and
DWELL the keepalive counter is above 0, being loaded with a keepalive count of at least 16 (R15, R129). -/
def State.measuringSound (s : State) : Prop :=
  s.mc.queue.length ≤ 8 ∧ s.hv.window.length ≤ 64 ∧ 16 ≤ s.limits.timing.keepalive ∧
    (s.hv.state = .ramp ∨ s.hv.state = .dwell → 0 < s.hv.keepalive)

/-- High voltage is up only with the interlock closed, and never while the chip is held in reset, where the HV
state is DISCHARGE (R122, R127, R136, R180). -/
def State.interlockSound (s : State) : Prop :=
  (s.hv.state = .ramp ∨ s.hv.state = .dwell → s.pins.interlockClosed = true) ∧
    (s.rst.held = true → s.hv.state = .discharge)

/-! ### The defect list (chapter 09) -/

/-- At most 512 records, no key twice, sequence numbers strictly rising and none above the run defect count, and
no PROVISIONAL record PRINTED or RETIRED (R141, R143, R144, R146, R149, R150). -/
def State.listSound (s : State) : Prop :=
  s.defects.length ≤ 512 ∧ s.defects.Pairwise (fun d e => d.key ≠ e.key) ∧
    s.defects.Pairwise (fun d e => d.seq < e.seq) ∧ (∀ d ∈ s.defects, d.seq ≤ s.run.summary.defects) ∧
    ∀ d ∈ s.defects, d.provisional = true → d.printed = false ∧ d.retired = false

/-! ### Frames, commands and replies -/

/-- A trunk command can be taken: the chip is out of reset, no RESET CHIP has been taken, and the trunk transmit
queue has room beside the places that replies still to come hold (R167, R181, log 10). -/
def State.hearsTrunk (s : State) : Prop :=
  s.rst.held = false ∧ s.rst.phase = .none ∧ s.trunk.queue.length + s.repliesOwed < 8

/-- A trunk command is taken and not answered HALTED (R172). -/
def State.takesCommands (s : State) : Prop := s.hearsTrunk ∧ s.fault.safeHalt = false

/-- The state with a reply placed at the tail of the trunk transmit queue, whose head is then being sent (R172,
R173, log 12). -/
def State.replied (s : State) (tag code : Byte) (r : Result) (data : List Byte) : State :=
  { s with trunk :=
      { s.trunk with
        queue := s.trunk.queue ++ [{ frame := replyFrame tag code r data, kind := .reply }], begun := true } }

/-- The state at the end of an event that placed nothing of its own in the trunk transmit queue: its head is being
sent (R173, log 12). -/
def State.settled (s : State) : State :=
  { s with trunk := { s.trunk with begun := !s.trunk.queue.isEmpty } }

/-- An own frame of the chip finds room at once: nothing waits, no POL is due, and the ring transmit queue holds
fewer than eight frames (R67, R171). -/
def State.ringFree (s : State) : Prop :=
  s.ring.wait = [] ∧ s.sup.pollList = [] ∧ s.ring.queue.length < 8

/-- The ring with an own frame placed at the tail of its queue: the frame takes the own-tag counter as its TAG, and
the counter advances (R171). -/
def Ring.placed (r : Ring) (dst : Nat) (cls : Byte) (payload : List Byte) (owner : RingOwner) : Ring :=
  { r with
    queue := r.queue ++
      [{ frame := { dst := byte dst, src := 0, cls, tag := byte r.ownTag, payload }, owner }]
    ownTag := (r.ownTag + 1) % 128 }

/-- A look for work selects nothing: no summary line and no header line is due, and every record that is final and
not PRINTED already has its line in a buffer (R154). -/
def State.nothingToSelect (s : State) : Prop :=
  s.print.summaryDue = false ∧ s.print.header = none ∧
    (∀ second, (s.print.buffer second).state = .empty → (s.print.buffer second).content = none) ∧
    ∀ d ∈ s.defects, d.printable = true →
      ∃ second, (s.print.buffer second).content = some (.record d.seq)

/-- The character at a place of a line as PRN_TX carries it: the rate code, then the start bit, the eight data bits
with the least significant first, and the stop bit (R159). -/
def characterAt (rate : Nat) (line : List Byte) (pos : Nat) : Character :=
  let b := line.getD pos 0
  { rate, bits := [false] ++ (List.range 8).map (fun i => b.getLsbD i) ++ [true] }

/-! ### Choosing and finishing a line (chapter 10) -/

/-- The state with a line being sent from its first character, or waiting on PRN_BUSY (R159, R160). -/
def State.sendingLine (s : State) (p : Print) (line : List Byte) (pos : Nat) : State :=
  { s with print :=
      { p with
        state := .send, sendPos := pos, busyTimer := if s.pins.prnBusy then some s.limits.timing.busy else none
        char := if s.pins.prnBusy then none else some (characterAt s.limits.timing.rate line pos) } }

/-- A header or summary line begun: its buffer is FORMATTING with its text, and a format operation is asked for, at whose
end the line is complete (R153, R158, log 17). -/
def State.lineStarted (s : State) (second : Bool) (content : LineContent) (text : List Byte) : State :=
  { s with
    print :=
      { (s.print.onBuffer second fun _ => { state := .formatting, content := some content, text }) with
        state := if s.print.state = .idle then .format else s.print.state }
    arith := { s.arith with waiting := s.arith.waiting ++ [.format] } }

/-- A record line begun: its buffer is FORMATTING. The net record of net A is asked for, or that of net B where net A
prints in its index form for an index that is in no table; where no net record can be read, a format operation is asked for,
of the value or, without one, to complete the line (R155, R157, log 17). The net count is judged as the read is asked for
(log 60). -/
def State.recordStarted (s : State) (second : Bool) (d : Defect) : State :=
  let index (n : Nat) : List Byte := ascii ['N'] ++ digits 4 n ++ List.replicate 11 0x20
  let begun (stage : FmtStage) (nameA nameB : List Byte) : Print :=
    { (s.print.onBuffer second fun _ => { state := .formatting, content := some (.record d.seq), text := [] }) with
      state := if s.print.state = .idle then .format else s.print.state
      fmt := some { second, defect := d, stage, nameA, nameB } }
  let reads (n : Nat) (print : Print) : State :=
    { s with print, port := { queue := s.port.queue ++ [{ kind := .nets, index := n, write := none, owner := .print }] } }
  let formats (print : Print) : State :=
    { s with print, arith := { s.arith with waiting := s.arith.waiting ++ [.format] } }
  if d.key.netA < s.bound .nets then reads d.key.netA (begun .netA [] [])
  else
    match d.key.netB with
    | none => formats (begun .value (index d.key.netA) [])
    | some n =>
      if n < s.bound .nets then reads n (begun .netB (index d.key.netA) [])
      else formats (begun .value (index d.key.netA) (index n))

/-- A line complete in its buffer: it is READY, or is being sent where none is and printing goes on (R153, R155,
R162). -/
def State.lineReady (s : State) (second : Bool) (text : List Byte) : State :=
  let line (state : BufState) : Print :=
    { (s.print.onBuffer second fun b => { b with state, text }) with fmt := none }
  if s.print.state = .format ∨ s.print.state = .idle then s.sendingLine (line .sending) text 0
  else { s with print := line .ready }

/-- A record line complete, with its value text (R155, R156). -/
def State.lineDone (s : State) (w : FmtWork) (value : List Byte) : State :=
  s.lineReady w.second (recordLine w.defect w.nameA w.nameB value)

/-- The next line is one of the summary block: it is due, no record is final and not PRINTED, and no buffer holds the
line of a record (R154, step 1). -/
def State.summaryNext (s : State) : Prop :=
  s.print.summaryDue = true ∧ (∀ d ∈ s.defects, d.printable = false) ∧
    ∀ second n, (s.print.buffer second).content ≠ some (.record n)

/-- The next line of the summary block, by the lines left (R158). -/
def Print.summaryText (p : Print) : List Byte :=
  match p.summary with
  | none => [0x0D, 0x0A]
  | some (term, defects, steps) =>
    (match p.summaryLeft % 4 with
      | 0 => ascii ['R', 'E', 'S', 'U', 'L', 'T', ' '] ++ ascii term.printName
      | 3 => ascii ['D', 'E', 'F', 'E', 'C', 'T', 'S', ' '] ++ decimal defects
      | 2 => ascii ['S', 'T', 'E', 'P', 'S', ' '] ++ decimal steps
      | _ => []) ++ [0x0D, 0x0A]

/-- The looks for work of one event, at most a number of them, lead from a state to the next. A look selects nothing
outside IDLE, FORMAT and SEND, with no buffer EMPTY or with nothing to print. Otherwise the next summary line, the header
line, or the line of the oldest record to print comes next, and begins unless a line is FORMATTING; an EXPLAINED SHORT is
passed over, whether a line is FORMATTING or not, and the look that follows goes on from there (R150, R152, R154, R155,
R158). -/
def State.lookedIn : Nat → State → State → Prop
  | 0, s, t => t = s
  | looks + 1, s, t =>
    let p := s.print
    let engaged : Prop := p.state = .idle ∨ p.state = .format ∨ p.state = .send
    let begun (started : State) : State := if p.bufferIn .formatting = none then started else s
    let oldest (second : Bool) : Option Defect :=
      s.defects.find? fun x => x.printable && decide ((p.buffer !second).content ≠ some (.record x.seq))
    (¬engaged ∨ p.bufferIn .empty = none ∨ s.nothingToSelect → t = s) ∧
      ∀ second, engaged → p.bufferIn .empty = some second →
        (s.summaryNext →
          t = begun
            (State.lineStarted
              { s with print := { p with summaryLeft := p.summaryLeft - 1, summaryDue := decide (1 < p.summaryLeft) } }
              second .summary p.summaryText)) ∧
        (∀ step, ¬s.summaryNext → p.header = some step →
          t = begun
            (State.lineStarted { s with print := { p with header := none } } second .header
              (ascii ['R', 'U', 'N', ' ', 'S', 'T', 'A', 'R', 'T', ' ', 'S', 'T', 'E', 'P', ' '] ++ digits 4 step ++
                [0x0D, 0x0A]))) ∧
        (¬s.summaryNext → p.header = none →
          (oldest second = none → t = s) ∧
          ∀ d, oldest second = some d →
            (¬(d.explained = true ∧ d.key.kind = .short) → t = begun (s.recordStarted second d)) ∧
            (d.explained = true → d.key.kind = .short → s.listSound →
              State.lookedIn looks
                { s with defects :=
                    (s.defects.filter fun x => !(decide (x.seq = d.seq) && x.retired)).map fun x =>
                      if x.seq = d.seq then { x with printed := true } else x }
                t))

/-- The look for work of an event leads from a state to the next, with the looks that follow at once on a pass-over: each of
them but the last passes over another record of the list (R154). -/
def State.looked (s t : State) : Prop := State.lookedIn (s.defects.length + 1) s t

/-! ### Record accesses and records -/

/-- The read of a record, for a requester (R2). -/
def readFor (kind : TableKind) (index : Nat) (owner : Owner) : Access := { kind, index, write := none, owner }

/-- An access to a record that exists is in progress, out of reset, with no command reset due (R2, R181). -/
def State.accessing (s : State) (a : Access) (rest : List Access) : Prop :=
  s.rst.held = false ∧ s.rst.phase ≠ .ready ∧ a.index < a.kind.capacity ∧ s.port.queue = a :: rest

/-- The access in progress has left the port; a command reset that waited for it is due, and PRN_BUSY has the level
found (R2, R181, log 18). -/
def State.accessed (s : State) (rest : List Access) (busy : Bool) : State :=
  { s with
    port := { queue := rest }
    rst := { s.rst with phase := if s.rst.phase = .accessing then .ready else s.rst.phase }
    pins := { s.pins with prnBusy := busy } }

/-- The operation in service has left the Arithmetic Unit; PRN_BUSY has the level found (R84, log 18). -/
def State.operated (s : State) (busy : Bool) : State :=
  { s with arith := { s.arith with job := none }, pins := { s.pins with prnBusy := busy } }

/-- An insert that is neither merged, nor discarded at the run defect limit, nor held: it is appended (R144). -/
def State.appends (s : State) (key : DefectKey) : Prop :=
  (∀ d ∈ s.defects, d.key ≠ key) ∧ s.run.summary.defects < s.limits.timing.defectLimit ∧ s.defects.length < 512

/-- The record that an append makes of a key, a value and LOWV (R144). -/
def State.newRecord (s : State) (key : DefectKey) (value : Option Nat) (lowv : Bool) : Defect :=
  { seq := s.run.summary.defects + 1, key, value, step := s.run.step.getD 0, rep := 1
    provisional := (key.kind = .opn || key.kind = .short) && s.run.correlate
    explained := false, lowv, printed := false, retired := false }

/-- The record that a merge makes of the record with the insert's key (R145). -/
def State.merged (s : State) (d : Defect) (value : Option Nat) (lowv : Bool) : Defect :=
  { d with value, lowv, step := s.run.step.getD 0, rep := min 255 (d.rep + 1) }

/-- At a measurement boundary none of the tests of R31 stops the run: neither the run defect limit, nor STOP-ON-DEFECT,
nor a pause request. -/
def State.runGoesOn (s : State) : Prop :=
  s.run.summary.defects < s.limits.timing.defectLimit ∧ s.run.stopArmed = false ∧ s.run.pauseReq = false

/-- Printing leaves the defect list as it is: it is OFF, or no SHORT is EXPLAINED, so none is passed over (R154). -/
def State.printKeepsList (s : State) : Prop :=
  s.print.state = .off ∨ ∀ d ∈ s.defects, d.explained = false

/-- The Sweep Engine at the start of a scan: the net record of a net is being read for a purpose (R109, R110, R112,
R118, R119). -/
def Sweep.scanOf (w : Sweep) (purpose : ScanFor) (net : Nat) : Sweep :=
  { w with
    state := .reading, reading := .scanNet
    scan := { purpose, net, record := NetRec.zero, pos := 0, points := [] } }

/-- The Sweep Engine with a group popped from the top of its stack and taken in hand (R111, R112). -/
def Sweep.inHandOf (w : Sweep) (g : Group) (rest : List Group) : Sweep :=
  Sweep.scanOf
    { w with
      stack := rest, inHand := some g, groupTodo := (w.candidates.drop g.start).take g.length, busA := []
      busB := [], shortOther := none }
    .groupK w.cursor

/-- The Sweep Engine at the start of net k of an ISO step: the isolation record is cleared and the net record is read
(R109). -/
def Sweep.isoNet (w : Sweep) (k : Nat) : Sweep :=
  Sweep.scanOf
    { w with
      netCursor := some k, memberCursor := none, visitedPoint := none, visitedModule := none, netDone := false
      shortCount := 0, skipped := 0, candidates := [], stack := [], inHand := none, work := [] }
    .startK k

/-- The Switch Sequencer free to take a configuration, which its first point p must wait for: IDLE in SAFE, and p not
in the cache (R19, R49). -/
def State.configures (s : State) (p : Nat) : Prop :=
  s.seq.state = .idle ∧ s.hv.state = .safe ∧ s.fault.safeHalt = false ∧ s.cache.fill = none ∧
    ∀ e ∈ s.cache.entries, ¬(e.valid = true ∧ e.tag = p)

/-- The Switch Sequencer after a request for points on the two buses: TRANSLATING, with every pair to do (R49). -/
def Sequencer.asked (q : Sequencer) (settle : Nat) (busA busB : List Nat) : Sequencer :=
  { q with
    state := .translating, requester := .sweep, settle, failed := [], placed := []
    todo := (busA.map (fun p => (p, Bus.a)) ++ busB.map (fun p => (p, Bus.b))).eraseDups }

/-- The fault record as the first report of a fault leaves it (R177). -/
def State.firstFault (s : State) (code : FaultCode) (hv : HvState) (net point : Option Nat)
    (table : Option (TableKind × Nat)) : FaultMon :=
  { valid := true, code := some code, step := if s.run.active then s.run.step else none, net, point, hv := some hv
    table, second := false, safeHalt := s.fault.safeHalt }

/-- The SWITCH-FAULT key of the requester of a configuration that failed: of a CONT or LEADCAL visit, of a group, of a
work entry with another behind it, or of an insulation net (R100, R113, R119, R126). -/
def State.switchFaultKey (s : State) (key : DefectKey) : Prop :=
  let w := s.sweep
  (s.seq.requester = .sweep ∧ (w.kind = some .cont ∨ w.kind = some .leadcal) ∧
      key = { kind := .switchFault, netA := w.cursor, point := w.visitedPoint, netB := none }) ∨
    (∃ g, s.seq.requester = .sweep ∧ w.kind = some .iso ∧ w.work = [] ∧ w.inHand = some g ∧
      key = { kind := .switchFault, netA := w.cursor, point := none, netB := w.candidates[g.start]? }) ∨
    (∃ e f, s.seq.requester = .sweep ∧ w.kind = some .iso ∧ w.work[w.workCursor]? = some e ∧
      w.work[w.workCursor + 1]? = some f ∧
      key = { kind := .switchFault, netA := e.own, point := some e.point, netB := some e.other }) ∨
    (s.seq.requester = .hv ∧ key = { kind := .switchFault, netA := s.hv.cursor, point := none, netB := none })

/-- What a configuration that failed leaves, its sequencer record being `seq` before the answer: the sequencer is IDLE
with its failed list kept, and the SWITCH-FAULT carries the lowest failed module (R57, R100, R113, R119, R126). -/
def State.configFailedTo (s t : State) (seq : Sequencer) (lowest : Nat) (key : DefectKey) : Prop :=
  t.seq =
      { seq with
        transactions := [], state := .idle, requester := .none, settleTimer := none, todo := [], placed := [] } ∧
    s.newRecord key (some lowest) false ∈ t.defects ∧
    t.run.summary.measurements = s.run.summary.measurements ∧ t.events.isPending .defect = true

/-- What the third failure of an MSR leaves in a run: HEAD-TIMEOUT with the context of the request, and the run
ABORTING (R43, R81, R177). -/
def State.headTimedOut (s t : State) : Prop :=
  (t.mc.state = .idle ∨ t.mc.state = .stream) ∧
    t.fault =
      { valid := true, code := some .headTimeout, step := s.run.step, net := s.mc.ctxNet, point := s.mc.ctxPoint
        hv := some s.hv.state, table := none, second := false, safeHalt := s.fault.safeHalt } ∧
    t.events.isPending .fault = true ∧ t.run.state = .aborting ∧ t.run.abortCause = .fault ∧
    t.run.summary = s.run.summary ∧ t.defects = s.defects ∧ t.mem = s.mem

/-- The payloads of the HVC frames on the open stream that are still to be sent, in their order (R82). -/
def State.hvcPayloads (s : State) : List (List Byte) :=
  ((s.ring.queue ++ s.ring.wait).filter fun e => e.owner = .hvc s.mc.stream false).map fun e => e.frame.payload

/-- An HVC frame of a payload is on its way to the head on the open stream (R82, R123). -/
def State.hvcSent (s : State) (payload : List Byte) : Prop :=
  ∃ e ∈ s.ring.queue ++ s.ring.wait, e.owner = .hvc s.mc.stream false ∧ e.frame.dst = 72 ∧ e.frame.src = 0 ∧
    e.frame.cls = clsHvc ∧ e.frame.payload = payload

/-- What a report of high voltage in SAFE leaves whatever else is in hand: the fault HV-UNEXPECTED, raised and recorded,
and no frame left to send that sets relays, nor a pass-through MSR (R54, R138, R170, R177). -/
def State.hvUnexpected (s t : State) : Prop :=
  t.fault = s.firstFault .hvUnexpected .safe s.hv.net none none ∧ t.events.isPending .fault = true ∧
    (∀ e ∈ t.ring.queue ++ t.ring.wait, ¬e.setsRelays ∧ ¬(e.owner = .passThrough ∧ e.frame.cls = clsMsr)) ∧
    t.defects = s.defects ∧ t.mem = s.mem

/-- A load of a table of table memory, as a row and its command code (R6 to R10, R172). -/
def loadRow (kind : TableKind) (tag : Byte) (args : List Byte) : Option (Instr × Byte) :=
  match kind with
  | .points => some (.loadPoints tag args, 0x04)
  | .nets => some (.loadNets tag args, 0x05)
  | .members => some (.loadMembers tag args, 0x06)
  | .names => some (.loadNames tag args, 0x07)
  | .steps => some (.loadSteps tag args, 0x08)
  | _ => none

end Sys2Proof.Machine
end

