-- ==== Sys2Proof/Certificates/Slice0/Obligations.lean ====
section
/-! DEFINITION. The claims about the model, for the provers. -/

open Sys2Proof Sys2Proof.Machine

/-! ### Steps, sound states and whole-machine rules -/

/-- A step takes the command at the front of the queue and runs it over the queue's rest; on an empty queue the
block idles (the model's own, log 1). -/
def Obligations.StepRunsFrontCommand : Prop :=
  (∀ (c : Instr) (s : State), step { s with pending := c :: s.pending } = exec c s) ∧
    ∀ s : State, s.pending = [] → step s = .next s

/-- The state right after a power-on reset is sound in every block. -/
def Obligations.ResetIsSound : Prop :=
  State.reset.mem.wf ∧ State.reset.limitsSound ∧ State.reset.cacheSound ∧ State.reset.runSound ∧
    State.reset.linksSound ∧ State.reset.relaysSound ∧ State.reset.nodesSound ∧
    State.reset.measuringSound ∧ State.reset.interlockSound ∧ State.reset.listSound

/-- The values that a power-on reset leaves, block by block (R3, R4, R16, R17, R19, R23, R48, R65, R76, R84, R94, R122,
R143, R152, R171, R173, R175, R177, R180). -/
def Obligations.ResetValues : Prop :=
  let s := State.reset
  (s.tables.dims = none ∧ s.tables.state = .empty ∧ s.tables.result = .none ∧ s.tables.parityCount = 0 ∧
    s.tables.parityLast = none ∧ s.tables.check = none ∧ s.port.queue = []) ∧
  (s.cache.entries.length = 32 ∧ (∀ e ∈ s.cache.entries, e.valid = false) ∧ s.cache.pointer = 0 ∧
    s.cache.fill = none) ∧
  (s.seq.state = .idle ∧ s.seq.requester = .none ∧ s.seq.settle = 0 ∧ s.seq.believed = List.replicate 64 none ∧
    s.seq.transactions = [] ∧ s.seq.failed = [] ∧ s.seq.settleTimer = none ∧
    s.seq.home = { tag := none, expected := [], answered := [], timer := none }) ∧
  (s.sup.nodes = List.replicate 65
      { channels := 0, heard := false, fault := false, alive := false, kind := .none, reported := 0 } ∧
    s.sup.timer = none ∧ s.sup.pollList = []) ∧
  (s.mc.state = .idle ∧ s.mc.requester = .none ∧ s.mc.range = 0 ∧ s.mc.ctxNet = none ∧ s.mc.ctxPoint = none ∧
    s.mc.attempt = 1 ∧ s.mc.curTag = none ∧ s.mc.prevTag = none ∧ s.mc.timer = none ∧ s.mc.queue = [] ∧
    s.mc.lastSeq = none ∧ s.mc.lost = 0 ∧ s.mc.discards = 0 ∧ s.arith.job = none ∧ s.arith.waiting = []) ∧
  (s.sweep.state = .idle ∧ s.sweep.kind = none ∧ s.sweep.netCursor = none ∧
    s.sweep.memberCursor = none ∧ s.sweep.results = [] ∧ s.sweep.correlate = false ∧ s.sweep.candidates = [] ∧
    s.sweep.stack = [] ∧ s.sweep.inHand = none ∧ s.sweep.shortCount = 0 ∧ s.sweep.skipped = 0 ∧ s.sweep.work = []) ∧
  (s.hv.state = .discharge ∧ s.hv.cause = .startUp ∧ s.hv.net = none ∧
    s.hv.cls = { volt := 500, ramp := 500, dwell := 1000, irLimit := 100, arcStep := 0, avgCode := 2 } ∧
    s.hv.hold = false ∧ s.hv.keepalive = 0 ∧ s.hv.window = [] ∧ s.hv.arcPred = none ∧ s.hv.rampTimer = none ∧
    s.hv.dwellTimer = none ∧ s.hv.dischargeTimer = none ∧ s.hv.ending = none ∧ s.hv.safeWait = false) ∧
  (s.run.state = .idle ∧ s.run.correlate = false ∧ s.run.step = none ∧ s.run.inProgress = false ∧
    s.run.stepDefects = 0 ∧ s.run.insertFlag = false ∧ s.run.rampFlag = false ∧ s.run.stopArmed = false ∧
    s.run.pauseReq = false ∧ s.run.pauseCause = .none ∧ s.run.abortCause = .none ∧ s.run.slot = none ∧
    s.run.summary = { term := none, lastStep := none, stepsRun := 0, defects := 0, measurements := 0 }) ∧
  s.defects = [] ∧
  (s.print.state = .off ∧ s.print.buf0 = { state := .empty, content := none, text := [] } ∧
    s.print.buf1 = s.print.buf0 ∧ s.print.sendPos = 0 ∧ s.print.holdReq = false ∧ s.print.disableReq = false ∧
    s.print.header = none ∧ s.print.copies = 0 ∧ s.print.summary = none ∧ s.print.summaryDue = false ∧
    s.print.summaryLeft = 0 ∧ s.print.busyTimer = none) ∧
  (s.ring = { queue := [], wait := [], ownTag := 0 } ∧ s.trunk = { queue := [], begun := false, held := false }) ∧
  (s.events = { pending := 0, mask := 0xFF8 } ∧
    s.fault =
      { valid := false, code := none, step := none, net := none, point := none, hv := none, table := none
        second := false, safeHalt := false } ∧
    s.rst.held = true ∧ s.rst.cause = .power)

/-- Every step keeps table memory canonical. -/
def Obligations.StepKeepsMemoryCanonical : Prop :=
  ∀ s t : State, s.mem.wf → step s = .next t → t.mem.wf

/-- Every step keeps the limits block in the ranges of R14 and R15, and the run defect count within the run defect
limit (R34, R144). -/
def Obligations.StepKeepsLimitsSound : Prop :=
  ∀ s t : State, s.limitsSound → step s = .next t → t.limitsSound

/-- Every step keeps the cache sound: no two valid entries for one point, the pointer within 0..31 (R19). -/
def Obligations.StepKeepsCacheSound : Prop :=
  ∀ s t : State, s.cacheSound → step s = .next t → t.cacheSound

/-- Every step keeps an active run over READY tables with the HV state not STUCK, and SAFE-HALT with the run DONE
(R42, R179). -/
def Obligations.StepKeepsRunSound : Prop :=
  ∀ s t : State, s.runSound → step s = .next t → t.runSound

/-- Every step keeps the transmit queues within eight places and the own-tag counter within 0..127 (R171, R173). -/
def Obligations.StepKeepsLinksSound : Prop :=
  ∀ s t : State, s.linksSound → step s = .next t → t.linksSound

/-- Every step keeps the relays safe: no channel on both buses (R52), and no frame that sets relays and no
configuration while the HV state is not SAFE (R54, R60). -/
def Obligations.StepKeepsRelaysSound : Prop :=
  ∀ s t : State, s.relaysSound → step s = .next t → t.relaysSound

/-- Every step keeps the flags of modules that are not configured clear (R65). -/
def Obligations.StepKeepsNodesSound : Prop :=
  ∀ s t : State, s.nodesSound → step s = .next t → t.nodesSound

/-- Every step keeps the sample queue within 8, the averaging window within 64, and the keepalive counter above 0 in
RAMP and DWELL (R76, R89, R129). -/
def Obligations.StepKeepsMeasuringSound : Prop :=
  ∀ s t : State, s.measuringSound → step s = .next t → t.measuringSound

/-- Every step keeps the interlock closed while the HV state is RAMP or DWELL (R127, R136). -/
def Obligations.StepKeepsInterlockSound : Prop :=
  ∀ s t : State, s.interlockSound → step s = .next t → t.interlockSound

/-- Every step keeps the defect list sound: at most 512 records, no key twice, seqs strictly rising and none above the
run defect count, and no PROVISIONAL record PRINTED or RETIRED (R143, R144, R147). -/
def Obligations.StepKeepsListSound : Prop :=
  ∀ s t : State, s.listSound → step s = .next t → t.listSound

/-- SAFE-HALT, once set, stays set until a reset row (R179). -/
def Obligations.SafeHaltStays : Prop :=
  ∀ (i : Instr) (s t : State), i.resets = false → s.fault.safeHalt = true → exec i s = .next t →
    t.fault.safeHalt = true

/-- Outside the resets, table memory changes only as a record access completes, the limits block only by LOAD LIMITS,
and the channel counts only by LOAD MODULES (R2, R12, R13). -/
def Obligations.OnlyOwnersChangeTables : Prop :=
  ∀ (i : Instr) (s t : State), i.resets = false → exec i s = .next t →
    ((∀ upset busy, i ≠ .tableAccessComplete upset busy) → t.mem = s.mem) ∧
      ((∀ tag args, i ≠ .loadLimits tag args) → t.limits = s.limits) ∧
      ((∀ tag args, i ≠ .loadModules tag args) →
        t.sup.nodes.map (·.channels) = s.sup.nodes.map (·.channels))

/-- A frame put on a link as R164 gives is received as itself, where its LEN is one that the link takes (R165). The
frames of the rows that come from the controller are all received and none is discarded (R167). -/
def Obligations.FramesRoundTrip : Prop :=
  (∀ (link : Link) (f : Frame), f.payload.length ≤ 64 →
    (link = .ring → ringLengthAllowed f.cls f.payload.length = true) → receive link f.bytes = some f) ∧
  ∀ (i : Instr) (f : Frame), i.frame? = some f → i.WellFormed = true →
    receive .trunk f.bytes = some f ∧ frameIsDiscarded .trunk f.bytes = false

/-! ### Reports (chapters 04, 12) -/

/-- IDENTIFY (R182). -/
def Obligations.IdentifyReports : Prop :=
  ∀ (s : State) (tag : Byte), s.hearsTrunk → ∃ rev : Byte, 1 ≤ rev.toNat ∧
    exec (.identify tag []) s = .next (s.replied tag 0x01 .ok
      [0x50, 0x54, 0x2D, 0x38, 0x31, 0x36, rev,
        (match s.rst.cause with
          | .power => 0x00#8 | .pin => 0x01#8 | .command => 0x02#8 | .clock => 0x03#8),
        if s.fault.safeHalt then 0x01#8 else 0x00#8])

/-- READ STATUS answers the items of its section, each as R174 codes it (NONE in an enumeration that lists it is all ones,
log 19), and changes nothing; the current level of PRN_BUSY in section 7 (R152) comes with the row (log 18). READ MODULES
answers with the monitor period, the poll list count and up to eight entries from the address on (R75, log 41). -/
def Obligations.StatusAndModulesReported : Prop :=
  ∀ (s : State) (tag : Byte), s.hearsTrunk →
    (∀ (args : List Byte) (busy : Bool), args.length ≤ 63 → args.length ≠ 1 ∨ 7 < (args.getD 0 0).toNat →
      exec (.readStatus tag ⟨args, busy⟩) s = .next
        (State.replied { s with pins := { s.pins with prnBusy := busy } } tag 0x02 .badArg [])) ∧
    (∀ busy : Bool,
      let sent (sec : Byte) (data : List Byte) : Prop :=
        exec (.readStatus tag ⟨[sec], busy⟩) s = .next
          (State.replied { s with pins := { s.pins with prnBusy := busy } } tag 0x02 .ok data)
      let bit (b : Bool) (n : Nat) : Nat := if b then 2 ^ n else 0
      let word (o : Option Nat) : List Byte := be16 (o.getD 0xFFFF)
      let line (b : Buffer) : List Byte :=
        byte b.state.code ::
          (match b.content with
            | none => [0xFF, 0xFF, 0xFF]
            | some (.record n) => 0 :: be16 n
            | some .header => [1, 0xFF, 0xFF]
            | some .summary => [2, 0xFF, 0xFF])
      sent 0
        ([byte s.tables.state.code] ++
          (match s.tables.result with
            | .none => [0xFF, 0xFF, 0xFF, 0xFF, 0xFF]
            | .pass => [1, 0xFF, 0xFF, 0xFF, 0xFF]
            | .fail reason kind index => [2, byte reason.code, byte kind.code] ++ be16 index) ++
          [byte s.tables.parityCount] ++
          (match s.tables.parityLast with
            | some (kind, index) => byte kind.code :: be16 index
            | none => [0xFF, 0xFF, 0xFF])) ∧
      sent 1
        ([byte s.run.state.code,
            byte (bit s.run.correlate 0 + bit s.run.inProgress 1 + bit s.run.insertFlag 2 + bit s.run.rampFlag 3
              + bit s.run.stopArmed 4 + bit s.run.pauseReq 5 + bit s.run.slot.isSome 6)] ++
          word s.run.step ++ be16 s.run.stepDefects ++ [byte s.run.pauseCause.code, byte s.run.abortCause.code] ++
          [byte ((s.run.slot.map fun r => r.key.kind.code).getD 0xFF)] ++
          word (s.run.slot.map fun r => r.key.netA) ++
          [byte ((s.run.summary.term.map fun t => t.code).getD 0xFF)] ++ word s.run.summary.lastStep ++
          be16 s.run.summary.stepsRun ++ be16 s.run.summary.defects ++ be32 s.run.summary.measurements) ∧
      sent 2 [byte s.seq.state.code, byte s.seq.requester.code, byte s.seq.transactions.length] ∧
      sent 3
        ([byte s.mc.state.code, byte s.mc.requester.code, byte s.mc.attempt, byte s.mc.queue.length] ++
          be16 s.mc.lost ++ be16 s.mc.discards) ∧
      sent 4
        ([byte s.sweep.state.code, byte ((s.sweep.kind.map fun k => k.code).getD 0xFF)] ++
          word s.sweep.netCursor ++ [byte (s.sweep.memberCursor.getD 0xFF)] ++
          (if s.sweep.kind = some .iso then
            be16 s.sweep.candidates.length ++ [byte s.sweep.stack.length, byte s.sweep.shortCount] ++
              be16 s.sweep.skipped ++ [byte s.sweep.work.length, byte s.sweep.workCursor]
          else [0, 0, 0, 0, 0, 0, 0, 0])) ∧
      sent 5
        ([byte s.hv.state.code, byte s.hv.cause.code] ++ word s.hv.net ++ be16 s.hv.keepalive ++
          [byte s.hv.window.length,
            byte (bit s.hv.rampTimer.isSome 0 + bit s.hv.dwellTimer.isSome 1 + bit s.hv.dischargeTimer.isSome 2)]) ∧
      sent 6
        (be16 s.defects.length ++ be16 (s.defects.filter (·.provisional)).length
          ++ be16 (s.defects.filter (·.retired)).length
          ++ (match s.defects.getLast? with | some d => be16 d.seq | none => [0xFF, 0xFF])) ∧
      sent 7
        ([byte s.print.state.code] ++ line s.print.buf0 ++ line s.print.buf1 ++
          [byte (bit s.print.holdReq 0 + bit s.print.disableReq 1 + bit s.print.header.isSome 2
              + bit s.print.summaryDue 3 + bit busy 4 + bit s.print.busyTimer.isSome 5),
            byte s.print.summaryLeft, byte s.print.copies])) ∧
    (([.empty, .loaded, .checking, .ready].map TableState.code = [0, 1, 2, 3]) ∧
      [.idle, .running, .paused, .stalled, .aborting, .done].map RunState.code = [0, 1, 2, 3, 4, 5] ∧
      [.none, .request, .interlock].map PauseCause.code = [0xFF, 1, 2] ∧
      [.none, .abort, .hvAbort, .fault].map AbortCause.code = [0xFF, 1, 2, 3] ∧
      [.idle, .translating, .verifying, .settling, .homing].map SeqState.code = [0, 1, 2, 3, 4] ∧
      [.none, .sweep, .hv, .run].map Requester.code = [0xFF, 1, 2, 3] ∧
      [.idle, .msrQueued, .msrWait, .msrAnswered, .stream].map McState.code = [0, 1, 2, 3, 4] ∧
      [.idle, .reading, .configuring, .measuring, .inserting, .writing].map SweepState.code
        = [0, 1, 2, 3, 4, 5] ∧
      [.safe, .ramp, .dwell, .discharge, .stuck].map HvState.code = [0, 1, 2, 3, 4] ∧
      [.none, .startUp, .test, .unexpected, .halt].map HvCause.code = [0xFF, 1, 2, 3, 4] ∧
      [.off, .idle, .format, .send, .held, .faulted].map PrintState.code = [0, 1, 2, 3, 4, 5] ∧
      [.empty, .formatting, .ready, .sending].map BufState.code = [0, 1, 2, 3]) ∧
    (s.fault.safeHalt = false → ∀ (first : Byte) (period : Nat), s.sup.timer = some period →
      (1 ≤ first.toNat ∧ first.toNat ≤ 64) ∨ first = 72 →
      exec (.readModules tag [first]) s = .next (s.replied tag 0x1F .ok
        ([byte period, byte s.sup.pollList.length] ++
          ((((List.range' 1 64 ++ [72]).filter fun a => first.toNat ≤ a).take 8).map fun a =>
            let n := (s.node? a).getD (Node.cleared 0)
            let known : Option Masks := if a = 72 then none else s.believed a
            [byte a, if a = 72 then 0xFF#8 else byte n.channels,
              (if n.heard then 0x01#8 else 0) + (if n.fault then 0x02#8 else 0)
                + (if n.alive then 0x04#8 else 0) + (if known.isSome then 0x08#8 else 0),
              byte n.kind.code, byte n.reported,
              byte (match known with | some m => maskCount m.a | none => 0),
              byte (match known with | some m => maskCount m.b | none => 0)]).flatten))) ∧
    (s.fault.safeHalt = false → ∀ first : Byte, first.toNat = 0 ∨ 64 < first.toNat → first ≠ 72 →
      exec (.readModules tag [first]) s = .next (s.replied tag 0x1F .badArg []))

/-- READ FAULT and CLEAR FAULT (R178). -/
def Obligations.FaultRecordReadAndCleared : Prop :=
  ∀ (s : State) (tag : Byte), s.hearsTrunk →
    exec (.readFault tag []) s = .next (s.replied tag 0x20 .ok
      ([if s.fault.valid then 1 else 0, byte ((s.fault.code.map (·.code)).getD 0xFF)]
        ++ be16 (s.fault.step.getD 0xFFFF) ++ be16 (s.fault.net.getD 0xFFFF)
        ++ be16 (s.fault.point.getD 0xFFFF) ++ [byte ((s.fault.hv.map (·.code)).getD 0xFF)]
        ++ (match s.fault.table with | some (k, i) => byte k.code :: be16 i | none => [0xFF, 0xFF, 0xFF])
        ++ [if s.fault.second then 1 else 0, if s.fault.safeHalt then 1 else 0])) ∧
    (s.fault.safeHalt = true →
      exec (.clearFault tag []) s = .next (s.replied tag 0x21 .halted [])) ∧
    (s.fault.safeHalt = false → s.run.state = .idle ∨ s.run.state = .done →
      exec (.clearFault tag []) s = .next
        (State.replied
          { s with fault :=
              { valid := false, code := none, step := none, net := none, point := none, hv := none
                table := none, second := false, safeHalt := false } }
          tag 0x21 .ok [])) ∧
    (s.fault.safeHalt = false → s.run.state ≠ .idle → s.run.state ≠ .done →
      exec (.clearFault tag []) s = .next (s.replied tag 0x21 .badState []))

/-- In SAFE-HALT every command but IDENTIFY, READ STATUS, READ FAULT and RESET CHIP is answered HALTED and does
nothing else, and a code that names no command is answered UNKNOWN there too (R172, R179). -/
def Obligations.SafeHaltAnswersHalted : Prop :=
  (∀ (i : Instr) (f : Frame) (code : Byte) (args : List Byte) (s : State), i.WellFormed = true →
    i.frame? = some f → f.cls = clsCmd → f.payload = code :: args → isCommandCode code = true →
    code ≠ 0x01 → code ≠ 0x02 → code ≠ 0x20 → code ≠ 0x22 → s.hearsTrunk → s.fault.safeHalt = true →
    (∀ tag args busy, i ≠ .printGo tag args busy) →
    exec i s = .next (s.replied f.tag code .halted [])) ∧
  (∀ (tag : Byte) (args : List Byte) (busy : Bool) (s : State), s.hearsTrunk → s.fault.safeHalt = true →
    args.length ≤ 63 →
    exec (.printGo tag args busy) s = .next
      (State.replied { s with pins := { s.pins with prnBusy := busy } } tag 0x1E .halted [])) ∧
  ∀ (tag : Byte) (code : UnknownCode) (args : List Byte) (s : State), s.hearsTrunk → args.length ≤ 63 →
    exec (.unknownCommand tag code args) s = .next (s.replied tag code.code .unknown [])

/-- A frame from the controller that arrives while the chip is held in reset, after RESET CHIP, or with the trunk
transmit queue full does nothing (R167, R180, R181). Neither does a frame that R165 discards, nor a valid frame that the
rules sort nowhere: from the trunk a class other than CMD, SW, POL, MSR and HVC (R167), a CMD that is not to DST 1 or that
has no code (R167, R172); from the ring a frame of a node that is not addressed to the chip or whose class is none of ECH,
STA and SMP, or whose SRC is no node's (R169, log 38). PRINT GO and
READ STATUS leave the level of PRN_BUSY that they carry (log 18). -/
def Obligations.DiscardedFramesDoNothing : Prop :=
  (∀ (i : Instr) (f : Frame) (s : State), i.frame? = some f → i.WellFormed = true →
    (s.rst.held = true ∨ s.rst.phase ≠ .none ∨ 8 ≤ s.trunk.queue.length + s.repliesOwed) →
    (∀ tag args busy, i ≠ .printGo tag args busy ∧ i ≠ .readStatus tag ⟨args, busy⟩) → exec i s = .next s) ∧
  (∀ (tag : Byte) (args : List Byte) (busy : Bool) (s : State),
    (s.rst.held = true ∨ s.rst.phase ≠ .none ∨ 8 ≤ s.trunk.queue.length + s.repliesOwed) →
    exec (.printGo tag args busy) s = .next { s with pins := { s.pins with prnBusy := busy } } ∧
      exec (.readStatus tag ⟨args, busy⟩) s = .next { s with pins := { s.pins with prnBusy := busy } }) ∧
  (∀ (link : Link) (bytes : List Byte) (s : State),
    frameIsDiscarded link bytes = true → exec (.frameDiscarded link bytes) s = .next s) ∧
  (∀ (link : Link) (bytes : List Byte),
    (bytes.length < 7 ∨ 64 < byteAt bytes 4 ∨ byteAt bytes 4 + 7 ≠ bytes.length ∨
      beNat (bytes.drop (bytes.length - 2)) ≠ (crc16 (bytes.take (bytes.length - 2))).toNat ∨
      (link = .ring ∧ ringLengthAllowed (bytes.getD 2 0) (byteAt bytes 4) = false)) →
    frameIsDiscarded link bytes = true) ∧
  ∀ f : Frame, f.payload.length ≤ 64 →
    (frameIsDiscarded .trunk f.bytes = true ↔
      (f.cls = 0x01 ∧ (f.dst ≠ 1 ∨ f.payload = [])) ∨ f.cls ∉ ([0x01, 0x10, 0x12, 0x20, 0x22] : List Byte)) ∧
    (ringLengthAllowed f.cls f.payload.length = true →
      (frameIsDiscarded .ring f.bytes = true ↔
        f.src ≠ 0 ∧ (126 < f.src.toNat ∨ f.dst ≠ 0 ∨ f.cls ∉ ([0x11, 0x13, 0x21] : List Byte))))

/-- A command without arguments that comes with argument bytes is answered BAD-ARG and does nothing else (PRINT GO
carries the level of PRN_BUSY, log 18), and so is a START RUN that is not four argument bytes or whose run options hold an
undefined bit (R172, log 22, 23). -/
def Obligations.BareCommandsTakeNoArguments : Prop :=
  (∀ (i : Instr) (f : Frame) (code : Byte) (args : List Byte) (s : State), i.WellFormed = true →
    i.frame? = some f → f.cls = clsCmd → f.payload = code :: args →
    code ∈ ([0x01, 0x0D, 0x0F, 0x10, 0x11, 0x12, 0x17, 0x18, 0x1B, 0x1C, 0x1D, 0x20, 0x21, 0x22] : List Byte) →
    args ≠ [] → s.takesCommands → exec i s = .next (s.replied f.tag code .badArg [])) ∧
  (∀ (s : State) (tag : Byte) (args : List Byte) (busy : Bool), s.takesCommands → args ≠ [] → args.length ≤ 63 →
    exec (.printGo tag args busy) s = .next
      (State.replied { s with pins := { s.pins with prnBusy := busy } } tag 0x1E .badArg [])) ∧
  ∀ (s : State) (tag : Byte) (args : List Byte), s.takesCommands → args.length ≤ 63 →
    args.length ≠ 4 ∨ 1 < (args.getD 2 0).toNat →
    exec (.startRun tag args) s = .next (s.replied tag 0x0E .badArg [])

/-! ### Tables and limits (chapter 01) -/

/-- LOAD DIMENSIONS: the order of its tests, and what an accepted one stores (R4, R5). -/
def Obligations.DimensionsLoaded : Prop :=
  ∀ (s : State) (tag : Byte) (args : List Byte), s.takesCommands → args.length ≤ 63 →
    (s.run.active = true ∨ s.tables.state = .checking →
      exec (.loadDimensions tag args) s = .next (s.replied tag 0x03 .busy [])) ∧
    (s.run.active = false → s.tables.state ≠ .checking →
      (∀ p n m a c : Nat, args = be16 p ++ be16 n ++ be16 m ++ be16 a ++ be16 c →
        1 ≤ p → p ≤ 8192 → 1 ≤ n → n ≤ 4096 → 1 ≤ m → m ≤ 16384 → a ≤ 4096 → 1 ≤ c → c ≤ 1024 →
        exec (.loadDimensions tag args) s = .next
          (State.replied
            { s with tables :=
                { s.tables with
                  dims := some { points := p, nets := n, members := m, names := a, steps := c }
                  state := .loaded, result := .none } }
            tag 0x03 .ok [])) ∧
      ((¬∃ p n m a c : Nat, args = be16 p ++ be16 n ++ be16 m ++ be16 a ++ be16 c ∧
          1 ≤ p ∧ p ≤ 8192 ∧ 1 ≤ n ∧ n ≤ 4096 ∧ 1 ≤ m ∧ m ≤ 16384 ∧ a ≤ 4096 ∧ 1 ≤ c ∧ c ≤ 1024) →
        exec (.loadDimensions tag args) s = .next (s.replied tag 0x03 .badArg [])))

/-- A load of a table of table memory that is accepted makes the tables LOADED and asks for the writes of its
records in ascending index, the last of which will be answered (R5, log 10, 14); a name is stored padded with spaces to
16 characters, a step with status NOT-RUN and step defect count 0 (R9, R10). -/
def Obligations.TableLoadsAccepted : Prop :=
  (∀ (kind : TableKind) (tag code : Byte) (i : Instr) (first : Nat) (rs : List (List Byte)) (s : State),
    s.takesCommands → s.run.active = false → s.tables.state ≠ .checking → s.tables.dims.isSome = true →
    loadRow kind tag (be16 first ++ rs.flatten) = some (i, code) → (be16 first ++ rs.flatten).length ≤ 63 →
    rs ≠ [] → (∀ r ∈ rs, r.length = kind.loadSize ∧ kind.loadOk r = true) →
    first + rs.length ≤ s.bound kind → first < 65536 →
    exec i s = .next (State.settled
      { s with
        tables := { s.tables with state := .loaded, result := .none }
        port :=
          { queue := s.port.queue ++ rs.zipIdx.map fun x =>
              ({ kind, index := first + x.2, write := some (0, kind.stored x.1)
                 owner := .load tag code (decide (x.2 + 1 = rs.length)) } : Access) } })) ∧
  (∀ (n : Byte) (chars : List Byte), n.toNat ≤ 16 → chars.length = 16 →
    TableKind.names.stored (n :: chars) = chars.take n.toNat ++ List.replicate (16 - n.toNat) 0x20#8) ∧
  (∀ r : List Byte, TableKind.steps.stored r = r.take 9 ++ [0x00#8, 0x00#8, 0x00#8]) ∧
  ∀ (kind : TableKind) (r : List Byte), kind ≠ .names → kind ≠ .steps → kind.stored r = r

/-- A load of a table of table memory that is refused: the order of the tests of R5, and the range of each field of a
record at its load, with the bytes that carry it (R6 to R10; an option bit that names no option is out of range,
log 23). -/
def Obligations.TableLoadsRefused : Prop :=
  (∀ r : List Byte,
    (TableKind.points.loadSize = 7 ∧ TableKind.nets.loadSize = 10 ∧ TableKind.members.loadSize = 2 ∧
      TableKind.names.loadSize = 17 ∧ TableKind.steps.loadSize = 12) ∧
    (TableKind.points.loadOk r = true ↔
      1 ≤ byteAt r 0 ∧ byteAt r 0 ≤ 64 ∧ byteAt r 1 ≤ 127 ∧ byteAt r 2 ≤ 2 ∧
        (wordAt r 5 ≤ 4095 ∨ wordAt r 5 = 0xFFFF)) ∧
    (TableKind.nets.loadOk r = true ↔
      wordAt r 0 ≤ 16383 ∧ 1 ≤ wordAt r 2 ∧ wordAt r 2 ≤ 256 ∧ byteAt r 5 ≤ 7 ∧
        (byteAt r 6 ≤ 7 ∨ byteAt r 6 = 0xFF) ∧ byteAt r 7 ≤ 1 ∧ (wordAt r 8 ≤ 4095 ∨ wordAt r 8 = 0xFFFF)) ∧
    (TableKind.members.loadOk r = true ↔ wordAt r 0 ≤ 8191) ∧
    (TableKind.names.loadOk r = true ↔ byteAt r 0 ≤ 16) ∧
    (TableKind.steps.loadOk r = true ↔
      wordAt r 1 ≤ 4095 ∧ wordAt r 3 ≤ 4095 ∧ byteAt r 5 ≤ 3 ∧ byteAt r 6 ≤ 3 ∧ wordAt r 7 ≤ 8191)) ∧
  ∀ (kind : TableKind) (tag code : Byte) (args : List Byte) (i : Instr) (s : State), s.takesCommands →
    args.length ≤ 63 → loadRow kind tag args = some (i, code) →
    (s.run.active = true ∨ s.tables.state = .checking → exec i s = .next (s.replied tag code .busy [])) ∧
    (s.run.active = false → s.tables.state ≠ .checking → s.tables.dims = none →
      exec i s = .next (s.replied tag code .notReady [])) ∧
    (s.run.active = false → s.tables.state ≠ .checking → s.tables.dims.isSome = true →
      (¬∃ (first : Nat) (rs : List (List Byte)), args = be16 first ++ rs.flatten ∧ first < 65536 ∧ rs ≠ [] ∧
          (∀ r ∈ rs, r.length = kind.loadSize ∧ kind.loadOk r = true) ∧ first + rs.length ≤ s.bound kind) →
      exec i s = .next (s.replied tag code .badArg []))

/-- LOAD MODULES: the order of its tests, and what an accepted one does to the channel counts, the believed states, the
flags, the monitor period with its poll round, and MODULE-CHANGE (R5, R12, R63, R66, R67, R73). With no POL waiting, each node
then configured is in the poll list or has its POL in the ring transmit queue; with no frame waiting and the HV state SAFE, as
many POLs as find room are placed in ascending order with the own tags that come next, and the first of the others waits. -/
def Obligations.ModulesLoaded : Prop :=
  (∀ (s : State) (tag : Byte) (args : List Byte), s.takesCommands → args.length ≤ 63 →
    (s.run.active = true ∨ s.tables.state = .checking →
      exec (.loadModules tag args) s = .next (s.replied tag 0x09 .busy [])) ∧
    (s.run.active = false → s.tables.state ≠ .checking →
      (¬∃ (first : Nat) (counts : List Byte), args = be16 first ++ counts ∧ counts ≠ [] ∧ 1 ≤ first ∧
          first + counts.length ≤ 65 ∧ ∀ c ∈ counts, c.toNat ≤ 128) →
      exec (.loadModules tag args) s = .next (s.replied tag 0x09 .badArg []))) ∧
  ∀ (s : State) (tag : Byte) (first : Nat) (counts : List Byte), s.takesCommands →
    s.sup.nodes.length = 65 → s.run.active = false → s.tables.state ≠ .checking → counts ≠ [] → 1 ≤ first →
    first + counts.length ≤ 65 → counts.length ≤ 61 → (∀ c ∈ counts, c.toNat ≤ 128) →
    ∃ t, exec (.loadModules tag (be16 first ++ counts)) s = .next t ∧
      t.tables = { s.tables with state := .loaded, result := .none } ∧
      (∀ a, t.channels a =
        if first ≤ a ∧ a < first + counts.length then (counts.getD (a - first) 0).toNat else s.channels a) ∧
      (∀ a, t.believed a = if first ≤ a ∧ a < first + counts.length then none else s.believed a) ∧
      (∀ n ∈ t.sup.nodes, n.heard = false ∧ n.fault = false ∧ n.alive = false) ∧
      t.sup.nodes.map (fun n => (n.kind, n.reported)) = s.sup.nodes.map (fun n => (n.kind, n.reported)) ∧
      t.sup.timer = some s.limits.timing.period ∧
      t.events.pending = s.events.pending |||
        (if s.sup.nodes.any (·.alive) then Event.moduleChange.bit else 0) ∧
      (let nodes := t.modules ++ [72]
       let placed := 8 - s.ring.queue.length
       ((∀ e ∈ s.ring.wait, e.isPoll = false) →
         ∀ a ∈ nodes,
           a ∈ t.sup.pollList ∨
             ∃ e ∈ t.ring.queue, e.owner = .poll a ∧ e.frame.dst = byte a ∧ e.frame.src = 0 ∧ e.frame.cls = clsPol ∧
               e.frame.payload = []) ∧
         (s.ring.wait = [] → s.ring.ownTag < 128 → s.hv.state = .safe →
           t.sup.pollList = nodes.drop placed ∧
             t.ring.queue =
               s.ring.queue ++
                 (nodes.take placed).mapIdx (fun i a =>
                   ({ frame :=
                        { dst := byte a, src := 0, cls := clsPol, tag := byte ((s.ring.ownTag + i) % 128)
                          payload := [] }
                      owner := .poll a } : RingEntry)) ∧
             t.ring.wait.map (·.owner) = (nodes.drop placed).head?.toList.map .poll)) ∧
      ({ frame := replyFrame tag 0x09 .ok [], kind := .reply } : TrunkEntry) ∈ t.trunk.queue ∧
      t.mem = s.mem ∧ t.limits = s.limits ∧ t.run = s.run ∧ t.hv = s.hv ∧ t.defects = s.defects ∧
      t.cache = s.cache ∧ t.fault = s.fault ∧ t.print = s.print

/-- LOAD LIMITS: its tests, and the result by whether the section stored is the section carried (R13). -/
def Obligations.LimitsLoaded : Prop :=
  ∀ (s : State) (tag : Byte), s.takesCommands →
    (∀ args, args.length ≤ 63 → s.run.active = true → exec (.loadLimits tag args) s = .next (s.replied tag 0x0A .busy [])) ∧
    (s.run.active = false →
      exec (.loadLimits tag []) s = .next (s.replied tag 0x0A .badArg []) ∧
      (∀ (sel : Byte) (fields : List Byte), fields.length ≤ 62 → 18 < sel.toNat →
        exec (.loadLimits tag (sel :: fields)) s = .next (s.replied tag 0x0A .badArg [])) ∧
      ∀ (sel : Byte) (sec : Section) (fields : List Byte), fields.length ≤ 62 →
        Section.ofCode sel.toNat = some sec →
        (fields.length ≠ sec.size →
          exec (.loadLimits tag (sel :: fields)) s = .next (s.replied tag 0x0A .badArg [])) ∧
        (fields.length = sec.size →
          exec (.loadLimits tag (sel :: fields)) s = .next
            (State.replied { s with limits := s.limits.load s.run.summary.defects sec fields } tag 0x0A
              (if (s.limits.load s.run.summary.defects sec fields).section sec = fields then .ok
               else .clamped) [])))

/-- What each section of the limits block stores: every field clamped to its range, the open limit not below the good
limit stored, the run defect limit not below the run defect count; and the default of every field (R14, R15). -/
def Obligations.SectionsClamped : Prop :=
  State.reset.limits =
    { cont := List.replicate 8 { good := 2000, opn := 50000, range := 2 }
      iso := { limit := 1000000000, range := 1, shortCap := 8 }
      insul :=
        List.replicate 8 { volt := 500, ramp := 500, dwell := 1000, irLimit := 100, arcStep := 0, avgCode := 2 }
      timing :=
        { echo := 5, sample := 20, period := 10, keepalive := 256, hvInterval := 10, safeLevel := 30
          discharge := 2000, defectLimit := 1000, busy := 10, rate := 3 }
      calib :=
        { vlsbLv := 61, vlsbHv := 100
          ilsb := [61035156, 6103516, 610352, 61035, 6104, 610, 61, 3] } } ∧
  ∀ (l : Limits) (count : Nat),
    (∀ n good opn range : Nat, n < 8 → good < 4294967296 → opn < 4294967296 → range < 256 →
      Section.ofCode n = some (.cont n) ∧
      l.load count (.cont n) (be32 good ++ be32 opn ++ [byte range]) =
        { l with
          cont := l.cont.set n
            { good := min good 4294967294, opn := max (min good 4294967294) (min opn 4294967294)
              range := min range 7 } }) ∧
    (∀ limit range cap : Nat, limit < 4294967296 → range < 256 → cap < 256 →
      Section.ofCode 8 = some .isolation ∧
      l.load count .isolation (be32 limit ++ [byte range, byte cap]) =
        { l with iso :=
            { limit := max 1 (min limit 4294967294), range := min range 7, shortCap := max 1 (min cap 64) } }) ∧
    (∀ n volt ramp dwell ir arc avg : Nat, n < 8 → volt < 65536 → ramp < 65536 → dwell < 65536 →
      ir < 4294967296 → arc < 4294967296 → avg < 256 →
      Section.ofCode (9 + n) = some (.insul n) ∧
      l.load count (.insul n)
          (be16 volt ++ be16 ramp ++ be16 dwell ++ be32 ir ++ be32 arc ++ [byte avg]) =
        { l with
          insul := l.insul.set n
            { volt := max 50 (min volt 1500), ramp := max 50 (min ramp 5000)
              dwell := max 10 (min dwell 60000), irLimit := max 1 (min ir 4294967294)
              arcStep := min arc 4000000000, avgCode := min avg 6 } }) ∧
    (∀ echo sample period keepalive interval safe discharge limit busy rate : Nat, echo < 256 → sample < 256 →
      period < 256 → keepalive < 65536 → interval < 256 → safe < 256 → discharge < 65536 → limit < 65536 →
      busy < 256 → rate < 256 →
      Section.ofCode 17 = some .timing ∧
      l.load count .timing
          ([byte echo, byte sample, byte period] ++ be16 keepalive ++ [byte interval, byte safe]
            ++ be16 discharge ++ be16 limit ++ [byte busy, byte rate]) =
        { l with timing :=
            { echo := max 1 (min echo 50), sample := max 1 sample, period := max 1 period
              keepalive := max 16 keepalive, hvInterval := max 1 (min interval 100)
              safeLevel := max 10 (min safe 60), discharge := max 100 (min discharge 10000)
              defectLimit := max count (max 1 limit), busy := max 1 (min busy 60), rate := min rate 7 } }) ∧
    ∀ (lv hv : Nat) (ilsb : List Nat), lv < 65536 → hv < 65536 → ilsb.length = 8 →
      (∀ n ∈ ilsb, n < 4294967296) →
      Section.ofCode 18 = some .calibration ∧
      l.load count .calibration (be16 lv ++ be16 hv ++ (ilsb.map be32).flatten) =
        { l with calib :=
            { vlsbLv := max 1 lv, vlsbHv := max 1 (min hv 1000)
              ilsb := ilsb.map fun n => max 1 (min n 4000000000) } }

/-- LOAD LEADS: its tests, and the lead writes that an accepted one asks for in ascending point, the last of which
will be answered (R21, log 10, 14). -/
def Obligations.LeadsLoaded : Prop :=
  ∀ (s : State) (tag : Byte) (args : List Byte), s.takesCommands → args.length ≤ 63 →
    (s.run.active = true → exec (.loadLeads tag args) s = .next (s.replied tag 0x0B .busy [])) ∧
    (s.run.active = false → s.tables.dims = none →
      exec (.loadLeads tag args) s = .next (s.replied tag 0x0B .notReady [])) ∧
    (s.run.active = false → s.tables.dims.isSome = true →
      (∀ (first : Nat) (leads : List Nat), args = be16 first ++ (leads.map be16).flatten → leads ≠ [] →
        first < 65536 → (∀ l ∈ leads, l < 65536) → first + leads.length ≤ s.bound .points →
        exec (.loadLeads tag args) s = .next (State.settled
          { s with port :=
              { queue := s.port.queue ++ leads.zipIdx.map fun x =>
                  ({ kind := .points, index := first + x.2, write := some (3, be16 x.1)
                     owner := .leads tag (decide (x.2 + 1 = leads.length)) } : Access) } })) ∧
      ((¬∃ (first : Nat) (leads : List Nat), args = be16 first ++ (leads.map be16).flatten ∧ leads ≠ [] ∧
          first < 65536 ∧ first + leads.length ≤ s.bound .points) →
        exec (.loadLeads tag args) s = .next (s.replied tag 0x0B .badArg [])))

/-- READ TABLE: a record held on the chip is answered at once, a record of table memory is first read; what is refused
(R1, R11, R172, log 10, 20). That a payload which is not three bytes is BAD-ARG with the dimensions record absent too, where R11
gives NOT-READY, is the model's choice: R172 gives the refusal and orders it against no other but HALTED (log 22). -/
def Obligations.TableRead : Prop :=
  ∀ (s : State) (tag : Byte), s.takesCommands →
    (∀ (kind : TableKind) (index : Nat), index < 65536 →
      let answer := exec (.readTable tag (byte kind.code :: be16 index)) s
      let sent (bytes : List Byte) : Answer :=
        .next (s.replied tag 0x0C .ok (byte kind.code :: be16 index ++ bytes))
      let bad : Answer := .next (s.replied tag 0x0C .badArg [])
      (kind = .dimensions → answer =
        if index = 0 then
          sent (match s.tables.dims with
            | none => List.replicate 10 0xFF#8
            | some d => be16 d.points ++ be16 d.nets ++ be16 d.members ++ be16 d.names ++ be16 d.steps)
        else bad) ∧
      (kind = .modules → answer = if 1 ≤ index ∧ index ≤ 64 then sent [byte (s.channels index)] else bad) ∧
      (kind = .limits → (18 < index → answer = bad) ∧
        ∀ sec, Section.ofCode index = some sec → answer = sent (s.limits.section sec)) ∧
      (kind ≠ .dimensions → kind ≠ .modules → kind ≠ .limits →
        (s.tables.dims = none → answer = .next (s.replied tag 0x0C .notReady [])) ∧
        (s.tables.dims.isSome = true → s.bound kind ≤ index → answer = bad) ∧
        (s.tables.dims.isSome = true → index < s.bound kind →
          answer = .next (State.settled
            { s with port :=
                { queue := s.port.queue ++ [{ kind, index, write := none, owner := .readTable tag }] } })))) ∧
    ∀ args : List Byte, args.length ≤ 63 → args.length ≠ 3 ∨ 7 < (args.getD 0 0).toNat →
      exec (.readTable tag args) s = .next (s.replied tag 0x0C .badArg [])

/-- CHECK TABLES: its tests in order, and what an accepted one begins: CHECKING, result NONE, and the read of the first
point. Each record that the check reads, by pass: the first test that fails it, with the reason, table and index, or the
record read next with the two working sets. The last step record makes the check PASS, READY with the cache invalidated; a
record that fails its parity check makes it FAIL PARITY, LOADED, and is counted; CHECK-DONE where it ends (R3, R17,
R18; that a member point of a net whose kind byte names no kind fails SPARE-SHAPE is read from R18, log 40). That the name of
a net is read after the net's own tests, for parity alone, is the model's choice (log 58): R3 has the check read all five
tables, and R18 lists no read of a name. -/
def Obligations.CheckBeginsAndEnds : Prop :=
  (∀ (s : State) (tag : Byte), s.takesCommands →
    (s.run.active = true ∨ s.tables.state = .checking →
      exec (.checkTables tag []) s = .next (s.replied tag 0x0D .busy [])) ∧
    (s.run.active = false → s.tables.state ≠ .checking → s.tables.state = .empty ∨ s.tables.dims = none →
      exec (.checkTables tag []) s = .next (s.replied tag 0x0D .notReady [])) ∧
    (s.run.active = false → s.tables.state = .loaded ∨ s.tables.state = .ready → s.tables.dims.isSome = true →
      exec (.checkTables tag []) s = .next
        (State.replied
          { s with
            tables :=
              { s.tables with
                state := .checking, result := .none
                check := some { pos := .point 0, net := NetRec.zero, claimed := [], found := [] } }
            port := { queue := s.port.queue ++ [{ kind := .points, index := 0, write := none, owner := .check }] } }
          tag 0x0D .ok []))) ∧
  ∀ (s : State) (w : CheckWork) (kind : TableKind) (index : Nat) (rest : List Access) (busy : Bool),
    s.accessing (readFor kind index .check) rest → s.tables.check = some w →
    let answer := exec (.tableAccessComplete none busy) s
    let ends (u : Tables) : Prop :=
      ∃ t, answer = .next t ∧ t.port.queue = rest ∧ t.mem = s.mem ∧ t.cache = s.cache ∧ t.tables = u ∧
        t.events.isPending .checkDone = true ∧ t.run = s.run ∧ t.fault = s.fault
    let fails (reason : CheckReason) (k : TableKind) (i : Nat) : Prop :=
      ends { s.tables with result := .fail reason k i, state := .loaded, check := none }
    let goesOn (v : CheckWork) (k : TableKind) (i : Nat) : Prop :=
      answer = .next (State.settled
        { s.accessed (rest ++ [readFor k i .check]) busy with tables := { s.tables with check := some v } })
    (s.mem.record kind index = none → w.target = (kind, index) →
      ends
        { s.tables with
          result := .fail .parity kind index, state := .loaded, check := none
          parityCount := min 255 (s.tables.parityCount + 1), parityLast := some (kind, index) }) ∧
    ∀ bs : List Byte, s.mem.record kind index = some bs →
      let r := decodePoint bs
      let n := decodeNet bs
      let p := wordAt bs 0
      let x := decodeStep bs
      (∀ i, w.pos = .point i → kind = .points → index = i →
        if ¬(1 ≤ r.module ∧ r.module ≤ 64 ∧ s.channels r.module ≠ 0) then fails .moduleUnconf .points i
        else if s.channels r.module ≤ r.channel then fails .channelRange .points i
        else if (r.module, r.channel) ∈ w.claimed then fails .dupChannel .points i
        else if ¬(match r.net with
            | none => decide (r.kind = .unused)
            | some m => decide (m < s.bound .nets ∧ r.kind ≠ .unused)) = true then fails .netMismatch .points i
        else if i + 1 < s.bound .points then
          goesOn { w with claimed := (r.module, r.channel) :: w.claimed, pos := .point (i + 1) } .points (i + 1)
        else goesOn { w with claimed := (r.module, r.channel) :: w.claimed, pos := .net 0 } .nets 0) ∧
      (∀ j, w.pos = .net j → kind = .nets → index = j →
        if s.bound .members < n.first + n.count then fails .memberRange .nets j
        else if n.count ≤ n.anchor then fails .anchorRange .nets j
        else if (match n.name with | none => false | some m => decide (s.bound .names ≤ m)) = true then
          fails .nameRange .nets j
        else if n.kind = .spare ∧ n.count ≠ 1 then fails .spareShape .nets j
        else
          match n.name with
          | none => goesOn { w with net := n, pos := .member j 0 } .members n.first
          | some m => goesOn { w with net := n, pos := .name j m } .names m) ∧
      (∀ j, w.pos = .name j index → kind = .names → goesOn { w with pos := .member j 0 } .members w.net.first) ∧
      (∀ j q, w.pos = .member j q → kind = .members → index = w.net.first + q →
        if s.bound .points ≤ p then fails .memberRange .members index
        else if p ∈ w.found then fails .dupMember .members index
        else goesOn { w with found := p :: w.found, pos := .memberPoint j q p } .points p) ∧
      (∀ j q, w.pos = .memberPoint j q index → kind = .points →
        if r.net ≠ some j then fails .netMismatch .members (w.net.first + q)
        else if ¬((w.net.kind = .wired ∧ r.kind = .wired) ∨ (w.net.kind = .spare ∧ r.kind = .spare)) then
          fails .spareShape .members (w.net.first + q)
        else if q + 1 < w.net.count then goesOn { w with pos := .member j (q + 1) } .members (w.net.first + (q + 1))
        else if j + 1 < s.bound .nets then goesOn { w with pos := .net (j + 1) } .nets (j + 1)
        else goesOn { w with pos := .found 0 } .points 0) ∧
      (∀ i, w.pos = .found i → kind = .points → index = i →
        if r.net ≠ none ∧ i ∉ w.found then fails .netMismatch .points i
        else if i + 1 < s.bound .points then goesOn { w with pos := .found (i + 1) } .points (i + 1)
        else goesOn { w with pos := .step 0 } .steps 0) ∧
      ∀ i, w.pos = .step i → kind = .steps → index = i →
        if x.kind ∉ ([.cont, .iso, .insul, .leadcal, .mark, .endStep] : List StepKind) ∨ x.lastNet < x.firstNet ∨
            s.bound .nets ≤ x.lastNet ∨ (x.kind = .leadcal ∧ s.bound .points ≤ x.refPoint) then
          fails .stepRange .steps i
        else if i + 1 < s.bound .steps then goesOn { w with pos := .step (i + 1) } .steps (i + 1)
        else
          ∃ t, answer = .next t ∧ t.port.queue = rest ∧ t.mem = s.mem ∧
            t.tables = { s.tables with result := .pass, state := .ready, check := none } ∧
            t.cache =
              { s.cache with entries := s.cache.entries.map fun e => { e with valid := false } } ∧
            t.events.isPending .checkDone = true ∧ t.run = s.run ∧ t.fault = s.fault

/-! ### Table memory and the cache (chapter 01) -/

/-- A record write of a load completes: its bytes are in table memory, and the last write of the load is answered; a byte
named by `upset` comes to fail its parity check first (R5, R21, log 9). Of table memory a byte is written with the parity bit
that makes the ones of its nine bits odd in number, and fails its check where their number is even; the bytes written read
back with good parity, and every other byte and its parity are as before (R2). The write of a calibrated lead completes: the valid
cache entry of the point takes the lead, and the LEADCAL visit that waits for it goes on with the next member (R22,
R105). -/
def Obligations.LoadWriteCompletes : Prop :=
  (∀ (m : TableMem) (a : Nat) (b : Byte),
    let ones (x : Byte) (dp : Bool) : Nat :=
      ((List.range 8).filter fun i => x.getLsbD i).length + if dp then 1 else 0
    ones b ((m.write a b).dpAt a) % 2 = 1 ∧ (m.parityBad a = true ↔ ones (m.read a) (m.dpAt a) % 2 = 0)) ∧
  (∀ (m : TableMem) (start a : Nat) (bytes : List Byte),
    (m.writeRun start bytes).read a =
        (if start ≤ a ∧ a < start + bytes.length then bytes.getD (a - start) 0 else m.read a) ∧
      (m.writeRun start bytes).parityBad a =
        (if start ≤ a ∧ a < start + bytes.length then false else m.parityBad a)) ∧
  (∀ (s : State) (p lead : Nat) (rest : List Access) (busy : Bool),
    s.accessing { kind := .points, index := p, write := some (3, be16 lead), owner := .sweepLead p lead } rest →
    let done : State :=
      { s.accessed rest busy with
        mem := s.mem.writeRun (recordAddress .points p + 3) (be16 lead)
        cache :=
          { s.cache with entries := s.cache.entries.map fun e =>
              if e.valid = true ∧ e.tag = p then { e with copy := { e.copy with lead } } else e } }
    (s.sweep.state ≠ .writing ∨ s.sweep.visitedPoint ≠ some p →
      exec (.tableAccessComplete none busy) s = .next done.settled) ∧
    ∀ m : Nat, s.sweep.state = .writing → s.sweep.visitedPoint = some p → s.sweep.kind = some .leadcal →
      s.sweep.netDone = false → s.sweep.memberCursor = some m → m + 1 < s.sweep.net.count →
      s.alive (s.sweep.fixedModule.getD 0) = true → s.runGoesOn →
      exec (.tableAccessComplete none busy) s = .next (State.settled
        { done with
          port := { queue := rest ++ [readFor .members (s.sweep.net.first + (m + 1)) .sweepRead] }
          sweep :=
            { s.sweep with
              state := .reading, inHand := none, memberCursor := some (m + 1), visitedPoint := none
              visitedModule := none, reading := .memberPos } })) ∧
  ∀ (s : State) (a : Access) (rest : List Access) (offset : Nat) (bytes : List Byte) (upset : Option Nat)
    (busy : Bool) (tag code : Byte) (last : Bool), s.rst.held = false → s.rst.phase ≠ .ready →
    s.port.queue = a :: rest → a.write = some (offset, bytes) → a.index < a.kind.capacity →
    a.owner = .load tag code last ∨ (a.owner = .leads tag last ∧ code = 0x0B) →
    let done : State :=
      { s with
        mem :=
          ((match upset with
            | some i =>
              if i < a.kind.size then s.mem.upset (recordAddress a.kind a.index + i) else s.mem
            | none => s.mem) : TableMem).writeRun (recordAddress a.kind a.index + offset) bytes
        port := { queue := rest }
        rst := { s.rst with phase := if s.rst.phase = .accessing then .ready else s.rst.phase }
        pins := { s.pins with prnBusy := busy } }
    exec (.tableAccessComplete upset busy) s =
      .next (if last then done.replied tag code .ok [] else done.settled)

/-- The record read of READ TABLE completes: the record is answered, or TABLE-ERROR where a byte of it fails its parity
check, which is counted (R3, R11). The read of a cache fill completes: the entry that the pointer names takes the record,
the pointer advances, an INVALIDATE MAP that waited is answered, and the requester goes on (R19, R20): a low-voltage
operation with the lead (R86); a translation with its next point, or, every point translated, with the masks (R51): refused
where they close a channel on both buses (R52), else a transaction for each module that R51 gives one, its frame queued in
ascending address (R53). A configuration for which no module needs changing is ready at once, without a settle delay (R51),
and its CONT visit asks for its MSR (R87); a LEADCAL visit writes the lead of its visited point (R104, R105). A lookup that
waited for the fill is then served, a hit or a fill of its own (R19). A fill that fails its parity check leaves the entries
and is TABLE-PARITY (R3, R50, R86). That a name is sent with length 16 is the model's choice (log 20). So is the order at the
end of a fill, the INVALIDATE MAP before the lookups that waited and before the requester, which may so have to fill the entry
anew; and so is a fill whose requester has abandoned it (`dropped`): that it fills its entry all the same, and that its parity
failure is TABLE-PARITY (log 28). -/
def Obligations.RecordReadCompletes : Prop :=
  (∀ (placed : List Placed) (a c : Nat), c < 128 →
    (desiredMasks placed a).a.getLsbD c = placed.any (fun x => x.module = a ∧ x.channel = c ∧ x.bus = .a) ∧
    (desiredMasks placed a).b.getLsbD c = placed.any (fun x => x.module = a ∧ x.channel = c ∧ x.bus = .b)) ∧
  (∀ (s : State) (p : Nat) (who : LookupFor) (rest : List Access) (busy : Bool),
    s.accessing (readFor .points p .fill) rest → s.cache.fill = some (p, who) →
    let answer := exec (.tableAccessComplete none busy) s
    (∀ (bs : List Byte) (raw sum q : Nat), s.mem.record .points p = some bs → who = .dropped → s.cache.invalidates = [] →
      s.cache.waiting = [(q, .lead)] → s.arith.job = some { op := .lowVolt raw [q] sum, live := true } →
      s.cache.pointer < s.cache.entries.length → s.cache.entries.length = 32 →
      (∀ e ∈ s.cache.entries, ¬(e.valid = true ∧ e.tag = q)) →
      let r := decodePoint bs
      let filled : Cache :=
        { s.cache with
          entries := s.cache.entries.set s.cache.pointer { valid := true, tag := p, copy := r }
          pointer := (s.cache.pointer + 1) % 32, fill := none, waiting := [] }
      (q = p →
        answer = .next (State.settled
          { s.accessed rest busy with
            cache := filled
            arith := { s.arith with job := some { op := .lowVolt raw [] (sum + r.lead), live := true } } })) ∧
      (q ≠ p →
        answer = .next (State.settled
          { s.accessed (rest ++ [readFor .points q .fill]) busy with
            cache := { filled with fill := some (q, .lead) } }))) ∧
    (∀ bs : List Byte, s.cache.waiting = [] → s.mem.record .points p = some bs →
      let r := decodePoint bs
      let filled : Cache :=
        { s.cache with
          entries := s.cache.entries.set s.cache.pointer { valid := true, tag := p, copy := r }
          pointer := (s.cache.pointer + 1) % 32, fill := none }
      (∀ tag, s.cache.invalidates = [tag] →
        let cleared : Cache :=
          { filled with
            entries := filled.entries.map fun e => if e.valid = true ∧ e.tag = p then { e with valid := false } else e
            invalidates := [] }
        let invalidated (x : State) : Prop :=
          answer = .next
            (x.replied tag 0x15 .ok [byte (filled.entries.filter fun e => e.valid && e.tag = p).length])
        (who = .dropped → invalidated { s.accessed rest busy with cache := cleared }) ∧
        ∀ (raw sum : Nat) (live : Bool), who = .lead →
          (s.arith.job = some { op := .lowVolt raw [p] sum, live } →
            invalidated
              { s.accessed rest busy with
                cache := cleared
                arith := { s.arith with job := some { op := .lowVolt raw [] (sum + r.lead), live } } }) ∧
          ∀ q : Nat, s.arith.job = some { op := .lowVolt raw [p, q] sum, live } →
            (∀ e ∈ cleared.entries, ¬(e.valid = true ∧ e.tag = q)) →
            invalidated
              { s.accessed (rest ++ [readFor .points q .fill]) busy with
                cache := { cleared with fill := some (q, .lead) }
                arith := { s.arith with job := some { op := .lowVolt raw [q] (sum + r.lead), live } } }) ∧
      (s.cache.invalidates = [] →
        (who = .dropped → answer = .next (State.settled { s.accessed rest busy with cache := filled })) ∧
        (∀ (raw sum : Nat) (live : Bool), who = .lead → s.arith.job = some { op := .lowVolt raw [p] sum, live } →
          answer = .next (State.settled
            { s.accessed rest busy with
              cache := filled
              arith := { s.arith with job := some { op := .lowVolt raw [] (sum + r.lead), live } } })) ∧
        (∀ q : Nat, who = .reference → s.sweep.state = .measuring → s.sweep.visitedPoint = some q →
          let lead := min 65535 (s.sweep.raw - r.lead)
          answer = .next (State.settled
            { s.accessed
                (rest ++
                  [{ kind := .points, index := q, write := some (3, be16 lead), owner := .sweepLead q lead }])
                busy with
              cache := filled
              sweep := { s.sweep with state := .writing } })) ∧
        ∀ (bus : Bus) (more : List (Nat × Bus)), who = .translate → s.seq.state = .translating →
          s.seq.todo = (p, bus) :: more →
          let placed := s.seq.placed ++ [{ module := r.module, channel := r.channel, bus }]
          let masks (a : Nat) : Masks := desiredMasks placed a
          let wanted : List (Nat × Masks) :=
            (s.modules.map fun a => (a, masks a)).filter fun x =>
              match s.believed x.1 with
              | some m => decide (m ≠ x.2)
              | none => decide (x.2 ≠ { a := 0, b := 0 } ∨ s.alive x.1 = true)
          (∀ (q : Nat) (bus : Bus) (others : List (Nat × Bus)), more = (q, bus) :: others →
            (∀ e ∈ filled.entries, ¬(e.valid = true ∧ e.tag = q)) →
            answer = .next (State.settled
              { s.accessed (rest ++ [readFor .points q .fill]) busy with
                cache := { filled with fill := some (q, .translate) }
                seq := { s.seq with todo := more, placed } })) ∧
          (more = [] → (∃ a ∈ s.modules, (masks a).a &&& (masks a).b ≠ 0) →
            answer = .next (State.settled
              { s.accessed rest busy with
                cache := filled
                seq :=
                  { s.seq with
                    state := .idle, requester := .none, transactions := [], settleTimer := none, todo := []
                    placed := [] } })) ∧
          (∀ k f q : Nat, more = [] → (∀ a ∈ s.modules, (masks a).a &&& (masks a).b = 0) → wanted = [] →
            s.seq.requester = .sweep → s.sweep.kind = some .cont → s.fault.safeHalt = false → s.mc.state = .idle →
            s.hv.state = .safe → s.ringFree → s.sweep.netCursor = some k → s.sweep.fixedPoint = some f →
            s.sweep.visitedPoint = some q →
            answer = .next (State.settled
              { s.accessed rest busy with
                cache := filled
                seq :=
                  { s.seq with
                    state := .idle, requester := .none, transactions := [], settleTimer := none, todo := []
                    placed := [] }
                sweep := { s.sweep with state := .measuring }
                mc :=
                  { s.mc with
                    state := .msrQueued, requester := .sweep
                    range := (s.limits.contSet s.sweep.net.contSet).range, ctxNet := some k, ctxPoint := some q
                    attempt := 1, leads := [f, q], curTag := some s.ring.ownTag }
                ring :=
                  s.ring.placed 72 clsMsr [byte (s.limits.contSet s.sweep.net.contSet).range] .msr })) ∧
          (more = [] → (∀ a ∈ s.modules, (masks a).a &&& (masks a).b = 0) → wanted ≠ [] → s.sup.pollList = [] →
            ∃ t, answer = .next t ∧ t.cache = filled ∧ t.port.queue = rest ∧ t.mem = s.mem ∧
              t.seq.state = .verifying ∧ t.seq.requester = s.seq.requester ∧ t.seq.settle = s.seq.settle ∧
              t.seq.believed = s.seq.believed ∧ t.seq.failed = s.seq.failed ∧
              t.seq.transactions.map (fun x => (x.module, x.masks)) = wanted ∧
              (∀ x ∈ t.seq.transactions, x.attempt = 1 ∧ x.timer = none ∧ (x.phase = .waiting ∨ x.phase = .queued)) ∧
              (t.ring.queue ++ t.ring.wait).map (fun e => (e.owner, e.frame.dst, e.frame.cls, e.frame.payload)) =
                (s.ring.queue ++ s.ring.wait).map (fun e => (e.owner, e.frame.dst, e.frame.cls, e.frame.payload)) ++
                  wanted.map fun x => (.switch x.1, byte x.1, clsSw, maskBytes x.2.a ++ maskBytes x.2.b)))) ∧
    (s.cache.waiting = [] → s.mem.record .points p = none → s.fault.valid = false → s.cache.invalidates = [] →
      s.run.active = false ∨ s.run.state = .running →
      ∃ t, answer = .next t ∧ t.cache.entries = s.cache.entries ∧ t.cache.pointer = s.cache.pointer ∧
        t.cache.fill = none ∧
        t.tables =
          { s.tables with
            parityCount := min 255 (s.tables.parityCount + 1), parityLast := some (.points, p) } ∧
        t.fault = s.firstFault .tableParity s.hv.state s.currentNet (some p) (some (.points, p)) ∧
        t.events.isPending .fault = true ∧
        (who = .lead → t.arith.job = none) ∧ (who = .translate → t.seq.state ≠ .translating) ∧
        (s.run.active = false → t.run = s.run) ∧
        (s.run.state = .running → t.run.state = .aborting ∧ t.run.abortCause = .fault) ∧
        t.defects = s.defects ∧ t.mem = s.mem)) ∧
  ∀ (s : State) (kind : TableKind) (index : Nat) (rest : List Access) (busy : Bool) (tag : Byte),
    s.rst.held = false → s.rst.phase ≠ .ready → index < kind.capacity →
    s.port.queue = { kind, index, write := none, owner := .readTable tag } :: rest →
    let done : State :=
      { s with
        port := { queue := rest }
        rst := { s.rst with phase := if s.rst.phase = .accessing then .ready else s.rst.phase }
        pins := { s.pins with prnBusy := busy } }
    let place := byte kind.code :: be16 index
    let bytes := (List.range kind.size).map fun i => s.mem.read (recordAddress kind index + i)
    ((∀ i < kind.size, s.mem.parityBad (recordAddress kind index + i) = false) →
      exec (.tableAccessComplete none busy) s = .next (done.replied tag 0x0C .ok
        (place ++ (if kind = .names then 16#8 :: bytes else bytes)))) ∧
    ((∃ i < kind.size, s.mem.parityBad (recordAddress kind index + i) = true) →
      exec (.tableAccessComplete none busy) s = .next
        (State.replied
          { done with tables :=
              { s.tables with
                parityCount := min 255 (s.tables.parityCount + 1), parityLast := some (kind, index) } }
          tag 0x0C .tableError place))

/-- INVALIDATE MAP clears the entry of a point, or all of them, and answers how many were valid; it waits for a fill of
its point. PROBE MAP reports and changes nothing (R20, log 21). -/
def Obligations.CacheCommands : Prop :=
  ∀ (s : State) (tag : Byte) (p : Nat), s.takesCommands → p ≤ 8191 →
    exec (.invalidateMap tag [0xFF, 0xFF]) s = .next
      (State.replied
        { s with cache :=
            { s.cache with entries := s.cache.entries.map fun e => { e with valid := false } } }
        tag 0x15 .ok [byte (s.cache.entries.filter (·.valid)).length]) ∧
    ((∀ f ∈ s.cache.fill, f.1 ≠ p) →
      exec (.invalidateMap tag (be16 p)) s = .next
        (State.replied
          { s with cache :=
              { s.cache with entries := s.cache.entries.map fun e =>
                  if e.valid = true ∧ e.tag = p then { e with valid := false } else e } }
          tag 0x15 .ok [byte (s.cache.entries.filter fun e => e.valid && e.tag = p).length])) ∧
    (∀ f, s.cache.fill = some (p, f) →
      exec (.invalidateMap tag (be16 p)) s = .next (State.settled
        { s with cache := { s.cache with invalidates := s.cache.invalidates ++ [tag] } })) ∧
    ((∀ e ∈ s.cache.entries, ¬(e.valid = true ∧ e.tag = p)) →
      exec (.probeMap tag (be16 p)) s = .next (s.replied tag 0x16 .ok [0, byte s.cache.pointer])) ∧
    (∀ (i : Nat) (e : CacheEntry), s.cache.entries[i]? = some e → e.valid = true → e.tag = p →
      (∀ j < i, ∀ f, s.cache.entries[j]? = some f → ¬(f.valid = true ∧ f.tag = p)) →
      exec (.probeMap tag (be16 p)) s = .next (s.replied tag 0x16 .ok
        ([1, byte s.cache.pointer, byte i, byte e.copy.module, byte e.copy.channel, e.copy.kind.code]
          ++ be16 e.copy.lead ++ be16 (e.copy.net.getD 0xFFFF)))) ∧
    ∀ args : List Byte, args.length ≤ 63 →
      (args.length ≠ 2 ∨ (8191 < beNat args ∧ beNat args ≠ 0xFFFF) →
        exec (.invalidateMap tag args) s = .next (s.replied tag 0x15 .badArg [])) ∧
      (args.length ≠ 2 ∨ 8191 < beNat args →
        exec (.probeMap tag args) s = .next (s.replied tag 0x16 .badArg []))

/-! ### Runs (chapter 02) -/

/-- START RUN with a run option that R174 names: the first of its tests that refuses it (R24). -/
def Obligations.StartRefused : Prop :=
  ∀ (s : State) (tag copies : Byte) (correlate : Bool) (first : Nat), s.hearsTrunk → first < 65536 → ∀ r : Result,
    (if s.fault.safeHalt = true then some Result.halted
     else if s.run.state ≠ .idle then some .busy
     else if s.tables.state ≠ .ready then some .notReady
     else if s.hv.state ≠ .safe then some .hvLive
     else if s.alive 72 = false then some .headDown
     else if s.defects ≠ [] then some .defectsPending
     else if s.bound .steps ≤ first ∨ 4 < copies.toNat then some .badArg
     else none) = some r →
    exec (.startRun tag (be16 first ++ [if correlate then 1 else 0, copies])) s =
      .next (s.replied tag 0x0E r [])

/-- An accepted START RUN: the run record, the start-up HOME, the reply, and, where printing is not OFF, the pending header
with the look for work that it brings (R25, R61, R154, R158). The header line then rests FORMATTING (R153); that a format
operation of the Arithmetic Unit completes it, and that the header pending becomes none as the line begins, is the model's
choice (log 17). -/
def Obligations.RunStarts : Prop :=
  ∀ (s : State) (tag : Byte) (first copies : Nat) (correlate : Bool), s.takesCommands →
    s.run.state = .idle → s.tables.state = .ready → s.hv.state = .safe → s.alive 72 = true → s.defects = [] →
    first < s.bound .steps → first < 65536 → copies ≤ 4 → s.seq.state = .idle →
    ∃ t, exec (.startRun tag (be16 first ++ [if correlate then 1 else 0, byte copies])) s = .next t ∧
      t.run =
        { state := .running, correlate, step := none, inProgress := false, stepDefects := 0
          insertFlag := false, rampFlag := false, stopArmed := false, pauseReq := false, pauseCause := .none
          abortCause := .none, slot := none
          summary := { term := none, lastStep := none, stepsRun := 0, defects := 0, measurements := 0 }
          stepRec := none, waiting := .startHome first } ∧
      t.seq.state = .homing ∧ t.seq.requester = .run ∧
      t.seq.home.expected = s.modules.filter (fun a => s.alive a) ∧ t.seq.home.answered = [] ∧
      (∃ e ∈ t.ring.queue ++ t.ring.wait, e.owner = .home ∧ e.frame.dst = 127 ∧ e.frame.src = 0 ∧
        e.frame.cls = 0x10 ∧ e.frame.payload = []) ∧
      t.trunk.queue = s.trunk.queue ++ [{ frame := replyFrame tag 0x0E .ok [], kind := .reply }] ∧
      t.print.copies = copies ∧ (s.print.state = .off → t.print = { s.print with copies }) ∧
      (s.print.state ≠ .off →
        ∃ y, State.looked { s with print := { s.print with copies, header := some first } } y ∧ t.print = y.print) ∧
      t.mem = s.mem ∧ t.tables = s.tables ∧ t.limits = s.limits ∧ t.defects = [] ∧ t.hv = s.hv ∧ t.sup.nodes = s.sup.nodes

/-- PAUSE, RELEASE and RESUME of a pause by request, before a step and in the middle of one, where its owner goes on with the
next member, group or net (R35, R37, R46, R95, R111, R124). That the net of an INSUL step tested last stays the net under test
while PAUSED, so that RESUME takes the net after it, is the model's choice (log 48). -/
def Obligations.PauseReleaseResume : Prop :=
  ∀ (s : State) (tag : Byte), s.takesCommands →
    (s.run.state = .running →
      exec (.pause tag []) s = .next
        (State.replied { s with run := { s.run with pauseReq := true } } tag 0x0F .ok [])) ∧
    (s.run.state ≠ .running → exec (.pause tag []) s = .next (s.replied tag 0x0F .badState [])) ∧
    (s.run.state = .done →
      exec (.release tag []) s = .next
        (State.replied { s with run := { s.run with state := .idle } } tag 0x12 .ok [])) ∧
    (s.run.state ≠ .done → exec (.release tag []) s = .next (s.replied tag 0x12 .badState [])) ∧
    (s.run.state ≠ .paused → exec (.resume tag []) s = .next (s.replied tag 0x10 .badState [])) ∧
    (∀ i, s.run.state = .paused → s.run.pauseCause ≠ .interlock → s.run.waiting = .heldStep i →
      exec (.resume tag []) s = .next
        (State.replied
          { s with
            run := { s.run with state := .running, pauseCause := .none, waiting := .stepRead i }
            port := { queue := s.port.queue ++ [{ kind := .steps, index := i, write := none, owner := .runRead }] } }
          tag 0x10 .ok [])) ∧
    (s.run.state = .paused → s.run.pauseCause ≠ .interlock → s.run.waiting = .owner →
      let w := s.sweep
      let goesOn (read : Access) (sweep : Sweep) (hv : Hv) : Prop :=
        exec (.resume tag []) s = .next
          (State.replied
            { s with
              run := { s.run with state := .running, pauseCause := .none }
              port := { queue := s.port.queue ++ [read] }, sweep, hv }
            tag 0x10 .ok [])
      (∀ k : Nat, s.run.isInsul = true → s.hv.net = some k → k ≠ s.hv.lastNet →
        goesOn (readFor .nets (k + 1) .hvRead) w
          { s.hv with net := some (k + 1), work := .readingNet, pairs := [] }) ∧
      (∀ pos : Nat, s.run.isInsul = false → w.kind = some .cont ∨ w.kind = some .leadcal → w.netDone = false →
        w.nextPosition = some pos → s.alive (w.fixedModule.getD 0) = true →
        goesOn (readFor .members (w.net.first + pos) .sweepRead)
          { w with
            state := .reading, reading := .memberPos, memberCursor := some pos, visitedPoint := none
            visitedModule := none }
          s.hv) ∧
      (∀ k : Nat, s.run.isInsul = false → w.kind = some .cont → w.netDone = true ∨ w.nextPosition = none →
        w.netCursor = some k → k ≠ w.lastNet →
        goesOn (readFor .nets (k + 1) .sweepRead)
          { w with
            state := .reading, reading := .net, netCursor := some (k + 1), memberCursor := none
            visitedPoint := none, visitedModule := none, netDone := false, fixedPoint := none
            fixedModule := none }
          s.hv) ∧
      ∀ (h : Group) (stack : List Group), s.run.isInsul = false → w.kind = some .iso → w.stack = h :: stack →
        goesOn (readFor .nets w.cursor .sweepRead) (w.inHandOf h stack) s.hv)

/-- RESUME of a pause at the interlock: BAD-STATE with the interlock open, and with it closed the ramp starts (R37, R127,
R128). With the Measurement Controller not IDLE the stream of the ramp is refused with BUSY (R82): no HVC is placed, and
that the HV state then stays SAFE is the model's choice (log 43). That the interlock test is made in the event of the RESUME,
with no opening of INTERLOCK between them, is its choice too (log 59). -/
def Obligations.ResumeStartsRamp : Prop :=
  ∀ (s : State) (tag : Byte), s.takesCommands → s.run.state = .paused → s.run.pauseCause = .interlock →
    (s.pins.interlockClosed = false → exec (.resume tag []) s = .next (s.replied tag 0x10 .badState [])) ∧
    (s.pins.interlockClosed = true → s.mc.state ≠ .idle →
      exec (.resume tag []) s = .next (State.replied
        { s with
          run := { s.run with state := .running, pauseCause := .none }
          hv :=
            { s.hv with
              cls := s.limits.insulClass s.hv.classIndex, hold := false, keepalive := s.limits.timing.keepalive
              window := [], arcPred := none } }
        tag 0x10 .ok [])) ∧
    (s.pins.interlockClosed = true → s.hv.state = .safe → s.seq.state = .idle → s.mc.state = .idle →
      ∀ c : InsulClass, c = s.limits.insulClass s.hv.classIndex →
      ∃ t, exec (.resume tag []) s = .next t ∧
        t.run = { s.run with state := .running, pauseCause := .none, rampFlag := true } ∧
        t.hv =
          { s.hv with
            state := .ramp, cls := c, hold := false, keepalive := s.limits.timing.keepalive, window := []
            arcPred := none, rampTimer := some (2 * (c.volt * 1000 / c.ramp) + 100) } ∧
        t.mc.state = .stream ∧ t.mc.requester = .hv ∧ t.mc.lastSeq = none ∧ t.mc.lost = 0 ∧
        (∃ e ∈ t.ring.queue ++ t.ring.wait, e.owner = .hvc t.mc.stream false ∧ e.frame.dst = 72 ∧
          e.frame.cls = 0x22 ∧
          e.frame.payload = [0x00#8] ++ be16 c.volt ++ be16 c.ramp ++ [byte s.limits.timing.hvInterval]) ∧
        (∀ e ∈ t.ring.queue ++ t.ring.wait, e.frame.cls ≠ 0x10) ∧
        t.trunk.queue = s.trunk.queue ++ [{ frame := replyFrame tag 0x10 .ok [], kind := .reply }] ∧
        t.mem = s.mem ∧ t.defects = s.defects ∧ t.sup.nodes = s.sup.nodes)

/-- ABORT: the response begins on an active run; what it stops, drops and clears, and with the HV state SAFE the HOME that
it asks for, which joins one in progress (R40, R59, R61, R83, R135). That the pause cause is NONE from then on, and not only at
DONE, is the model's choice (log 47). -/
def Obligations.AbortBegins : Prop :=
  ∀ (s : State) (tag : Byte), s.takesCommands →
    (s.run.state = .aborting → exec (.abort tag []) s = .next (s.replied tag 0x11 .ok [])) ∧
    (s.run.state = .idle ∨ s.run.state = .done →
      exec (.abort tag []) s = .next (s.replied tag 0x11 .badState [])) ∧
    (s.run.state = .running ∨ s.run.state = .paused ∨ s.run.state = .stalled →
      ∃ t, exec (.abort tag []) s = .next t ∧
        t.run =
          { s.run with
            state := .aborting, abortCause := .abort, pauseCause := .none, slot := none
            waiting := if s.hv.state = .safe then .home else .safe } ∧
        t.sweep = Sweep.reset ∧ t.hv.net = none ∧ t.hv.work = .idle ∧
        (s.hv.state = .safe →
          t.hv.state = .safe ∧ t.hv.hold = false ∧ t.seq.state = .homing ∧
            (s.seq.state = .homing →
              t.seq.requester = s.seq.requester ∧ t.seq.home.expected = s.seq.home.expected ∧
                t.seq.home.answered = s.seq.home.answered ∧ t.seq.home.timer = s.seq.home.timer) ∧
            (s.seq.state ≠ .homing →
              t.seq.requester = .run ∧ t.seq.home.expected = s.modules.filter (fun a => s.alive a) ∧
                t.seq.home.answered = [] ∧ t.seq.home.timer = none ∧
                ∃ e ∈ t.ring.queue ++ t.ring.wait, e.owner = .home ∧ e.frame.dst = 127 ∧ e.frame.src = 0 ∧
                  e.frame.cls = 0x10 ∧ e.frame.payload = [])) ∧
        (s.hv.state = .ramp ∨ s.hv.state = .dwell →
          t.hv.state = .discharge ∧ t.hv.cause = .test ∧ t.hv.rampTimer = none ∧ t.hv.dwellTimer = none ∧
            t.hv.dischargeTimer = some s.limits.timing.discharge ∧ t.hv.safeWait = true ∧
            ∃ e ∈ t.ring.queue ++ t.ring.wait, e.owner = .hvc t.mc.stream false ∧ e.frame.dst = 72 ∧
              e.frame.cls = 0x22 ∧ e.frame.payload = [1, byte s.limits.timing.hvInterval]) ∧
        (t.mc.state = .idle ∨ t.mc.state = .stream) ∧ (t.seq.state = .idle ∨ t.seq.state = .homing) ∧
        t.trunk.queue = s.trunk.queue ++ [{ frame := replyFrame tag 0x11 .ok [], kind := .reply }] ∧
        t.mem = s.mem ∧ t.tables = s.tables ∧ t.defects = s.defects ∧ t.sup.nodes = s.sup.nodes)

/-- The Run Engine's read of a step record completes: a step of every kind is started, or its parity failure is the fault
TABLE-PARITY (R26, R27, R43, R94, R95, R103, R108, R109, R124, R177). The reads of an ISO step complete: the walk
over the members of a net, the candidate list, the group on top of the stack with its configuration, a net or a group lost
with a module, and the correlation work list with its entries (R109 to R112, R118, R119; that the net records of k and g are
read again for the work list, and the order of the reads of an entry, are the model's choice, log 44). The reads of a CONT or
LEADCAL visit complete: the net passed over, the anchor or the reference, the member, its configuration with the fixed point
on bus A and the visited point on bus B, or UNTESTED of a module that is not Alive (R96 to R100, R103). The reads of an INSUL
net complete: the net passed over, UNTESTED of the lowest configured module that is not Alive, and the point map with the
configuration of every point in a net (R124 to R126; that its pairs, like those of a group, are listed in the order in which
the points were read is the model's choice, log 52). That a scan stops at the first member it finds on a module that is not
Alive is the model's reading (log 30): the net is lost, the candidate left out, the group skipped or the entry passed over there,
and the rest of the members are not read, although R110, R112 and R119 list the reads of all members. That the writes of
IN-PROGRESS and of PASS are posted on the port, and that nothing waits for them, is the model's choice (log 13). -/
def Obligations.ContinuityStepStarts : Prop :=
  ∀ (s : State) (rest : List Access) (busy : Bool),
    let answer := exec (.tableAccessComplete none busy) s
    let w := s.sweep
    let goes (read : Access) (sweep : Sweep) : State := State.settled { s.accessed (rest ++ [read]) busy with sweep }
    let asks (sweep : Sweep) (p : Nat) (busA busB : List Nat) : State :=
      State.settled
        { s.accessed (rest ++ [readFor .points p .fill]) busy with
          sweep := { sweep with state := .configuring, reading := .none }
          seq := s.seq.asked w.settle busA busB
          cache := { s.cache with fill := some (p, .translate) } }
    (∀ i : Nat, s.accessing (readFor .steps i .runRead) rest → s.run.waiting = .stepRead i →
      let status (bytes : List Byte) : Access :=
        { kind := .steps, index := i, write := some (9, bytes), owner := .runWrite }
      (∀ (bs : List Byte) (x : StepRec), s.mem.record .steps i = some bs → x = decodeStep bs →
        let run : Run :=
          { s.run with
            step := some i, inProgress := true, stepDefects := 0, insertFlag := false, rampFlag := false
            stopArmed := false, stepRec := some x, waiting := .owner
            summary := { s.run.summary with stepsRun := s.run.summary.stepsRun + 1, lastStep := some i } }
        let begun (reads : List Access) (sweep : Sweep) (hv : Hv) : State :=
          { s.accessed (rest ++ status [1, 0, 0] :: reads) busy with run, sweep, hv }
        let sweep (kind : SweepKind) : Sweep :=
          { Sweep.reset with
            state := .reading, kind := some kind, settle := x.settle, netCursor := some x.firstNet
            lastNet := x.lastNet }
        (x.kind = .cont →
          answer = .next (State.settled
            (begun [readFor .nets x.firstNet .sweepRead] { sweep .cont with reading := .net } s.hv))) ∧
        (x.kind = .leadcal →
          answer = .next (State.settled
            (begun [readFor .nets x.firstNet .sweepRead]
              { sweep .leadcal with reading := .net, fixedPoint := some x.refPoint } s.hv))) ∧
        (x.kind = .iso →
          answer = .next (State.settled
            (begun [readFor .nets x.firstNet .sweepRead]
              (Sweep.isoNet { sweep .iso with correlate := x.correlate && s.run.correlate } x.firstNet) s.hv))) ∧
        (x.kind = .insul →
          answer = .next (State.settled
            (begun [readFor .nets x.firstNet .hvRead] s.sweep
              { s.hv with
                net := some x.firstNet, lastNet := x.lastNet, settle := x.settle, work := .readingNet
                pairs := [] }))) ∧
        (x.kind = .mark → i + 1 < s.bound .steps → s.run.pauseReq = false →
          ∃ t, answer = .next t ∧
            t =
              { begun [status [2, 0, 0], readFor .steps (i + 1) .runRead] Sweep.reset
                  { s.hv with net := none, work := .idle } with
                run := { run with inProgress := false, waiting := .stepRead (i + 1) }
                events :=
                  { s.events with pending := s.events.pending ||| Event.mark.bit ||| Event.stepEnd.bit }
                trunk := t.trunk }) ∧
        (x.kind = .endStep → s.print.state = .off →
          ∃ t, answer = .next t ∧ t.run.state = .done ∧ t.run.inProgress = false ∧ t.run.step = some i ∧
            t.run.summary =
              { run.summary with
                term := some (if s.run.summary.defects = 0 then .complete else .completeDefects) } ∧
            status [1, 0, 0] ∈ t.port.queue ∧ status [2, 0, 0] ∈ t.port.queue ∧
            t.defects = s.defects.map (fun d => { d with provisional := false }) ∧
            t.events.isPending .stepEnd = true ∧ t.events.isPending .runEnd = true ∧ t.mem = s.mem)) ∧
      (s.mem.record .steps i = none → s.run.state = .running → s.fault.valid = false →
        ∃ t, answer = .next t ∧
          t.tables =
            { s.tables with
              parityCount := min 255 (s.tables.parityCount + 1), parityLast := some (.steps, i) } ∧
          t.fault = s.firstFault .tableParity s.hv.state s.currentNet none (some (.steps, i)) ∧
          t.events.isPending .fault = true ∧ t.run.state = .aborting ∧ t.run.abortCause = .fault ∧
          t.run.step = s.run.step ∧ t.run.inProgress = s.run.inProgress ∧ t.run.summary = s.run.summary ∧
          t.defects = s.defects ∧ t.mem = s.mem)) ∧
    (∀ (p : Nat) (bs : List Byte), s.accessing (readFor .points p .sweepRead) rest →
      s.mem.record .points p = some bs → w.reading = .scanPoint p →
      let c := w.scan
      let module := (decodePoint bs).module
      let points := c.points ++ [p]
      let read : Sweep := { w with scan := { c with pos := c.pos + 1, points } }
      (s.alive module = true → c.pos + 1 < c.record.count →
        answer = .next (goes (readFor .members (c.record.first + (c.pos + 1)) .sweepRead)
          { read with state := .reading, reading := .scanMember })) ∧
      (s.alive module = true → c.record.count ≤ c.pos + 1 →
        (∀ found : List Nat,
          (c.purpose = .startK ∧ found = w.candidates) ∨
            (c.purpose = .candidate ∧ found = w.candidates ++ [c.net]) →
          (c.net + 1 < s.bound .nets →
            answer = .next (goes (readFor .nets (c.net + 1) .sweepRead)
              (Sweep.scanOf { read with candidates := found } .candidate (c.net + 1)))) ∧
          (s.bound .nets ≤ c.net + 1 → found ≠ [] →
            answer = .next (goes (readFor .nets w.cursor .sweepRead)
              (Sweep.inHandOf { read with candidates := found } { start := 0, length := found.length } [])))) ∧
        (∀ (g : Nat) (todo : List Nat), w.groupTodo = g :: todo →
          (c.purpose = .groupK →
            answer = .next (goes (readFor .nets g .sweepRead)
              (Sweep.scanOf { read with busA := points, groupTodo := todo } .groupNet g))) ∧
          (c.purpose = .groupNet →
            answer = .next (goes (readFor .nets g .sweepRead)
              (Sweep.scanOf { read with busB := w.busB ++ points, groupTodo := todo } .groupNet g)))) ∧
        (∀ (q : Nat) (others : List Nat), c.purpose = .groupNet → w.groupTodo = [] → w.busA = q :: others →
          s.configures q →
          answer = .next
            (asks { read with busB := w.busB ++ points } q w.busA (w.busB ++ points))) ∧
        (c.purpose = .entryOther →
          answer = .next (goes (readFor .members (c.record.first + c.record.anchor) .sweepRead)
            { read with busB := points, state := .reading, reading := .entryAnchor }))) ∧
      (s.alive module = false →
        (c.purpose = .candidate → c.net + 1 < s.bound .nets →
          answer = .next (goes (readFor .nets (c.net + 1) .sweepRead) (w.scanOf .candidate (c.net + 1)))) ∧
        (∀ (g h : Group) (stack : List Group), c.purpose = .groupNet → w.inHand = some g → w.stack = h :: stack →
          answer = .next (goes (readFor .nets w.cursor .sweepRead)
            (Sweep.inHandOf { w with skipped := w.skipped + g.length } h stack))) ∧
        (∀ e : WorkEntry, c.purpose = .entryOther → w.work[w.workCursor + 1]? = some e →
          answer = .next (goes (readFor .nets e.other .sweepRead)
            (Sweep.scanOf { w with workCursor := w.workCursor + 1 } .entryOther e.other))) ∧
        ∀ k : Nat, c.purpose = .startK ∨ c.purpose = .groupK → w.kind = some .iso → w.netCursor = some k →
          k ≠ w.lastNet → s.print.state = .off → s.runGoesOn → s.run.stopsOnDefect = false →
          s.run.summary.defects + 1 < s.limits.timing.defectLimit →
          ∀ key : DefectKey, key = { kind := .untested, netA := k, point := some p, netB := none } →
          s.appends key →
          ∃ t, answer = .next t ∧ t.defects = s.defects ++ [s.newRecord key (some module) false] ∧
            t.sweep = Sweep.isoNet { w with results := [], after := .netEnd } (k + 1) ∧
            t.port.queue = rest ++ [readFor .nets (k + 1) .sweepRead] ∧
            t.run.summary = { s.run.summary with defects := s.run.summary.defects + 1 } ∧
            t.events.isPending .defect = true ∧ t.mem = s.mem)) ∧
    (∀ (pos : Nat) (bs : List Byte) (work : List WorkEntry), s.accessing (readFor .members pos .sweepRead) rest →
      s.mem.record .members pos = some bs → w.reading = .scanMember →
      w.scan.purpose = .workK ∨ w.scan.purpose = .workG →
      let c := w.scan
      let p := (bs.getD 0 0).toNat * 256 + (bs.getD 1 0).toNat
      work =
        (if ∃ d ∈ s.defects, d.key = { kind := .opn, netA := c.net, point := some p, netB := none } then
          w.work ++
            [{ point := p, own := c.net, contSet := c.record.contSet
               other := if c.purpose = .workK then w.shortOther.getD 0 else w.cursor }]
        else w.work) →
      let asked : Sweep := { w with work, scan := { c with pos := c.pos + 1 } }
      (work.length < 8 → c.pos + 1 < c.record.count →
        answer = .next (goes (readFor .members (c.record.first + (c.pos + 1)) .sweepRead)
          { asked with state := .reading, reading := .scanMember })) ∧
      (work.length < 8 → c.record.count ≤ c.pos + 1 → c.purpose = .workK →
        answer = .next (goes (readFor .nets (w.shortOther.getD 0) .sweepRead)
          (asked.scanOf .workG (w.shortOther.getD 0)))) ∧
      (∀ e : WorkEntry, 8 ≤ work.length ∨ (c.record.count ≤ c.pos + 1 ∧ c.purpose = .workG) → work.head? = some e →
        answer = .next (goes (readFor .nets e.other .sweepRead)
          (Sweep.scanOf { asked with workCursor := 0 } .entryOther e.other))) ∧
      (c.record.count ≤ c.pos + 1 → c.purpose = .workG → work = [] → w.kind = some .iso →
        w.shortCount < s.limits.iso.shortCap → s.runGoesOn →
        let ended : Sweep := { asked with workCursor := 0, shortOther := none }
        (∀ (h : Group) (stack : List Group), w.stack = h :: stack →
          answer = .next (goes (readFor .nets w.cursor .sweepRead) (ended.inHandOf h stack))) ∧
        ∀ k : Nat, w.stack = [] → w.netCursor = some k → k ≠ w.lastNet →
          answer = .next (goes (readFor .nets (k + 1) .sweepRead) (ended.isoNet (k + 1))))) ∧
    (∀ (e : WorkEntry) (bs : List Byte), w.work[w.workCursor]? = some e →
      (∀ pos : Nat, s.accessing (readFor .members pos .sweepRead) rest → s.mem.record .members pos = some bs →
        w.reading = .entryAnchor →
        answer = .next (goes (readFor .points e.point .sweepRead)
          { w with
            otherAnchor := (bs.getD 0 0).toNat * 256 + (bs.getD 1 0).toNat, state := .reading
            reading := .entryPoint })) ∧
      (s.accessing (readFor .points e.point .sweepRead) rest → s.mem.record .points e.point = some bs →
        w.reading = .entryPoint →
        (s.alive (decodePoint bs).module = true → s.configures e.point →
          answer = .next (asks w e.point [e.point] w.busB)) ∧
        ∀ f : WorkEntry, s.alive (decodePoint bs).module = false → w.work[w.workCursor + 1]? = some f →
          answer = .next (goes (readFor .nets f.other .sweepRead)
            (Sweep.scanOf { w with workCursor := w.workCursor + 1 } .entryOther f.other)))) ∧
    (∀ (kind : TableKind) (index : Nat) (bs : List Byte), s.accessing (readFor kind index .sweepRead) rest →
      s.mem.record kind index = some bs →
      let n := decodeNet bs
      let module := (decodePoint bs).module
      let p := (bs.getD 0 0).toNat * 256 + (bs.getD 1 0).toNat
      let visit (sweep : Sweep) (pos : Nat) : Sweep :=
        { sweep with
          state := .reading, reading := .memberPos, memberCursor := some pos, visitedPoint := none
          visitedModule := none }
      let untested (t : State) (key : DefectKey) (m : Nat) (read : Access) : Prop :=
        answer = .next t ∧ t.defects = s.defects ++ [s.newRecord key (some m) false] ∧
          t.port.queue = rest ++ [read] ∧
          t.run.summary = { s.run.summary with defects := s.run.summary.defects + 1 } ∧
          t.events.isPending .defect = true ∧ t.mem = s.mem
      let quiet : Prop :=
        s.print.state = .off ∧ s.runGoesOn ∧ s.run.stopsOnDefect = false ∧
          s.run.summary.defects + 1 < s.limits.timing.defectLimit
      let fixedLost (m : Nat) (sweep : Sweep) : Prop :=
        ∀ (k : Nat) (key : DefectKey), w.netCursor = some k → k ≠ w.lastNet → quiet →
          key = { kind := .untested, netA := k, point := w.fixedPoint, netB := none } → s.appends key →
          ∃ t, untested t key m (readFor .nets (k + 1) .sweepRead) ∧
            t.sweep =
              { sweep with
                netCursor := some (k + 1), memberCursor := none, visitedPoint := none, visitedModule := none
                netDone := false, stack := [], inHand := none, results := [], after := .netEnd
                state := .reading, reading := .net }
      (kind = .nets → w.reading = .net →
        (w.kind = some .cont → n.count ≠ 1 → n.kind ≠ .spare →
          answer = .next (goes (readFor .members (n.first + n.anchor) .sweepRead)
            { w with net := n, state := .reading, reading := .anchorPos })) ∧
        (∀ k : Nat, w.kind = some .cont → n.count = 1 ∨ n.kind = .spare → w.netCursor = some k → k ≠ w.lastNet →
          answer = .next (goes (readFor .nets (k + 1) .sweepRead)
            { w with
              net := n, netCursor := some (k + 1), memberCursor := none, visitedPoint := none
              visitedModule := none, netDone := false, fixedPoint := none, fixedModule := none
              state := .reading, reading := .net })) ∧
        (∀ p : Nat, w.kind = some .leadcal → w.fixedModule = none → w.fixedPoint = some p →
          answer = .next (goes (readFor .points p .sweepRead)
            { w with net := n, state := .reading, reading := .refPoint })) ∧
        (∀ m : Nat, w.kind = some .leadcal → w.fixedModule = some m → w.memberCursor = none → 0 < n.count →
          (s.alive m = true →
            answer = .next (goes (readFor .members n.first .sweepRead) (visit { w with net := n } 0))) ∧
          (s.alive m = false → fixedLost m { w with net := n }))) ∧
      (∀ pos : Nat, kind = .points → w.reading = .refPoint → w.kind = some .leadcal → w.nextPosition = some pos →
        (s.alive module = true →
          answer = .next (goes (readFor .members (w.net.first + pos) .sweepRead)
            (visit { w with fixedModule := some module } pos))) ∧
        (s.alive module = false → fixedLost module { w with fixedModule := some module })) ∧
      (kind = .members → w.reading = .anchorPos →
        answer = .next (goes (readFor .points p .sweepRead)
          { w with fixedPoint := some p, state := .reading, reading := .anchorPoint })) ∧
      (∀ pos : Nat, kind = .points → w.reading = .anchorPoint → w.nextPosition = some pos →
        (s.alive module = true →
          answer = .next (goes (readFor .members (w.net.first + pos) .sweepRead)
            (visit { w with fixedModule := some module } pos))) ∧
        (s.alive module = false → w.kind = some .cont →
          fixedLost module { w with fixedPoint := none, fixedModule := none })) ∧
      (kind = .members → w.reading = .memberPos →
        (w.kind ≠ some .leadcal ∨ w.fixedPoint ≠ some p →
          answer = .next (goes (readFor .points p .sweepRead)
            { w with visitedPoint := some p, state := .reading, reading := .memberPoint })) ∧
        ∀ pos : Nat, w.kind = some .leadcal → w.fixedPoint = some p → w.nextPosition = some pos →
          s.alive (w.fixedModule.getD 0) = true →
          answer = .next (goes (readFor .members (w.net.first + pos) .sweepRead) (visit w pos))) ∧
      ∀ f q : Nat, kind = .points → w.reading = .memberPoint → w.fixedPoint = some f → w.visitedPoint = some q →
        (s.alive module = true → s.configures f →
          answer = .next (asks { w with visitedModule := some module } f [f] [q])) ∧
        ∀ (pos : Nat) (key : DefectKey), s.alive module = false → w.kind = some .cont ∨ w.kind = some .leadcal →
          w.netDone = false → w.nextPosition = some pos → s.alive (w.fixedModule.getD 0) = true → quiet →
          key = { kind := .untested, netA := w.cursor, point := some q, netB := none } → s.appends key →
          ∃ t, untested t key module (readFor .members (w.net.first + pos) .sweepRead) ∧
            t.sweep = visit { w with inHand := none, results := [], after := .boundary } pos) ∧
    ∀ (kind : TableKind) (index : Nat) (bs : List Byte), s.accessing (readFor kind index .hvRead) rest →
      s.mem.record kind index = some bs →
      let n := decodeNet bs
      let reads (read : Access) (hv : Hv) : Prop :=
        answer = .next (State.settled { s.accessed (rest ++ [read]) busy with hv })
      (∀ k : Nat, kind = .nets → s.hv.work = .readingNet → s.hv.net = some k →
        let next : Hv := { s.hv with net := some (k + 1), work := .readingNet, pairs := [] }
        (n.insulClass = none → k ≠ s.hv.lastNet → reads (readFor .nets (k + 1) .hvRead) next) ∧
        ∀ c : Nat, n.insulClass = some c →
          ((∀ a ∈ s.modules, s.alive a = true) →
            reads (readFor .points 0 .hvRead) { s.hv with work := .readingMap 0, classIndex := c, pairs := [] }) ∧
          ∀ (m : Nat) (key : DefectKey), s.modules.find? (fun a => !s.alive a) = some m → k ≠ s.hv.lastNet →
            s.print.state = .off → s.runGoesOn → s.run.stopsOnDefect = false →
            s.run.summary.defects + 1 < s.limits.timing.defectLimit →
            key = { kind := .untested, netA := k, point := none, netB := none } → s.appends key →
            ∃ t, answer = .next t ∧ t.hv = next ∧ t.port.queue = rest ++ [readFor .nets (k + 1) .hvRead] ∧
              t.defects = s.defects ++ [s.newRecord key (some m) false] ∧
              t.run.summary = { s.run.summary with defects := s.run.summary.defects + 1 } ∧
              t.events.isPending .defect = true ∧ t.mem = s.mem) ∧
      (kind = .points → s.hv.work = .readingMap index →
        let pairs : List (Nat × Bus) :=
          (match (decodePoint bs).net with
            | none => []
            | some j => [(index, if j = s.hv.cursor then .a else .b)]) ++ s.hv.pairs
        (index + 1 < s.bound .points →
          reads (readFor .points (index + 1) .hvRead) { s.hv with work := .readingMap (index + 1), pairs }) ∧
        ∀ (q : Nat) (bus : Bus) (others : List (Nat × Bus)), s.bound .points ≤ index + 1 →
          pairs.reverse = (q, bus) :: others → s.configures q →
          answer = .next (State.settled
            { s.accessed (rest ++ [readFor .points q .fill]) busy with
              hv := { s.hv with work := .configuring, pairs }
              cache := { s.cache with fill := some (q, .translate) }
              seq :=
                { s.seq with
                  state := .translating, requester := .hv, settle := s.hv.settle, failed := [], placed := []
                  todo := pairs.reverse.eraseDups } }))

/-! ### Defects, events and printing (chapters 09, 10, 12) -/

/-- READ DEFECTS reports the number of records and up to three of them, each as its 17 bytes; RETIRE DEFECTS marks the
final records up to a seq, answers how many, and a marked record that is PRINTED, or any with printing OFF, leaves. The first
record that leaves lets the record of the pending-insert slot in, and a run STALLED at a continuity visit then goes on, or is
PAUSED by a request (R29, R31, R39, R102, R144, R148, R149, R150). -/
def Obligations.DefectCommands : Prop :=
  ∀ (s : State) (tag : Byte) (n : Nat), s.takesCommands → n < 65536 →
    exec (.readDefects tag (be16 n)) s = .next (s.replied tag 0x13 .ok
      (be16 s.defects.length ++ (((s.defects.filter fun d => n ≤ d.seq).take 3).map fun d =>
        be16 d.seq ++ [byte d.key.kind.code] ++ be16 d.key.netA ++ be16 (d.key.point.getD 0xFFFF)
          ++ be16 (d.key.netB.getD 0xFFFF) ++ be32 (d.value.getD 0xFFFFFFFF) ++ be16 d.step
          ++ [byte d.rep,
            (if d.provisional then 0x01#8 else 0) + (if d.explained then 0x02#8 else 0)
              + (if d.lowv then 0x04#8 else 0) + (if d.printed then 0x08#8 else 0)
              + (if d.retired then 0x10#8 else 0) + (if d.key.point.isSome then 0x20#8 else 0)
              + (if d.key.netB.isSome then 0x40#8 else 0) + (if d.value.isSome then 0x80#8 else 0)]).flatten)) ∧
    (s.listSound → s.run.slot = none →
      let taken (d : Defect) : Bool := d.seq ≤ n && !d.provisional && !d.retired
      exec (.retireDefects tag (be16 n)) s = .next
        (State.replied
          { s with defects :=
              (s.defects.filter fun d => !(taken d && (d.printed || s.print.state = .off))).map fun d =>
                if taken d then { d with retired := true } else d }
          tag 0x14 .ok (be16 (s.defects.filter taken).length))) ∧
    (∀ r : Insert, s.listSound → s.run.slot = some r → s.printKeepsList → (∀ d ∈ s.defects, d.key ≠ r.key) →
      s.run.summary.defects < s.limits.timing.defectLimit →
      let taken (d : Defect) : Bool := d.seq ≤ n && !d.provisional && !d.retired
      let leaves (d : Defect) : Bool := taken d && (d.printed || s.print.state = .off)
      let run : Run :=
        { s.run with
          slot := none, insertFlag := true, stopArmed := s.run.stopArmed || s.run.stopsOnDefect
          stepDefects := min 65535 (s.run.stepDefects + 1)
          summary := { s.run.summary with defects := s.run.summary.defects + 1 } }
      (∃ d ∈ s.defects, leaves d = true) →
      (s.run.state = .stalled →
        s.run.isInsul = false ∧ s.sweep.state = .inserting ∧ s.sweep.after = .boundary ∧ s.sweep.kind = some .cont ∧
          s.sweep.netDone = false ∧ s.alive (s.sweep.fixedModule.getD 0) = true ∧
          s.run.summary.defects + 1 < s.limits.timing.defectLimit ∧ run.stopArmed = false) →
      s.run.state = .running ∨ s.run.state = .stalled →
      ∃ t, exec (.retireDefects tag (be16 n)) s = .next t ∧
        t.defects =
          ((s.defects.filter fun d => !leaves d).map fun d => if taken d then { d with retired := true } else d)
            ++ [s.newRecord r.key r.value r.lowv] ∧
        t.events.isPending .defect = true ∧
        ({ frame := replyFrame tag 0x14 .ok (be16 (s.defects.filter taken).length), kind := .reply }
          : TrunkEntry) ∈ t.trunk.queue ∧
        (s.run.state = .running → t.run = run ∧ t.sweep = s.sweep ∧ t.hv = s.hv) ∧
        (s.run.state = .stalled → s.run.pauseReq = true → s.sweep.nextPosition.isSome = true →
          t.run =
            { run with state := .paused, pauseCause := .request, pauseReq := false, waiting := .owner } ∧
            t.sweep = { s.sweep with state := .idle, inHand := none, results := [] } ∧
            t.events.isPending .paused = true) ∧
        ∀ pos : Nat, s.run.state = .stalled → s.run.pauseReq = false → s.sweep.nextPosition = some pos →
          t.run = { run with state := .running } ∧
            t.sweep =
              { s.sweep with
                state := .reading, reading := .memberPos, inHand := none, results := []
                memberCursor := some pos, visitedPoint := none, visitedModule := none } ∧
            readFor .members (s.sweep.net.first + pos) .sweepRead ∈ t.port.queue) ∧
    ∀ args : List Byte, args.length ≤ 63 → args.length ≠ 2 →
      exec (.readDefects tag args) s = .next (s.replied tag 0x13 .badArg []) ∧
        exec (.retireDefects tag args) s = .next (s.replied tag 0x14 .badArg [])

/-- READ EVENTS, CLEAR EVENTS and SET EVENT MASK: what they answer and change, what is BAD-ARG, and that unmasking a
pending event makes a notice due (R173, R176). -/
def Obligations.EventCommands : Prop :=
  ∀ (s : State) (tag : Byte), s.takesCommands →
    exec (.readEvents tag []) s = .next (s.replied tag 0x18 .ok
      (be16 s.events.pending.toNat ++ be16 s.events.mask.toNat)) ∧
    (∀ set : BitVec 12,
      exec (.clearEvents tag (be16 set.toNat)) s = .next
        (State.replied { s with events := { s.events with pending := s.events.pending &&& ~~~set } } tag 0x19 .ok
          (be16 (s.events.pending &&& ~~~set).toNat)) ∧
      (s.events.pending &&& s.events.mask &&& ~~~set = 0 →
        exec (.setEventMask tag (be16 set.toNat)) s = .next
          (State.replied { s with events := { s.events with mask := set } } tag 0x1A .ok (be16 set.toNat))) ∧
      (s.events.pending &&& s.events.mask &&& ~~~set ≠ 0 →
        ∃ t, exec (.setEventMask tag (be16 set.toNat)) s = .next t ∧
          t = { s with events := { s.events with mask := set }, trunk := t.trunk } ∧
          ({ frame := replyFrame tag 0x1A .ok (be16 set.toNat), kind := .reply } : TrunkEntry) ∈ t.trunk.queue ∧
          (t.trunk.held = true ∨
            ∃ e ∈ t.trunk.queue, e.kind = .notice ∧ e.frame.payload = be16 s.events.pending.toNat))) ∧
    ∀ args : List Byte, args.length ≤ 63 → args.length ≠ 2 ∨ 4095 < beNat args →
      exec (.clearEvents tag args) s = .next (s.replied tag 0x19 .badArg []) ∧
        exec (.setEventMask tag args) s = .next (s.replied tag 0x1A .badArg [])

/-- PRINT ENABLE, PRINT DISABLE, PRINT HOLD and PRINT GO in every print state, with the look for work where one takes effect
(`State.looked`: a summary line, the header or a record is selected, an EXPLAINED SHORT is passed over, or nothing), and PRINT
DISABLE with a record in the pending-insert slot (R39, R150, R154, R155, R158, R159, R161, R162). That PRINT GO takes the level
of PRN_BUSY with it is the model's form (log 18). The model's choices are that a format operation of the Arithmetic Unit
completes a header or summary line, the header pending and the summary lines left changing as the line begins (log 17), and
that PRINT DISABLE withdraws the waiting read and format request of a discarded line and lets those in progress end unused
(log 55). -/
def Obligations.PrintCommands : Prop :=
  ∀ (s : State) (tag : Byte), s.takesCommands →
    (s.print.state = .off →
      ∃ y, State.looked { s with print := { s.print with state := .idle } } y ∧
        exec (.printEnable tag []) s = .next (y.replied tag 0x1B .ok [])) ∧
    (s.print.state = .send →
      (s.print.disableReq = false → exec (.printEnable tag []) s = .next (s.replied tag 0x1B .ok [])) ∧
        (s.print.disableReq = true →
          ∃ y, State.looked { s with print := { s.print with disableReq := false } } y ∧
            exec (.printEnable tag []) s = .next (y.replied tag 0x1B .ok [])) ∧
        exec (.printDisable tag []) s = .next
          (State.replied { s with print := { s.print with disableReq := true } } tag 0x1C .ok [])) ∧
    (s.print.state ≠ .off → s.print.state ≠ .send →
      exec (.printEnable tag []) s = .next (s.replied tag 0x1B .ok [])) ∧
    (s.print.state = .off → exec (.printDisable tag []) s = .next (s.replied tag 0x1C .ok [])) ∧
    (s.print.state ≠ .off → s.print.state ≠ .send → s.listSound →
      (s.run.slot = none ∨ (∀ d ∈ s.defects, d.retired = false) →
        exec (.printDisable tag []) s = .next
          (State.replied
            { s with
              print := { Print.reset with copies := s.print.copies }
              port := s.port.give fun o => o = .print
              arith := s.arith.dropFormat
              defects := s.defects.filter fun d => !d.retired }
            tag 0x1C .ok [])) ∧
      ∀ r : Insert, s.run.slot = some r → (∃ d ∈ s.defects, d.retired = true) → s.run.state = .running →
        (∀ d ∈ s.defects, d.key ≠ r.key) → s.run.summary.defects < s.limits.timing.defectLimit →
        ∃ t, exec (.printDisable tag []) s = .next t ∧
          t.print = { Print.reset with copies := s.print.copies } ∧
          t.defects = (s.defects.filter fun d => !d.retired) ++ [s.newRecord r.key r.value r.lowv] ∧
          t.run.slot = none ∧ t.run.state = .running ∧ t.run.insertFlag = true ∧
          t.run.summary = { s.run.summary with defects := s.run.summary.defects + 1 } ∧
          t.events.isPending .defect = true ∧
          ({ frame := replyFrame tag 0x1C .ok [], kind := .reply } : TrunkEntry) ∈ t.trunk.queue) ∧
    (s.print.state = .idle ∨ s.print.state = .format →
      exec (.printHold tag []) s = .next
        (State.replied { s with print := { s.print with state := .held } } tag 0x1D .ok [])) ∧
    (s.print.state = .send ∨ s.print.state = .faulted →
      exec (.printHold tag []) s = .next
        (State.replied { s with print := { s.print with holdReq := true } } tag 0x1D .ok [])) ∧
    (s.print.state = .held → exec (.printHold tag []) s = .next (s.replied tag 0x1D .ok [])) ∧
    (s.print.state = .off → exec (.printHold tag []) s = .next (s.replied tag 0x1D .badState [])) ∧
    ∀ busy : Bool,
      let gone (p : Print) : State := { s with pins := { s.pins with prnBusy := busy }, print := p }
      let sending (p : Print) (line : List Byte) (pos : Nat) : State := (gone p).sendingLine p line pos
      (s.print.state ≠ .held → s.print.state ≠ .faulted →
        exec (.printGo tag [] busy) s = .next ((gone s.print).replied tag 0x1E .badState [])) ∧
      (s.print.state = .held → s.print.bufferIn .sending = none →
        (∀ second, s.print.bufferIn .ready = some second →
          ∃ y,
            State.looked
              (sending (s.print.onBuffer second fun b => { b with state := .sending }) (s.print.buffer second).text 0)
              y ∧
            exec (.printGo tag [] busy) s = .next (y.replied tag 0x1E .ok [])) ∧
        (s.print.bufferIn .ready = none →
          ∃ y,
            State.looked
              (gone { s.print with state := if s.print.bufferIn .formatting = none then .idle else .format }) y ∧
            exec (.printGo tag [] busy) s = .next (y.replied tag 0x1E .ok []))) ∧
      ∀ second, s.print.state = .faulted → s.print.bufferIn .sending = some second →
        ∃ y, State.looked (sending s.print (s.print.buffer second).text s.print.sendPos) y ∧
          exec (.printGo tag [] busy) s = .next (y.replied tag 0x1E .ok [])

/-- The print port and the formatting of a line. PRN_BUSY falls, the BUSY timer expires, with the disable request set
too, and a character has been sent: within a line the next one is ready, with the rate then held and its frame of ten bits, and
after the LF the record is PRINTED, the buffer EMPTY, and a request takes effect or the other line goes on, with the look for
work that the EMPTY buffer brings (R150, R153, R154, R159 to R162). A record line is formatted from the net record and the name
of each of its nets, or the index form of the net, and from its value, asked of the Arithmetic Unit; it stands in the columns of
R156 (R93, R142, R155 to R157). A header or summary line rests FORMATTING until it is complete, by a format operation of the
Arithmetic Unit, and the summary lines left change as a line begins, which is the model's choice (log 17); PRN_BUSY comes with
the row (log 18). That the net count is judged as a net read is asked for, and the name count as the net record arrives, is
the model's choice (log 60). That PRINT DISABLE withdraws the waiting read and format request of a discarded line, and lets those in
progress end unused, is the model's choice (log 55). -/
def Obligations.PrintPort : Prop :=
  (∀ (d : Defect) (nameA nameB value : List Byte), nameA.length = 16 → nameB.length = 16 → value.length ≤ 14 →
    let line := recordLine d nameA nameB value
    let field (column length : Nat) : List Byte := (line.drop (column - 1)).take length
    let blank (n : Nat) : List Byte := List.replicate n 0x20
    let kind : List Char :=
      match d.key.kind with
      | .opn => ['O', 'P', 'E', 'N']
      | .highR => ['H', 'I', 'G', 'H', '-', 'R']
      | .short => ['S', 'H', 'O', 'R', 'T']
      | .shortOverflow => ['O', 'V', 'E', 'R', 'F', 'L', 'O', 'W']
      | .miswire => ['M', 'I', 'S', 'W', 'I', 'R', 'E']
      | .leak => ['L', 'E', 'A', 'K']
      | .arc => ['A', 'R', 'C']
      | .untested => ['U', 'N', 'T', 'E', 'S', 'T', 'E', 'D']
      | .switchFault => ['S', 'W', 'F', 'A', 'U', 'L', 'T']
      | .calFail => ['C', 'A', 'L', 'F', 'A', 'I', 'L']
    line.length = 73 ∧ field 1 5 = digits 5 d.seq ∧ field 7 8 = ascii kind ++ blank (8 - kind.length) ∧
      field 16 16 = nameA ∧
      field 33 5 = (match d.key.point with | some p => ascii ['P'] ++ digits 4 p | none => blank 5) ∧
      field 39 16 = (if d.key.netB.isSome then nameB else blank 16) ∧
      field 56 14 = blank (14 - value.length) ++ value ∧ field 71 1 = (if d.lowv then ascii ['L'] else blank 1) ∧
      field 72 2 = [0x0D, 0x0A] ∧ ∀ column ∈ [6, 15, 32, 38, 55, 70], field column 1 = blank 1) ∧
  (∀ (kind : DefectKind) (v : Nat),
    valueText kind.unit v =
      match kind with
      | .opn | .highR | .short | .miswire | .calFail =>
        if v = 4294967295 then ascii ['O', 'P', 'E', 'N']
        else decimal (v / 1000) ++ ascii ['.'] ++ digits 3 (v % 1000) ++ ascii ['R']
      | .leak => if v = 4294967295 then ascii ['O', 'V', 'E', 'R'] else decimal v ++ ascii ['M']
      | .arc => decimal v ++ ascii ['P', 'A']
      | .shortOverflow => decimal v
      | .untested | .switchFault => ascii ['M'] ++ digits 2 v) ∧
  ∀ s : State, s.rst.held = false →
    (s.print.busyTimer = none →
      exec .prnBusyFalls s = .next (State.settled { s with pins := { s.pins with prnBusy := false } })) ∧
    (∀ second : Bool, s.print.busyTimer.isSome = true → s.print.bufferIn .sending = some second →
      exec .prnBusyFalls s = .next (State.settled
        { s with
          pins := { s.pins with prnBusy := false }
          print :=
            { s.print with
              busyTimer := none
              char := some
                (characterAt s.limits.timing.rate (s.print.buffer second).text s.print.sendPos) } })) ∧
    (s.print.busyTimer.isSome = true → s.print.disableReq = false →
      ∃ t, exec .busyTimeout s = .next t ∧
        t =
          { s with
            print := { s.print with state := .faulted, busyTimer := none }
            events := { s.events with pending := s.events.pending ||| Event.printerFault.bit }
            trunk := t.trunk } ∧
        (s.events.isPending .printerFault = false → s.events.isMasked .printerFault = false →
          t.trunk.held = true ∨
            ∃ e ∈ t.trunk.queue, e.kind = .notice ∧ e.frame.payload = be16 t.events.pending.toNat)) ∧
    (s.print.busyTimer.isSome = true → s.print.disableReq = true → s.listSound →
      s.run.slot = none ∨ (∀ d ∈ s.defects, d.retired = false) →
      ∃ t, exec .busyTimeout s = .next t ∧
        t =
          { s with
            print := { Print.reset with copies := s.print.copies }
            port := s.port.give fun o => o = .print
            arith := s.arith.dropFormat
            defects := s.defects.filter fun d => !d.retired
            events := { s.events with pending := s.events.pending ||| Event.printerFault.bit }
            trunk := t.trunk } ∧
        (s.events.isPending .printerFault = false → s.events.isMasked .printerFault = false →
          t.trunk.held = true ∨
            ∃ e ∈ t.trunk.queue, e.kind = .notice ∧ e.frame.payload = be16 t.events.pending.toNat)) ∧
    (∀ (busy second : Bool) (sent : Character), s.print.char = some sent → s.print.bufferIn .sending = some second →
      let answer := exec (.printCharacterSent busy) s
      let found : State := { s with pins := { s.pins with prnBusy := busy } }
      let line := s.print.buffer second
      (s.print.sendPos + 1 < line.text.length →
        answer = .next (State.settled
          { found with print := { (found.sendingLine s.print line.text (s.print.sendPos + 1)).print with
              state := s.print.state } })) ∧
      (line.text.length ≤ s.print.sendPos + 1 → s.run.slot = none → s.listSound →
        (∀ n, line.content = some (.record n) → ∀ d ∈ s.defects, d.seq = n → d.provisional = false) →
        let print : Print :=
          { (s.print.onBuffer second fun _ => { state := .empty, content := none, text := [] }) with
            sendPos := 0, char := none }
        let ended : State :=
          { found with
            print
            defects :=
              match line.content with
              | some (.record n) =>
                (s.defects.filter fun d => !(decide (d.seq = n) && d.retired)).map fun d =>
                  if d.seq = n then { d with printed := true } else d
              | _ => s.defects }
        (s.print.disableReq = true →
          answer = .next (State.settled
            { ended with
              print := { Print.reset with copies := s.print.copies }
              port := s.port.give fun o => o = .print
              arith := s.arith.dropFormat
              defects := ended.defects.filter fun d => !d.retired })) ∧
        (s.print.disableReq = false → s.print.holdReq = true →
          answer = .next (State.settled { ended with print := { print with state := .held, holdReq := false } })) ∧
        (s.print.disableReq = false → s.print.holdReq = false → print.bufferIn .sending = none →
          (∀ other, print.bufferIn .ready = some other →
            ∃ y,
              State.looked
                (ended.sendingLine (print.onBuffer other fun b => { b with state := .sending })
                  (print.buffer other).text 0) y ∧
              answer = .next y.settled) ∧
          (print.bufferIn .ready = none →
            ∃ y,
              State.looked
                { ended with print :=
                    { print with state := if print.bufferIn .formatting = none then .idle else .format } } y ∧
              answer = .next y.settled)))) ∧
    (∀ second : Bool, s.print.fmt = none → s.print.bufferIn .formatting = some second →
      (∀ rest : List ArithReq, s.arith.job = none → s.arith.waiting = .format :: rest →
        exec .arithmeticOperationStart s = .next (State.settled
          { s with arith := { job := some { op := .format [], live := true }, waiting := rest } })) ∧
      ∀ (busy : Bool) (text : List Byte), s.arith.job = some { op := .format text, live := true } →
        (s.print.state = .format ∨ s.print.state = .idle → s.print.bufferIn .sending = none) →
        ∃ y, State.looked ((s.operated busy).lineReady second (s.print.buffer second).text) y ∧
          exec (.arithmeticOperationEnd busy) s = .next y.settled) ∧
    ∀ (w : FmtWork) (busy : Bool), s.print.fmt = some w →
      (s.print.state = .format ∨ s.print.state = .idle → s.print.bufferIn .sending = none) →
      let first : Bool := w.stage = .netA || w.stage = .nameA
      let net : Nat := if first then w.defect.key.netA else w.defect.key.netB.getD 0
      let index (n : Nat) : List Byte := ascii ['N'] ++ digits 4 n ++ List.replicate 11 0x20
      (∀ (kind : TableKind) (i : Nat) (rest : List Access), s.accessing (readFor kind i .print) rest →
        let answer := exec (.tableAccessComplete none busy) s
        let failed : Tables :=
          { s.tables with
            parityCount := min 255 (s.tables.parityCount + 1), parityLast := some (kind, i) }
        let asks (x : State) (v : FmtWork) (kind : TableKind) (i : Nat) : Prop :=
          answer = .next (State.settled
            { x with
              print := { s.print with fmt := some v }, port := { queue := rest ++ [readFor kind i .print] } })
        let named (x : State) (name : List Byte) : Prop :=
          let v : FmtWork := if first then { w with nameA := name } else { w with nameB := name }
          (∀ n, first = true → w.defect.key.netB = some n → n < s.bound .nets →
            asks x { v with stage := .netB } .nets n) ∧
          ∀ u : FmtWork,
            (first = false ∧ u = v) ∨ (first = true ∧ w.defect.key.netB = none ∧ u = v) ∨
              (∃ n, first = true ∧ w.defect.key.netB = some n ∧ s.bound .nets ≤ n ∧ u = { v with nameB := index n }) →
            (w.defect.value.isSome = true →
              answer = .next (State.settled
                { x with
                  print := { s.print with fmt := some { u with stage := .value } }
                  arith := { s.arith with waiting := s.arith.waiting ++ [.format] } })) ∧
            (w.defect.value = none → ∃ y, State.looked (x.lineDone u []) y ∧ answer = .next y.settled)
        let read := s.accessed rest busy
        (∀ bs : List Byte, kind = .nets → w.stage = .netA ∨ w.stage = .netB → s.mem.record kind i = some bs →
          (∀ n, (decodeNet bs).name = some n → n < s.bound .names →
            asks read { w with stage := if w.stage = .netA then .nameA else .nameB } .names n) ∧
          ((decodeNet bs).name = none ∨ (∃ n, (decodeNet bs).name = some n ∧ s.bound .names ≤ n) →
            named read (index net))) ∧
        (∀ bs : List Byte, kind = .names → w.stage = .nameA ∨ w.stage = .nameB → s.mem.record kind i = some bs →
          named read (bs.map fun b => if 0x20 ≤ b.toNat ∧ b.toNat ≤ 0x7E then b else 0x3F)) ∧
        (s.mem.record kind i = none → w.stage ≠ .value → w.stage ≠ .begun → named { read with tables := failed } (index net))) ∧
      (∀ rest : List ArithReq, s.arith.job = none → s.arith.waiting = .format :: rest →
        exec .arithmeticOperationStart s = .next (State.settled
          { s with arith :=
              { job :=
                  some
                    { op :=
                        .format
                          (match w.defect.value with
                            | some v => valueText w.defect.key.kind.unit v
                            | none => [])
                      live := true }
                waiting := rest } })) ∧
      ∀ text : List Byte, s.arith.job = some { op := .format text, live := true } →
        ∃ y, State.looked ((s.operated busy).lineDone w text) y ∧
          exec (.arithmeticOperationEnd busy) s = .next y.settled

/-! ### Links and resets (chapters 11, 12) -/

/-- What the resets leave: every block at its reset value with the chip held in reset; table memory keeps its bytes but
those of a write in progress, each of which is the old or the new one, and loses them where it lost its own power; a
command reset keeps what R181 lists and is taken only when it is due (R2, R180, R181, log 6, 7, 8, 32). -/
def Obligations.ResetsLeave : Prop :=
  ∀ s : State,
    (∀ (i : Instr) (cause : ResetCause),
      (i = .powerOnReset true ∧ cause = .power) ∨ (i = .pinReset ∧ cause = .pin) ∨
        (i = .clockLossReset ∧ cause = .clock) →
      ∃ t, exec i s = .next t ∧
        t =
          { State.reset with
            mem := t.mem, rst := { held := true, cause, phase := .none }, pins := s.pins, torn := t.torn
            pending := s.pending } ∧
        ∀ a : Nat,
          (t.mem.read a = s.mem.read a ∧ t.mem.parityBad a = s.mem.parityBad a) ∨
            ∃ (x : Access) (rest : List Access) (offset : Nat) (bytes : List Byte),
              s.port.queue = x :: rest ∧ x.write = some (offset, bytes) ∧
                recordAddress x.kind x.index + offset ≤ a ∧
                a < recordAddress x.kind x.index + offset + bytes.length ∧
                t.mem.read a = bytes.getD (a - (recordAddress x.kind x.index + offset)) 0 ∧
                t.mem.parityBad a = false) ∧
    (∃ t, exec (.powerOnReset false) s = .next t ∧
      t =
        { State.reset with
          mem := { cells := [], dp := [], epoch := s.mem.epoch + 1 }, pins := s.pins, torn := t.torn
          pending := s.pending }) ∧
    (s.rst.phase ≠ .ready → exec .commandReset s = .next s) ∧
    (s.rst.phase = .ready →
      exec .commandReset s = .next
        { State.reset with
          mem := s.mem
          tables :=
            { State.reset.tables with
              dims := s.tables.dims
              state := if s.tables.state = .empty then .empty else .loaded }
          limits := s.limits
          sup :=
            { nodes := s.sup.nodes.map fun n =>
                { channels := n.channels, heard := false, fault := false, alive := false, kind := .none
                  reported := 0 }
              timer := none, pollList := [] }
          rst := { held := true, cause := .command, phase := .none }
          pins := s.pins, torn := s.torn, pending := s.pending })

/-- RESET CHIP places its reply at the tail and is followed by no more commands; a frame that has left TRK_TX leaves the
queue, a held notice takes the room, and the reply of RESET CHIP lets the command reset come, after the record access in
progress, a held notice taking the room of that reply as well (R173, R181). That the new head has begun to be sent by the end
of the event is the model's choice (log 12), and so is that the places which replies still to come hold count against the
room for a notice (log 10). -/
def Obligations.TrunkSends : Prop :=
  (∀ (s : State) (tag : Byte), s.hearsTrunk →
    exec (.resetChip tag []) s = .next
      { s with
        trunk :=
          { s.trunk with
            queue := s.trunk.queue ++ [{ frame := replyFrame tag 0x22 .ok [], kind := .resetReply }]
            begun := true }
        rst := { s.rst with phase := .replying } }) ∧
  ∀ (s : State) (e : TrunkEntry) (rest : List TrunkEntry), s.rst.held = false → s.trunk.queue = e :: rest →
    (s.trunk.held = false → e.kind ≠ .resetReply →
      exec .trunkFrameSent s = .next
        { s with trunk := { queue := rest, begun := !rest.isEmpty, held := false } }) ∧
    (s.trunk.held = false → e.kind = .resetReply →
      exec .trunkFrameSent s = .next
        { s with
          trunk := { queue := rest, begun := !rest.isEmpty, held := false }
          rst := { s.rst with phase := if s.port.queue = [] then .ready else .accessing } }) ∧
    (s.trunk.held = true → rest.all (fun x => x.kind ≠ .notice) = true → rest.length + s.repliesOwed < 8 →
      let trunk : Trunk :=
        { queue :=
            if s.events.pending &&& 7#12 = 0 then rest ++ [noticeEntry s.events.pending]
            else noticeEntry s.events.pending :: rest
          begun := true, held := false }
      (e.kind ≠ .resetReply → exec .trunkFrameSent s = .next { s with trunk }) ∧
        (e.kind = .resetReply →
          exec .trunkFrameSent s = .next
            { s with trunk, rst := { s.rst with phase := if s.port.queue = [] then .ready else .accessing } })) ∧
    (s.trunk.held = true → rest.all (fun x => x.kind ≠ .notice) = true → 8 ≤ rest.length + s.repliesOwed →
      e.kind ≠ .resetReply →
      exec .trunkFrameSent s = .next { s with trunk := { queue := rest, begun := !rest.isEmpty, held := true } })

/-- The end of a reset: the first monitor period starts with a POL to every configured node, and a discharge of start-up
begins on a stream of its own (R66, R67, R139, R180). With at most six configured modules every frame finds room at once:
that the POLs then stand before the HVC frame, and so take the lower tags, is the model's choice (log 29; R171 lets frames
produced together join in any order). That the row does nothing while the chip is not held is the model's choice too: a row
whose event cannot occur leaves the state (log 3), and this row stands for the moment at which no reset condition holds
(log 35). -/
def Obligations.ResetEnds : Prop :=
  (∀ s : State, s.rst.held = false → exec .resetEnd s = .next s) ∧
  ∀ s : State, s.rst.held = true → s.ring = Ring.reset → s.mc = Measure.reset → s.hv = Hv.reset →
    s.seq = Sequencer.reset → s.trunk = Trunk.reset → s.fault.safeHalt = false →
    ∃ t, exec .resetEnd s = .next t ∧ t.rst = { s.rst with held := false } ∧
      t.sup.timer = some s.limits.timing.period ∧ t.sup.nodes = s.sup.nodes ∧
      (∀ a ∈ s.modules ++ [72],
        a ∈ t.sup.pollList ∨
          ∃ e ∈ t.ring.queue, e.owner = .poll a ∧ e.frame.dst = byte a ∧ e.frame.src = 0 ∧
            e.frame.cls = 0x12 ∧ e.frame.payload = []) ∧
      t.mc.state = .stream ∧ t.mc.requester = .hv ∧ t.mc.stream = 1 ∧
      t.hvcPayloads = [[1, byte s.limits.timing.hvInterval]] ∧
      t.hv = s.hv ∧ t.mem = s.mem ∧ t.run = s.run ∧ t.trunk = s.trunk ∧
      (s.modules.length ≤ 6 →
        t.sup = { s.sup with timer := some s.limits.timing.period, pollList := [] } ∧
        t.ring =
          { queue :=
              (((s.modules ++ [72]).zipIdx.map fun x : Nat × Nat =>
                ({ frame := { dst := byte x.1, src := 0, cls := 0x12, tag := byte x.2, payload := [] }
                   owner := .poll x.1 } : RingEntry)) ++
              [{ frame :=
                  { dst := 72, src := 0, cls := 0x22, tag := byte (s.modules.length + 1)
                    payload := [1, byte s.limits.timing.hvInterval] }
                 owner := .hvc 1 false }])
            wait := [], ownTag := s.modules.length + 2 } ∧
        t.mc =
          { Measure.reset with
            state := .stream, requester := .hv, curTag := some (s.modules.length + 1), stream := 1 })

/-- A pass-through request: the first of its tests that refuses it, the refusal with DST and class, and otherwise the
frame placed at the tail of the ring transmit queue as received (R170). -/
def Obligations.PassThroughAnswered : Prop :=
  ∀ (s : State) (r : PassRequest), s.hearsTrunk → r.payload.length ≤ 64 →
    let f : Frame := { dst := r.dst, src := r.src, cls := r.cls.code, tag := r.tag, payload := r.payload }
    let refusal : Option Result :=
      if f.cls = 0x22 then some .hvLive
      else if f.tag.toNat < 128 then some .badTag
      else if f.src ≠ 0 ∨ f.dst = 0 ∨
          ¬((f.cls = 0x10 ∧ (f.payload.length = 0 ∨ f.payload.length = 32)) ∨
            (f.cls = 0x12 ∧ f.payload.length = 0) ∨ (f.cls = 0x20 ∧ f.payload.length = 1)) then some .badArg
      else if s.run.active = true ∨ s.fault.safeHalt = true then some .ringOwned
      else if f.cls ≠ 0x12 ∧ s.hv.state ≠ .safe then some .hvLive
      else if 8 ≤ s.ring.queue.length then some .busy
      else none
    (∀ result, refusal = some result →
      exec (.passThroughRequest r) s = .next (s.replied f.tag 0x00 result [f.dst, f.cls])) ∧
    (refusal = none →
      exec (.passThroughRequest r) s = .next (State.settled
        { s with ring := { s.ring with queue := s.ring.queue ++ [{ frame := f, owner := .passThrough }] } }))

/-- The head of the ring transmit queue is sent: an MSR starts its sample timer, an SW frame makes its transaction SENT and
its module UNKNOWN, the HOME broadcast makes every configured module UNKNOWN and starts the HOME's echo timer, or ends the
HOME where no module is expected, and an SW frame is not sent while the HV state is not SAFE. With no frame waiting and an empty
poll list the room stays free. The POL that waits, or the first of the poll list, takes the room: its address leaves the list,
and the POL of the next address waits in its place. Any other oldest waiting frame takes the room with what its placing does for
its owner (R25, R53, R54, R61, R67, R78, R82, R171). -/
def Obligations.RingFrameSent : Prop :=
  ∀ (s : State) (e : RingEntry) (rest : List RingEntry), s.rst.held = false → s.ring.queue = e :: rest →
    rest.length < 8 →
    let poll (a : Nat) : RingEntry :=
      { frame := { dst := byte a, src := 0, cls := clsPol, tag := 0, payload := [] }, owner := .poll a }
    (∀ left : State,
      (s.ring.wait = [] ∧ s.sup.pollList = [] ∧ left = { s with ring := { s.ring with queue := rest } }) ∨
        (∃ a, rest.length = 7 ∧
          ((s.ring.wait = [] ∧ s.sup.pollList.head? = some a) ∨ s.ring.wait = [poll a]) ∧
          left =
            { s with
              sup := { s.sup with pollList := s.sup.pollList.erase a }
              ring :=
                Ring.placed
                  { s.ring with queue := rest, wait := ((s.sup.pollList.erase a).take 1).map poll }
                  a clsPol [] (.poll a) }) →
      (e.frame.cls = clsSw → s.hv.state ≠ .safe → exec .ringFrameSent s = .next left.settled) ∧
      ((∃ a, e.owner = .poll a) ∨ e.owner = .passThrough ∨ (∃ n closing, e.owner = .hvc n closing) →
        exec .ringFrameSent s = .next left.settled) ∧
      (e.owner = .msr → e.frame.cls = clsMsr → s.mc.state = .msrQueued → s.mc.curTag = some e.frame.tag.toNat →
        exec .ringFrameSent s = .next (State.settled
          { left with mc := { s.mc with state := .msrWait, timer := some s.limits.timing.sample } })) ∧
      (∀ m, e.owner = .switch m → 1 ≤ m → s.hv.state = .safe →
        exec .ringFrameSent s = .next (State.settled
          { left with
            seq :=
              { s.seq with
                transactions := s.seq.transactions.map fun t =>
                  if t.module = m ∧ t.phase = .queued ∧ t.tag = some e.frame.tag.toNat then
                    { t with phase := .sent, timer := some s.limits.timing.echo }
                  else t
                believed := s.seq.believed.set (m - 1) none } })) ∧
      (e.owner = .home → s.hv.state = .safe → s.seq.state = .homing → s.seq.home.tag = some e.frame.tag.toNat →
        let believed :=
          s.seq.believed.zipIdx.map fun x : Option Masks × Nat => if s.channels (x.2 + 1) = 0 then x.1 else none
        ((∃ a ∈ s.seq.home.expected, a ∉ s.seq.home.answered) →
          exec .ringFrameSent s = .next (State.settled
            { left with
              seq :=
                { s.seq with believed, home := { s.seq.home with timer := some s.limits.timing.echo } } })) ∧
        ∀ first : Nat, (∀ a ∈ s.seq.home.expected, a ∈ s.seq.home.answered) → s.run.waiting = .startHome first →
          s.run.pauseReq = false →
          exec .ringFrameSent s = .next (State.settled
            { left with
              seq :=
                { s.seq with
                  believed, state := .idle, requester := .none
                  home := { tag := none, expected := [], answered := [], timer := none } }
              run := { s.run with waiting := .stepRead first }
              port := { queue := s.port.queue ++ [readFor .steps first .runRead] } }))) ∧
    ∀ (w : RingEntry) (others : List RingEntry), s.ring.wait = w :: others → e.owner = .passThrough →
      s.sup.pollList = [] ∨ (∃ a, ∃ x ∈ others, x.owner = .poll a) → others = [] ∨ rest.length = 7 →
      let ring : Ring :=
        { queue := rest ++ [{ w with frame := { w.frame with tag := byte s.ring.ownTag } }]
          wait := others, ownTag := (s.ring.ownTag + 1) % 128 }
      (w.owner = .msr →
        exec .ringFrameSent s = .next (State.settled
          { s with ring, mc := { s.mc with curTag := some s.ring.ownTag } })) ∧
      (∀ m, w.owner = .switch m →
        exec .ringFrameSent s = .next (State.settled
          { s with
            ring
            seq :=
              { s.seq with
                transactions := s.seq.transactions.map fun t =>
                  if t.module = m ∧ t.phase = .waiting then { t with phase := .queued, tag := some s.ring.ownTag }
                  else t } })) ∧
      (w.owner = .home →
        exec .ringFrameSent s = .next (State.settled
          { s with ring, seq := { s.seq with home := { s.seq.home with tag := some s.ring.ownTag } } })) ∧
      (w.owner = .hvc s.mc.stream false → s.mc.state = .stream →
        exec .ringFrameSent s = .next (State.settled
          { s with ring, mc := { s.mc with prevTag := s.mc.curTag, curTag := some s.ring.ownTag } })) ∧
      ∀ n, w.owner = .hvc n true → exec .ringFrameSent s = .next (State.settled { s with ring })

/-- A frame with SRC 0 comes back: to address 0, or an own broadcast, it does nothing; a pass-through frame goes up the
trunk where there is room; from a node it is a fault recorded against the node if configured; an own MSR in MSR-WAIT and
the SW frame of a SENT transaction are sent again, and at their last attempt are HEAD-TIMEOUT and a failed module, on which
the configuration goes on or, with no transaction left, fails (R43, R56, R57, R70, R81, R169). That a reply still to come
holds a place of the trunk transmit queue, so that a copy finds no room behind it, is the model's choice (log 10). -/
def Obligations.ReturnedFrames : Prop :=
  ∀ (s : State) (dst cls tag : Byte) (payload : List Byte), s.rst.held = false →
    (Instr.returnedFrame dst cls tag payload).WellFormed = true →
    let copied (x : State) : State :=
      if 8 ≤ x.trunk.queue.length + x.repliesOwed then x
      else
        { x with trunk :=
            { x.trunk with queue := x.trunk.queue ++
                [{ frame := { dst, src := 0, cls, tag, payload }, kind := .copy }] } }
    (∀ a b, (s.faultAgainst a).node? b =
      if b = a ∧ s.configured a = true then (s.node? b).map fun n => { n with fault := true } else s.node? b) ∧
    (dst = 0 ∨ (dst = 127 ∧ tag.toNat < 128) →
      exec (.returnedFrame dst cls tag payload) s = .next s.settled) ∧
    (dst = 127 → 128 ≤ tag.toNat → exec (.returnedFrame dst cls tag payload) s = .next (copied s).settled) ∧
    (dst ≠ 0 → dst ≠ 127 → 128 ≤ tag.toNat →
      exec (.returnedFrame dst cls tag payload) s = .next (copied (s.faultAgainst dst.toNat)).settled) ∧
    (dst ≠ 0 → dst ≠ 127 → tag.toNat < 128 → cls ≠ clsSw →
      ¬(cls = clsMsr ∧ s.mc.state = .msrWait ∧ s.mc.curTag = some tag.toNat) →
      exec (.returnedFrame dst cls tag payload) s = .next (s.faultAgainst dst.toNat).settled) ∧
    (dst ≠ 0 → dst ≠ 127 → tag.toNat < 128 → cls = clsMsr → s.mc.state = .msrWait →
      s.mc.curTag = some tag.toNat → s.mc.attempt < 3 → s.ringFree →
      exec (.returnedFrame dst cls tag payload) s = .next (State.settled
        { s.faultAgainst dst.toNat with
          mc :=
            { s.mc with
              state := .msrQueued, attempt := s.mc.attempt + 1, timer := none, curTag := some s.ring.ownTag }
          ring := s.ring.placed 72 clsMsr [byte s.mc.range] .msr })) ∧
    (dst ≠ 0 → dst ≠ 127 → tag.toNat < 128 → cls = clsMsr → s.mc.state = .msrWait →
      s.mc.curTag = some tag.toNat → 3 ≤ s.mc.attempt → s.fault.valid = false → s.run.state = .running →
      ∃ t, exec (.returnedFrame dst cls tag payload) s = .next t ∧ s.headTimedOut t ∧
        t.sup.nodes = (s.faultAgainst dst.toNat).sup.nodes) ∧
    (dst ≠ 0 → dst ≠ 127 → tag.toNat < 128 → cls = clsSw →
      ((∀ t ∈ s.seq.transactions, ¬(t.module = dst.toNat ∧ t.tag = some tag.toNat ∧ t.phase = .sent)) →
        exec (.returnedFrame dst cls tag payload) s = .next (s.faultAgainst dst.toNat).settled) ∧
      ∀ t : Transaction, s.seq.transactions.find? (fun t => t.module = dst.toNat) = some t →
        t.tag = some tag.toNat → t.phase = .sent → t.attempt < 4 → s.seq.state = .verifying → s.ringFree →
        exec (.returnedFrame dst cls tag payload) s = .next (State.settled
          { s.faultAgainst dst.toNat with
            seq :=
              { s.seq with transactions := s.seq.transactions.map fun u =>
                  if u.module = dst.toNat then
                    { u with
                      attempt := u.attempt + 1, tag := some s.ring.ownTag, timer := none, phase := .queued }
                  else u }
            ring :=
              s.ring.placed dst.toNat clsSw (maskBytes t.masks.a ++ maskBytes t.masks.b)
                (.switch dst.toNat) })) ∧
    ∀ t : Transaction, dst ≠ 0 → dst ≠ 127 → tag.toNat < 128 → cls = clsSw → s.seq.state = .verifying →
      s.seq.transactions.find? (fun t => t.module = dst.toNat) = some t → t.tag = some tag.toNat →
      t.phase = .sent → 4 ≤ t.attempt →
      let others := s.seq.transactions.filter fun t => t.module ≠ dst.toNat
      let failed := putAddress dst.toNat s.seq.failed
      (others ≠ [] →
        exec (.returnedFrame dst cls tag payload) s = .next (State.settled
          { s.faultAgainst dst.toNat with seq := { s.seq with transactions := others, failed } })) ∧
      ∀ (low : Nat) (more : List Nat) (key : DefectKey), others = [] → failed = low :: more →
        s.print.state = .off → s.appends key → s.switchFaultKey key →
        ∃ x, exec (.returnedFrame dst cls tag payload) s = .next x ∧
          s.configFailedTo x { s.seq with failed } low key ∧
          x.sup.nodes = (s.faultAgainst dst.toNat).sup.nodes

/-! ### Answers of the nodes and timers (chapters 03, 04, 05, 08) -/

/-- An ECH in VERIFYING: its module is heard; counts that match make the masks believed and end the transaction, the last
of which leads to SETTLING, or, where modules have failed, to the failed answer and the SWITCH-FAULT of its requester; counts
that do not match record a fault and send the frame again, the other transactions going on as they were; a tag of no
transaction does nothing more. An ECH with an own tag in IDLE, TRANSLATING or SETTLING is heard and otherwise discarded. An ECH
in HOMING makes
its module all-open, or UNKNOWN on counts other than 0 and 0, and the last one expected ends the HOME; that no answer ends
a HOME with an empty expected set, and that an answer before the broadcast is sent counts as any other, is the model's choice
(log 56). Counts that do not match at the fourth attempt put the module into the failed list (R56, R57). A pass-through ECH goes up the trunk where there
is room (R25, R55, R56, R57, R62, R69, R100, R113, R119, R126, R169); that a reply still to come holds a place there is the
model's choice (log 10). -/
def Obligations.EchoesVerify : Prop :=
  ∀ (s : State) (src tag countA countB : Byte), s.rst.held = false →
    (Instr.echReceived src tag countA countB).WellFormed = true →
    (∀ a b, (s.heardFrom a).node? b =
      if b = a ∧ s.configured a = true then (s.node? b).map fun n => { n with heard := true } else s.node? b) ∧
    (128 ≤ tag.toNat → 8 ≤ s.trunk.queue.length + s.repliesOwed →
      exec (.echReceived src tag countA countB) s = .next (s.heardFrom src.toNat).settled) ∧
    (128 ≤ tag.toNat → s.trunk.queue.length + s.repliesOwed < 8 →
      exec (.echReceived src tag countA countB) s = .next (State.settled
        { s.heardFrom src.toNat with trunk :=
            { s.trunk with queue := s.trunk.queue ++
                [{ frame := { dst := 0, src, cls := clsEch, tag, payload := [countA, countB] }
                   kind := .copy }] } })) ∧
    (tag.toNat < 128 → s.seq.state = .idle ∨ s.seq.state = .translating ∨ s.seq.state = .settling →
      exec (.echReceived src tag countA countB) s = .next (s.heardFrom src.toNat).settled) ∧
    (tag.toNat < 128 → s.seq.state = .verifying →
      let heard := s.heardFrom src.toNat
      let others := s.seq.transactions.filter fun t => t.module ≠ src.toNat
      ((∀ t ∈ s.seq.transactions, ¬(t.module = src.toNat ∧ t.tag = some tag.toNat ∧ t.phase = .sent)) →
        exec (.echReceived src tag countA countB) s = .next heard.settled) ∧
      ∀ t : Transaction, s.seq.transactions.find? (fun t => t.module = src.toNat) = some t →
        t.tag = some tag.toNat → t.phase = .sent →
        (maskCount t.masks.a = countA.toNat → maskCount t.masks.b = countB.toNat →
          let believed := s.seq.believed.set (src.toNat - 1) (some t.masks)
          (others ≠ [] →
            exec (.echReceived src tag countA countB) s = .next (State.settled
              { heard with seq := { s.seq with believed, transactions := others } })) ∧
          (others = [] → s.seq.failed = [] →
            exec (.echReceived src tag countA countB) s = .next (State.settled
              { heard with seq :=
                  { s.seq with
                    believed, transactions := [], state := .settling
                    settleTimer := some
                      (match s.seq.settle with | 0 => 1 | 1 => 3 | 2 => 10 | _ => 30) } })) ∧
          ∀ (m : Nat) (more : List Nat) (key : DefectKey), others = [] → s.seq.failed = m :: more →
            s.print.state = .off → s.appends key → s.switchFaultKey key →
            ∃ x, exec (.echReceived src tag countA countB) s = .next x ∧
              s.configFailedTo x { s.seq with believed } m key) ∧
        (¬(maskCount t.masks.a = countA.toNat ∧ maskCount t.masks.b = countB.toNat) → 4 ≤ t.attempt →
          let failed := putAddress src.toNat s.seq.failed
          (others ≠ [] →
            exec (.echReceived src tag countA countB) s = .next (State.settled
              { heard.faultAgainst src.toNat with seq := { s.seq with transactions := others, failed } })) ∧
          ∀ (low : Nat) (more : List Nat) (key : DefectKey), others = [] → failed = low :: more →
            s.print.state = .off → s.appends key → s.switchFaultKey key →
            ∃ x, exec (.echReceived src tag countA countB) s = .next x ∧
              s.configFailedTo x { s.seq with failed } low key ∧
              x.sup.nodes = (heard.faultAgainst src.toNat).sup.nodes) ∧
        (¬(maskCount t.masks.a = countA.toNat ∧ maskCount t.masks.b = countB.toNat) → t.attempt < 4 →
          s.ringFree →
          exec (.echReceived src tag countA countB) s = .next (State.settled
            { heard.faultAgainst src.toNat with
              seq :=
                { s.seq with transactions := s.seq.transactions.map fun u =>
                    if u.module = src.toNat then
                      { u with
                        attempt := u.attempt + 1, tag := some s.ring.ownTag, timer := none, phase := .queued }
                    else u }
              ring :=
                s.ring.placed src.toNat clsSw (maskBytes t.masks.a ++ maskBytes t.masks.b)
                  (.switch src.toNat) }))) ∧
    (tag.toNat < 128 → s.seq.state = .homing →
      let heard := s.heardFrom src.toNat
      let believed :=
        s.seq.believed.set (src.toNat - 1)
          (if countA = 0 ∧ countB = 0 then some { a := 0, b := 0 } else none)
      let answered := putAddress src.toNat s.seq.home.answered
      (s.seq.home.tag ≠ some tag.toNat ∨ src.toNat ∉ s.modules →
        exec (.echReceived src tag countA countB) s = .next heard.settled) ∧
      (s.seq.home.tag = some tag.toNat → src.toNat ∈ s.modules →
        ((s.seq.home.expected = [] ∨ ∃ a ∈ s.seq.home.expected, a ∉ answered) →
          exec (.echReceived src tag countA countB) s = .next (State.settled
            { heard with seq := { s.seq with believed, home := { s.seq.home with answered } } })) ∧
        ∀ first : Nat, s.seq.home.expected ≠ [] → (∀ a ∈ s.seq.home.expected, a ∈ answered) →
          s.run.waiting = .startHome first → s.run.pauseReq = false →
          exec (.echReceived src tag countA countB) s = .next (State.settled
            { heard with
              seq :=
                { s.seq with
                  believed, state := .idle, requester := .none
                  home := { tag := none, expected := [], answered := [], timer := none } }
              run := { s.run with waiting := .stepRead first }
              port := { queue := s.port.queue ++ [readFor .steps first .runRead] } })))

/-- A STA: its configured node is heard, with the kind and the channels reported, and a module whose closed counts differ
from its believed state becomes UNKNOWN; a pass-through STA goes up the trunk where there is room. A STA of the head that
reports high voltage while the HV state is SAFE is the fault HV-UNEXPECTED: the HV state is DISCHARGE, no frame that sets
relays is left to send, a discharge stream is opened, or asked for where the Measurement Controller is not IDLE, and an
active run goes into ABORTING with its outstanding MSR dropped (R43, R54, R68, R69, R82, R83, R135, R138, R177). The model's
choice are the pause cause NONE from then on (log 47) and the place of the trunk transmit queue that a reply still to come
holds (log 10). -/
def Obligations.StatusRecorded : Prop :=
  ∀ (s : State) (src tag kind channels countA countB flags : Byte), s.rst.held = false →
    (Instr.staReceived src tag kind channels countA countB flags).WellFormed = true →
    let up (x : State) : State :=
      if tag.toNat < 128 ∨ 8 ≤ x.trunk.queue.length + x.repliesOwed then x
      else
        { x with trunk :=
            { x.trunk with queue := x.trunk.queue ++
                [{ frame :=
                    { dst := 0, src, cls := clsSta, tag, payload := [kind, channels, countA, countB, flags] }
                   kind := .copy }] } }
    let reported (n : Node) : Node :=
      { n with
        heard := true, kind := if kind = 0 then .module else if kind = 1 then .head else .other
        reported := channels.toNat }
    (s.configured src.toNat = false →
      exec (.staReceived src tag kind channels countA countB flags) s = .next (up s).settled) ∧
    (1 ≤ src.toNat → src.toNat ≤ 64 → s.channels src.toNat ≠ 0 →
      exec (.staReceived src tag kind channels countA countB flags) s = .next (State.settled (up
        { s with
          sup := { s.sup with nodes := s.sup.nodes.modify (src.toNat - 1) reported }
          seq :=
            match s.believed src.toNat with
            | some m =>
              if maskCount m.a = countA.toNat ∧ maskCount m.b = countB.toNat then s.seq
              else { s.seq with believed := s.seq.believed.set (src.toNat - 1) none }
            | none => s.seq }))) ∧
    (src = 72 → flags.getLsbD 0 = false ∨ s.hv.state ≠ .safe →
      exec (.staReceived src tag kind channels countA countB flags) s = .next (State.settled (up
        { s with sup := { s.sup with nodes := s.sup.nodes.modify 64 reported } }))) ∧
    (src = 72 → flags.getLsbD 0 = true → s.hv.state = .safe → s.fault.valid = false →
      s.run.inFaultResponse = false → s.run.active = true ∨ s.seq.state ≠ .homing →
      ∃ t, exec (.staReceived src tag kind channels countA countB flags) s = .next t ∧ s.hvUnexpected t ∧
        t.sup.nodes = s.sup.nodes.modify 64 reported ∧
        (s.run.active = false →
          t.run = s.run ∧
          (s.mc.state = .idle →
            t.hv =
              { s.hv with
                state := .discharge, cause := .unexpected, hold := false
                dischargeTimer := some s.limits.timing.discharge, streamWanted := false } ∧
            t.mc.state = .stream ∧ t.hvcSent [1, byte s.limits.timing.hvInterval]) ∧
          (s.mc.state ≠ .idle →
            t.hv = { s.hv with state := .discharge, cause := .unexpected, hold := false, streamWanted := true } ∧
              t.mc.state = s.mc.state)) ∧
        (s.run.state = .running ∨ s.run.state = .paused ∨ s.run.state = .stalled → s.mc.state ≠ .stream →
          s.hv.streamWanted = false →
          t.run =
            { s.run with
              state := .aborting, abortCause := .fault, pauseCause := .none, slot := none, waiting := .safe } ∧
          t.hv =
            { s.hv with
              state := .discharge, cause := .unexpected, hold := false, ending := none, safeWait := true
              net := none, work := .idle, dischargeTimer := some s.limits.timing.discharge
              streamWanted := false } ∧
          t.sweep = Sweep.reset ∧ t.mc.state = .stream ∧ t.hvcSent [1, byte s.limits.timing.hvInterval] ∧
          (s.mc.state = .msrQueued → ∀ e ∈ t.ring.queue ++ t.ring.wait, e.owner ≠ .msr)))

/-- An SMP: one that is not of the head is discarded, uncounted where it has an own tag too, which is the model's choice: R76 has
the sample discard count cover own-tag SMP frames discarded on arrival, and step 1 of R79 states no increment (log 53). One that matches the outstanding MSR, or the open stream, joins the
sample queue, and one that does not, or finds the queue full, is counted as discarded; a pass-through SMP goes up the trunk
where there is room. One that carries HV while the HV state is SAFE is the fault HV-UNEXPECTED, and a discharge begins (R54,
R69, R76, R79, R138, R169, R177). The model's choice are the pause cause NONE in the response of a run (log 47) and the place
of the trunk transmit queue that a reply still to come holds (log 10). -/
def Obligations.SamplesAdmitted : Prop :=
  ∀ (s : State) (src tag seq : Byte) (vcode icode : BitVec 16) (range flags : Byte), s.rst.held = false →
    (Instr.smpReceived src tag seq vcode icode range flags).WellFormed = true →
    let answer := exec (.smpReceived src tag seq vcode icode range flags) s
    let heard := s.heardFrom 72
    let matched : Prop :=
      (s.mc.state = .msrWait ∧ s.mc.curTag = some tag.toNat) ∨
        (s.mc.state = .stream ∧ (s.mc.curTag = some tag.toNat ∨ s.mc.prevTag = some tag.toNat))
    (src ≠ 72 → answer = .next s.settled) ∧
    (src = 72 → 128 ≤ tag.toNat → flags.getLsbD 2 = false ∨ s.hv.state ≠ .safe →
      answer = .next (State.settled
        (if 8 ≤ s.trunk.queue.length + s.repliesOwed then heard
         else
          { heard with trunk :=
              { s.trunk with queue := s.trunk.queue ++
                  [{ frame :=
                      { dst := 0, src, cls := clsSmp, tag
                        payload := [seq] ++ be16 vcode.toNat ++ be16 icode.toNat ++ [range, flags] }
                     kind := .copy }] } }))) ∧
    (src = 72 → tag.toNat < 128 → flags.getLsbD 2 = false ∨ s.hv.state ≠ .safe →
      (matched → s.mc.queue.length < 8 →
        answer = .next (State.settled
          { heard with
            mc :=
              { s.mc with
                queue := s.mc.queue ++
                  [{ seq := seq.toNat, vcode, icode, range := range.toNat, ovl := flags.getLsbD 0
                     cmp := flags.getLsbD 1, hv := flags.getLsbD 2 }]
                timer := none, state := if s.mc.state = .msrWait then .msrAnswered else s.mc.state }
            arith := { s.arith with waiting := s.arith.waiting ++ [.sample] } })) ∧
      (¬matched ∨ 8 ≤ s.mc.queue.length →
        answer = .next (State.settled
          { heard with mc := { s.mc with discards := min 65535 (s.mc.discards + 1) } }))) ∧
    (src = 72 → flags.getLsbD 2 = true → s.hv.state = .safe → s.fault.valid = false →
      s.run.inFaultResponse = false → s.run.active = true ∨ s.seq.state ≠ .homing →
      ∃ t, answer = .next t ∧ s.hvUnexpected t ∧ t.sup.nodes = heard.sup.nodes ∧
        (s.run.active = false → s.mc.state = .idle →
          t.run = s.run ∧
          t.hv =
            { s.hv with
              state := .discharge, cause := .unexpected, hold := false
              dischargeTimer := some s.limits.timing.discharge, streamWanted := false } ∧
          t.mc.state = .stream ∧ t.hvcSent [1, byte s.limits.timing.hvInterval]) ∧
        (s.run.state = .running ∨ s.run.state = .paused ∨ s.run.state = .stalled → s.mc.state ≠ .stream →
          s.hv.streamWanted = false →
          t.run =
            { s.run with
              state := .aborting, abortCause := .fault, pauseCause := .none, slot := none, waiting := .safe } ∧
          t.hv =
            { s.hv with
              state := .discharge, cause := .unexpected, hold := false, ending := none, safeWait := true
              net := none, work := .idle, dischargeTimer := some s.limits.timing.discharge
              streamWanted := false } ∧
          t.mc.state = .stream ∧ t.hvcSent [1, byte s.limits.timing.hvInterval]))

/-- The echo timer of a transaction and the sample timer: another attempt is placed while one is left; the fourth failure
of a transaction is a fault against its module, which joins the failed list, and with no transaction left the configuration
has failed; the third failure of an MSR is the fault HEAD-TIMEOUT with its context, and an active run goes into ABORTING (R43,
R56, R57, R70, R81, R100, R113, R119, R126, R177). -/
def Obligations.TimeoutsResend : Prop :=
  ∀ s : State, s.rst.held = false →
    (∀ (m : Nat) (t : Transaction), s.seq.transactions.find? (fun t => t.module = m) = some t → t.phase = .sent →
      t.timer.isSome = true → s.seq.state = .verifying →
      (t.attempt < 4 → s.ringFree →
        exec (.echoTimeout m) s = .next (State.settled
          { s with
            seq :=
              { s.seq with transactions := s.seq.transactions.map fun u =>
                  if u.module = m then
                    { u with
                      attempt := u.attempt + 1, tag := some s.ring.ownTag, timer := none, phase := .queued }
                  else u }
            ring := s.ring.placed m clsSw (maskBytes t.masks.a ++ maskBytes t.masks.b) (.switch m) })) ∧
      (4 ≤ t.attempt → (s.seq.transactions.filter fun t => t.module ≠ m) ≠ [] →
        exec (.echoTimeout m) s = .next (State.settled
          { s.faultAgainst m with seq :=
              { s.seq with
                transactions := s.seq.transactions.filter fun t => t.module ≠ m
                failed := putAddress m s.seq.failed } })) ∧
      ∀ (low : Nat) (more : List Nat) (key : DefectKey), 4 ≤ t.attempt →
        (s.seq.transactions.filter fun t => t.module ≠ m) = [] → putAddress m s.seq.failed = low :: more →
        s.print.state = .off → s.appends key → s.switchFaultKey key →
        ∃ x, exec (.echoTimeout m) s = .next x ∧
          s.configFailedTo x { s.seq with failed := putAddress m s.seq.failed } low key ∧
          x.sup.nodes = (s.faultAgainst m).sup.nodes) ∧
    (s.mc.state = .msrWait → s.mc.timer.isSome = true →
      (s.mc.attempt < 3 → s.ringFree →
        exec .sampleTimeout s = .next (State.settled
          { s with
            mc :=
              { s.mc with
                state := .msrQueued, attempt := s.mc.attempt + 1, timer := none, curTag := some s.ring.ownTag }
            ring := s.ring.placed 72 clsMsr [byte s.mc.range] .msr })) ∧
      (3 ≤ s.mc.attempt → s.fault.valid = false → s.run.state = .running →
        ∃ t, exec .sampleTimeout s = .next t ∧ s.headTimedOut t))

/-- The HOME echo timer ends a HOME, after which the start of a run goes on with its first step and a response ends the
run with the code and the step status of its cause, the summary being printed where printing is enabled; the settle timer
makes a configuration ready, on which the HV Controller makes its interlock test and the Sweep Engine asks for the MSR of a CONT
or LEADCAL visit, of a group or of an entry of the correlation, with its range, its fault context and its leads (R25, R32, R40,
R41, R43, R44, R45, R58, R62, R77, R78, R87, R100, R103, R113, R119, R126, R127, R128, R154, R158). The model's form are the write of the step's
status, posted on the port (log 13), and the format operation of the Arithmetic Unit that completes the summary line, with
the summary lines left lowered as it begins (log 17). -/
def Obligations.HomeAndSettleEnd : Prop :=
  ∀ s : State, s.rst.held = false →
    (s.seq.state = .homing → s.seq.home.timer.isSome = true →
      let home : Sequencer :=
        { s.seq with
          state := .idle, requester := .none
          home := { tag := none, expected := [], answered := [], timer := none } }
      (∀ first, s.run.waiting = .startHome first → s.run.pauseReq = false →
        exec .homeEchoTimeout s = .next (State.settled
          { s with
            seq := home, run := { s.run with waiting := .stepRead first }
            port :=
              { queue := s.port.queue ++
                  [{ kind := .steps, index := first, write := none, owner := .runRead }] } })) ∧
      (∀ (term : Termination) (status : Byte), s.run.waiting = .home →
        (s.run.abortCause = .abort ∧ term = .aborted ∧ status = 5) ∨
          (s.run.abortCause = .hvAbort ∧ term = .hvAbort ∧ status = 5) ∨
          (s.run.abortCause = .fault ∧ term = .fault ∧ status = 6) →
        (s.run.inProgress = true → s.run.step ≠ none) →
        ∃ t, exec .homeEchoTimeout s = .next t ∧ t.seq = home ∧ t.run.state = .done ∧
          t.run.summary = { s.run.summary with term := some term } ∧ t.run.inProgress = false ∧
          (s.print.state = .off → t.print = s.print) ∧
          (s.print.state = .held → s.print.copies ≠ 0 →
            t.print =
              { s.print with
                summary := some (term, s.run.summary.defects, s.run.summary.stepsRun), summaryDue := true
                summaryLeft := 4 * s.print.copies }) ∧
          (s.print.state = .idle → s.print.copies ≠ 0 → s.print.header = none → s.print.buf0 = Buffer.empty →
            s.print.buf1 = Buffer.empty → (∀ d ∈ s.defects, d.printed = true) →
            let text : List Byte :=
              ascii ['R', 'E', 'S', 'U', 'L', 'T', ' '] ++ ascii term.printName ++ [0x0D, 0x0A]
            t.arith.waiting = s.arith.dropEvaluation.waiting ++ [.format] ∧
            t.print =
              { s.print with
                state := .format
                summary := some (term, s.run.summary.defects, s.run.summary.stepsRun), summaryDue := true
                summaryLeft := 4 * s.print.copies - 1
                buf0 := { state := .formatting, content := some .summary, text } }) ∧
          t.run.slot = none ∧
          (s.printKeepsList → t.defects = s.defects.map fun d => { d with provisional := false }) ∧
          t.events.isPending .runEnd = true ∧
          (∀ i, s.run.inProgress = true → s.run.step = some i →
            ∃ a ∈ t.port.queue, a.kind = .steps ∧ a.index = i ∧
              a.write = some (9, status :: be16 s.run.stepDefects)) ∧
          t.mem = s.mem ∧ t.limits = s.limits)) ∧
    (s.seq.state = .settling → s.seq.settleTimer.isSome = true → s.seq.requester = .hv →
      ∀ (seq : Sequencer) (hv : Hv),
        seq =
          { s.seq with
            state := .idle, requester := .none, transactions := [], settleTimer := none, todo := []
            placed := [] } →
        hv = { s.hv with hold := true, work := .testing } →
        (s.pins.interlockClosed = false → s.run.state = .running →
          ∃ t, exec .settleTimeout s = .next t ∧
            t =
              { s with
                seq, hv
                run :=
                  { s.run with
                    state := .paused, pauseCause := .interlock, pauseReq := false, waiting := .owner }
                events := { s.events with pending := s.events.pending ||| Event.paused.bit }
                trunk := t.trunk }) ∧
        ∀ c : InsulClass, c = s.limits.insulClass s.hv.classIndex → s.pins.interlockClosed = true →
          s.hv.state = .safe → s.mc.state = .idle →
          ∃ t, exec .settleTimeout s = .next t ∧
            t.seq = { seq with home := { seq.home with tag := t.seq.home.tag } } ∧
            t.run = { s.run with rampFlag := true } ∧
            t.hv =
              { hv with
                state := .ramp, cls := c, hold := false, keepalive := s.limits.timing.keepalive, window := []
                arcPred := none, rampTimer := some (2 * (c.volt * 1000 / c.ramp) + 100) } ∧
            t.mc.state = .stream ∧ t.mc.requester = .hv ∧ t.mc.lastSeq = none ∧ t.mc.lost = 0 ∧
            t.hvcSent ([0x00#8] ++ be16 c.volt ++ be16 c.ramp ++ [byte s.limits.timing.hvInterval]) ∧
            (∀ e ∈ t.ring.queue ++ t.ring.wait, ¬e.setsRelays) ∧ t.defects = s.defects ∧ t.mem = s.mem) ∧
    (s.seq.state = .settling → s.seq.settleTimer.isSome = true → s.seq.requester = .sweep →
      s.fault.safeHalt = false → s.mc.state = .idle → s.hv.state = .safe → s.ringFree →
      let w := s.sweep
      ∀ (range net : Nat) (point : Option Nat) (leads : List Nat),
        (w.kind = some .cont ∧ w.netCursor = some net ∧ range = (s.limits.contSet w.net.contSet).range ∧
            ∃ p q, w.fixedPoint = some p ∧ w.visitedPoint = some q ∧ point = some q ∧ leads = [p, q]) ∨
          (w.kind = some .leadcal ∧ w.netCursor = some net ∧ range = (s.limits.contSet w.net.contSet).range ∧
            point = w.visitedPoint ∧ leads = []) ∨
          (w.kind = some .iso ∧ w.work[w.workCursor]? = none ∧ w.netCursor = some net ∧
            range = s.limits.iso.range ∧ point = none ∧ leads = []) ∨
          (∃ e : WorkEntry, w.kind = some .iso ∧ w.work[w.workCursor]? = some e ∧ net = e.own ∧
            range = (s.limits.contSet e.contSet).range ∧ point = some e.point ∧
            leads = [e.point, w.otherAnchor]) →
      exec .settleTimeout s = .next (State.settled
        { s with
          seq :=
            { s.seq with
              state := .idle, requester := .none, transactions := [], settleTimer := none, todo := []
              placed := [] }
          sweep := { s.sweep with state := .measuring }
          mc :=
            { s.mc with
              state := .msrQueued, requester := .sweep, range, ctxNet := some net, ctxPoint := point, attempt := 1
              leads, curTag := some s.ring.ownTag }
          ring := s.ring.placed 72 clsMsr [byte range] .msr }))

/-- The end of a monitor period: a node is Alive if it was heard and no fault was recorded, the flags are cleared,
MODULE-CHANGE is raised where a verdict changes, a head lost in a run is the fault HEAD-LOST, and the next period starts
with a POL due to every configured node. In the discharge of start-up, in STUCK and in a discharge under SAFE-HALT the start
of the period sends OFF-DISCHARGE again, on the open stream unless one still waits there, or opening a stream, and in SAFE
under SAFE-HALT it begins a discharge; in any other HV state it sends no HVC frame (R66, R67, R71, R72, R82, R134, R139,
R140). -/
def Obligations.MonitorPeriodJudges : Prop :=
  ∀ s : State, s.rst.held = false → s.sup.timer.isSome = true →
    ∃ t, exec .monitorPeriodExpiry s = .next t ∧
      t.sup.nodes = s.sup.nodes.map (fun n =>
        { n with alive := n.heard && !n.fault, heard := false, fault := false }) ∧
      t.sup.timer = some s.limits.timing.period ∧
      (s.sup.nodes.any (fun n => n.alive != (n.heard && !n.fault)) = true →
        t.events.isPending .moduleChange = true) ∧
      (t.fault.safeHalt = false → ∀ a ∈ s.modules ++ [72],
        a ∈ t.sup.pollList ∨ ∃ e ∈ t.ring.queue, e.owner = .poll a) ∧
      (∀ n, s.node? 72 = some n → n.alive = true → n.heard = false ∨ n.fault = true → s.run.active = true →
        t.events.isPending .fault = true ∧ t.fault.valid = true ∧
          (s.fault.valid = false → t.fault.code = some .headLost ∧ t.fault.hv = some s.hv.state)) ∧
      (s.run.active = false →
        let off : List Byte := [1, byte s.limits.timing.hvInterval]
        ((s.hv.state = .discharge ∧ (s.hv.cause = .startUp ∨ s.fault.safeHalt = true)) ∨ s.hv.state = .stuck →
          t.hv = s.hv ∧
          (s.mc.state = .stream → (∀ e ∈ s.ring.wait, e.owner ≠ .hvc s.mc.stream false) →
            t.mc.state = .stream ∧ t.mc.stream = s.mc.stream ∧ t.hvcPayloads = s.hvcPayloads ++ [off]) ∧
          (s.mc.state = .stream → (∃ e ∈ s.ring.wait, e.owner = .hvc s.mc.stream false) →
            8 ≤ s.ring.queue.length → t.mc = s.mc ∧ t.hvcPayloads = s.hvcPayloads) ∧
          (s.mc.state = .idle →
            t.mc.state = .stream ∧ t.mc.requester = .hv ∧ t.mc.stream = s.mc.stream + 1 ∧ t.hvcSent off)) ∧
        (s.hv.state = .safe → s.fault.safeHalt = true → s.mc.state = .idle → s.seq.state ≠ .homing →
          t.hv = { s.hv with state := .discharge, cause := .halt } ∧ t.mc.state = .stream ∧ t.hvcSent off ∧
            ∀ e ∈ t.ring.queue ++ t.ring.wait, ¬e.setsRelays) ∧
        ((s.hv.state = .safe ∧ s.fault.safeHalt = false) ∨ s.hv.state = .ramp ∨ s.hv.state = .dwell ∨
            (s.hv.state = .discharge ∧ s.hv.cause ≠ .startUp ∧ s.fault.safeHalt = false) →
          t.hv = s.hv ∧ t.mc.state = s.mc.state ∧ t.mc.stream = s.mc.stream ∧ t.hvcPayloads = s.hvcPayloads)) ∧
      t.mem = s.mem ∧ t.tables = s.tables ∧ t.limits = s.limits

/-- The ramp timer ends a test with a LEAK at low voltage; the dwell timer ends it with the evaluation of the averaging
window: UNTESTED with none, a LEAK, or a pass that inserts nothing. A record is appended, merged into the record with its key,
discarded at the run defect limit, or held in the pending-insert slot of a full list. The discharge timer is the fault
DISCHARGE-TIMEOUT and STUCK, and ends an active run (R30, R38, R42, R84, R90, R91, R130, R131, R132, R134, R144, R145, R177).
That a free Arithmetic Unit makes the evaluation within the timer's event, and that one that is not free makes it in its turn,
are the model's form of R84 (log 15). -/
def Obligations.HvTimersExpire : Prop :=
  ∀ s : State, s.rst.held = false →
    (∀ (i : Instr) (ramp : Bool),
      (i = .rampTimerExpiry ∧ s.hv.state = .ramp ∧ s.hv.rampTimer.isSome = true ∧ ramp = true) ∨
        (i = .dwellTimerExpiry ∧ s.hv.state = .dwell ∧ s.hv.dwellTimer.isSome = true ∧ ramp = false) →
      ∃ t, exec i s = .next t ∧ t.mem = s.mem ∧ t.run.state = s.run.state ∧
        t.hvcSent [1, byte s.limits.timing.hvInterval] ∧
        (let free := s.arith.job = none ∧ s.arith.waiting = []
        let measured : Nat := min 4294967295 (s.run.summary.measurements + 1)
        t.hv =
          { s.hv with
            state := .discharge, cause := .test, rampTimer := none, dwellTimer := none
            dischargeTimer := some s.limits.timing.discharge, work := if free then .ended else .evaluating } ∧
        (¬free →
          t.arith = { s.arith with waiting := s.arith.waiting ++ [.evaluate ramp] } ∧ t.defects = s.defects ∧
            t.run = s.run) ∧
        (free → ramp = false → evaluate s.hv.cls s.hv.window = .pass →
          t.defects = s.defects ∧ t.events = s.events ∧ t.run.summary.defects = s.run.summary.defects ∧
            t.run.summary.measurements = measured) ∧
        (∀ (kind : DefectKind) (value : Option Nat) (lowv : Bool), free →
          (ramp = true ∧ kind = .leak ∧ lowv = true ∧
              value = s.hv.window.getLast?.map fun c => insulationResistance c.vh c.ih) ∨
            (ramp = false ∧ kind = .leak ∧
              ∃ ir, value = some ir ∧
                evaluate s.hv.cls s.hv.window = if lowv then .leakLow ir else .leak ir) ∨
            (ramp = false ∧ kind = .untested ∧ lowv = false ∧ value = none ∧
              evaluate s.hv.cls s.hv.window = .untested) →
          ∀ key : DefectKey, key = { kind, netA := s.hv.cursor, point := none, netB := none } →
          t.run.summary.measurements =
            (if kind = .untested then s.run.summary.measurements else measured) ∧
          (s.appends key → s.printKeepsList →
            t.defects = s.defects ++ [s.newRecord key value lowv] ∧ t.run.insertFlag = true ∧
              t.run.summary.defects = s.run.summary.defects + 1 ∧ t.events.isPending .defect = true) ∧
          ((∃ d ∈ s.defects, d.key = key) →
            t.defects = s.defects.map (fun d => if d.key = key then s.merged d value lowv else d) ∧
              t.run.insertFlag = true ∧ t.run.summary.defects = s.run.summary.defects ∧ t.events = s.events) ∧
          ((∀ d ∈ s.defects, d.key ≠ key) → s.limits.timing.defectLimit ≤ s.run.summary.defects →
            t.defects = s.defects ∧ t.run.slot = s.run.slot ∧ t.run.insertFlag = s.run.insertFlag ∧
              t.run.summary.defects = s.run.summary.defects) ∧
          ((∀ d ∈ s.defects, d.key ≠ key) → s.run.summary.defects < s.limits.timing.defectLimit →
            512 ≤ s.defects.length →
            t.defects = s.defects ∧ t.run.slot = some { key, value, lowv } ∧
              t.run.insertFlag = s.run.insertFlag ∧
              t.run.summary.defects = s.run.summary.defects)))) ∧
    (s.hv.state = .discharge → s.hv.dischargeTimer.isSome = true → s.hv.streamWanted = false →
      ∃ t, exec .dischargeTimerExpiry s = .next t ∧ t.hv.state = .stuck ∧ t.hv.dischargeTimer = none ∧
        t.hv.safeWait = false ∧ t.events.isPending .fault = true ∧ t.fault.valid = true ∧
        (s.fault.valid = false →
          t.fault.code = some .dischargeTimeout ∧ t.fault.hv = some .discharge ∧ t.fault.net = s.hv.net) ∧
        (s.run.active = false → t.run = s.run) ∧
        (s.run.active = true →
          t.run.state = .done ∧ t.run.summary = { s.run.summary with term := some .fault } ∧
            t.events.isPending .runEnd = true ∧
            (s.run.inFaultResponse = true → t.fault.safeHalt = true)))

/-- KEEP loads the keepalive counter in RAMP and DWELL. The keepalive counter at 0, and the interlock opening, in RAMP or
DWELL of an active run, are HV-ABORT: the discharge begins and the run goes into ABORTING; outside them the interlock only
changes its level (R41, R127, R136, R137). That the row KEEPALIVE_EXPIRY sets the counter to 0 is the model's form (log 16). -/
def Obligations.KeepaliveAndInterlock : Prop :=
  (∀ (s : State) (tag : Byte), s.takesCommands →
    (s.hv.state = .ramp ∨ s.hv.state = .dwell →
      exec (.keep tag []) s = .next
        (State.replied { s with hv := { s.hv with keepalive := s.limits.timing.keepalive } } tag 0x17 .ok
          (be16 s.limits.timing.keepalive))) ∧
    (s.hv.state ≠ .ramp → s.hv.state ≠ .dwell →
      exec (.keep tag []) s = .next (s.replied tag 0x17 .badState []))) ∧
  ∀ s : State, s.rst.held = false →
    exec .interlockCloses s = .next (State.settled { s with pins := { s.pins with interlockClosed := true } }) ∧
    (s.hv.state ≠ .ramp → s.hv.state ≠ .dwell →
      exec .interlockOpens s = .next
        (State.settled { s with pins := { s.pins with interlockClosed := false } })) ∧
    (∀ i : Instr, i = .keepaliveExpiry ∨ i = .interlockOpens → s.hv.state = .ramp ∨ s.hv.state = .dwell →
      s.run.active = true →
      ∃ t, exec i s = .next t ∧ t.hv.state = .discharge ∧ t.hv.cause = .test ∧ t.hv.safeWait = true ∧
        t.hv.net = none ∧ t.hv.rampTimer = none ∧ t.hv.dwellTimer = none ∧
        t.hv.dischargeTimer = some s.limits.timing.discharge ∧ t.run.state = .aborting ∧
        t.run.abortCause = .hvAbort ∧ t.run.waiting = .safe ∧ t.events.isPending .hvAbort = true ∧
        t.pins.interlockClosed = (if i = .interlockOpens then false else s.pins.interlockClosed) ∧
        (∃ e ∈ t.ring.queue ++ t.ring.wait, e.owner = .hvc s.mc.stream false ∧
          e.frame.payload = [1, byte s.limits.timing.hvInterval]) ∧
        (s.print.state = .off → s.run.summary.defects < s.limits.timing.defectLimit → s.defects.length < 512 →
          ∃ d ∈ t.defects,
            d.key = { kind := .untested, netA := s.hv.cursor, point := none, netB := none } ∧ d.value = none) ∧
        t.mem = s.mem)

/-! ### Arithmetic (chapter 05) -/

/-- The value of a low-voltage measurement and of a net at dwell end: RMAX, 0 or the floor of the quotient, saturated
(R85); the floors of the averages over the last K samples, and the verdict in the order of its tests (R90). -/
def Obligations.ResistanceAndEvaluation : Prop :=
  (∀ (c : Calibration) (x : Sample),
    let v : Int := x.vcode.toInt * c.vlsbLv
    let i : Int := x.icode.toInt * c.ilsb.getD x.range 0
    let r := rawResistance c x
    (x.ovl = true ∨ 7 < x.range ∨ x.cmp = true ∨ i ≤ 0 → r = 4294967295) ∧
    (x.ovl = false → x.range ≤ 7 → x.cmp = false → 0 < i →
      (v ≤ 0 → r = 0) ∧
      (0 < v → r ≤ 4294967295 ∧
        ((r : Int) * i ≤ v * 1000000000) ∧ (r < 4294967295 → v * 1000000000 < ((r : Int) + 1) * i)))) ∧
  ∀ (cls : InsulClass) (w : List Conv),
    (w = [] → evaluate cls w = .untested) ∧
    (w ≠ [] → ∀ (used : List Conv) (n : Nat) (vAvg iAvg : Int),
      n = min (2 ^ cls.avgCode) w.length → used = w.drop (w.length - n) →
      vAvg * n ≤ (used.map (·.vh)).sum → (used.map (·.vh)).sum < (vAvg + 1) * n →
      iAvg * n ≤ (used.map (·.ih)).sum → (used.map (·.ih)).sum < (iAvg + 1) * n →
      ∃ ir : Nat,
        (iAvg ≤ 0 → ir = 4294967295) ∧ (0 < iAvg → vAvg ≤ 0 → ir = 0) ∧
        (0 < iAvg → 0 < vAvg → ir = min 4294967295 (vAvg * 1000 / iAvg).toNat) ∧
        evaluate cls w =
          if vAvg < cls.volt * 900 then .leakLow ir else if ir < cls.irLimit then .leak ir else .pass)

/-- The Arithmetic Unit takes the earliest operation and completes it: the answer of an MSR with its leads, found in the
cache or filled into it, and the result of a CONT visit, of a LEADCAL visit, of a group of an ISO step with its split, its
SHORT and the short cap, and of a correlation; a stream sample by its seq, its arc test, the keepalive counter, the window,
and the dwell at 95% of the test voltage; a safe sample, with a test to complete, a stall, or a response that waits for it;
and an evaluation (R19, R30, R40, R41, R80, R84, R86, R87, R88, R89, R92, R101, R104, R111, R114, R115, R117, R120, R129,
R130, R133, R136, R146). That the conversion is made with the calibration held at the start of the operation, that its
consequences are those of its end, and that an evaluation which finds the unit free needs neither, are the model's form of
R84 (log 15); that the lead of ls is looked up before that of lk, and that a LEADCAL visit stays in MEASURING while the lead
of its reference is filled, are the model's choice (log 45), and so is the net record of k read again for the work list of a
SHORT (log 44) with the work cursor at 0 from the start of the building (log 54). That the attempt number, the
current range and the fault context keep their values as an answer with HV, or a safe sample, leaves the Measurement
Controller IDLE is the model's choice too (log 51). -/
def Obligations.ArithmeticServes : Prop :=
  ∀ s : State, s.rst.held = false →
    (∀ rest : List ArithReq, s.arith.job = none →
      let serve (x : State) (op : ArithOp) : State :=
        State.settled { x with arith := { job := some { op, live := true }, waiting := rest } }
      (∀ ramp : Bool, s.arith.waiting = .evaluate ramp :: rest →
        exec .arithmeticOperationStart s = .next (serve s (.evaluate ramp))) ∧
      ∀ (x : Sample) (q : List Sample), s.arith.waiting = .sample :: rest → s.mc.queue = x :: q →
        let taken : State := { s with mc := { s.mc with queue := q }, arith := { s.arith with waiting := rest } }
        let raw := rawResistance s.limits.calib x
        (s.mc.state = .msrAnswered → x.hv = true → s.hv.streamWanted = false →
          exec .arithmeticOperationStart s = .next (State.settled
            { taken with
              mc :=
                { taken.mc with
                  state := .idle, requester := .none, timer := none, curTag := none, prevTag := none } })) ∧
        (s.mc.state = .msrAnswered → x.hv = false → s.mc.leads = [] ∨ raw = 4294967295 →
          exec .arithmeticOperationStart s = .next (serve taken (.lowVolt raw [] 0))) ∧
        (∀ p1 p2 : Nat, s.mc.state = .msrAnswered → x.hv = false → s.mc.leads = [p1, p2] → raw ≠ 4294967295 →
          s.cache.fill = none →
          (s.cache.find p1 = none →
            exec .arithmeticOperationStart s = .next (serve
              { taken with
                cache := { s.cache with fill := some (p1, .lead) }
                port := { queue := s.port.queue ++ [readFor .points p1 .fill] } }
              (.lowVolt raw [p1, p2] 0))) ∧
          ∀ (i1 : Nat) (e1 : CacheEntry), s.cache.find p1 = some i1 → s.cache.entries[i1]? = some e1 →
            (s.cache.find p2 = none →
              exec .arithmeticOperationStart s = .next (serve
                { taken with
                  cache := { s.cache.hit i1 with fill := some (p2, .lead) }
                  port := { queue := s.port.queue ++ [readFor .points p2 .fill] } }
                (.lowVolt raw [p2] e1.copy.lead))) ∧
            ∀ (i2 : Nat) (e2 : CacheEntry), s.cache.find p2 = some i2 → s.cache.entries[i2]? = some e2 →
              exec .arithmeticOperationStart s = .next (serve
                { taken with cache := (s.cache.hit i1).hit i2 }
                (.lowVolt raw [] (e1.copy.lead + e2.copy.lead)))) ∧
        (s.mc.state = .stream →
          let op : ArithOp :=
            .stream
              { vh := x.vcode.toInt * s.limits.calib.vlsbHv
                ih := x.icode.toInt * s.limits.calib.ilsb.getD x.range 0, range := x.range
                ovl := x.ovl || 7 < x.range, cmp := x.cmp, hv := x.hv, seq := x.seq }
          (s.mc.lastSeq = none →
            exec .arithmeticOperationStart s = .next (serve
              { taken with mc := { taken.mc with lastSeq := some x.seq } } op)) ∧
          ∀ last, s.mc.lastSeq = some last → last < 256 → x.seq < 256 →
            (x.seq = last →
              exec .arithmeticOperationStart s = .next (State.settled
                { taken with mc := { taken.mc with discards := min 65535 (s.mc.discards + 1) } })) ∧
            (x.seq ≠ last →
              exec .arithmeticOperationStart s = .next (serve
                { taken with
                  mc :=
                    { taken.mc with
                      lost := min 65535 (s.mc.lost + ((x.seq + 256 - last) % 256 - 1))
                      lastSeq := some x.seq } }
                op)))) ∧
    (∀ (raw leads : Nat) (busy : Bool), s.arith.job = some { op := .lowVolt raw [] leads, live := true } →
      s.sweep.state = .measuring →
      let answer := exec (.arithmeticOperationEnd busy) s
      let w := s.sweep
      let r := if raw = 4294967295 then 4294967295 else raw - leads
      let ended (t : State) : Prop :=
        answer = .next t ∧ t.arith.job = none ∧ t.mem = s.mem ∧
          t.run.summary.measurements = min 4294967295 (s.run.summary.measurements + 1)
      let goes (t : State) (read : Access) (sweep : Sweep) : Prop :=
        ended t ∧ t.sweep = sweep ∧ t.port.queue = s.port.queue ++ [read]
      (w.kind = some .cont → s.print.state = .off → s.run.summary.defects < s.limits.timing.defectLimit →
        s.defects.length < 512 →
        let set := s.limits.contSet w.net.contSet
        let key (kind : DefectKind) : DefectKey :=
          { kind, netA := w.cursor, point := w.visitedPoint, netB := none }
        ∃ t, ended t ∧
          (r ≤ set.good → s.alive (w.fixedModule.getD 0) = true →
            t.defects.map (·.key) = s.defects.map (·.key)) ∧
          (set.good < r → r ≤ set.opn →
            ∃ d ∈ t.defects, d.key = key .highR ∧ d.value = some r ∧ d.lowv = false) ∧
          (set.good < r → set.opn < r →
            ∃ d ∈ t.defects, d.key = key .opn ∧ d.value = some r ∧ d.lowv = false)) ∧
      (w.kind = some .leadcal →
        (∀ key : DefectKey, raw = 4294967295 →
          key = { kind := .calFail, netA := w.cursor, point := w.visitedPoint, netB := none } →
          s.print.state = .off → s.appends key →
          ∃ t, ended t ∧ s.newRecord key (some 4294967295) false ∈ t.defects) ∧
        ∀ p reference : Nat, raw ≠ 4294967295 → w.visitedPoint = some p → w.fixedPoint = some reference →
          s.cache.fill = none →
          (s.cache.find reference = none →
            ∃ t, goes t (readFor .points reference .fill) { w with raw } ∧
              t.cache = { s.cache with fill := some (reference, .reference) } ∧ t.defects = s.defects) ∧
          ∀ (i : Nat) (e : CacheEntry), s.cache.find reference = some i → s.cache.entries[i]? = some e →
            ∃ t lead, lead = min 65535 (raw - e.copy.lead) ∧
              goes t
                { kind := .points, index := p, write := some (3, be16 lead), owner := .sweepLead p lead }
                { w with raw, state := .writing } ∧
              t.cache = s.cache.hit i ∧ t.defects = s.defects) ∧
      (∀ (g : Group) (k : Nat), w.kind = some .iso → w.work = [] → w.inHand = some g → w.netCursor = some k →
        s.runGoesOn →
        (∀ (h : Group) (stack : List Group), s.limits.iso.limit ≤ raw → w.stack = h :: stack →
          ∃ t, goes t (readFor .nets k .sweepRead) (w.inHandOf h stack) ∧ t.defects = s.defects) ∧
        (raw < s.limits.iso.limit → 1 < g.length →
          ∃ t,
            goes t (readFor .nets k .sweepRead)
              (w.inHandOf { start := g.start, length := (g.length + 1) / 2 }
                ({ start := g.start + (g.length + 1) / 2, length := g.length / 2 } :: w.stack)) ∧
            t.defects = s.defects) ∧
        ∀ (other : Nat) (key : DefectKey), raw < s.limits.iso.limit → g.length = 1 →
          w.candidates[g.start]? = some other →
          key = { kind := .short, netA := k, point := none, netB := some other } → s.print.state = .off →
          s.appends key → s.run.stopsOnDefect = false →
          s.run.summary.defects + 2 < s.limits.timing.defectLimit →
          let short := s.newRecord key (some raw) false
          let counted : Sweep := { w with shortCount := w.shortCount + 1, results := [], after := .short other }
          (w.correlate = true →
            ∃ t,
              goes t (readFor .nets k .sweepRead)
                (Sweep.scanOf { counted with work := [], workCursor := 0, shortOther := some other } .workK k) ∧
              t.defects = s.defects ++ [short] ∧ t.events.isPending .defect = true) ∧
          (∀ (h : Group) (stack : List Group), w.correlate = false → w.shortCount + 1 < s.limits.iso.shortCap →
            w.stack = h :: stack →
            ∃ t, goes t (readFor .nets k .sweepRead) (counted.inHandOf h stack) ∧
              t.defects = s.defects ++ [short] ∧ t.events.isPending .defect = true) ∧
          ∀ (u : Nat) (beyond : DefectKey), w.correlate = false → s.limits.iso.shortCap ≤ w.shortCount + 1 →
            u = (w.stack.map (·.length)).sum + w.skipped → 0 < u → k ≠ w.lastNet →
            beyond = { kind := .shortOverflow, netA := k, point := none, netB := none } →
            (∀ d ∈ s.defects, d.key ≠ beyond) → s.defects.length + 1 < 512 →
            ∃ t,
              goes t (readFor .nets (k + 1) .sweepRead)
                (Sweep.isoNet { w with results := [], after := .overflow } (k + 1)) ∧
              t.defects = s.defects ++
                [short, { s.newRecord beyond (some u) false with seq := s.run.summary.defects + 2 }]) ∧
      ∀ (e f : WorkEntry) (g k : Nat), w.kind = some .iso → w.work[w.workCursor]? = some e →
        w.work[w.workCursor + 1]? = some f → w.shortOther = some g → w.netCursor = some k →
        let next := Sweep.scanOf { w with workCursor := w.workCursor + 1 } .entryOther f.other
        let good := (s.limits.contSet e.contSet).good
        let opn : DefectKey := { kind := .opn, netA := e.own, point := some e.point, netB := none }
        let miswire : DefectKey := { kind := .miswire, netA := e.own, point := some e.point, netB := some e.other }
        let short : DefectKey := { kind := .short, netA := k, point := none, netB := some g }
        ∃ t, goes t (readFor .nets f.other .sweepRead) next ∧ t.events = s.events ∧
          t.run.summary.defects = s.run.summary.defects ∧ t.run.insertFlag = s.run.insertFlag ∧
          (good < r → t.defects = s.defects) ∧
          (r ≤ good → s.listSound → (∃ d ∈ s.defects, d.key = opn) → (∀ d ∈ s.defects, d.key ≠ miswire) →
            t.defects = s.defects.map fun d =>
              if d.key = opn then { d with key := miswire, value := some r, step := s.run.step.getD 0 }
              else if d.key = short then { d with explained := true }
              else d) ∧
          (r ≤ good → s.listSound → (∃ d ∈ s.defects, d.key = opn) → (∃ d ∈ s.defects, d.key = miswire) →
            t.defects = (s.defects.filter fun d => d.key ≠ opn).map fun d =>
              if d.key = miswire then
                { d with value := some r, step := s.run.step.getD 0, rep := min 255 (d.rep + 1) }
              else if d.key = short then { d with explained := true }
              else d)) ∧
    (∀ (raw leads : Nat) (busy : Bool) (e : WorkEntry) (h : Group) (stack : List Group),
      s.arith.job = some { op := .lowVolt raw [] leads, live := true } → s.sweep.state = .measuring →
      s.sweep.kind = some .iso → s.sweep.work[s.sweep.workCursor]? = some e →
      s.sweep.work[s.sweep.workCursor + 1]? = none → s.sweep.shortCount < s.limits.iso.shortCap →
      s.sweep.stack = h :: stack → s.runGoesOn →
      ∃ t, exec (.arithmeticOperationEnd busy) s = .next t ∧
        t.port.queue = s.port.queue ++ [readFor .nets s.sweep.cursor .sweepRead] ∧
        t.sweep =
          Sweep.inHandOf { s.sweep with work := [], workCursor := s.sweep.workCursor + 1 } h stack ∧
        t.run.summary.measurements = min 4294967295 (s.run.summary.measurements + 1) ∧ t.mem = s.mem) ∧
    (∀ (ramp busy : Bool), s.arith.job = some { op := .evaluate ramp, live := true } →
      let measured : Nat := min 4294967295 (s.run.summary.measurements + 1)
      (∀ (ir : Nat) (lowv : Bool) (key : DefectKey), s.hv.state = .discharge → ramp = false →
        evaluate s.hv.cls s.hv.window = (if lowv then .leakLow ir else .leak ir) →
        key = { kind := .leak, netA := s.hv.cursor, point := none, netB := none } → s.appends key →
        s.printKeepsList →
        ∃ t, exec (.arithmeticOperationEnd busy) s = .next t ∧ t.arith.job = none ∧
          t.hv = { s.hv with work := .ended } ∧ t.defects = s.defects ++ [s.newRecord key (some ir) lowv] ∧
          t.run.summary =
            { s.run.summary with defects := s.run.summary.defects + 1, measurements := measured } ∧
          t.events.isPending .defect = true ∧ t.mem = s.mem) ∧
      ∀ k : Nat, s.hv.state = .safe → ramp = false → evaluate s.hv.cls s.hv.window = .pass → s.hv.net = some k →
        k ≠ s.hv.lastNet → s.run.slot = none → s.runGoesOn →
        exec (.arithmeticOperationEnd busy) s = .next (State.settled
          { s.operated busy with
            hv := { s.hv with work := .readingNet, net := some (k + 1), pairs := [] }
            run := { s.run with summary := { s.run.summary with measurements := measured } }
            port := { queue := s.port.queue ++ [readFor .nets (k + 1) .hvRead] } })) ∧
    ∀ (c : Conv) (busy : Bool), s.arith.job = some { op := .stream c, live := true } →
      let answer := exec (.arithmeticOperationEnd busy) s
      let served := s.operated busy
      let window := (s.hv.window ++ [c]).drop ((s.hv.window ++ [c]).length - 64)
      let measured : Nat := min 4294967295 (s.run.summary.measurements + 1)
      let clean : Prop :=
        c.ovl = false ∧ ∀ p, s.hv.arcPred = some p → s.hv.cls.arcStep ≠ 0 → c.ih - p ≤ s.hv.cls.arcStep
      (s.hv.state = .ramp ∨ s.hv.state = .dwell →
        (clean → 1 < s.hv.keepalive →
          (s.hv.state = .ramp → (s.hv.cls.volt * 950 : Nat) ≤ c.vh →
            answer = .next (State.settled
              { served with hv :=
                  { s.hv with
                    state := .dwell, keepalive := s.hv.keepalive - 1, window := [], arcPred := some c.ih
                    rampTimer := none, dwellTimer := some s.hv.cls.dwell } })) ∧
          (s.hv.state = .dwell ∨ c.vh < (s.hv.cls.volt * 950 : Nat) →
            answer = .next (State.settled
              { served with hv :=
                  { s.hv with keepalive := s.hv.keepalive - 1, window, arcPred := some c.ih } }))) ∧
        (clean → s.hv.keepalive ≤ 1 → s.run.active = true →
          ∃ t, answer = .next t ∧ t.hv.state = .discharge ∧ t.hv.cause = .test ∧ t.hv.safeWait = true ∧
            t.hv.net = none ∧ t.hv.keepalive = 0 ∧ t.hv.dischargeTimer = some s.limits.timing.discharge ∧
            t.run.state = .aborting ∧ t.run.abortCause = .hvAbort ∧ t.run.waiting = .safe ∧
            t.run.summary.measurements = s.run.summary.measurements ∧ t.events.isPending .hvAbort = true ∧
            t.hvcSent [1, byte s.limits.timing.hvInterval] ∧
            (∀ key : DefectKey, key = { kind := .untested, netA := s.hv.cursor, point := none, netB := none } →
              s.appends key → s.printKeepsList → s.newRecord key none false ∈ t.defects) ∧
            t.mem = s.mem) ∧
        ∀ v : Nat,
          (c.ovl = true ∧ v = 4294967295) ∨
            (c.ovl = false ∧ ∃ p, s.hv.arcPred = some p ∧ s.hv.cls.arcStep ≠ 0 ∧ s.hv.cls.arcStep < c.ih - p ∧
              v = min 4294967295 (c.ih - p).toNat) →
          ∃ t, answer = .next t ∧
            t.hv =
              { s.hv with
                state := .discharge, cause := .test, keepalive := s.hv.keepalive - 1, rampTimer := none
                dwellTimer := none, dischargeTimer := some s.limits.timing.discharge, work := .ended } ∧
            t.hvcSent [1, byte s.limits.timing.hvInterval] ∧ t.run.state = s.run.state ∧
            t.run.summary.measurements = measured ∧
            (∀ key : DefectKey, key = { kind := .arc, netA := s.hv.cursor, point := none, netB := none } →
              s.appends key → s.printKeepsList →
              t.defects = s.defects ++ [s.newRecord key (some v) false] ∧ t.events.isPending .defect = true) ∧
            t.mem = s.mem) ∧
      (s.hv.state = .discharge ∨ s.hv.state = .stuck →
        (c.ovl = true ∨ s.limits.timing.safeLevel * 1000 < c.vh.natAbs → answer = .next served.settled) ∧
        (c.ovl = false → c.vh.natAbs ≤ s.limits.timing.safeLevel * 1000 →
          let hv : Hv := { s.hv with state := .safe, cause := .none, dischargeTimer := none }
          let closed : State :=
            { served with
              hv
              mc :=
                { s.mc with state := .idle, requester := .none, curTag := none, prevTag := none, queue := [] }
              arith := { job := none, waiting := s.arith.waiting.filter fun r => r ≠ .sample }
              ring := s.ring.placed 72 clsHvc [2] (.hvc s.mc.stream true) }
          (s.hv.safeWait = false → s.hv.cause ≠ .test ∨ s.hv.work ≠ .ended → s.ringFree →
            answer = .next closed.settled) ∧
          (∀ k : Nat, s.hv.safeWait = false → s.hv.cause = .test → s.hv.work = .ended → s.run.slot = none →
            s.runGoesOn → s.hv.net = some k → k ≠ s.hv.lastNet → s.ringFree →
            answer = .next (State.settled
              { closed with
                hv := { hv with work := .readingNet, net := some (k + 1), pairs := [] }
                port := { queue := s.port.queue ++ [readFor .nets (k + 1) .hvRead] } })) ∧
          (s.hv.safeWait = false → s.hv.cause = .test → s.hv.work = .ended → s.run.slot.isSome = true →
            s.run.state = .running → s.ringFree →
            ∃ t, answer = .next t ∧
              t =
                { closed with
                  run := { s.run with state := .stalled }
                  events := { s.events with pending := s.events.pending ||| Event.stall.bit }
                  trunk := t.trunk }) ∧
          (s.hv.safeWait = true → s.run.waiting = .safe → s.seq.state = .idle → s.fault.safeHalt = false →
            ∃ t, answer = .next t ∧ t.hv = { hv with safeWait := false } ∧
              t.run = { s.run with waiting := .home } ∧ t.mc.state = .idle ∧ t.seq.state = .homing ∧
              t.seq.requester = .run ∧ t.seq.home.expected = s.modules.filter (fun a => s.alive a) ∧
              (∃ e ∈ t.ring.queue ++ t.ring.wait, e.owner = .home ∧ e.frame.dst = 127 ∧ e.frame.cls = clsSw ∧
                e.frame.payload = []) ∧
              t.defects = s.defects ∧ t.mem = s.mem)))
end

