-- ==== Sys2Proof/Laws/View.lean ====
section
/-! SUPPORT. Says once what an event can do to the parts of the state that the invariants of Safety.lean are
about: `View` is those parts, `Change` lists every way in which one of them changes outside a reset, each
with the guard under which it happens, and `Changes` is any number of them in a row. The files Changes*.lean show
for each operation that its result is reached by `Changes`; an invariant that every `Change` keeps is
then kept by every event. -/

namespace Sys2Proof.Machine

/-- Whether a run in a state is active (2.1 of chapter 02). -/
def RunState.isActive (r : RunState) : Bool :=
  r = .running || r = .paused || r = .stalled || r = .aborting

theorem Run.active_eq (r : Run) : r.active = r.state.isActive := rfl

/-- The parts of the state that the invariants are about. `load` counts the frames of the trunk transmit queue
and the replies that hold a place in it. -/
structure View where
  mem : TableMem
  load : Nat
  entries : List CacheEntry
  pointer : Nat
  fill : Option Nat
  queue : List RingEntry
  wait : List RingEntry
  ownTag : Nat
  defects : List Defect
  count : Nat
  limits : Limits
  run : RunState
  hv : HvState
  keepalive : Nat
  window : List Conv
  samples : List Sample
  nodes : List Node
  seq : SeqState
  txs : List Transaction
  tables : TableState
  checking : Bool
  halt : Bool
  interlock : Bool
  held : Bool
  pending : List Instr

/-- The view of a state. -/
def State.view (s : State) : View :=
  { mem := s.mem
    load := s.trunk.queue.length + s.repliesOwed
    entries := s.cache.entries
    pointer := s.cache.pointer
    fill := s.cache.fill.map (·.1)
    queue := s.ring.queue
    wait := s.ring.wait
    ownTag := s.ring.ownTag
    defects := s.defects
    count := s.run.summary.defects
    limits := s.limits
    run := s.run.state
    hv := s.hv.state
    keepalive := s.hv.keepalive
    window := s.hv.window
    samples := s.mc.queue
    nodes := s.sup.nodes
    seq := s.seq.state
    txs := s.seq.transactions
    tables := s.tables.state
    checking := s.tables.check.isSome
    halt := s.fault.safeHalt
    interlock := s.pins.interlockClosed
    held := s.rst.held
    pending := s.pending }

/-- What an event may change: table memory, the limits block, the channel counts. -/
structure Grant where
  mem : Bool
  limits : Bool
  modules : Bool

/-- An SW frame of the chip carries the masks of a transaction (R53). -/
def RingEntry.carries (e : RingEntry) (ts : List Transaction) : Prop :=
  ∀ m, e.owner = .switch m →
    ∃ t ∈ ts, e.frame.payload = maskBytes t.masks.a ++ maskBytes t.masks.b

/-- One change of a view, outside a reset. -/
inductive Change (k : Grant) : View → View → Prop where
  /-- A byte of table memory is written (R2). -/
  | write (v : View) (a : Nat) (b : Byte) (hk : k.mem = true) : Change k v { v with mem := v.mem.write a b }
  /-- A byte of table memory comes to fail its parity check (R3). -/
  | upset (v : View) (a : Nat) (hk : k.mem = true) : Change k v { v with mem := v.mem.upset a }
  /-- The trunk transmit queue shrinks, or grows within its eight places (R173). -/
  | load (v : View) (n : Nat) (h : n ≤ v.load ∨ n ≤ 8) : Change k v { v with load := n }
  /-- The replacement pointer advances (R19). -/
  | advance (v : View) : Change k v { v with pointer := (v.pointer + 1) % 32 }
  /-- A fill begins for a point that no valid entry holds (R19). -/
  | fillStarts (v : View) (p : Nat) (h : v.fill = none)
      (miss : ∀ e ∈ v.entries, ¬(e.valid = true ∧ e.tag = p)) : Change k v { v with fill := some p }
  /-- A fill ends without filling an entry (R19). -/
  | fillEnds (v : View) : Change k v { v with fill := none }
  /-- A fill ends with the entry that the pointer names (R19). -/
  | filled (v : View) (p : Nat) (r : PointRec) (h : v.fill = some p) :
      Change k v
        { v with entries := v.entries.set v.pointer { valid := true, tag := p, copy := r }
                 pointer := (v.pointer + 1) % 32, fill := none }
  /-- Entries become invalid or take a lead (R20, R22). -/
  | entries (v : View) (f : CacheEntry → CacheEntry)
      (h : ∀ e, (f e).tag = e.tag ∧ ((f e).valid = true → e.valid = true)) :
      Change k v { v with entries := v.entries.map f }
  /-- An own frame joins the wait list; one that sets relays only while the HV state is SAFE or for a
  transaction, whose masks it carries (R49, R53, R61). -/
  | waits (v : View) (e : RingEntry) (h : e.setsRelays → v.hv = .safe ∨ v.txs ≠ []) (hc : e.carries v.txs) :
      Change k v { v with wait := v.wait ++ [e] }
  /-- The oldest waiting frame is placed where there is room, with the own-tag counter's value (R171). -/
  | placed (v : View) (e : RingEntry) (rest : List RingEntry) (h : v.wait = e :: rest)
      (room : v.queue.length < 8) :
      Change k v
        { v with wait := rest, queue := v.queue ++ [{ e with frame := { e.frame with tag := byte v.ownTag } }]
                 ownTag := (v.ownTag + 1) % 128 }
  /-- A pass-through frame is placed where there is room (R170). -/
  | passes (v : View) (f : Frame) (room : v.queue.length < 8) (h : f.cls = clsSw → v.hv = .safe) :
      Change k v { v with queue := v.queue ++ [{ frame := f, owner := .passThrough }] }
  /-- Frames leave the ring transmit queue and the wait list (R171). -/
  | leave (v : View) (q w : List RingEntry) (hq : q.Sublist v.queue) (hw : w.Sublist v.wait) :
      Change k v { v with queue := q, wait := w }
  /-- The sequencer rests, its transactions gone (R57, R59). -/
  | rests (v : View) : Change k v { v with seq := .idle, txs := [] }
  /-- A HOME is over (R62). -/
  | homeOver (v : View) (h : v.seq = .homing) : Change k v { v with seq := .idle }
  /-- A configuration or a HOME begins, with the HV state SAFE (R49, R61). -/
  | begins (v : View) (st : SeqState) (h : st = .translating ∨ st = .homing) (idle : v.seq = .idle)
      (safe : v.hv = .safe) : Change k v { v with seq := st }
  /-- The transactions of a configuration are created (R51, R52). -/
  | verifies (v : View) (ts : List Transaction) (h : v.seq = .translating) (ha : ∀ t ∈ ts, t.masks.apart) :
      Change k v { v with seq := .verifying, txs := ts }
  /-- Every transaction has ended (R57). -/
  | settles (v : View) (h : v.seq = .verifying) (none : v.txs = []) : Change k v { v with seq := .settling }
  /-- Transactions end or go on with the same masks (R55, R56). -/
  | txs (v : View) (ts : List Transaction) (h : ∀ t ∈ ts, ∃ u ∈ v.txs, u.masks = t.masks) :
      Change k v { v with txs := ts }
  /-- The HV state changes. It leaves SAFE with no frame that sets relays in hand and no configuration; it
  comes to RAMP or DWELL from one of them, or with a fresh keepalive counter and the interlock closed; it comes to STUCK with no run
  active (R42, R54, R60, R128). -/
  | hv (v : View) (st : HvState)
      (relays : v.hv = .safe → st ≠ .safe →
        (∀ e ∈ v.queue ++ v.wait, ¬e.setsRelays) ∧ v.seq ≠ .translating ∧ v.seq ≠ .verifying)
      (fresh : st = .ramp ∨ st = .dwell →
        v.hv = .ramp ∨ v.hv = .dwell ∨
          (v.keepalive = v.limits.timing.keepalive ∧ v.interlock = true))
      (stuck : st = .stuck → v.run.isActive = false) : Change k v { v with hv := st }
  /-- The keepalive counter changes: outside RAMP and DWELL, to a value above 0, or to the keepalive count
  (R128, R129, R137). -/
  | keepalive (v : View) (n : Nat)
      (h : (v.hv ≠ .ramp ∧ v.hv ≠ .dwell) ∨ 0 < n ∨ n = v.limits.timing.keepalive) :
      Change k v { v with keepalive := n }
  /-- A test ends, whatever the counter is by then (R129, R132). -/
  | testEnds (v : View) (n : Nat) (h : v.hv = .ramp ∨ v.hv = .dwell) :
      Change k v { v with keepalive := n, hv := .discharge }
  /-- The averaging window changes within its 64 places (R89). -/
  | window (v : View) (w : List Conv) (h : w.length ≤ 64) : Change k v { v with window := w }
  /-- The sample queue shrinks, or grows within its eight places (R79). -/
  | samples (v : View) (q : List Sample) (h : q.length ≤ v.samples.length ∨ q.length ≤ 8) :
      Change k v { v with samples := q }
  /-- Records change where they stand, seq and key kept; one that stays PROVISIONAL keeps PRINTED and
  RETIRED (R145 to R150). -/
  | amends (v : View) (f : Defect → Defect)
      (h : ∀ d, (f d).seq = d.seq ∧ (f d).key = d.key ∧
        ((f d).provisional = true →
          d.provisional = true ∧ (f d).printed = d.printed ∧ (f d).retired = d.retired)) :
      Change k v { v with defects := v.defects.map f }
  /-- Records leave the list (R150). -/
  | drops (v : View) (p : Defect → Bool) : Change k v { v with defects := v.defects.filter p }
  /-- An OPEN record is rewritten as a MISWIRE (R146). -/
  | rewrites (v : View) (own point other value step : Nat) :
      Change k v { v with defects := rewrite v.defects own point other value step }
  /-- A record is appended, numbered by the run defect count, within the list's places and the run defect
  limit (R144). -/
  | appends (v : View) (d : Defect) (seq : d.seq = v.count + 1) (room : v.defects.length < 512)
      (limit : v.count < v.limits.timing.defectLimit) (new : ∀ e ∈ v.defects, e.key ≠ d.key)
      (fresh : d.printed = false ∧ d.retired = false) :
      Change k v { v with defects := v.defects ++ [d], count := v.count + 1 }
  /-- The run summary is cleared, the list being empty (R24, R25). -/
  | fresh (v : View) (h : v.defects = []) : Change k v { v with count := 0 }
  /-- A section of the limits block is loaded, no run being active (R13). -/
  | limits (v : View) (sec : Section) (bs : List Byte) (h : v.run.isActive = false) (hk : k.limits = true) :
      Change k v { v with limits := v.limits.load v.count sec bs }
  /-- The run state changes: to an active state from one, or with the tables READY and the HV state SAFE; to
  anything but DONE only outside SAFE-HALT or from an active state (R24, R42, R46). -/
  | run (v : View) (st : RunState)
      (start : st.isActive = true → v.run.isActive = true ∨ (v.tables = .ready ∧ v.hv = .safe))
      (halt : st = .done ∨ v.halt = false ∨ v.run.isActive = true) : Change k v { v with run := st }
  /-- SAFE-HALT is set, the run being DONE (R179). -/
  | halt (v : View) (h : v.run = .done) : Change k v { v with halt := true }
  /-- A structural load or CHECK TABLES is accepted (R5, R17). -/
  | tables (v : View) (st : TableState) (h : v.run.isActive = false) (busy : v.tables ≠ .checking) :
      Change k v { v with tables := st }
  /-- The table check goes on (R18). -/
  | checks (v : View) (h : v.checking = true ∨ v.tables = .checking) : Change k v { v with checking := true }
  /-- The table check ends (R17). -/
  | checked (v : View) (st : TableState) (h : v.checking = true) :
      Change k v { v with tables := st, checking := false }
  /-- The entry of a configured node changes, its channel count kept (R69 to R71). -/
  | node (v : View) (i : Nat) (f : Node → Node) (h : ∀ n, (f n).channels = n.channels)
      (configured : i = 64 ∨ ∃ n, v.nodes[i]? = some n ∧ n.channels ≠ 0) :
      Change k v { v with nodes := v.nodes.modify i f }
  /-- Every entry changes, its channel count kept; clear flags stay clear (R71, R73). -/
  | nodes (v : View) (f : Node → Node)
      (h : ∀ n, (f n).channels = n.channels ∧
        (n.heard = false ∧ n.fault = false ∧ n.alive = false →
          (f n).heard = false ∧ (f n).fault = false ∧ (f n).alive = false)) :
      Change k v { v with nodes := v.nodes.map f }
  /-- The module table is loaded, and every flag is clear (R12, R73). -/
  | modules (v : View) (ns : List Node) (len : ns.length = v.nodes.length)
      (clear : ∀ n ∈ ns, n.heard = false ∧ n.fault = false ∧ n.alive = false) (hk : k.modules = true) :
      Change k v { v with nodes := ns }

  /-- The interlock opens with no high voltage up, or closes (R127, R136). -/
  | interlock (v : View) (closed : Bool) (h : closed = true ∨ (v.hv ≠ .ramp ∧ v.hv ≠ .dwell)) :
      Change k v { v with interlock := closed }
  /-- The chip leaves reset (R180). -/
  | released (v : View) : Change k v { v with held := false }

/-- Any number of changes. -/
inductive Changes (k : Grant) : View → View → Prop where
  | refl (v : View) : Changes k v v
  | step {u v w : View} (h : Changes k u v) (c : Change k v w) : Changes k u w

variable {k : Grant}

theorem Changes.trans {u v w : View} (h : Changes k u v) (j : Changes k v w) : Changes k u w := by
  induction j with
  | refl => exact h
  | step _ c ih => exact ih.step c

theorem Changes.one {v w : View} (c : Change k v w) : Changes k v w := (Changes.refl v).step c

/-- What every change keeps, any number of changes keep. -/
theorem Changes.keep {P : View → Prop} (hP : ∀ v w, Change k v w → P v → P w) {v w : View}
    (h : Changes k v w) (p : P v) : P w := by
  induction h with
  | refl => exact p
  | step _ c ih => exact hP _ _ c ih

theorem Changes.to {v w w' : View} (h : Changes k v w) (e : w' = w) : Changes k v w' := e ▸ h

/-- An update that the view does not show. -/
theorem Changes.same {v : View} {x y : State} (h : Changes k v x.view) (e : y.view = x.view) :
    Changes k v y.view := e ▸ h

end Sys2Proof.Machine
end

