-- ==== Sys2Proof/Laws/ChangesOps.lean ====
section
/-! SUPPORT. What the shared operations can do, as `Changes` of the view: updates of one block, table memory and
its port, the trunk transmit queue, the Event Unit, the module table, the ring, the cache, the Measurement
Controller and the Switch Sequencer. -/

namespace Sys2Proof.Machine

variable {gr : Grant} {v : View} {s : State}

/-! ### Updates that the view does not show -/

theorem changes_onSweep {f : Sweep → Sweep} (h : Changes gr v s.view) : Changes gr v (s.onSweep f).view := h
theorem changes_onPrint {f : Print → Print} (h : Changes gr v s.view) : Changes gr v (s.onPrint f).view := h
theorem changes_onArith {f : Arith → Arith} (h : Changes gr v s.view) : Changes gr v (s.onArith f).view := h
theorem changes_onEvents {f : Events → Events} (h : Changes gr v s.view) : Changes gr v (s.onEvents f).view := h
theorem changes_onPins {f : Pins → Pins} (h : Changes gr v s.view)
    (e : (f s.pins).interlockClosed = s.pins.interlockClosed) : Changes gr v (s.onPins f).view :=
  h.to (by simp [State.view, State.onPins, e, State.repliesOwed])
theorem changes_onRst {f : ResetMon → ResetMon} (h : Changes gr v s.view)
    (e : (f s.rst).held = s.rst.held) : Changes gr v (s.onRst f).view :=
  h.to (by simp [State.view, State.onRst, e, State.repliesOwed])

theorem changes_onRun {f : Run → Run} (h : Changes gr v s.view) (e : ∀ x : State, (x.onRun f).view = x.view) :
    Changes gr v (s.onRun f).view := h.same (e s)
theorem changes_onHv {f : Hv → Hv} (h : Changes gr v s.view) (e : ∀ x : State, (x.onHv f).view = x.view) :
    Changes gr v (s.onHv f).view := h.same (e s)
theorem changes_onMc {f : Measure → Measure} (h : Changes gr v s.view)
    (e : ∀ x : State, (x.onMc f).view = x.view) : Changes gr v (s.onMc f).view := h.same (e s)
theorem changes_onSeq {f : Sequencer → Sequencer} (h : Changes gr v s.view)
    (e : ∀ x : State, (x.onSeq f).view = x.view) : Changes gr v (s.onSeq f).view := h.same (e s)
theorem changes_onSup {f : Supervisor → Supervisor} (h : Changes gr v s.view)
    (e : ∀ x : State, (x.onSup f).view = x.view) : Changes gr v (s.onSup f).view := h.same (e s)
theorem changes_onTables {f : Tables → Tables} (h : Changes gr v s.view)
    (e : ∀ x : State, (x.onTables f).view = x.view) : Changes gr v (s.onTables f).view := h.same (e s)
theorem changes_onFault {f : FaultMon → FaultMon} (h : Changes gr v s.view)
    (e : ∀ x : State, (x.onFault f).view = x.view) : Changes gr v (s.onFault f).view := h.same (e s)
theorem changes_onTrunk {f : Trunk → Trunk} (h : Changes gr v s.view)
    (e : ∀ x : State, (x.onTrunk f).view = x.view) : Changes gr v (s.onTrunk f).view := h.same (e s)
theorem changes_onCache {f : Cache → Cache} (h : Changes gr v s.view)
    (e : ∀ x : State, (x.onCache f).view = x.view) : Changes gr v (s.onCache f).view := h.same (e s)

/-! ### The port (R2) -/

/-- The view with another load. -/
theorem changes_loadTo {t : State} {n : Nat} (h : Changes gr v s.view) (e : t.view = { s.view with load := n })
    (hn : n ≤ s.view.load ∨ n ≤ 8) : Changes gr v t.view :=
  e ▸ h.step (.load s.view n hn)

theorem view_ask (a : Access) :
    (s.ask a).view = { s.view with load := s.view.load + (if a.owner.owesReply then 1 else 0) } := by
  simp only [State.ask, State.view, State.onPort, State.repliesOwed, List.filter_append,
    List.length_append, List.filter_cons, List.filter_nil]
  split
  all_goals
    simp
    try omega

/-- An access that owes no reply leaves the view as it is. -/
theorem changes_ask {a : Access} (h : Changes gr v s.view) (ho : a.owner.owesReply = false) :
    Changes gr v (s.ask a).view := h.same (by rw [view_ask, ho]; rfl)

theorem changes_askRead {k : TableKind} {i : Nat} {o : Owner} (h : Changes gr v s.view)
    (ho : o.owesReply = false) : Changes gr v (s.askRead k i o).view := changes_ask h ho

theorem changes_askWrite {k : TableKind} {i off : Nat} {bs : List Byte} {o : Owner} (h : Changes gr v s.view)
    (ho : o.owesReply = false) : Changes gr v (s.askWrite k i off bs o).view := changes_ask h ho

/-- An access that owes a reply takes a place of the trunk transmit queue (log 10). -/
theorem changes_askOwing {a : Access} (h : Changes gr v s.view) (room : s.view.load < 8) :
    Changes gr v (s.ask a).view :=
  changes_loadTo h (view_ask a) (by split <;> omega)

theorem owed_drop (p : Port) :
    ((p.queue.drop 1).filter fun a => a.owner.owesReply).length
      ≤ (p.queue.filter fun a => a.owner.owesReply).length :=
  ((List.drop_sublist 1 p.queue).filter _).length_le

theorem owed_give (p : Port) (gone : Owner → Bool) :
    ((p.give gone).queue.filter fun a => a.owner.owesReply).length
      ≤ (p.queue.filter fun a => a.owner.owesReply).length := by
  unfold Port.give
  cases hq : p.queue with
  | nil => simp [hq]
  | cons a rest =>
    have h1 : ((rest.filter fun x => !gone x.owner).filter fun a => a.owner.owesReply).length
        ≤ (rest.filter fun a => a.owner.owesReply).length :=
      (List.filter_sublist.filter _).length_le
    have h2 : Owner.owesReply .dropped = false := rfl
    by_cases hg : gone a.owner = true
    · simp only [hg, if_true, List.filter_cons (x := { a with owner := Owner.dropped }), h2,
        Bool.false_eq_true, if_false]
      exact h1.trans (((List.sublist_cons_self a rest).filter _).length_le)
    · simp only [hg, Bool.false_eq_true, if_false]
      have e := fun xs => List.filter_cons (p := fun a : Access => a.owner.owesReply) (x := a) (xs := xs)
      rw [e, e]
      split
      · simpa using h1
      · exact h1

/-- An update of the port that leaves no more replies owed. -/
theorem changes_onPort {f : Port → Port} (h : Changes gr v s.view)
    (e : ((f s.port).queue.filter fun a => a.owner.owesReply).length
      ≤ (s.port.queue.filter fun a => a.owner.owesReply).length) : Changes gr v (s.onPort f).view := by
  refine changes_loadTo (n := (s.onPort f).view.load) h rfl (.inl ?_)
  simp only [State.view, State.onPort, State.repliesOwed]
  omega

theorem changes_give {gone : Owner → Bool} (h : Changes gr v s.view) :
    Changes gr v (s.onPort fun p => p.give gone).view := changes_onPort h (owed_give _ _)

/-! ### The trunk transmit queue (R172, R173) -/

/-- A change of the trunk transmit queue within its eight places. -/
theorem changes_trunk {t : State} (h : Changes gr v s.view) (e : t.view = { s.view with load := t.view.load })
    (hn : t.view.load ≤ s.view.load ∨ t.view.load ≤ 8) : Changes gr v t.view :=
  changes_loadTo h e hn

theorem changes_trunkPut {e : TrunkEntry} (h : Changes gr v s.view) (room : s.view.load < 8) :
    Changes gr v (s.trunkPut e).view :=
  changes_trunk h rfl (.inr (by simp [State.view, State.trunkPut, State.onTrunk, State.repliesOwed] at room ⊢; omega))

theorem changes_reply {tag code : Byte} {r : Result} {data : List Byte} (h : Changes gr v s.view)
    (room : s.view.load < 8) : Changes gr v (s.reply tag code r data).view := changes_trunkPut h room

theorem view_load_of_not_full (h : ¬s.trunkFull = true) : s.view.load < 8 := by
  simpa [State.trunkFull, State.view] using h

theorem changes_copyUp {f : Frame} (h : Changes gr v s.view) : Changes gr v (s.copyUp f).view := by
  unfold State.copyUp
  split
  · exact h
  · exact changes_trunkPut h (view_load_of_not_full ‹_›)

theorem Trunk.sent_append_unsent (t : Trunk) : t.sent ++ t.unsent = t.queue := by
  unfold Trunk.sent Trunk.unsent
  cases t.begun
  · rfl
  · exact List.take_append_drop 1 t.queue

theorem Trunk.sent_length (t : Trunk) : t.sent.length + t.unsent.length = t.queue.length := by
  rw [← List.length_append, t.sent_append_unsent]

theorem changes_noticeDue (h : Changes gr v s.view) : Changes gr v s.noticeDue.view := by
  have hl := s.trunk.sent_length
  unfold State.noticeDue
  dsimp only
  split
  · rename_i old hold
    have hmem := List.mem_of_find?_eq_some hold
    have hk := List.find?_some hold
    have hlt : (s.trunk.unsent.filter fun e => e.kind ≠ TrunkKind.notice).length < s.trunk.unsent.length := by
      refine List.length_filter_lt_length_iff_exists.mpr ⟨old, hmem, ?_⟩
      simpa using hk
    split
    · exact changes_trunk h rfl (.inl (by
        simp only [State.view, State.onTrunk, State.repliesOwed, List.length_append, List.length_cons]
        omega))
    · exact changes_trunk h rfl (.inl (by
        simp only [State.view, State.onTrunk, State.repliesOwed, List.length_append, List.length_map]
        omega))
  · split
    · exact h.same rfl
    · rename_i hf
      have room := view_load_of_not_full hf
      simp only [State.view] at room
      split <;> exact changes_trunk h rfl (.inr (by
        simp only [State.view, State.onTrunk, State.repliesOwed, List.length_append, List.length_cons,
          List.length_nil] at room ⊢
        omega))

theorem changes_raise {e : Event} (h : Changes gr v s.view) : Changes gr v (s.raise e).view := by
  unfold State.raise
  split
  · exact h
  · dsimp only
    split
    · exact h
    · exact changes_noticeDue h

/-! ### The module table (R65, R69, R70) -/

theorem changes_onNode {a : Nat} {f : Node → Node} (h : Changes gr v s.view)
    (hf : ∀ n, (f n).channels = n.channels) : Changes gr v (s.onNode a f).view := by
  unfold State.onNode
  split
  · rename_i hc
    split
    · rename_i i hi
      refine h.step (.node s.view i f hf ?_)
      unfold nodeIndex at hi
      simp only [State.configured, Bool.or_eq_true, decide_eq_true_eq, Bool.and_eq_true] at hc
      split at hi
      · rename_i hr
        simp only [Bool.and_eq_true, decide_eq_true_eq] at hr
        injection hi with hi
        rcases hc with hc | hc
        · have : (72 : Nat) = a := hc.symm
          omega
        · right
          have hn := hc.2
          simp only [State.channels, State.node?, nodeIndex, hr, decide_true, Bool.and_self, if_true,
            Option.bind_some] at hn
          subst hi
          cases hg : s.sup.nodes[a - 1]? with
          | none => simp [hg] at hn
          | some n => exact ⟨n, hg, by simpa [hg] using hn⟩
      · split at hi
        · injection hi with hi
          exact .inl hi.symm
        · cases hi
    · exact h
  · exact h

theorem changes_heardFrom {a : Nat} (h : Changes gr v s.view) : Changes gr v (s.heardFrom a).view :=
  changes_onNode h fun _ => rfl

theorem changes_faultAgainst {a : Nat} (h : Changes gr v s.view) : Changes gr v (s.faultAgainst a).view :=
  changes_onNode h fun _ => rfl

theorem changes_believe {m : Nat} {k : Option Masks} (h : Changes gr v s.view) :
    Changes gr v (s.believe m k).view := by
  unfold State.believe
  split
  · exact h.same rfl
  · exact h

/-! ### The ring transmit queue and the wait list (R67, R171) -/

/-- A map of the transactions that keeps their masks. -/
theorem changes_txsMap {t : State} {f : Transaction → Transaction} (h : Changes gr v s.view)
    (e : t.view = { s.view with txs := s.view.txs.map f }) (hf : ∀ x, (f x).masks = x.masks) :
    Changes gr v t.view := by
  rw [e]
  refine h.step (.txs s.view _ fun x hx => ?_)
  obtain ⟨u, hu, rfl⟩ := List.mem_map.mp hx
  exact ⟨u, hu, (hf u).symm⟩

theorem changes_placedAct {o : RingOwner} {tag : Nat} (h : Changes gr v s.view) :
    Changes gr v (s.placedAct o tag).view := by
  unfold State.placedAct
  split
  · exact changes_txsMap h rfl fun x => by split <;> rfl
  · exact h.same rfl
  · exact h.same rfl
  · exact h.same rfl
  · split
    · exact h.same rfl
    · exact h
  · exact h

theorem placedAct_masks (o : RingOwner) (tag : Nat) :
    (s.placedAct o tag).seq.transactions.map (·.masks) = s.seq.transactions.map (·.masks) := by
  unfold State.placedAct
  split
  · simp only [State.onSeq, List.map_map]
    refine List.map_congr_left fun x _ => ?_
    simp only [Function.comp]
    split <;> rfl
  · rfl
  · rfl
  · rfl
  · split <;> rfl
  · rfl

theorem changes_offerPoll (h : Changes gr v s.view) : Changes gr v s.offerPoll.view := by
  unfold State.offerPoll
  split
  · exact h
  · split
    · exact h
    · exact h.step (.waits s.view _ (fun e => absurd e (by simp [RingEntry.setsRelays, ownFrame, clsPol, clsSw]))
        fun m e => by simp at e)

theorem offerPoll_seq : s.offerPoll.seq = s.seq := by
  unfold State.offerPoll
  split
  · rfl
  · split <;> rfl

theorem changes_fillQueue (n : Nat) (h : Changes gr v s.view) : Changes gr v (s.fillQueue n).view := by
  induction n generalizing s with
  | zero => exact h
  | succ n ih =>
    have h1 := changes_offerPoll h
    rw [State.fillQueue]
    split
    · exact h1
    · rename_i hroom
      split
      · exact h1
      · rename_i e rest hw
        refine ih ?_
        refine changes_placedAct ?_
        exact h1.step (.placed s.offerPoll.view e rest hw (by simpa [State.view] using hroom))

theorem fillQueue_masks (n : Nat) :
    (s.fillQueue n).seq.transactions.map (·.masks) = s.seq.transactions.map (·.masks) := by
  induction n generalizing s with
  | zero => rfl
  | succ n ih =>
    rw [State.fillQueue]
    split
    · rw [offerPoll_seq]
    · split
      · rw [offerPoll_seq]
      · rw [ih, State.placeOwn, placedAct_masks]
        exact congrArg (fun q : Sequencer => q.transactions.map (·.masks)) offerPoll_seq

theorem changes_pump (h : Changes gr v s.view) : Changes gr v s.pump.view := changes_fillQueue 9 h

/-- A frame is handed over; one that sets relays only while the HV state is SAFE or for a transaction. -/
theorem changes_handOver {e : RingEntry} (h : Changes gr v s.view)
    (hr : e.setsRelays → s.hv.state = .safe ∨ s.seq.transactions ≠ []) (hc : e.carries s.seq.transactions) :
    Changes gr v (s.handOver e).view :=
  changes_pump (h.step (.waits s.view e hr hc))

theorem handOver_masks (e : RingEntry) :
    (s.handOver e).seq.transactions.map (·.masks) = s.seq.transactions.map (·.masks) :=
  fillQueue_masks (s := s.onRing fun r => { r with wait := r.wait ++ [e] }) 9

/-- A frame that sets no relays is handed over. -/
theorem changes_handOverPlain {e : RingEntry} (h : Changes gr v s.view) (hr : e.frame.cls ≠ clsSw)
    (hc : ∀ m, e.owner ≠ .switch m) : Changes gr v (s.handOver e).view :=
  changes_handOver h (fun x => absurd x hr) fun m x => absurd x (hc m)

/-- Frames leave the queue and the wait list. -/
theorem changes_leave {f : Ring → Ring} (h : Changes gr v s.view) (hq : (f s.ring).queue.Sublist s.ring.queue)
    (hw : (f s.ring).wait.Sublist s.ring.wait) (ht : (f s.ring).ownTag = s.ring.ownTag) :
    Changes gr v (s.onRing f).view := by
  have e : (s.onRing f).view = { s.view with queue := (f s.ring).queue, wait := (f s.ring).wait } := by
    simp [State.view, State.onRing, ht, State.repliesOwed]
  rw [e]
  exact h.step (.leave s.view _ _ hq hw)

theorem changes_withdraw {gone : RingEntry → Bool} (h : Changes gr v s.view) :
    Changes gr v (s.withdraw gone).view :=
  changes_pump (changes_leave h List.filter_sublist List.filter_sublist rfl)

/-! ### The Point Translation Cache (R19, R20, R22) -/

theorem Cache.find_none {c : Cache} {p : Nat} (h : c.find p = none) :
    ∀ e ∈ c.entries, ¬(e.valid = true ∧ e.tag = p) := by
  intro e he hv
  have := (List.findIdx?_eq_none_iff.mp h) e he
  simp [hv.1, hv.2] at this

theorem changes_lookup {p : Nat} {who : LookupFor} (h : Changes gr v s.view) :
    Changes gr v (s.lookup p who).1.view := by
  unfold State.lookup
  split
  · exact h.same rfl
  · rename_i hf
    have hnone : s.cache.fill = none := by
      cases hc : s.cache.fill with
      | none => rfl
      | some x => simp [hc] at hf
    split
    · dsimp only
      unfold Cache.hit State.onCache
      dsimp only
      split
      · exact h.step (.advance s.view)
      · exact h.same rfl
    · rename_i hm
      dsimp only
      have h1 : Changes gr v (s.askRead .points p .fill).view := changes_askRead h rfl
      have h2 := h1.step (.fillStarts _ p (by simp [State.view, State.askRead, State.ask, State.onPort, hnone])
        (Cache.find_none hm))
      exact h2.same rfl

theorem changes_invalidate {target : Option Nat} (h : Changes gr v s.view) :
    Changes gr v (s.onCache fun c => c.invalidate target).view := by
  cases target with
  | none =>
    have h1 := h.step (.entries s.view (fun e => { e with valid := false }) fun e => by simp)
    exact h1.to rfl
  | some p =>
    have h1 := h.step (.entries s.view
      (fun e => if e.valid && e.tag = p then { e with valid := false } else e) fun e => by split <;> simp)
    exact h1.to rfl

theorem changes_writeLead {p lead : Nat} (h : Changes gr v s.view) :
    Changes gr v (s.onCache fun c => c.writeLead p lead).view := by
  have h1 := h.step (.entries s.view (fun e =>
      if e.valid && e.tag = p then { e with copy := { e.copy with lead } } else e) (by
    intro e
    split <;> simp))
  exact h1.to rfl

theorem changes_drop {gone : LookupFor → Bool} (h : Changes gr v s.view) :
    Changes gr v (s.onCache fun c => c.drop gone).view := by
  refine h.same ?_
  simp only [State.view, State.onCache, Cache.drop, State.repliesOwed]
  congr 1
  cases s.cache.fill with
  | none => rfl
  | some x => simp only [Option.map_some]; split <;> rfl

/-! ### The Measurement Controller (R77 to R83) -/

theorem changes_placeHvc {p : List Byte} (h : Changes gr v s.view) : Changes gr v (s.placeHvc p).view :=
  changes_handOverPlain h (by simp [hvcEntry, ownFrame, clsHvc, clsSw]) (by simp [hvcEntry])

theorem changes_openStream {p : List Byte} (h : Changes gr v s.view) : Changes gr v (s.openStream p).view := by
  unfold State.openStream
  split
  · exact h
  · exact changes_placeHvc (h.same rfl)

theorem changes_samples {f : Measure → Measure} (h : Changes gr v s.view)
    (hf : (f s.mc).queue.length ≤ s.mc.queue.length ∨ (f s.mc).queue.length ≤ 8) :
    Changes gr v (s.onMc f).view :=
  (h.step (.samples s.view (f s.mc).queue hf)).same rfl

theorem changes_closeStream (h : Changes gr v s.view) : Changes gr v s.closeStream.view :=
  changes_handOverPlain (changes_onArith (changes_samples h (.inr (by simp))))
    (by simp [hvcEntry, ownFrame, clsHvc, clsSw]) (by simp [hvcEntry])

theorem changes_periodDischarge (h : Changes gr v s.view) : Changes gr v s.periodDischarge.view := by
  unfold State.periodDischarge
  split
  · split
    · exact h
    · exact changes_placeHvc h
  · exact changes_openStream h
  · exact h

theorem changes_retryStream (h : Changes gr v s.view) : Changes gr v s.retryStream.view := by
  unfold State.retryStream
  split
  · exact changes_openStream (h.same rfl)
  · exact h

theorem changes_requestMsr {r n : Nat} {p : Option Nat} {l : List Nat} (h : Changes gr v s.view) :
    Changes gr v (s.requestMsr r n p l).view := by
  unfold State.requestMsr
  split
  · exact h
  · exact changes_handOverPlain (h.same rfl) (by simp [msrEntry, ownFrame]; decide) (by simp [msrEntry])

theorem changes_mcIdle (h : Changes gr v s.view) : Changes gr v s.mcIdle.view :=
  changes_retryStream (h.same rfl)

theorem changes_dropMsr (h : Changes gr v s.view) : Changes gr v s.dropMsr.view := by
  unfold State.dropMsr
  split
  · exact changes_mcIdle (changes_withdraw h)
  · exact changes_mcIdle h
  · exact changes_mcIdle (changes_onArith (changes_samples h (.inr (by simp))))
  · exact h
  · exact h

/-! ### The Switch Sequencer (R53 to R62) -/

theorem changes_onTransaction {m : Nat} {f : Transaction → Transaction} (h : Changes gr v s.view)
    (hf : ∀ x, (f x).masks = x.masks) : Changes gr v (s.onTransaction m f).view :=
  changes_txsMap h rfl fun x => by split <;> simp [hf]

theorem changes_endTransaction {m : Nat} (h : Changes gr v s.view) : Changes gr v (s.endTransaction m).view :=
  (h.step (.txs s.view (s.seq.transactions.filter fun t => t.module ≠ m) fun t ht =>
    ⟨t, List.mem_of_mem_filter ht, rfl⟩)).same rfl

theorem changes_addFailed {m : Nat} (h : Changes gr v s.view) : Changes gr v (s.addFailed m).view := h.same rfl

theorem changes_attemptFails {m : Nat} (h : Changes gr v s.view) : Changes gr v (s.attemptFails m).view := by
  unfold State.attemptFails
  split
  · exact h
  · rename_i t ht
    have hm : t ∈ s.seq.transactions := List.mem_of_find?_eq_some ht
    have hk : t.module = m := by simpa using List.find?_some ht
    split
    · have hin : ∃ x ∈ (s.onTransaction m fun t =>
          { t with attempt := t.attempt + 1, tag := none, timer := none, phase := .waiting }).seq.transactions,
          x.masks = t.masks := by
        refine ⟨_, List.mem_map.mpr ⟨t, hm, rfl⟩, ?_⟩
        simp [hk]
      obtain ⟨x, hx, hxm⟩ := hin
      refine changes_handOver ?_ (fun _ => .inr (List.ne_nil_of_mem hx)) fun m' _ => ⟨x, hx, ?_⟩
      · exact changes_onTransaction h fun _ => rfl
      · rw [hxm]; rfl
    · exact changes_endTransaction (changes_addFailed (changes_faultAgainst h))

theorem changes_switchSent {m tag : Nat} (h : Changes gr v s.view) : Changes gr v (s.switchSent m tag).view :=
  changes_believe (changes_onTransaction h fun x => by split <;> rfl)

theorem changes_forgetModules (h : Changes gr v s.view) : Changes gr v s.forgetModules.view := h.same rfl

theorem changes_homeSent {tag : Nat} (h : Changes gr v s.view) : Changes gr v (s.homeSent tag).view := by
  unfold State.homeSent
  dsimp only
  split
  · exact h.same rfl
  · exact h.same rfl

theorem changes_seqRest (h : Changes gr v s.view) : Changes gr v (s.onSeq Sequencer.rest).view :=
  (h.step (.rests s.view)).same rfl

theorem changes_abandonConfiguration (h : Changes gr v s.view) : Changes gr v s.abandonConfiguration.view := by
  unfold State.abandonConfiguration
  split
  · exact h
  · exact h
  · exact changes_drop (changes_seqRest h)
  · exact changes_withdraw (changes_seqRest h)
  · exact changes_seqRest h

theorem changes_requestHome (h : Changes gr v s.view) : Changes gr v s.requestHome.view := by
  unfold State.requestHome
  split
  · exact h
  · rename_i hg
    simp only [Bool.or_eq_true, decide_eq_true_eq, not_or, not_not] at hg
    have h1 := h.step (.begins s.view .homing (.inr rfl) hg.1.2 hg.2)
    exact changes_handOver (h1.same rfl) (fun _ => .inl hg.2) fun m e => by simp [homeEntry] at e

end Sys2Proof.Machine
end

