-- ==== Sys2Proof/Laws/ChangesRun.lean ====
section
/-! SUPPORT. What the Print Engine, the Run Engine, the Fault Monitor and an insert can do, as `Changes` of the
view. -/

namespace Sys2Proof.Machine

variable {gr : Grant} {v : View} {s : State}

/-! ### The Print Engine (chapter 10) -/

theorem changes_beginChar (h : Changes gr v s.view) : Changes gr v s.beginChar.view := by
  unfold State.beginChar
  try dsimp only
  repeat' split
  all_goals
    repeat first
      | with_reducible exact h
      | with_reducible apply changes_onPrint

theorem changes_startSending {second : Bool} (h : Changes gr v s.view) :
    Changes gr v (s.startSending second).view := by
  unfold State.startSending
  try dsimp only
  all_goals
    repeat first
      | with_reducible exact h
      | with_reducible apply changes_onPrint
      | with_reducible apply changes_beginChar

theorem changes_lineComplete {second : Bool} {text : List Byte} (h : Changes gr v s.view) :
    Changes gr v (s.lineComplete second text).view := by
  unfold State.lineComplete
  try dsimp only
  repeat' split
  all_goals
    repeat first
      | with_reducible exact h
      | with_reducible apply changes_onPrint
      | with_reducible apply changes_startSending

theorem changes_askFormat (h : Changes gr v s.view) : Changes gr v s.askFormat.view := changes_onArith h

theorem changes_beginLine {start : State → State} (h : Changes gr v s.view) (hs : Changes gr v (start s).view) :
    Changes gr v (s.beginLine start).view := by
  unfold State.beginLine
  split
  · exact h
  · exact hs

theorem changes_startLine {second : Bool} {c : LineContent} {text : List Byte} (h : Changes gr v s.view) :
    Changes gr v (s.startLine second c text).view := by
  unfold State.startLine
  try dsimp only
  all_goals
    repeat first
      | with_reducible exact h
      | with_reducible apply changes_onPrint

theorem changes_recordComplete {value : List Byte} (h : Changes gr v s.view) :
    Changes gr v (s.recordComplete value).view := by
  unfold State.recordComplete
  try dsimp only
  repeat' split
  all_goals
    repeat first
      | with_reducible exact h
      | with_reducible apply changes_onPrint
      | with_reducible apply changes_lineComplete

theorem changes_formatValue (h : Changes gr v s.view) : Changes gr v s.formatValue.view := by
  unfold State.formatValue
  try dsimp only
  repeat' split
  all_goals
    repeat first
      | with_reducible exact h
      | with_reducible apply changes_recordComplete
      | with_reducible apply changes_onPrint
      | with_reducible apply changes_askFormat

theorem changes_formatNetB (h : Changes gr v s.view) : Changes gr v s.formatNetB.view := by
  unfold State.formatNetB
  try dsimp only
  repeat' split
  all_goals
    repeat first
      | with_reducible exact h
      | with_reducible apply changes_formatValue
      | with_reducible apply changes_netReadable
      | with_reducible apply changes_onPrint
      | ((with_reducible refine changes_askRead ?_ ?_); on_goal 2 => rfl)

theorem changes_formatNetA (h : Changes gr v s.view) : Changes gr v s.formatNetA.view := by
  unfold State.formatNetA
  try dsimp only
  repeat' split
  all_goals
    repeat first
      | with_reducible exact h
      | with_reducible apply changes_netReadable
      | with_reducible apply changes_onPrint
      | ((with_reducible refine changes_askRead ?_ ?_); on_goal 2 => rfl)
      | with_reducible apply changes_formatNetB

theorem changes_nameKnown {w : FmtWork} {name : List Byte} (h : Changes gr v s.view) :
    Changes gr v (s.nameKnown w name).view := by
  unfold State.nameKnown
  try dsimp only
  repeat' split
  all_goals
    repeat first
      | with_reducible exact h
      | with_reducible apply changes_onPrint
      | with_reducible apply changes_formatNetB
      | with_reducible apply changes_formatValue

theorem changes_printRead {bytes : Option (List Byte)} (h : Changes gr v s.view) :
    Changes gr v (s.printRead bytes).view := by
  unfold State.printRead
  try dsimp only
  repeat' split
  all_goals
    repeat first
      | with_reducible exact h
      | with_reducible apply changes_nameKnown
      | with_reducible apply changes_bound
      | with_reducible apply changes_onPrint
      | ((with_reducible refine changes_askRead ?_ ?_); on_goal 2 => rfl)

theorem changes_startSummaryLine {second : Bool} (h : Changes gr v s.view) :
    Changes gr v (s.startSummaryLine second).view := by
  unfold State.startSummaryLine
  try dsimp only
  repeat' split
  all_goals
    repeat first
      | with_reducible exact h
      | with_reducible apply changes_onPrint
      | with_reducible apply changes_startLine
      | with_reducible apply changes_askFormat

theorem changes_startHeaderLine {second : Bool} {step : Nat} (h : Changes gr v s.view) :
    Changes gr v (s.startHeaderLine second step).view := by
  unfold State.startHeaderLine
  try dsimp only
  all_goals
    repeat first
      | with_reducible exact h
      | with_reducible apply changes_onPrint
      | with_reducible apply changes_startLine
      | with_reducible apply changes_askFormat

theorem changes_startRecordLine {second : Bool} {d : Defect} (h : Changes gr v s.view) :
    Changes gr v (s.startRecordLine second d).view := by
  unfold State.startRecordLine
  try dsimp only
  all_goals
    repeat first
      | with_reducible exact h
      | with_reducible apply changes_startLine
      | with_reducible apply changes_onPrint
      | with_reducible apply changes_formatNetA

/-- Records leave the list. -/
theorem changes_dropDefects {p : Defect → Bool} (h : Changes gr v s.view) :
    Changes gr v (s.onDefects fun ds => ds.filter p).view :=
  (h.step (.drops s.view p)).to rfl

/-- PRINTED is set. -/
theorem changes_setPrinted {n : Nat} (h : Changes gr v s.view) :
    Changes gr v (s.onDefects fun ds => setPrinted ds n).view := by
  have h1 := h.step (.amends s.view
    (fun d => if d.seq = n then (if d.provisional then d else { d with printed := true }) else d) fun d => by
      split
      · split <;> simp_all
      · simp_all)
  exact h1.to rfl

/-- RETIRED is set. -/
theorem changes_setRetired {n : Nat} (h : Changes gr v s.view) :
    Changes gr v (s.onDefects fun ds => setRetired ds n).view := by
  have h1 := h.step (.amends s.view
    (fun d => if d.seq = n then (if d.provisional then d else { d with retired := true }) else d) fun d => by
      split
      · split <;> simp_all
      · simp_all)
  exact h1.to rfl

theorem changes_passOver {d : Defect} (h : Changes gr v s.view) : Changes gr v (s.passOver d).view := by
  have h1 : Changes gr v (s.onDefects fun ds => setPrinted ds d.seq).view := changes_setPrinted h
  unfold State.passOver
  by_cases hl : seqLeaves (setPrinted s.defects d.seq) d.seq (decide (s.print.state = .off)) = true
  · have h2 := changes_dropDefects (p := fun x => x.seq ≠ d.seq) h1
    refine h2.to ?_
    simp only [State.onDefects, hl, if_true]
    rfl
  · refine h1.to ?_
    simp only [State.onDefects, hl, Bool.false_eq_true, if_false]

theorem changes_look (n : Nat) (h : Changes gr v s.view) : Changes gr v (s.look n).view := by
  induction n generalizing s with
  | zero => exact h
  | succ n ih =>
    rw [State.look]
    dsimp only
    repeat' split
    all_goals
      repeat first
        | with_reducible exact h
        | ((with_reducible apply changes_beginLine); · exact h)
        | with_reducible apply changes_startSummaryLine
        | with_reducible apply changes_startHeaderLine
        | with_reducible apply ih
        | with_reducible apply changes_passOver
        | with_reducible apply changes_startRecordLine

theorem changes_printLook (h : Changes gr v s.view) : Changes gr v s.printLook.view := changes_look _ h

theorem changes_printRunStarts {first copies : Nat} (h : Changes gr v s.view) :
    Changes gr v (s.printRunStarts first copies).view := by
  unfold State.printRunStarts
  try dsimp only
  repeat' split
  all_goals
    repeat first
      | with_reducible exact h
      | with_reducible apply changes_onPrint
      | with_reducible apply changes_printLook

theorem changes_printRunEnds {t : Termination} (h : Changes gr v s.view) :
    Changes gr v (s.printRunEnds t).view := by
  unfold State.printRunEnds
  try dsimp only
  repeat' split
  all_goals
    repeat first
      | with_reducible exact h
      | with_reducible apply changes_onPrint
      | with_reducible apply changes_printLook

/-! ### The Run Engine (chapter 02) -/

theorem changes_countMeasurement (h : Changes gr v s.view) : Changes gr v s.countMeasurement.view := by
  unfold State.countMeasurement
  try dsimp only
  all_goals
    repeat first
      | with_reducible exact h
      | ((with_reducible refine changes_onRun ?_ ?_); on_goal 2 => exact fun _ => rfl)
      | with_reducible apply changes_give
      | with_reducible apply changes_drop

theorem changes_stepEnd {term : Option Termination} (h : Changes gr v s.view) :
    Changes gr v (s.stepEnd term).view := by
  unfold State.stepEnd
  try dsimp only
  repeat' split
  all_goals
    repeat first
      | with_reducible exact h
      | ((with_reducible refine changes_askWrite ?_ ?_); on_goal 2 => rfl)
      | ((with_reducible refine changes_onRun ?_ ?_); on_goal 2 => exact fun _ => rfl)
      | with_reducible apply changes_raise
      | with_reducible apply changes_give
      | with_reducible apply changes_drop

theorem changes_dropReads (h : Changes gr v s.view) : Changes gr v s.dropReads.view := by
  unfold State.dropReads
  try dsimp only
  all_goals
    repeat first
      | with_reducible exact h
      | with_reducible apply changes_give
      | with_reducible apply changes_drop

theorem changes_sweepRest (h : Changes gr v s.view) : Changes gr v s.sweepRest.view := by
  unfold State.sweepRest
  try dsimp only
  all_goals
    repeat first
      | with_reducible exact h
      | with_reducible apply changes_onSweep
      | with_reducible apply changes_give
      | with_reducible apply changes_drop

/-- Finalisation (R147). -/
theorem changes_finalise (h : Changes gr v s.view) : Changes gr v (s.onDefects finalise).view :=
  (h.step (.amends s.view (fun d => { d with provisional := false }) fun d => by simp)).to rfl

/-- The run state becomes DONE. -/
theorem changes_runDone {f : Run → Run} (h : Changes gr v s.view) (hs : (f s.run).state = .done)
    (hc : (f s.run).summary.defects = s.run.summary.defects) : Changes gr v (s.onRun f).view := by
  have h1 := h.step (.run s.view .done (by simp [RunState.isActive]) (.inl rfl))
  refine h1.to ?_
  simp [State.view, State.onRun, hs, hc, State.repliesOwed]

/-- An active run takes another active state. -/
theorem changes_runActive {f : Run → Run} {st : RunState} (h : Changes gr v s.view)
    (hs : (f s.run).state = st) (hc : (f s.run).summary.defects = s.run.summary.defects)
    (ha : s.run.state.isActive = true) : Changes gr v (s.onRun f).view := by
  have h1 := h.step (.run s.view st (fun _ => .inl ha) (.inr (.inr ha)))
  refine h1.to ?_
  simp [State.view, State.onRun, hs, hc, State.repliesOwed]


theorem changes_enterDone {t : Termination} (h : Changes gr v s.view) : Changes gr v (s.enterDone t).view := by
  unfold State.enterDone
  dsimp only
  apply changes_printRunEnds
  apply changes_raise
  apply changes_onArith
  refine changes_onHv ?_ fun _ => rfl
  apply changes_sweepRest
  apply changes_dropReads
  refine changes_runDone ?_ rfl rfl
  apply changes_finalise
  split
  · exact changes_stepEnd h
  · exact h

theorem changes_enterPaused {c : PauseCause} {w : RunWait} (h : Changes gr v s.view) :
    Changes gr v (s.enterPaused c w).view := by
  unfold State.enterPaused
  split
  · rename_i hr
    exact changes_raise (changes_runActive h rfl rfl (by rw [hr]; rfl))
  · exact h

theorem changes_enterStalled (h : Changes gr v s.view) : Changes gr v s.enterStalled.view := by
  unfold State.enterStalled
  split
  · rename_i hr
    exact changes_raise (changes_runActive h rfl rfl (by rw [hr]; rfl))
  · exact h

theorem changes_askStep {index : Nat} (h : Changes gr v s.view) : Changes gr v (s.askStep index).view := by
  unfold State.askStep
  try dsimp only
  all_goals
    repeat first
      | with_reducible exact h
      | ((with_reducible refine changes_onRun ?_ ?_); on_goal 2 => exact fun _ => rfl)
      | ((with_reducible refine changes_askRead ?_ ?_); on_goal 2 => rfl)

theorem changes_stepBoundary (h : Changes gr v s.view) : Changes gr v s.stepBoundary.view := by
  unfold State.stepBoundary
  try dsimp only
  repeat' split
  all_goals
    repeat first
      | with_reducible exact h
      | with_reducible apply changes_bound
      | with_reducible apply changes_enterDone
      | with_reducible apply changes_enterPaused
      | with_reducible apply changes_askStep

theorem changes_stepFinished (h : Changes gr v s.view) : Changes gr v s.stepFinished.view := by
  unfold State.stepFinished
  try dsimp only
  all_goals
    repeat first
      | with_reducible exact h
      | with_reducible apply changes_sweepRest
      | ((with_reducible refine changes_onHv ?_ ?_); on_goal 2 => exact fun _ => rfl)
      | with_reducible apply changes_stepEnd
      | with_reducible apply changes_stepBoundary

theorem changes_runBoundary {last : Bool} {goOn : State → State} (h : Changes gr v s.view)
    (hg : ∀ x : State, Changes gr v x.view → Changes gr v (goOn x).view) :
    Changes gr v (s.runBoundary last goOn).view := by
  unfold State.runBoundary
  repeat' split
  all_goals
    repeat first
      | with_reducible exact h
      | with_reducible apply changes_enterDone
      | with_reducible apply changes_stepFinished
      | with_reducible apply changes_enterPaused
      | exact hg _ h

/-! ### The insert of a defect (R144) -/

theorem findKey_none {ds : List Defect} {k : DefectKey} (h : ¬(findKey ds k).isSome = true) :
    ∀ e ∈ ds, e.key ≠ k := by
  intro e he hk
  have hn : findKey ds k = none := by
    cases hf : findKey ds k with
    | none => rfl
    | some x => simp [hf] at h
  have := (List.find?_eq_none.mp hn) e he
  simp [hk] at this

theorem changes_merge {k : DefectKey} {r : Insert} {step : Nat} (h : Changes gr v s.view) :
    Changes gr v (s.onDefects fun ds => changeKey ds k fun d => d.merge r step).view := by
  have h1 := h.step (.amends s.view (fun d => if d.key = k then d.merge r step else d) fun d => by
    split <;> simp_all [Defect.merge, Defect.again])
  exact h1.to rfl

theorem changes_insert {r : Insert} (h : Changes gr v s.view) : Changes gr v (s.insert r).1.view := by
  unfold State.insert
  dsimp only
  split
  · exact changes_onRun (changes_merge h) fun _ => rfl
  · rename_i hk
    split
    · exact h
    · rename_i hl
      split
      · split
        · exact changes_enterStalled (h.same rfl)
        · exact h.same rfl
      · rename_i hd
        have h1 := h.step (.appends s.view (Defect.ofInsert r (s.run.summary.defects + 1) (s.run.step.getD 0)
          s.run.correlate) rfl (by simpa [defectCapacity, State.view] using hd)
          (by simpa [State.view] using hl) (findKey_none hk) ⟨rfl, rfl⟩)
        have h2 : Changes gr v ((s.onDefects fun ds => ds ++ [Defect.ofInsert r (s.run.summary.defects + 1)
          (s.run.step.getD 0) s.run.correlate]).onRun fun x => x.inserted.appended).view := h1.to rfl
        split
        · exact changes_raise h2
        · exact changes_printLook (changes_raise h2)

/-! ### Responses, faults and HOME (R40, R43, R62, R177, R179) -/

/-- The HV state changes among the states that are not SAFE, and not to STUCK. -/
theorem changes_toDischarge {f : Hv → Hv} (h : Changes gr v s.view) (hs : s.hv.state ≠ .safe)
    (hf : ∀ x, (f x).state = .discharge ∧ (f x).keepalive = x.keepalive ∧ (f x).window = x.window) :
    Changes gr v (s.onHv f).view := by
  have h1 := h.step (.hv s.view .discharge (fun e => absurd e hs) (by simp) (by simp))
  refine h1.to ?_
  simp [State.view, State.onHv, hf, State.repliesOwed]

theorem changes_hvAbandon (h : Changes gr v s.view) : Changes gr v s.hvAbandon.view := by
  unfold State.hvAbandon
  dsimp only
  refine changes_onArith (changes_onHv ?_ fun _ => rfl)
  split
  · exact h.same rfl
  · rename_i hs
    exact changes_onArith (changes_placeHvc (changes_toDischarge h (by rw [hs]; simp) fun _ => ⟨rfl, rfl, rfl⟩))
  · rename_i hs
    exact changes_onArith (changes_placeHvc (changes_toDischarge h (by rw [hs]; simp) fun _ => ⟨rfl, rfl, rfl⟩))
  · exact h.same rfl
  · exact h

theorem changes_response (h : Changes gr v s.view) : Changes gr v s.response.view := by
  unfold State.response
  try dsimp only
  repeat' split
  all_goals
    repeat first
      | with_reducible exact h
      | with_reducible apply changes_dropMsr
      | with_reducible apply changes_abandonConfiguration
      | with_reducible apply changes_dropReads
      | with_reducible apply changes_sweepRest
      | with_reducible apply changes_onArith
      | ((with_reducible refine changes_onRun ?_ ?_); on_goal 2 => exact fun _ => rfl)
      | with_reducible apply changes_hvAbandon
      | with_reducible apply changes_requestHome

theorem changes_beginAbort {c : AbortCause} (h : Changes gr v s.view) : Changes gr v (s.beginAbort c).view := by
  unfold State.beginAbort
  split
  · rename_i ha
    exact changes_response (changes_runActive h rfl rfl ha)
  · exact h

/-! The run state through the operations of a report -/

theorem noticeDue_run : s.noticeDue.run = s.run := by
  unfold State.noticeDue
  dsimp only
  repeat' split
  all_goals rfl

theorem raise_run {e : Event} : (s.raise e).run = s.run := by
  unfold State.raise
  dsimp only
  repeat' split
  · rfl
  · rfl
  · exact noticeDue_run

theorem beginChar_run : s.beginChar.run = s.run := by
  unfold State.beginChar
  split <;> rfl

theorem startSending_run {b : Bool} : (s.startSending b).run = s.run := beginChar_run

theorem lineComplete_run {b : Bool} {t : List Byte} : (s.lineComplete b t).run = s.run := by
  unfold State.lineComplete
  dsimp only
  split
  · exact startSending_run
  · rfl

theorem recordComplete_run {t : List Byte} : (s.recordComplete t).run = s.run := by
  unfold State.recordComplete
  split
  · rfl
  · exact lineComplete_run

theorem formatValue_run : s.formatValue.run = s.run := by
  unfold State.formatValue
  repeat' split
  · rfl
  · rfl
  · exact recordComplete_run

theorem formatNetB_run : s.formatNetB.run = s.run := by
  unfold State.formatNetB
  repeat' split
  · rfl
  · exact formatValue_run
  · rfl
  · exact formatValue_run

theorem formatNetA_run : s.formatNetA.run = s.run := by
  unfold State.formatNetA
  dsimp only
  repeat' split
  · rfl
  · rfl
  · exact formatNetB_run

theorem beginLine_run {start : State → State} (h : (start s).run = s.run) : (s.beginLine start).run = s.run := by
  unfold State.beginLine
  split
  · rfl
  · exact h

theorem look_run (n : Nat) : (s.look n).run = s.run := by
  induction n generalizing s with
  | zero => rfl
  | succ n ih =>
    rw [State.look]
    dsimp only
    repeat' split
    all_goals
      first
        | rfl
        | exact ih.trans rfl
        | exact beginLine_run rfl
        | exact beginLine_run formatNetA_run

theorem printRunEnds_run {t : Termination} : (s.printRunEnds t).run = s.run := by
  unfold State.printRunEnds State.printLook
  dsimp only
  split
  · exact look_run _
  · exact look_run _

/-- The run is DONE once it has entered DONE. -/
theorem enterDone_state {t : Termination} : (s.enterDone t).run.state = .done := by
  unfold State.enterDone
  dsimp only
  rw [printRunEnds_run, raise_run]
  rfl

theorem changes_homeOver (h : Changes gr v s.view) (hh : s.seq.state = .homing) :
    Changes gr v (s.onSeq Sequencer.homeOver).view :=
  (h.step (.homeOver s.view hh)).to rfl

theorem changes_setSafeHalt (h : Changes gr v s.view) (hd : s.run.state = .done) :
    Changes gr v s.setSafeHalt.view := by
  have h0 : Changes gr v (s.onFault fun f => { f with safeHalt := true }).view := (h.step (.halt s.view hd)).to rfl
  have h2 := changes_abandonConfiguration (changes_raise (e := .safeHalt) h0)
  unfold State.setSafeHalt
  dsimp only
  refine changes_onHv ?_ fun _ => rfl
  apply changes_hvAbandon
  refine changes_leave ?_ (List.Sublist.refl _) List.filter_sublist rfl
  refine changes_onSup ?_ fun _ => rfl
  apply changes_dropMsr
  split
  · rename_i hh
    exact changes_leave (changes_homeOver h2 hh) (List.Sublist.refl _) List.filter_sublist rfl
  · exact h2

theorem changes_reportFault {r : FaultReport} (h : Changes gr v s.view) : Changes gr v (s.reportFault r).view := by
  unfold State.reportFault
  dsimp only
  have h1 : ∀ st, Changes gr v ((s.onFault fun f => f.report st r).raise .fault).view := fun st => by
    apply changes_raise
    refine h.same ?_
    simp only [State.view, State.onFault, State.repliesOwed, FaultMon.report]
    congr 1
    split <;> rfl
  generalize (if s.run.active = true then s.run.step else none) = st
  split
  · exact h1 st
  · split
    · exact changes_setSafeHalt (changes_enterDone (h1 st)) enterDone_state
    · split
      · exact changes_enterDone (h1 st)
      · exact changes_beginAbort (h1 st)

theorem changes_tableParity {k : TableKind} {i : Nat} {p : Option Nat} (h : Changes gr v s.view) :
    Changes gr v (s.tableParity k i p).view := changes_reportFault h

theorem changes_runHomeEnded (h : Changes gr v s.view) : Changes gr v s.runHomeEnded.view := by
  unfold State.runHomeEnded
  try dsimp only
  repeat' split
  all_goals
    repeat first
      | with_reducible exact h
      | with_reducible apply changes_enterPaused
      | with_reducible apply changes_askStep
      | with_reducible apply changes_enterDone

theorem changes_homeEnd (h : Changes gr v s.view) (hh : s.seq.state = .homing) : Changes gr v s.homeEnd.view :=
  changes_runHomeEnded (changes_homeOver h hh)

theorem changes_homeCut (h : Changes gr v s.view) : Changes gr v s.homeCut.view := by
  unfold State.homeCut
  split
  · exact changes_homeEnd h ‹_›
  · exact h

end Sys2Proof.Machine
end

