-- ==== Sys2Proof/Laws/State.lean ====
section
/-! SUPPORT. One lemma for each field of the state and each update of one block: what the update leaves of
the field, true by definition. -/

namespace Sys2Proof.Machine

/-! ### onMem -/

@[simp] theorem State.onMem_mem (s : State) (f : TableMem → TableMem) : (s.onMem f).mem = f s.mem := rfl
@[simp] theorem State.onMem_port (s : State) (f : TableMem → TableMem) : (s.onMem f).port = s.port := rfl
@[simp] theorem State.onMem_tables (s : State) (f : TableMem → TableMem) : (s.onMem f).tables = s.tables := rfl
@[simp] theorem State.onMem_limits (s : State) (f : TableMem → TableMem) : (s.onMem f).limits = s.limits := rfl
@[simp] theorem State.onMem_cache (s : State) (f : TableMem → TableMem) : (s.onMem f).cache = s.cache := rfl
@[simp] theorem State.onMem_ring (s : State) (f : TableMem → TableMem) : (s.onMem f).ring = s.ring := rfl
@[simp] theorem State.onMem_trunk (s : State) (f : TableMem → TableMem) : (s.onMem f).trunk = s.trunk := rfl
@[simp] theorem State.onMem_sup (s : State) (f : TableMem → TableMem) : (s.onMem f).sup = s.sup := rfl
@[simp] theorem State.onMem_seq (s : State) (f : TableMem → TableMem) : (s.onMem f).seq = s.seq := rfl
@[simp] theorem State.onMem_mc (s : State) (f : TableMem → TableMem) : (s.onMem f).mc = s.mc := rfl
@[simp] theorem State.onMem_arith (s : State) (f : TableMem → TableMem) : (s.onMem f).arith = s.arith := rfl
@[simp] theorem State.onMem_sweep (s : State) (f : TableMem → TableMem) : (s.onMem f).sweep = s.sweep := rfl
@[simp] theorem State.onMem_hv (s : State) (f : TableMem → TableMem) : (s.onMem f).hv = s.hv := rfl
@[simp] theorem State.onMem_run (s : State) (f : TableMem → TableMem) : (s.onMem f).run = s.run := rfl
@[simp] theorem State.onMem_defects (s : State) (f : TableMem → TableMem) : (s.onMem f).defects = s.defects := rfl
@[simp] theorem State.onMem_print (s : State) (f : TableMem → TableMem) : (s.onMem f).print = s.print := rfl
@[simp] theorem State.onMem_events (s : State) (f : TableMem → TableMem) : (s.onMem f).events = s.events := rfl
@[simp] theorem State.onMem_fault (s : State) (f : TableMem → TableMem) : (s.onMem f).fault = s.fault := rfl
@[simp] theorem State.onMem_rst (s : State) (f : TableMem → TableMem) : (s.onMem f).rst = s.rst := rfl
@[simp] theorem State.onMem_pins (s : State) (f : TableMem → TableMem) : (s.onMem f).pins = s.pins := rfl
@[simp] theorem State.onMem_torn (s : State) (f : TableMem → TableMem) : (s.onMem f).torn = s.torn := rfl
@[simp] theorem State.onMem_pending (s : State) (f : TableMem → TableMem) : (s.onMem f).pending = s.pending := rfl

/-! ### onPort -/

@[simp] theorem State.onPort_mem (s : State) (f : Port → Port) : (s.onPort f).mem = s.mem := rfl
@[simp] theorem State.onPort_port (s : State) (f : Port → Port) : (s.onPort f).port = f s.port := rfl
@[simp] theorem State.onPort_tables (s : State) (f : Port → Port) : (s.onPort f).tables = s.tables := rfl
@[simp] theorem State.onPort_limits (s : State) (f : Port → Port) : (s.onPort f).limits = s.limits := rfl
@[simp] theorem State.onPort_cache (s : State) (f : Port → Port) : (s.onPort f).cache = s.cache := rfl
@[simp] theorem State.onPort_ring (s : State) (f : Port → Port) : (s.onPort f).ring = s.ring := rfl
@[simp] theorem State.onPort_trunk (s : State) (f : Port → Port) : (s.onPort f).trunk = s.trunk := rfl
@[simp] theorem State.onPort_sup (s : State) (f : Port → Port) : (s.onPort f).sup = s.sup := rfl
@[simp] theorem State.onPort_seq (s : State) (f : Port → Port) : (s.onPort f).seq = s.seq := rfl
@[simp] theorem State.onPort_mc (s : State) (f : Port → Port) : (s.onPort f).mc = s.mc := rfl
@[simp] theorem State.onPort_arith (s : State) (f : Port → Port) : (s.onPort f).arith = s.arith := rfl
@[simp] theorem State.onPort_sweep (s : State) (f : Port → Port) : (s.onPort f).sweep = s.sweep := rfl
@[simp] theorem State.onPort_hv (s : State) (f : Port → Port) : (s.onPort f).hv = s.hv := rfl
@[simp] theorem State.onPort_run (s : State) (f : Port → Port) : (s.onPort f).run = s.run := rfl
@[simp] theorem State.onPort_defects (s : State) (f : Port → Port) : (s.onPort f).defects = s.defects := rfl
@[simp] theorem State.onPort_print (s : State) (f : Port → Port) : (s.onPort f).print = s.print := rfl
@[simp] theorem State.onPort_events (s : State) (f : Port → Port) : (s.onPort f).events = s.events := rfl
@[simp] theorem State.onPort_fault (s : State) (f : Port → Port) : (s.onPort f).fault = s.fault := rfl
@[simp] theorem State.onPort_rst (s : State) (f : Port → Port) : (s.onPort f).rst = s.rst := rfl
@[simp] theorem State.onPort_pins (s : State) (f : Port → Port) : (s.onPort f).pins = s.pins := rfl
@[simp] theorem State.onPort_torn (s : State) (f : Port → Port) : (s.onPort f).torn = s.torn := rfl
@[simp] theorem State.onPort_pending (s : State) (f : Port → Port) : (s.onPort f).pending = s.pending := rfl

/-! ### onTables -/

@[simp] theorem State.onTables_mem (s : State) (f : Tables → Tables) : (s.onTables f).mem = s.mem := rfl
@[simp] theorem State.onTables_port (s : State) (f : Tables → Tables) : (s.onTables f).port = s.port := rfl
@[simp] theorem State.onTables_tables (s : State) (f : Tables → Tables) : (s.onTables f).tables = f s.tables := rfl
@[simp] theorem State.onTables_limits (s : State) (f : Tables → Tables) : (s.onTables f).limits = s.limits := rfl
@[simp] theorem State.onTables_cache (s : State) (f : Tables → Tables) : (s.onTables f).cache = s.cache := rfl
@[simp] theorem State.onTables_ring (s : State) (f : Tables → Tables) : (s.onTables f).ring = s.ring := rfl
@[simp] theorem State.onTables_trunk (s : State) (f : Tables → Tables) : (s.onTables f).trunk = s.trunk := rfl
@[simp] theorem State.onTables_sup (s : State) (f : Tables → Tables) : (s.onTables f).sup = s.sup := rfl
@[simp] theorem State.onTables_seq (s : State) (f : Tables → Tables) : (s.onTables f).seq = s.seq := rfl
@[simp] theorem State.onTables_mc (s : State) (f : Tables → Tables) : (s.onTables f).mc = s.mc := rfl
@[simp] theorem State.onTables_arith (s : State) (f : Tables → Tables) : (s.onTables f).arith = s.arith := rfl
@[simp] theorem State.onTables_sweep (s : State) (f : Tables → Tables) : (s.onTables f).sweep = s.sweep := rfl
@[simp] theorem State.onTables_hv (s : State) (f : Tables → Tables) : (s.onTables f).hv = s.hv := rfl
@[simp] theorem State.onTables_run (s : State) (f : Tables → Tables) : (s.onTables f).run = s.run := rfl
@[simp] theorem State.onTables_defects (s : State) (f : Tables → Tables) : (s.onTables f).defects = s.defects := rfl
@[simp] theorem State.onTables_print (s : State) (f : Tables → Tables) : (s.onTables f).print = s.print := rfl
@[simp] theorem State.onTables_events (s : State) (f : Tables → Tables) : (s.onTables f).events = s.events := rfl
@[simp] theorem State.onTables_fault (s : State) (f : Tables → Tables) : (s.onTables f).fault = s.fault := rfl
@[simp] theorem State.onTables_rst (s : State) (f : Tables → Tables) : (s.onTables f).rst = s.rst := rfl
@[simp] theorem State.onTables_pins (s : State) (f : Tables → Tables) : (s.onTables f).pins = s.pins := rfl
@[simp] theorem State.onTables_torn (s : State) (f : Tables → Tables) : (s.onTables f).torn = s.torn := rfl
@[simp] theorem State.onTables_pending (s : State) (f : Tables → Tables) : (s.onTables f).pending = s.pending := rfl

/-! ### onLimits -/

@[simp] theorem State.onLimits_mem (s : State) (f : Limits → Limits) : (s.onLimits f).mem = s.mem := rfl
@[simp] theorem State.onLimits_port (s : State) (f : Limits → Limits) : (s.onLimits f).port = s.port := rfl
@[simp] theorem State.onLimits_tables (s : State) (f : Limits → Limits) : (s.onLimits f).tables = s.tables := rfl
@[simp] theorem State.onLimits_limits (s : State) (f : Limits → Limits) : (s.onLimits f).limits = f s.limits := rfl
@[simp] theorem State.onLimits_cache (s : State) (f : Limits → Limits) : (s.onLimits f).cache = s.cache := rfl
@[simp] theorem State.onLimits_ring (s : State) (f : Limits → Limits) : (s.onLimits f).ring = s.ring := rfl
@[simp] theorem State.onLimits_trunk (s : State) (f : Limits → Limits) : (s.onLimits f).trunk = s.trunk := rfl
@[simp] theorem State.onLimits_sup (s : State) (f : Limits → Limits) : (s.onLimits f).sup = s.sup := rfl
@[simp] theorem State.onLimits_seq (s : State) (f : Limits → Limits) : (s.onLimits f).seq = s.seq := rfl
@[simp] theorem State.onLimits_mc (s : State) (f : Limits → Limits) : (s.onLimits f).mc = s.mc := rfl
@[simp] theorem State.onLimits_arith (s : State) (f : Limits → Limits) : (s.onLimits f).arith = s.arith := rfl
@[simp] theorem State.onLimits_sweep (s : State) (f : Limits → Limits) : (s.onLimits f).sweep = s.sweep := rfl
@[simp] theorem State.onLimits_hv (s : State) (f : Limits → Limits) : (s.onLimits f).hv = s.hv := rfl
@[simp] theorem State.onLimits_run (s : State) (f : Limits → Limits) : (s.onLimits f).run = s.run := rfl
@[simp] theorem State.onLimits_defects (s : State) (f : Limits → Limits) : (s.onLimits f).defects = s.defects := rfl
@[simp] theorem State.onLimits_print (s : State) (f : Limits → Limits) : (s.onLimits f).print = s.print := rfl
@[simp] theorem State.onLimits_events (s : State) (f : Limits → Limits) : (s.onLimits f).events = s.events := rfl
@[simp] theorem State.onLimits_fault (s : State) (f : Limits → Limits) : (s.onLimits f).fault = s.fault := rfl
@[simp] theorem State.onLimits_rst (s : State) (f : Limits → Limits) : (s.onLimits f).rst = s.rst := rfl
@[simp] theorem State.onLimits_pins (s : State) (f : Limits → Limits) : (s.onLimits f).pins = s.pins := rfl
@[simp] theorem State.onLimits_torn (s : State) (f : Limits → Limits) : (s.onLimits f).torn = s.torn := rfl
@[simp] theorem State.onLimits_pending (s : State) (f : Limits → Limits) : (s.onLimits f).pending = s.pending := rfl

/-! ### onCache -/

@[simp] theorem State.onCache_mem (s : State) (f : Cache → Cache) : (s.onCache f).mem = s.mem := rfl
@[simp] theorem State.onCache_port (s : State) (f : Cache → Cache) : (s.onCache f).port = s.port := rfl
@[simp] theorem State.onCache_tables (s : State) (f : Cache → Cache) : (s.onCache f).tables = s.tables := rfl
@[simp] theorem State.onCache_limits (s : State) (f : Cache → Cache) : (s.onCache f).limits = s.limits := rfl
@[simp] theorem State.onCache_cache (s : State) (f : Cache → Cache) : (s.onCache f).cache = f s.cache := rfl
@[simp] theorem State.onCache_ring (s : State) (f : Cache → Cache) : (s.onCache f).ring = s.ring := rfl
@[simp] theorem State.onCache_trunk (s : State) (f : Cache → Cache) : (s.onCache f).trunk = s.trunk := rfl
@[simp] theorem State.onCache_sup (s : State) (f : Cache → Cache) : (s.onCache f).sup = s.sup := rfl
@[simp] theorem State.onCache_seq (s : State) (f : Cache → Cache) : (s.onCache f).seq = s.seq := rfl
@[simp] theorem State.onCache_mc (s : State) (f : Cache → Cache) : (s.onCache f).mc = s.mc := rfl
@[simp] theorem State.onCache_arith (s : State) (f : Cache → Cache) : (s.onCache f).arith = s.arith := rfl
@[simp] theorem State.onCache_sweep (s : State) (f : Cache → Cache) : (s.onCache f).sweep = s.sweep := rfl
@[simp] theorem State.onCache_hv (s : State) (f : Cache → Cache) : (s.onCache f).hv = s.hv := rfl
@[simp] theorem State.onCache_run (s : State) (f : Cache → Cache) : (s.onCache f).run = s.run := rfl
@[simp] theorem State.onCache_defects (s : State) (f : Cache → Cache) : (s.onCache f).defects = s.defects := rfl
@[simp] theorem State.onCache_print (s : State) (f : Cache → Cache) : (s.onCache f).print = s.print := rfl
@[simp] theorem State.onCache_events (s : State) (f : Cache → Cache) : (s.onCache f).events = s.events := rfl
@[simp] theorem State.onCache_fault (s : State) (f : Cache → Cache) : (s.onCache f).fault = s.fault := rfl
@[simp] theorem State.onCache_rst (s : State) (f : Cache → Cache) : (s.onCache f).rst = s.rst := rfl
@[simp] theorem State.onCache_pins (s : State) (f : Cache → Cache) : (s.onCache f).pins = s.pins := rfl
@[simp] theorem State.onCache_torn (s : State) (f : Cache → Cache) : (s.onCache f).torn = s.torn := rfl
@[simp] theorem State.onCache_pending (s : State) (f : Cache → Cache) : (s.onCache f).pending = s.pending := rfl

/-! ### onRing -/

@[simp] theorem State.onRing_mem (s : State) (f : Ring → Ring) : (s.onRing f).mem = s.mem := rfl
@[simp] theorem State.onRing_port (s : State) (f : Ring → Ring) : (s.onRing f).port = s.port := rfl
@[simp] theorem State.onRing_tables (s : State) (f : Ring → Ring) : (s.onRing f).tables = s.tables := rfl
@[simp] theorem State.onRing_limits (s : State) (f : Ring → Ring) : (s.onRing f).limits = s.limits := rfl
@[simp] theorem State.onRing_cache (s : State) (f : Ring → Ring) : (s.onRing f).cache = s.cache := rfl
@[simp] theorem State.onRing_ring (s : State) (f : Ring → Ring) : (s.onRing f).ring = f s.ring := rfl
@[simp] theorem State.onRing_trunk (s : State) (f : Ring → Ring) : (s.onRing f).trunk = s.trunk := rfl
@[simp] theorem State.onRing_sup (s : State) (f : Ring → Ring) : (s.onRing f).sup = s.sup := rfl
@[simp] theorem State.onRing_seq (s : State) (f : Ring → Ring) : (s.onRing f).seq = s.seq := rfl
@[simp] theorem State.onRing_mc (s : State) (f : Ring → Ring) : (s.onRing f).mc = s.mc := rfl
@[simp] theorem State.onRing_arith (s : State) (f : Ring → Ring) : (s.onRing f).arith = s.arith := rfl
@[simp] theorem State.onRing_sweep (s : State) (f : Ring → Ring) : (s.onRing f).sweep = s.sweep := rfl
@[simp] theorem State.onRing_hv (s : State) (f : Ring → Ring) : (s.onRing f).hv = s.hv := rfl
@[simp] theorem State.onRing_run (s : State) (f : Ring → Ring) : (s.onRing f).run = s.run := rfl
@[simp] theorem State.onRing_defects (s : State) (f : Ring → Ring) : (s.onRing f).defects = s.defects := rfl
@[simp] theorem State.onRing_print (s : State) (f : Ring → Ring) : (s.onRing f).print = s.print := rfl
@[simp] theorem State.onRing_events (s : State) (f : Ring → Ring) : (s.onRing f).events = s.events := rfl
@[simp] theorem State.onRing_fault (s : State) (f : Ring → Ring) : (s.onRing f).fault = s.fault := rfl
@[simp] theorem State.onRing_rst (s : State) (f : Ring → Ring) : (s.onRing f).rst = s.rst := rfl
@[simp] theorem State.onRing_pins (s : State) (f : Ring → Ring) : (s.onRing f).pins = s.pins := rfl
@[simp] theorem State.onRing_torn (s : State) (f : Ring → Ring) : (s.onRing f).torn = s.torn := rfl
@[simp] theorem State.onRing_pending (s : State) (f : Ring → Ring) : (s.onRing f).pending = s.pending := rfl

/-! ### onTrunk -/

@[simp] theorem State.onTrunk_mem (s : State) (f : Trunk → Trunk) : (s.onTrunk f).mem = s.mem := rfl
@[simp] theorem State.onTrunk_port (s : State) (f : Trunk → Trunk) : (s.onTrunk f).port = s.port := rfl
@[simp] theorem State.onTrunk_tables (s : State) (f : Trunk → Trunk) : (s.onTrunk f).tables = s.tables := rfl
@[simp] theorem State.onTrunk_limits (s : State) (f : Trunk → Trunk) : (s.onTrunk f).limits = s.limits := rfl
@[simp] theorem State.onTrunk_cache (s : State) (f : Trunk → Trunk) : (s.onTrunk f).cache = s.cache := rfl
@[simp] theorem State.onTrunk_ring (s : State) (f : Trunk → Trunk) : (s.onTrunk f).ring = s.ring := rfl
@[simp] theorem State.onTrunk_trunk (s : State) (f : Trunk → Trunk) : (s.onTrunk f).trunk = f s.trunk := rfl
@[simp] theorem State.onTrunk_sup (s : State) (f : Trunk → Trunk) : (s.onTrunk f).sup = s.sup := rfl
@[simp] theorem State.onTrunk_seq (s : State) (f : Trunk → Trunk) : (s.onTrunk f).seq = s.seq := rfl
@[simp] theorem State.onTrunk_mc (s : State) (f : Trunk → Trunk) : (s.onTrunk f).mc = s.mc := rfl
@[simp] theorem State.onTrunk_arith (s : State) (f : Trunk → Trunk) : (s.onTrunk f).arith = s.arith := rfl
@[simp] theorem State.onTrunk_sweep (s : State) (f : Trunk → Trunk) : (s.onTrunk f).sweep = s.sweep := rfl
@[simp] theorem State.onTrunk_hv (s : State) (f : Trunk → Trunk) : (s.onTrunk f).hv = s.hv := rfl
@[simp] theorem State.onTrunk_run (s : State) (f : Trunk → Trunk) : (s.onTrunk f).run = s.run := rfl
@[simp] theorem State.onTrunk_defects (s : State) (f : Trunk → Trunk) : (s.onTrunk f).defects = s.defects := rfl
@[simp] theorem State.onTrunk_print (s : State) (f : Trunk → Trunk) : (s.onTrunk f).print = s.print := rfl
@[simp] theorem State.onTrunk_events (s : State) (f : Trunk → Trunk) : (s.onTrunk f).events = s.events := rfl
@[simp] theorem State.onTrunk_fault (s : State) (f : Trunk → Trunk) : (s.onTrunk f).fault = s.fault := rfl
@[simp] theorem State.onTrunk_rst (s : State) (f : Trunk → Trunk) : (s.onTrunk f).rst = s.rst := rfl
@[simp] theorem State.onTrunk_pins (s : State) (f : Trunk → Trunk) : (s.onTrunk f).pins = s.pins := rfl
@[simp] theorem State.onTrunk_torn (s : State) (f : Trunk → Trunk) : (s.onTrunk f).torn = s.torn := rfl
@[simp] theorem State.onTrunk_pending (s : State) (f : Trunk → Trunk) : (s.onTrunk f).pending = s.pending := rfl

/-! ### onSup -/

@[simp] theorem State.onSup_mem (s : State) (f : Supervisor → Supervisor) : (s.onSup f).mem = s.mem := rfl
@[simp] theorem State.onSup_port (s : State) (f : Supervisor → Supervisor) : (s.onSup f).port = s.port := rfl
@[simp] theorem State.onSup_tables (s : State) (f : Supervisor → Supervisor) : (s.onSup f).tables = s.tables := rfl
@[simp] theorem State.onSup_limits (s : State) (f : Supervisor → Supervisor) : (s.onSup f).limits = s.limits := rfl
@[simp] theorem State.onSup_cache (s : State) (f : Supervisor → Supervisor) : (s.onSup f).cache = s.cache := rfl
@[simp] theorem State.onSup_ring (s : State) (f : Supervisor → Supervisor) : (s.onSup f).ring = s.ring := rfl
@[simp] theorem State.onSup_trunk (s : State) (f : Supervisor → Supervisor) : (s.onSup f).trunk = s.trunk := rfl
@[simp] theorem State.onSup_sup (s : State) (f : Supervisor → Supervisor) : (s.onSup f).sup = f s.sup := rfl
@[simp] theorem State.onSup_seq (s : State) (f : Supervisor → Supervisor) : (s.onSup f).seq = s.seq := rfl
@[simp] theorem State.onSup_mc (s : State) (f : Supervisor → Supervisor) : (s.onSup f).mc = s.mc := rfl
@[simp] theorem State.onSup_arith (s : State) (f : Supervisor → Supervisor) : (s.onSup f).arith = s.arith := rfl
@[simp] theorem State.onSup_sweep (s : State) (f : Supervisor → Supervisor) : (s.onSup f).sweep = s.sweep := rfl
@[simp] theorem State.onSup_hv (s : State) (f : Supervisor → Supervisor) : (s.onSup f).hv = s.hv := rfl
@[simp] theorem State.onSup_run (s : State) (f : Supervisor → Supervisor) : (s.onSup f).run = s.run := rfl
@[simp] theorem State.onSup_defects (s : State) (f : Supervisor → Supervisor) : (s.onSup f).defects = s.defects := rfl
@[simp] theorem State.onSup_print (s : State) (f : Supervisor → Supervisor) : (s.onSup f).print = s.print := rfl
@[simp] theorem State.onSup_events (s : State) (f : Supervisor → Supervisor) : (s.onSup f).events = s.events := rfl
@[simp] theorem State.onSup_fault (s : State) (f : Supervisor → Supervisor) : (s.onSup f).fault = s.fault := rfl
@[simp] theorem State.onSup_rst (s : State) (f : Supervisor → Supervisor) : (s.onSup f).rst = s.rst := rfl
@[simp] theorem State.onSup_pins (s : State) (f : Supervisor → Supervisor) : (s.onSup f).pins = s.pins := rfl
@[simp] theorem State.onSup_torn (s : State) (f : Supervisor → Supervisor) : (s.onSup f).torn = s.torn := rfl
@[simp] theorem State.onSup_pending (s : State) (f : Supervisor → Supervisor) : (s.onSup f).pending = s.pending := rfl

/-! ### onSeq -/

@[simp] theorem State.onSeq_mem (s : State) (f : Sequencer → Sequencer) : (s.onSeq f).mem = s.mem := rfl
@[simp] theorem State.onSeq_port (s : State) (f : Sequencer → Sequencer) : (s.onSeq f).port = s.port := rfl
@[simp] theorem State.onSeq_tables (s : State) (f : Sequencer → Sequencer) : (s.onSeq f).tables = s.tables := rfl
@[simp] theorem State.onSeq_limits (s : State) (f : Sequencer → Sequencer) : (s.onSeq f).limits = s.limits := rfl
@[simp] theorem State.onSeq_cache (s : State) (f : Sequencer → Sequencer) : (s.onSeq f).cache = s.cache := rfl
@[simp] theorem State.onSeq_ring (s : State) (f : Sequencer → Sequencer) : (s.onSeq f).ring = s.ring := rfl
@[simp] theorem State.onSeq_trunk (s : State) (f : Sequencer → Sequencer) : (s.onSeq f).trunk = s.trunk := rfl
@[simp] theorem State.onSeq_sup (s : State) (f : Sequencer → Sequencer) : (s.onSeq f).sup = s.sup := rfl
@[simp] theorem State.onSeq_seq (s : State) (f : Sequencer → Sequencer) : (s.onSeq f).seq = f s.seq := rfl
@[simp] theorem State.onSeq_mc (s : State) (f : Sequencer → Sequencer) : (s.onSeq f).mc = s.mc := rfl
@[simp] theorem State.onSeq_arith (s : State) (f : Sequencer → Sequencer) : (s.onSeq f).arith = s.arith := rfl
@[simp] theorem State.onSeq_sweep (s : State) (f : Sequencer → Sequencer) : (s.onSeq f).sweep = s.sweep := rfl
@[simp] theorem State.onSeq_hv (s : State) (f : Sequencer → Sequencer) : (s.onSeq f).hv = s.hv := rfl
@[simp] theorem State.onSeq_run (s : State) (f : Sequencer → Sequencer) : (s.onSeq f).run = s.run := rfl
@[simp] theorem State.onSeq_defects (s : State) (f : Sequencer → Sequencer) : (s.onSeq f).defects = s.defects := rfl
@[simp] theorem State.onSeq_print (s : State) (f : Sequencer → Sequencer) : (s.onSeq f).print = s.print := rfl
@[simp] theorem State.onSeq_events (s : State) (f : Sequencer → Sequencer) : (s.onSeq f).events = s.events := rfl
@[simp] theorem State.onSeq_fault (s : State) (f : Sequencer → Sequencer) : (s.onSeq f).fault = s.fault := rfl
@[simp] theorem State.onSeq_rst (s : State) (f : Sequencer → Sequencer) : (s.onSeq f).rst = s.rst := rfl
@[simp] theorem State.onSeq_pins (s : State) (f : Sequencer → Sequencer) : (s.onSeq f).pins = s.pins := rfl
@[simp] theorem State.onSeq_torn (s : State) (f : Sequencer → Sequencer) : (s.onSeq f).torn = s.torn := rfl
@[simp] theorem State.onSeq_pending (s : State) (f : Sequencer → Sequencer) : (s.onSeq f).pending = s.pending := rfl

/-! ### onMc -/

@[simp] theorem State.onMc_mem (s : State) (f : Measure → Measure) : (s.onMc f).mem = s.mem := rfl
@[simp] theorem State.onMc_port (s : State) (f : Measure → Measure) : (s.onMc f).port = s.port := rfl
@[simp] theorem State.onMc_tables (s : State) (f : Measure → Measure) : (s.onMc f).tables = s.tables := rfl
@[simp] theorem State.onMc_limits (s : State) (f : Measure → Measure) : (s.onMc f).limits = s.limits := rfl
@[simp] theorem State.onMc_cache (s : State) (f : Measure → Measure) : (s.onMc f).cache = s.cache := rfl
@[simp] theorem State.onMc_ring (s : State) (f : Measure → Measure) : (s.onMc f).ring = s.ring := rfl
@[simp] theorem State.onMc_trunk (s : State) (f : Measure → Measure) : (s.onMc f).trunk = s.trunk := rfl
@[simp] theorem State.onMc_sup (s : State) (f : Measure → Measure) : (s.onMc f).sup = s.sup := rfl
@[simp] theorem State.onMc_seq (s : State) (f : Measure → Measure) : (s.onMc f).seq = s.seq := rfl
@[simp] theorem State.onMc_mc (s : State) (f : Measure → Measure) : (s.onMc f).mc = f s.mc := rfl
@[simp] theorem State.onMc_arith (s : State) (f : Measure → Measure) : (s.onMc f).arith = s.arith := rfl
@[simp] theorem State.onMc_sweep (s : State) (f : Measure → Measure) : (s.onMc f).sweep = s.sweep := rfl
@[simp] theorem State.onMc_hv (s : State) (f : Measure → Measure) : (s.onMc f).hv = s.hv := rfl
@[simp] theorem State.onMc_run (s : State) (f : Measure → Measure) : (s.onMc f).run = s.run := rfl
@[simp] theorem State.onMc_defects (s : State) (f : Measure → Measure) : (s.onMc f).defects = s.defects := rfl
@[simp] theorem State.onMc_print (s : State) (f : Measure → Measure) : (s.onMc f).print = s.print := rfl
@[simp] theorem State.onMc_events (s : State) (f : Measure → Measure) : (s.onMc f).events = s.events := rfl
@[simp] theorem State.onMc_fault (s : State) (f : Measure → Measure) : (s.onMc f).fault = s.fault := rfl
@[simp] theorem State.onMc_rst (s : State) (f : Measure → Measure) : (s.onMc f).rst = s.rst := rfl
@[simp] theorem State.onMc_pins (s : State) (f : Measure → Measure) : (s.onMc f).pins = s.pins := rfl
@[simp] theorem State.onMc_torn (s : State) (f : Measure → Measure) : (s.onMc f).torn = s.torn := rfl
@[simp] theorem State.onMc_pending (s : State) (f : Measure → Measure) : (s.onMc f).pending = s.pending := rfl

/-! ### onArith -/

@[simp] theorem State.onArith_mem (s : State) (f : Arith → Arith) : (s.onArith f).mem = s.mem := rfl
@[simp] theorem State.onArith_port (s : State) (f : Arith → Arith) : (s.onArith f).port = s.port := rfl
@[simp] theorem State.onArith_tables (s : State) (f : Arith → Arith) : (s.onArith f).tables = s.tables := rfl
@[simp] theorem State.onArith_limits (s : State) (f : Arith → Arith) : (s.onArith f).limits = s.limits := rfl
@[simp] theorem State.onArith_cache (s : State) (f : Arith → Arith) : (s.onArith f).cache = s.cache := rfl
@[simp] theorem State.onArith_ring (s : State) (f : Arith → Arith) : (s.onArith f).ring = s.ring := rfl
@[simp] theorem State.onArith_trunk (s : State) (f : Arith → Arith) : (s.onArith f).trunk = s.trunk := rfl
@[simp] theorem State.onArith_sup (s : State) (f : Arith → Arith) : (s.onArith f).sup = s.sup := rfl
@[simp] theorem State.onArith_seq (s : State) (f : Arith → Arith) : (s.onArith f).seq = s.seq := rfl
@[simp] theorem State.onArith_mc (s : State) (f : Arith → Arith) : (s.onArith f).mc = s.mc := rfl
@[simp] theorem State.onArith_arith (s : State) (f : Arith → Arith) : (s.onArith f).arith = f s.arith := rfl
@[simp] theorem State.onArith_sweep (s : State) (f : Arith → Arith) : (s.onArith f).sweep = s.sweep := rfl
@[simp] theorem State.onArith_hv (s : State) (f : Arith → Arith) : (s.onArith f).hv = s.hv := rfl
@[simp] theorem State.onArith_run (s : State) (f : Arith → Arith) : (s.onArith f).run = s.run := rfl
@[simp] theorem State.onArith_defects (s : State) (f : Arith → Arith) : (s.onArith f).defects = s.defects := rfl
@[simp] theorem State.onArith_print (s : State) (f : Arith → Arith) : (s.onArith f).print = s.print := rfl
@[simp] theorem State.onArith_events (s : State) (f : Arith → Arith) : (s.onArith f).events = s.events := rfl
@[simp] theorem State.onArith_fault (s : State) (f : Arith → Arith) : (s.onArith f).fault = s.fault := rfl
@[simp] theorem State.onArith_rst (s : State) (f : Arith → Arith) : (s.onArith f).rst = s.rst := rfl
@[simp] theorem State.onArith_pins (s : State) (f : Arith → Arith) : (s.onArith f).pins = s.pins := rfl
@[simp] theorem State.onArith_torn (s : State) (f : Arith → Arith) : (s.onArith f).torn = s.torn := rfl
@[simp] theorem State.onArith_pending (s : State) (f : Arith → Arith) : (s.onArith f).pending = s.pending := rfl

/-! ### onSweep -/

@[simp] theorem State.onSweep_mem (s : State) (f : Sweep → Sweep) : (s.onSweep f).mem = s.mem := rfl
@[simp] theorem State.onSweep_port (s : State) (f : Sweep → Sweep) : (s.onSweep f).port = s.port := rfl
@[simp] theorem State.onSweep_tables (s : State) (f : Sweep → Sweep) : (s.onSweep f).tables = s.tables := rfl
@[simp] theorem State.onSweep_limits (s : State) (f : Sweep → Sweep) : (s.onSweep f).limits = s.limits := rfl
@[simp] theorem State.onSweep_cache (s : State) (f : Sweep → Sweep) : (s.onSweep f).cache = s.cache := rfl
@[simp] theorem State.onSweep_ring (s : State) (f : Sweep → Sweep) : (s.onSweep f).ring = s.ring := rfl
@[simp] theorem State.onSweep_trunk (s : State) (f : Sweep → Sweep) : (s.onSweep f).trunk = s.trunk := rfl
@[simp] theorem State.onSweep_sup (s : State) (f : Sweep → Sweep) : (s.onSweep f).sup = s.sup := rfl
@[simp] theorem State.onSweep_seq (s : State) (f : Sweep → Sweep) : (s.onSweep f).seq = s.seq := rfl
@[simp] theorem State.onSweep_mc (s : State) (f : Sweep → Sweep) : (s.onSweep f).mc = s.mc := rfl
@[simp] theorem State.onSweep_arith (s : State) (f : Sweep → Sweep) : (s.onSweep f).arith = s.arith := rfl
@[simp] theorem State.onSweep_sweep (s : State) (f : Sweep → Sweep) : (s.onSweep f).sweep = f s.sweep := rfl
@[simp] theorem State.onSweep_hv (s : State) (f : Sweep → Sweep) : (s.onSweep f).hv = s.hv := rfl
@[simp] theorem State.onSweep_run (s : State) (f : Sweep → Sweep) : (s.onSweep f).run = s.run := rfl
@[simp] theorem State.onSweep_defects (s : State) (f : Sweep → Sweep) : (s.onSweep f).defects = s.defects := rfl
@[simp] theorem State.onSweep_print (s : State) (f : Sweep → Sweep) : (s.onSweep f).print = s.print := rfl
@[simp] theorem State.onSweep_events (s : State) (f : Sweep → Sweep) : (s.onSweep f).events = s.events := rfl
@[simp] theorem State.onSweep_fault (s : State) (f : Sweep → Sweep) : (s.onSweep f).fault = s.fault := rfl
@[simp] theorem State.onSweep_rst (s : State) (f : Sweep → Sweep) : (s.onSweep f).rst = s.rst := rfl
@[simp] theorem State.onSweep_pins (s : State) (f : Sweep → Sweep) : (s.onSweep f).pins = s.pins := rfl
@[simp] theorem State.onSweep_torn (s : State) (f : Sweep → Sweep) : (s.onSweep f).torn = s.torn := rfl
@[simp] theorem State.onSweep_pending (s : State) (f : Sweep → Sweep) : (s.onSweep f).pending = s.pending := rfl

/-! ### onHv -/

@[simp] theorem State.onHv_mem (s : State) (f : Hv → Hv) : (s.onHv f).mem = s.mem := rfl
@[simp] theorem State.onHv_port (s : State) (f : Hv → Hv) : (s.onHv f).port = s.port := rfl
@[simp] theorem State.onHv_tables (s : State) (f : Hv → Hv) : (s.onHv f).tables = s.tables := rfl
@[simp] theorem State.onHv_limits (s : State) (f : Hv → Hv) : (s.onHv f).limits = s.limits := rfl
@[simp] theorem State.onHv_cache (s : State) (f : Hv → Hv) : (s.onHv f).cache = s.cache := rfl
@[simp] theorem State.onHv_ring (s : State) (f : Hv → Hv) : (s.onHv f).ring = s.ring := rfl
@[simp] theorem State.onHv_trunk (s : State) (f : Hv → Hv) : (s.onHv f).trunk = s.trunk := rfl
@[simp] theorem State.onHv_sup (s : State) (f : Hv → Hv) : (s.onHv f).sup = s.sup := rfl
@[simp] theorem State.onHv_seq (s : State) (f : Hv → Hv) : (s.onHv f).seq = s.seq := rfl
@[simp] theorem State.onHv_mc (s : State) (f : Hv → Hv) : (s.onHv f).mc = s.mc := rfl
@[simp] theorem State.onHv_arith (s : State) (f : Hv → Hv) : (s.onHv f).arith = s.arith := rfl
@[simp] theorem State.onHv_sweep (s : State) (f : Hv → Hv) : (s.onHv f).sweep = s.sweep := rfl
@[simp] theorem State.onHv_hv (s : State) (f : Hv → Hv) : (s.onHv f).hv = f s.hv := rfl
@[simp] theorem State.onHv_run (s : State) (f : Hv → Hv) : (s.onHv f).run = s.run := rfl
@[simp] theorem State.onHv_defects (s : State) (f : Hv → Hv) : (s.onHv f).defects = s.defects := rfl
@[simp] theorem State.onHv_print (s : State) (f : Hv → Hv) : (s.onHv f).print = s.print := rfl
@[simp] theorem State.onHv_events (s : State) (f : Hv → Hv) : (s.onHv f).events = s.events := rfl
@[simp] theorem State.onHv_fault (s : State) (f : Hv → Hv) : (s.onHv f).fault = s.fault := rfl
@[simp] theorem State.onHv_rst (s : State) (f : Hv → Hv) : (s.onHv f).rst = s.rst := rfl
@[simp] theorem State.onHv_pins (s : State) (f : Hv → Hv) : (s.onHv f).pins = s.pins := rfl
@[simp] theorem State.onHv_torn (s : State) (f : Hv → Hv) : (s.onHv f).torn = s.torn := rfl
@[simp] theorem State.onHv_pending (s : State) (f : Hv → Hv) : (s.onHv f).pending = s.pending := rfl

/-! ### onRun -/

@[simp] theorem State.onRun_mem (s : State) (f : Run → Run) : (s.onRun f).mem = s.mem := rfl
@[simp] theorem State.onRun_port (s : State) (f : Run → Run) : (s.onRun f).port = s.port := rfl
@[simp] theorem State.onRun_tables (s : State) (f : Run → Run) : (s.onRun f).tables = s.tables := rfl
@[simp] theorem State.onRun_limits (s : State) (f : Run → Run) : (s.onRun f).limits = s.limits := rfl
@[simp] theorem State.onRun_cache (s : State) (f : Run → Run) : (s.onRun f).cache = s.cache := rfl
@[simp] theorem State.onRun_ring (s : State) (f : Run → Run) : (s.onRun f).ring = s.ring := rfl
@[simp] theorem State.onRun_trunk (s : State) (f : Run → Run) : (s.onRun f).trunk = s.trunk := rfl
@[simp] theorem State.onRun_sup (s : State) (f : Run → Run) : (s.onRun f).sup = s.sup := rfl
@[simp] theorem State.onRun_seq (s : State) (f : Run → Run) : (s.onRun f).seq = s.seq := rfl
@[simp] theorem State.onRun_mc (s : State) (f : Run → Run) : (s.onRun f).mc = s.mc := rfl
@[simp] theorem State.onRun_arith (s : State) (f : Run → Run) : (s.onRun f).arith = s.arith := rfl
@[simp] theorem State.onRun_sweep (s : State) (f : Run → Run) : (s.onRun f).sweep = s.sweep := rfl
@[simp] theorem State.onRun_hv (s : State) (f : Run → Run) : (s.onRun f).hv = s.hv := rfl
@[simp] theorem State.onRun_run (s : State) (f : Run → Run) : (s.onRun f).run = f s.run := rfl
@[simp] theorem State.onRun_defects (s : State) (f : Run → Run) : (s.onRun f).defects = s.defects := rfl
@[simp] theorem State.onRun_print (s : State) (f : Run → Run) : (s.onRun f).print = s.print := rfl
@[simp] theorem State.onRun_events (s : State) (f : Run → Run) : (s.onRun f).events = s.events := rfl
@[simp] theorem State.onRun_fault (s : State) (f : Run → Run) : (s.onRun f).fault = s.fault := rfl
@[simp] theorem State.onRun_rst (s : State) (f : Run → Run) : (s.onRun f).rst = s.rst := rfl
@[simp] theorem State.onRun_pins (s : State) (f : Run → Run) : (s.onRun f).pins = s.pins := rfl
@[simp] theorem State.onRun_torn (s : State) (f : Run → Run) : (s.onRun f).torn = s.torn := rfl
@[simp] theorem State.onRun_pending (s : State) (f : Run → Run) : (s.onRun f).pending = s.pending := rfl

/-! ### onDefects -/

@[simp] theorem State.onDefects_mem (s : State) (f : List Defect → List Defect) : (s.onDefects f).mem = s.mem := rfl
@[simp] theorem State.onDefects_port (s : State) (f : List Defect → List Defect) : (s.onDefects f).port = s.port := rfl
@[simp] theorem State.onDefects_tables (s : State) (f : List Defect → List Defect) : (s.onDefects f).tables = s.tables := rfl
@[simp] theorem State.onDefects_limits (s : State) (f : List Defect → List Defect) : (s.onDefects f).limits = s.limits := rfl
@[simp] theorem State.onDefects_cache (s : State) (f : List Defect → List Defect) : (s.onDefects f).cache = s.cache := rfl
@[simp] theorem State.onDefects_ring (s : State) (f : List Defect → List Defect) : (s.onDefects f).ring = s.ring := rfl
@[simp] theorem State.onDefects_trunk (s : State) (f : List Defect → List Defect) : (s.onDefects f).trunk = s.trunk := rfl
@[simp] theorem State.onDefects_sup (s : State) (f : List Defect → List Defect) : (s.onDefects f).sup = s.sup := rfl
@[simp] theorem State.onDefects_seq (s : State) (f : List Defect → List Defect) : (s.onDefects f).seq = s.seq := rfl
@[simp] theorem State.onDefects_mc (s : State) (f : List Defect → List Defect) : (s.onDefects f).mc = s.mc := rfl
@[simp] theorem State.onDefects_arith (s : State) (f : List Defect → List Defect) : (s.onDefects f).arith = s.arith := rfl
@[simp] theorem State.onDefects_sweep (s : State) (f : List Defect → List Defect) : (s.onDefects f).sweep = s.sweep := rfl
@[simp] theorem State.onDefects_hv (s : State) (f : List Defect → List Defect) : (s.onDefects f).hv = s.hv := rfl
@[simp] theorem State.onDefects_run (s : State) (f : List Defect → List Defect) : (s.onDefects f).run = s.run := rfl
@[simp] theorem State.onDefects_defects (s : State) (f : List Defect → List Defect) : (s.onDefects f).defects = f s.defects := rfl
@[simp] theorem State.onDefects_print (s : State) (f : List Defect → List Defect) : (s.onDefects f).print = s.print := rfl
@[simp] theorem State.onDefects_events (s : State) (f : List Defect → List Defect) : (s.onDefects f).events = s.events := rfl
@[simp] theorem State.onDefects_fault (s : State) (f : List Defect → List Defect) : (s.onDefects f).fault = s.fault := rfl
@[simp] theorem State.onDefects_rst (s : State) (f : List Defect → List Defect) : (s.onDefects f).rst = s.rst := rfl
@[simp] theorem State.onDefects_pins (s : State) (f : List Defect → List Defect) : (s.onDefects f).pins = s.pins := rfl
@[simp] theorem State.onDefects_torn (s : State) (f : List Defect → List Defect) : (s.onDefects f).torn = s.torn := rfl
@[simp] theorem State.onDefects_pending (s : State) (f : List Defect → List Defect) : (s.onDefects f).pending = s.pending := rfl

/-! ### onPrint -/

@[simp] theorem State.onPrint_mem (s : State) (f : Print → Print) : (s.onPrint f).mem = s.mem := rfl
@[simp] theorem State.onPrint_port (s : State) (f : Print → Print) : (s.onPrint f).port = s.port := rfl
@[simp] theorem State.onPrint_tables (s : State) (f : Print → Print) : (s.onPrint f).tables = s.tables := rfl
@[simp] theorem State.onPrint_limits (s : State) (f : Print → Print) : (s.onPrint f).limits = s.limits := rfl
@[simp] theorem State.onPrint_cache (s : State) (f : Print → Print) : (s.onPrint f).cache = s.cache := rfl
@[simp] theorem State.onPrint_ring (s : State) (f : Print → Print) : (s.onPrint f).ring = s.ring := rfl
@[simp] theorem State.onPrint_trunk (s : State) (f : Print → Print) : (s.onPrint f).trunk = s.trunk := rfl
@[simp] theorem State.onPrint_sup (s : State) (f : Print → Print) : (s.onPrint f).sup = s.sup := rfl
@[simp] theorem State.onPrint_seq (s : State) (f : Print → Print) : (s.onPrint f).seq = s.seq := rfl
@[simp] theorem State.onPrint_mc (s : State) (f : Print → Print) : (s.onPrint f).mc = s.mc := rfl
@[simp] theorem State.onPrint_arith (s : State) (f : Print → Print) : (s.onPrint f).arith = s.arith := rfl
@[simp] theorem State.onPrint_sweep (s : State) (f : Print → Print) : (s.onPrint f).sweep = s.sweep := rfl
@[simp] theorem State.onPrint_hv (s : State) (f : Print → Print) : (s.onPrint f).hv = s.hv := rfl
@[simp] theorem State.onPrint_run (s : State) (f : Print → Print) : (s.onPrint f).run = s.run := rfl
@[simp] theorem State.onPrint_defects (s : State) (f : Print → Print) : (s.onPrint f).defects = s.defects := rfl
@[simp] theorem State.onPrint_print (s : State) (f : Print → Print) : (s.onPrint f).print = f s.print := rfl
@[simp] theorem State.onPrint_events (s : State) (f : Print → Print) : (s.onPrint f).events = s.events := rfl
@[simp] theorem State.onPrint_fault (s : State) (f : Print → Print) : (s.onPrint f).fault = s.fault := rfl
@[simp] theorem State.onPrint_rst (s : State) (f : Print → Print) : (s.onPrint f).rst = s.rst := rfl
@[simp] theorem State.onPrint_pins (s : State) (f : Print → Print) : (s.onPrint f).pins = s.pins := rfl
@[simp] theorem State.onPrint_torn (s : State) (f : Print → Print) : (s.onPrint f).torn = s.torn := rfl
@[simp] theorem State.onPrint_pending (s : State) (f : Print → Print) : (s.onPrint f).pending = s.pending := rfl

/-! ### onEvents -/

@[simp] theorem State.onEvents_mem (s : State) (f : Events → Events) : (s.onEvents f).mem = s.mem := rfl
@[simp] theorem State.onEvents_port (s : State) (f : Events → Events) : (s.onEvents f).port = s.port := rfl
@[simp] theorem State.onEvents_tables (s : State) (f : Events → Events) : (s.onEvents f).tables = s.tables := rfl
@[simp] theorem State.onEvents_limits (s : State) (f : Events → Events) : (s.onEvents f).limits = s.limits := rfl
@[simp] theorem State.onEvents_cache (s : State) (f : Events → Events) : (s.onEvents f).cache = s.cache := rfl
@[simp] theorem State.onEvents_ring (s : State) (f : Events → Events) : (s.onEvents f).ring = s.ring := rfl
@[simp] theorem State.onEvents_trunk (s : State) (f : Events → Events) : (s.onEvents f).trunk = s.trunk := rfl
@[simp] theorem State.onEvents_sup (s : State) (f : Events → Events) : (s.onEvents f).sup = s.sup := rfl
@[simp] theorem State.onEvents_seq (s : State) (f : Events → Events) : (s.onEvents f).seq = s.seq := rfl
@[simp] theorem State.onEvents_mc (s : State) (f : Events → Events) : (s.onEvents f).mc = s.mc := rfl
@[simp] theorem State.onEvents_arith (s : State) (f : Events → Events) : (s.onEvents f).arith = s.arith := rfl
@[simp] theorem State.onEvents_sweep (s : State) (f : Events → Events) : (s.onEvents f).sweep = s.sweep := rfl
@[simp] theorem State.onEvents_hv (s : State) (f : Events → Events) : (s.onEvents f).hv = s.hv := rfl
@[simp] theorem State.onEvents_run (s : State) (f : Events → Events) : (s.onEvents f).run = s.run := rfl
@[simp] theorem State.onEvents_defects (s : State) (f : Events → Events) : (s.onEvents f).defects = s.defects := rfl
@[simp] theorem State.onEvents_print (s : State) (f : Events → Events) : (s.onEvents f).print = s.print := rfl
@[simp] theorem State.onEvents_events (s : State) (f : Events → Events) : (s.onEvents f).events = f s.events := rfl
@[simp] theorem State.onEvents_fault (s : State) (f : Events → Events) : (s.onEvents f).fault = s.fault := rfl
@[simp] theorem State.onEvents_rst (s : State) (f : Events → Events) : (s.onEvents f).rst = s.rst := rfl
@[simp] theorem State.onEvents_pins (s : State) (f : Events → Events) : (s.onEvents f).pins = s.pins := rfl
@[simp] theorem State.onEvents_torn (s : State) (f : Events → Events) : (s.onEvents f).torn = s.torn := rfl
@[simp] theorem State.onEvents_pending (s : State) (f : Events → Events) : (s.onEvents f).pending = s.pending := rfl

/-! ### onFault -/

@[simp] theorem State.onFault_mem (s : State) (f : FaultMon → FaultMon) : (s.onFault f).mem = s.mem := rfl
@[simp] theorem State.onFault_port (s : State) (f : FaultMon → FaultMon) : (s.onFault f).port = s.port := rfl
@[simp] theorem State.onFault_tables (s : State) (f : FaultMon → FaultMon) : (s.onFault f).tables = s.tables := rfl
@[simp] theorem State.onFault_limits (s : State) (f : FaultMon → FaultMon) : (s.onFault f).limits = s.limits := rfl
@[simp] theorem State.onFault_cache (s : State) (f : FaultMon → FaultMon) : (s.onFault f).cache = s.cache := rfl
@[simp] theorem State.onFault_ring (s : State) (f : FaultMon → FaultMon) : (s.onFault f).ring = s.ring := rfl
@[simp] theorem State.onFault_trunk (s : State) (f : FaultMon → FaultMon) : (s.onFault f).trunk = s.trunk := rfl
@[simp] theorem State.onFault_sup (s : State) (f : FaultMon → FaultMon) : (s.onFault f).sup = s.sup := rfl
@[simp] theorem State.onFault_seq (s : State) (f : FaultMon → FaultMon) : (s.onFault f).seq = s.seq := rfl
@[simp] theorem State.onFault_mc (s : State) (f : FaultMon → FaultMon) : (s.onFault f).mc = s.mc := rfl
@[simp] theorem State.onFault_arith (s : State) (f : FaultMon → FaultMon) : (s.onFault f).arith = s.arith := rfl
@[simp] theorem State.onFault_sweep (s : State) (f : FaultMon → FaultMon) : (s.onFault f).sweep = s.sweep := rfl
@[simp] theorem State.onFault_hv (s : State) (f : FaultMon → FaultMon) : (s.onFault f).hv = s.hv := rfl
@[simp] theorem State.onFault_run (s : State) (f : FaultMon → FaultMon) : (s.onFault f).run = s.run := rfl
@[simp] theorem State.onFault_defects (s : State) (f : FaultMon → FaultMon) : (s.onFault f).defects = s.defects := rfl
@[simp] theorem State.onFault_print (s : State) (f : FaultMon → FaultMon) : (s.onFault f).print = s.print := rfl
@[simp] theorem State.onFault_events (s : State) (f : FaultMon → FaultMon) : (s.onFault f).events = s.events := rfl
@[simp] theorem State.onFault_fault (s : State) (f : FaultMon → FaultMon) : (s.onFault f).fault = f s.fault := rfl
@[simp] theorem State.onFault_rst (s : State) (f : FaultMon → FaultMon) : (s.onFault f).rst = s.rst := rfl
@[simp] theorem State.onFault_pins (s : State) (f : FaultMon → FaultMon) : (s.onFault f).pins = s.pins := rfl
@[simp] theorem State.onFault_torn (s : State) (f : FaultMon → FaultMon) : (s.onFault f).torn = s.torn := rfl
@[simp] theorem State.onFault_pending (s : State) (f : FaultMon → FaultMon) : (s.onFault f).pending = s.pending := rfl

/-! ### onRst -/

@[simp] theorem State.onRst_mem (s : State) (f : ResetMon → ResetMon) : (s.onRst f).mem = s.mem := rfl
@[simp] theorem State.onRst_port (s : State) (f : ResetMon → ResetMon) : (s.onRst f).port = s.port := rfl
@[simp] theorem State.onRst_tables (s : State) (f : ResetMon → ResetMon) : (s.onRst f).tables = s.tables := rfl
@[simp] theorem State.onRst_limits (s : State) (f : ResetMon → ResetMon) : (s.onRst f).limits = s.limits := rfl
@[simp] theorem State.onRst_cache (s : State) (f : ResetMon → ResetMon) : (s.onRst f).cache = s.cache := rfl
@[simp] theorem State.onRst_ring (s : State) (f : ResetMon → ResetMon) : (s.onRst f).ring = s.ring := rfl
@[simp] theorem State.onRst_trunk (s : State) (f : ResetMon → ResetMon) : (s.onRst f).trunk = s.trunk := rfl
@[simp] theorem State.onRst_sup (s : State) (f : ResetMon → ResetMon) : (s.onRst f).sup = s.sup := rfl
@[simp] theorem State.onRst_seq (s : State) (f : ResetMon → ResetMon) : (s.onRst f).seq = s.seq := rfl
@[simp] theorem State.onRst_mc (s : State) (f : ResetMon → ResetMon) : (s.onRst f).mc = s.mc := rfl
@[simp] theorem State.onRst_arith (s : State) (f : ResetMon → ResetMon) : (s.onRst f).arith = s.arith := rfl
@[simp] theorem State.onRst_sweep (s : State) (f : ResetMon → ResetMon) : (s.onRst f).sweep = s.sweep := rfl
@[simp] theorem State.onRst_hv (s : State) (f : ResetMon → ResetMon) : (s.onRst f).hv = s.hv := rfl
@[simp] theorem State.onRst_run (s : State) (f : ResetMon → ResetMon) : (s.onRst f).run = s.run := rfl
@[simp] theorem State.onRst_defects (s : State) (f : ResetMon → ResetMon) : (s.onRst f).defects = s.defects := rfl
@[simp] theorem State.onRst_print (s : State) (f : ResetMon → ResetMon) : (s.onRst f).print = s.print := rfl
@[simp] theorem State.onRst_events (s : State) (f : ResetMon → ResetMon) : (s.onRst f).events = s.events := rfl
@[simp] theorem State.onRst_fault (s : State) (f : ResetMon → ResetMon) : (s.onRst f).fault = s.fault := rfl
@[simp] theorem State.onRst_rst (s : State) (f : ResetMon → ResetMon) : (s.onRst f).rst = f s.rst := rfl
@[simp] theorem State.onRst_pins (s : State) (f : ResetMon → ResetMon) : (s.onRst f).pins = s.pins := rfl
@[simp] theorem State.onRst_torn (s : State) (f : ResetMon → ResetMon) : (s.onRst f).torn = s.torn := rfl
@[simp] theorem State.onRst_pending (s : State) (f : ResetMon → ResetMon) : (s.onRst f).pending = s.pending := rfl

/-! ### onPins -/

@[simp] theorem State.onPins_mem (s : State) (f : Pins → Pins) : (s.onPins f).mem = s.mem := rfl
@[simp] theorem State.onPins_port (s : State) (f : Pins → Pins) : (s.onPins f).port = s.port := rfl
@[simp] theorem State.onPins_tables (s : State) (f : Pins → Pins) : (s.onPins f).tables = s.tables := rfl
@[simp] theorem State.onPins_limits (s : State) (f : Pins → Pins) : (s.onPins f).limits = s.limits := rfl
@[simp] theorem State.onPins_cache (s : State) (f : Pins → Pins) : (s.onPins f).cache = s.cache := rfl
@[simp] theorem State.onPins_ring (s : State) (f : Pins → Pins) : (s.onPins f).ring = s.ring := rfl
@[simp] theorem State.onPins_trunk (s : State) (f : Pins → Pins) : (s.onPins f).trunk = s.trunk := rfl
@[simp] theorem State.onPins_sup (s : State) (f : Pins → Pins) : (s.onPins f).sup = s.sup := rfl
@[simp] theorem State.onPins_seq (s : State) (f : Pins → Pins) : (s.onPins f).seq = s.seq := rfl
@[simp] theorem State.onPins_mc (s : State) (f : Pins → Pins) : (s.onPins f).mc = s.mc := rfl
@[simp] theorem State.onPins_arith (s : State) (f : Pins → Pins) : (s.onPins f).arith = s.arith := rfl
@[simp] theorem State.onPins_sweep (s : State) (f : Pins → Pins) : (s.onPins f).sweep = s.sweep := rfl
@[simp] theorem State.onPins_hv (s : State) (f : Pins → Pins) : (s.onPins f).hv = s.hv := rfl
@[simp] theorem State.onPins_run (s : State) (f : Pins → Pins) : (s.onPins f).run = s.run := rfl
@[simp] theorem State.onPins_defects (s : State) (f : Pins → Pins) : (s.onPins f).defects = s.defects := rfl
@[simp] theorem State.onPins_print (s : State) (f : Pins → Pins) : (s.onPins f).print = s.print := rfl
@[simp] theorem State.onPins_events (s : State) (f : Pins → Pins) : (s.onPins f).events = s.events := rfl
@[simp] theorem State.onPins_fault (s : State) (f : Pins → Pins) : (s.onPins f).fault = s.fault := rfl
@[simp] theorem State.onPins_rst (s : State) (f : Pins → Pins) : (s.onPins f).rst = s.rst := rfl
@[simp] theorem State.onPins_pins (s : State) (f : Pins → Pins) : (s.onPins f).pins = f s.pins := rfl
@[simp] theorem State.onPins_torn (s : State) (f : Pins → Pins) : (s.onPins f).torn = s.torn := rfl
@[simp] theorem State.onPins_pending (s : State) (f : Pins → Pins) : (s.onPins f).pending = s.pending := rfl

end Sys2Proof.Machine
end

