-- ==== Sys2Proof/Laws/ChangesSweep.lean ====
section
/-! SUPPORT. What the Sweep Engine, the HV Controller, the Switch Sequencer's answers and the reads of a step can
do, as `Changes` of the view. -/

namespace Sys2Proof.Machine

variable {gr : Grant} {v : View} {s : State}

/-! ### The HV state leaves SAFE (R54, R60) -/

theorem placedAct_frame (o : RingOwner) (tag : Nat) :
    (s.placedAct o tag).hv = s.hv ∧ (s.placedAct o tag).limits = s.limits ∧
      (s.placedAct o tag).run = s.run ∧ (s.placedAct o tag).seq.state = s.seq.state := by
  unfold State.placedAct
  repeat' split
  all_goals exact ⟨rfl, rfl, rfl, rfl⟩

theorem offerPoll_frame : s.offerPoll.hv = s.hv ∧ s.offerPoll.limits = s.limits ∧ s.offerPoll.run = s.run := by
  unfold State.offerPoll
  repeat' split
  all_goals exact ⟨rfl, rfl, rfl⟩

theorem fillQueue_frame (n : Nat) :
    (s.fillQueue n).hv = s.hv ∧ (s.fillQueue n).limits = s.limits ∧ (s.fillQueue n).run = s.run ∧
      (s.fillQueue n).seq.state = s.seq.state := by
  induction n generalizing s with
  | zero => exact ⟨rfl, rfl, rfl, rfl⟩
  | succ n ih =>
    have o := offerPoll_frame (s := s)
    have q := offerPoll_seq (s := s)
    rw [State.fillQueue]
    split
    · exact ⟨o.1, o.2.1, o.2.2, congrArg Sequencer.state q⟩
    · split
      · exact ⟨o.1, o.2.1, o.2.2, congrArg Sequencer.state q⟩
      · rename_i e rest _
        have p := placedAct_frame (s := (s.offerPoll.onRing fun r => { r with wait := rest }).onRing fun r =>
          { r with queue := r.queue ++
                     [{ e with frame := { e.frame with tag := byte s.offerPoll.ring.ownTag } }]
                   ownTag := (s.offerPoll.ring.ownTag + 1) % 128 }) e.owner s.offerPoll.ring.ownTag
        have i := ih (s := (s.offerPoll.onRing fun r => { r with wait := rest }).placeOwn e)
        exact ⟨i.1.trans (p.1.trans o.1), i.2.1.trans (p.2.1.trans o.2.1),
          i.2.2.1.trans (p.2.2.1.trans o.2.2), i.2.2.2.trans (p.2.2.2.trans (congrArg Sequencer.state q))⟩

theorem pump_frame : s.pump.hv = s.hv ∧ s.pump.limits = s.limits ∧ s.pump.run = s.run ∧
    s.pump.seq.state = s.seq.state := fillQueue_frame 9

theorem handOver_frame (e : RingEntry) : (s.handOver e).hv = s.hv ∧ (s.handOver e).limits = s.limits ∧
    (s.handOver e).run = s.run ∧ (s.handOver e).seq.state = s.seq.state :=
  pump_frame (s := s.onRing fun r => { r with wait := r.wait ++ [e] })

theorem withdraw_frame (g : RingEntry → Bool) : (s.withdraw g).hv = s.hv ∧ (s.withdraw g).limits = s.limits ∧
    (s.withdraw g).run = s.run ∧ (s.withdraw g).seq.state = s.seq.state :=
  pump_frame (s := s.onRing fun r =>
    { r with queue := r.queue.filter fun e => !g e, wait := r.wait.filter fun e => !g e })

/-- An abandonment leaves the HV Controller, the limits and the run as they are, and no configuration. -/
theorem abandonConfiguration_frame :
    s.abandonConfiguration.hv = s.hv ∧ s.abandonConfiguration.limits = s.limits ∧
      s.abandonConfiguration.run = s.run ∧
      (s.abandonConfiguration.seq.state = .idle ∨ s.abandonConfiguration.seq.state = .homing) := by
  unfold State.abandonConfiguration
  split
  · exact ⟨rfl, rfl, rfl, .inl ‹_›⟩
  · exact ⟨rfl, rfl, rfl, .inr ‹_›⟩
  · exact ⟨rfl, rfl, rfl, .inl rfl⟩
  · have w := withdraw_frame (s := s.onSeq Sequencer.rest) RingEntry.isSwitch
    exact ⟨w.1, w.2.1, w.2.2.1, .inl w.2.2.2⟩
  · exact ⟨rfl, rfl, rfl, .inl rfl⟩

theorem placedAct_pins (o : RingOwner) (tag : Nat) : (s.placedAct o tag).pins = s.pins := by
  unfold State.placedAct
  repeat' split
  all_goals rfl

theorem offerPoll_pins : s.offerPoll.pins = s.pins := by
  unfold State.offerPoll
  repeat' split
  all_goals rfl

theorem fillQueue_pins (n : Nat) : (s.fillQueue n).pins = s.pins := by
  induction n generalizing s with
  | zero => rfl
  | succ n ih =>
    rw [State.fillQueue]
    split
    · exact offerPoll_pins
    · split
      · exact offerPoll_pins
      · exact ih.trans ((placedAct_pins _ _).trans (offerPoll_pins (s := s)))

theorem abandonConfiguration_pins : s.abandonConfiguration.pins = s.pins := by
  unfold State.abandonConfiguration
  split
  · rfl
  · rfl
  · rfl
  · exact fillQueue_pins 9
  · rfl

theorem goesWithSafe_filter {es : List RingEntry} :
    ∀ e ∈ es.filter fun e => !e.goesWithSafe, ¬e.setsRelays := by
  intro e he hs
  have := (List.mem_filter.mp he).2
  simp [RingEntry.goesWithSafe, show e.frame.cls = clsSw from hs] at this

/-- The HV state leaves SAFE for DISCHARGE, or for RAMP with a fresh keepalive counter. -/
theorem changes_leaveSafe {f : Hv → Hv} (h : Changes gr v s.view)
    (hf : ∀ x, (f x).keepalive = x.keepalive ∧ (f x).window = x.window)
    (hs : (∀ x, (f x).state = .discharge) ∨
      ((∀ x, (f x).state = .ramp) ∧ s.hv.keepalive = s.limits.timing.keepalive ∧
        s.pins.interlockClosed = true)) :
    Changes gr v (s.leaveSafe f).view := by
  have a := abandonConfiguration_frame (s := s)
  have h1 := changes_abandonConfiguration h
  have h2 : Changes gr v (s.abandonConfiguration.onRing fun r =>
      { r with queue := r.queue.filter fun e => !e.goesWithSafe
               wait := r.wait.filter fun e => !e.goesWithSafe }).view :=
    changes_leave h1 List.filter_sublist List.filter_sublist rfl
  have no : ∀ e ∈ (s.abandonConfiguration.ring.queue.filter fun e => !e.goesWithSafe) ++
      s.abandonConfiguration.ring.wait.filter fun e => !e.goesWithSafe, ¬e.setsRelays := by
    intro e he
    rcases List.mem_append.mp he with he | he
    · exact goesWithSafe_filter e he
    · exact goesWithSafe_filter e he
  have hq : s.abandonConfiguration.seq.state ≠ .translating ∧ s.abandonConfiguration.seq.state ≠ .verifying := by
    rcases a.2.2.2 with q | q <;> rw [q] <;> simp
  unfold State.leaveSafe
  apply changes_pump
  have k : ∀ st, (∀ x, (f x).state = st) →
      (st = .ramp ∨ st = .dwell → s.hv.keepalive = s.limits.timing.keepalive ∧
        s.pins.interlockClosed = true) → (st ≠ .stuck) →
      Changes gr v ((s.abandonConfiguration.onRing fun r =>
        { r with queue := r.queue.filter fun e => !e.goesWithSafe
                 wait := r.wait.filter fun e => !e.goesWithSafe }).onHv f).view := by
    intro st e1 e2 e3
    have h3 := h2.step (.hv _ st (fun _ _ => ⟨no, hq⟩)
      (fun e => .inr (.inr (by
        have := e2 e
        simpa [State.view, State.onRing, a.1, a.2.1, abandonConfiguration_pins] using this))) (fun e => absurd e e3))
    refine h3.to ?_
    simp [State.view, State.onHv, State.onRing, e1, hf, State.repliesOwed]
  rcases hs with hs | ⟨hs, hk⟩
  · exact k .discharge hs (by simp) (by simp)
  · exact k .ramp hs (fun _ => hk) (by simp)

theorem changes_hvEvidence (h : Changes gr v s.view) : Changes gr v s.hvEvidence.view := by
  unfold State.hvEvidence
  split
  · exact h
  · dsimp only
    apply changes_retryStream
    refine changes_onHv ?_ fun _ => rfl
    apply changes_homeCut
    apply changes_reportFault
    exact changes_leaveSafe h (fun _ => ⟨rfl, rfl⟩) (.inl fun _ => rfl)

/-! ### The Sweep Engine (chapters 06 and 07) -/

theorem changes_sweepRead {kind : TableKind} {index : Nat} {which : SweepRead} (h : Changes gr v s.view) :
    Changes gr v (s.sweepRead kind index which).view := by
  unfold State.sweepRead
  try dsimp only
  all_goals
    repeat first
      | with_reducible exact h
      | with_reducible apply changes_onSweep
      | ((with_reducible refine changes_askRead ?_ ?_); on_goal 2 => rfl)

theorem changes_startScan {purpose : ScanFor} {net : Nat} (h : Changes gr v s.view) :
    Changes gr v (s.startScan purpose net).view := by
  unfold State.startScan
  try dsimp only
  all_goals
    repeat first
      | with_reducible exact h
      | with_reducible apply changes_onSweep
      | with_reducible apply changes_sweepRead

theorem changes_sweepNet (h : Changes gr v s.view) : Changes gr v s.sweepNet.view := by
  unfold State.sweepNet
  try dsimp only
  repeat' split
  all_goals
    repeat first
      | with_reducible exact h
      | with_reducible apply changes_onSweep
      | with_reducible apply changes_startScan
      | with_reducible apply changes_sweepRead

theorem changes_sweepNextNet (h : Changes gr v s.view) : Changes gr v s.sweepNextNet.view := by
  unfold State.sweepNextNet
  try dsimp only
  repeat' split
  all_goals
    repeat first
      | with_reducible exact h
      | with_reducible apply changes_stepFinished
      | with_reducible apply changes_onSweep
      | with_reducible apply changes_sweepNet

theorem changes_resultTaken (h : Changes gr v s.view) : Changes gr v s.resultTaken.view := h.same rfl

theorem changes_sweepInsert {r : Insert} {after : SweepAfter} (h : Changes gr v s.view) :
    Changes gr v (s.sweepInsert r after).1.view := by
  unfold State.sweepInsert
  try dsimp only
  split
  on_goal 2 => apply changes_resultTaken
  all_goals
    repeat first
      | with_reducible exact h
      | with_reducible apply changes_onSweep
      | with_reducible apply changes_insert

theorem changes_netEndBoundary (h : Changes gr v s.view) : Changes gr v s.netEndBoundary.view := by
  unfold State.netEndBoundary
  try dsimp only
  all_goals
    repeat first
      | with_reducible exact h
      | with_reducible apply changes_onSweep
      | with_reducible refine changes_runBoundary ?_ fun _ => changes_sweepNextNet

theorem changes_netEndRecord {r : Insert} (h : Changes gr v s.view) : Changes gr v (s.netEndRecord r).view := by
  unfold State.netEndRecord
  try dsimp only
  repeat' split
  all_goals
    repeat first
      | with_reducible exact h
      | with_reducible apply changes_sweepInsert
      | with_reducible apply changes_netEndBoundary

theorem changes_sweepVisit {pos : Nat} (h : Changes gr v s.view) : Changes gr v (s.sweepVisit pos).view := by
  unfold State.sweepVisit
  try dsimp only
  repeat' split
  all_goals
    repeat first
      | with_reducible exact h
      | with_reducible apply changes_onSweep
      | with_reducible apply changes_alive
      | with_reducible apply changes_sweepRead
      | with_reducible apply changes_netEndRecord

theorem changes_sweepNextMember (h : Changes gr v s.view) : Changes gr v s.sweepNextMember.view := by
  unfold State.sweepNextMember
  try dsimp only
  repeat' split
  all_goals
    repeat first
      | with_reducible exact h
      | with_reducible apply changes_sweepVisit
      | with_reducible apply changes_sweepNextNet

theorem changes_popGroup (h : Changes gr v s.view) : Changes gr v s.popGroup.view := by
  unfold State.popGroup
  try dsimp only
  repeat' split
  all_goals
    repeat first
      | with_reducible exact h
      | with_reducible apply changes_sweepNextNet
      | with_reducible apply changes_onSweep
      | with_reducible apply changes_startScan

theorem changes_sweepGoOn (h : Changes gr v s.view) : Changes gr v s.sweepGoOn.view := by
  unfold State.sweepGoOn
  try dsimp only
  repeat' split
  all_goals
    repeat first
      | with_reducible exact h
      | with_reducible apply changes_sweepNextNet
      | with_reducible apply changes_popGroup
      | with_reducible apply changes_sweepNextMember

theorem changes_atBoundary (h : Changes gr v s.view) : Changes gr v s.atBoundary.view := by
  unfold State.atBoundary
  try dsimp only
  all_goals
    repeat first
      | with_reducible exact h
      | with_reducible apply changes_onSweep
      | with_reducible refine changes_runBoundary ?_ fun _ => changes_sweepGoOn

theorem changes_insertThenBoundary {r : Insert} (h : Changes gr v s.view) :
    Changes gr v (s.insertThenBoundary r).view := by
  unfold State.insertThenBoundary
  try dsimp only
  repeat' split
  all_goals
    repeat first
      | with_reducible exact h
      | with_reducible apply changes_sweepInsert
      | with_reducible apply changes_atBoundary

theorem changes_searchStopped (h : Changes gr v s.view) : Changes gr v s.searchStopped.view :=
  changes_atBoundary (h.same rfl)

theorem changes_capTest (h : Changes gr v s.view) : Changes gr v s.capTest.view := by
  unfold State.capTest
  try dsimp only
  repeat' split
  all_goals
    repeat first
      | with_reducible exact h
      | with_reducible apply changes_searchStopped
      | with_reducible apply changes_sweepInsert
      | with_reducible apply changes_atBoundary

theorem changes_takeEntry (h : Changes gr v s.view) : Changes gr v s.takeEntry.view := by
  unfold State.takeEntry
  try dsimp only
  repeat' split
  all_goals
    repeat first
      | with_reducible exact h
      | with_reducible apply changes_startScan
      | with_reducible apply changes_onSweep
      | with_reducible apply changes_capTest

theorem changes_nextEntry (h : Changes gr v s.view) : Changes gr v s.nextEntry.view := by
  unfold State.nextEntry
  try dsimp only
  all_goals
    repeat first
      | with_reducible exact h
      | with_reducible apply changes_onSweep
      | with_reducible apply changes_takeEntry

theorem changes_afterShort {g : Nat} (h : Changes gr v s.view) : Changes gr v (s.afterShort g).view := by
  unfold State.afterShort
  try dsimp only
  repeat' split
  all_goals
    repeat first
      | with_reducible exact h
      | with_reducible apply changes_onSweep
      | with_reducible apply changes_startScan
      | with_reducible apply changes_capTest

theorem changes_sweepInserted (h : Changes gr v s.view) : Changes gr v s.sweepInserted.view := by
  unfold State.sweepInserted
  try dsimp only
  repeat' split
  all_goals
    repeat first
      | with_reducible exact h
      | with_reducible apply changes_atBoundary
      | with_reducible apply changes_netEndBoundary
      | with_reducible apply changes_afterShort
      | with_reducible apply changes_nextEntry
      | with_reducible apply changes_searchStopped
      | with_reducible apply changes_resultTaken

/-! ### Results and answers -/

theorem changes_sweepReady (h : Changes gr v s.view) : Changes gr v s.sweepReady.view := by
  unfold State.sweepReady
  try dsimp only
  repeat' split
  all_goals
    repeat first
      | with_reducible exact h
      | with_reducible apply changes_onSweep
      | with_reducible apply changes_requestMsr

theorem changes_sweepFailed {lowest : Nat} (h : Changes gr v s.view) :
    Changes gr v (s.sweepFailed lowest).view := by
  unfold State.sweepFailed
  try dsimp only
  repeat' split
  all_goals
    repeat first
      | with_reducible exact h
      | with_reducible apply changes_sweepInsert
      | with_reducible apply changes_nextEntry
      | with_reducible apply changes_onSweep
      | with_reducible apply changes_insertThenBoundary

theorem changes_contResult {r : Nat} (h : Changes gr v s.view) : Changes gr v (s.contResult r).view := by
  unfold State.contResult
  try dsimp only
  repeat' split
  all_goals
    repeat first
      | with_reducible exact h
      | with_reducible apply changes_atBoundary
      | with_reducible apply changes_insertThenBoundary

theorem changes_referenceKnown {reference : PointRec} (h : Changes gr v s.view) :
    Changes gr v (s.referenceKnown reference).view := by
  unfold State.referenceKnown
  try dsimp only
  all_goals
    repeat first
      | with_reducible exact h
      | with_reducible apply changes_onSweep
      | ((with_reducible refine changes_askWrite ?_ ?_); on_goal 2 => rfl)

theorem changes_leadcalResult {raw : Nat} (h : Changes gr v s.view) : Changes gr v (s.leadcalResult raw).view := by
  unfold State.leadcalResult
  try dsimp only
  repeat' split
  all_goals
    repeat first
      | with_reducible exact h
      | with_reducible apply changes_insertThenBoundary
      | with_reducible apply changes_onSweep
      | with_reducible apply changes_lookup
      | with_reducible apply changes_referenceKnown

theorem changes_groupResult {raw : Nat} (h : Changes gr v s.view) : Changes gr v (s.groupResult raw).view := by
  unfold State.groupResult
  try dsimp only
  repeat' split
  all_goals
    repeat first
      | with_reducible exact h
      | with_reducible apply changes_onSweep
      | with_reducible apply changes_atBoundary
      | with_reducible apply changes_sweepInsert
      | with_reducible apply changes_afterShort

theorem changes_explain {k g : Nat} (h : Changes gr v s.view) :
    Changes gr v (s.onDefects fun ds => explain ds k g).view := by
  have h1 := h.step (.amends s.view
    (fun d => if d.key = shortKey k g then { d with explained := true } else d) fun d => by split <;> simp_all)
  exact h1.to rfl

theorem changes_rewrite {own point other value step : Nat} (h : Changes gr v s.view) :
    Changes gr v (s.onDefects fun ds => rewrite ds own point other value step).view :=
  (h.step (.rewrites s.view own point other value step)).to rfl

theorem changes_correlationResult {e : WorkEntry} {r : Nat} (h : Changes gr v s.view) :
    Changes gr v (s.correlationResult e r).view := by
  unfold State.correlationResult
  split
  · dsimp only
    apply changes_nextEntry
    exact (changes_explain (k := s.sweep.cursor) (g := s.sweep.shortOther.getD 0)
      (changes_rewrite (own := e.own) (point := e.point) (other := e.other) (value := r)
        (step := s.run.step.getD 0) h)).to rfl
  · exact changes_nextEntry h

theorem changes_sweepResult {raw r : Nat} (h : Changes gr v s.view) : Changes gr v (s.sweepResult raw r).view := by
  unfold State.sweepResult
  try dsimp only
  repeat' split
  all_goals
    repeat first
      | with_reducible exact h
      | with_reducible apply changes_countMeasurement
      | with_reducible apply changes_contResult
      | with_reducible apply changes_leadcalResult
      | with_reducible apply changes_correlationResult
      | with_reducible apply changes_groupResult

theorem changes_sweepStart {kind : SweepKind} {x : StepRec} (h : Changes gr v s.view) :
    Changes gr v (s.sweepStart kind x).view := by
  unfold State.sweepStart
  exact changes_sweepNet (changes_onSweep h)

/-! ### The HV Controller (chapter 08) -/

theorem changes_hvTakeNet (h : Changes gr v s.view) : Changes gr v s.hvTakeNet.view := by
  unfold State.hvTakeNet
  try dsimp only
  all_goals
    repeat first
      | with_reducible exact h
      | ((with_reducible refine changes_onHv ?_ ?_); on_goal 2 => exact fun _ => rfl)
      | ((with_reducible refine changes_askRead ?_ ?_); on_goal 2 => rfl)

theorem changes_hvNextNet (h : Changes gr v s.view) : Changes gr v s.hvNextNet.view := by
  unfold State.hvNextNet
  try dsimp only
  repeat' split
  all_goals
    repeat first
      | with_reducible exact h
      | with_reducible apply changes_stepFinished
      | ((with_reducible refine changes_onHv ?_ ?_); on_goal 2 => exact fun _ => rfl)
      | with_reducible apply changes_hvTakeNet

theorem changes_hvBoundary (h : Changes gr v s.view) : Changes gr v s.hvBoundary.view := by
  unfold State.hvBoundary
  try dsimp only
  all_goals
    repeat first
      | with_reducible exact h
      | ((with_reducible refine changes_onHv ?_ ?_); on_goal 2 => exact fun _ => rfl)
      | with_reducible refine changes_runBoundary ?_ fun _ => changes_hvNextNet

theorem changes_hvInsert {r : Insert} (h : Changes gr v s.view) : Changes gr v (s.hvInsert r).view := by
  unfold State.hvInsert
  try dsimp only
  repeat' split
  all_goals
    repeat first
      | with_reducible exact h
      | ((with_reducible refine changes_onHv ?_ ?_); on_goal 2 => exact fun _ => rfl)
      | with_reducible apply changes_insert
      | with_reducible apply changes_hvBoundary

theorem changes_hvNetRead {r : NetRec} (h : Changes gr v s.view) : Changes gr v (s.hvNetRead r).view := by
  unfold State.hvNetRead
  try dsimp only
  repeat' split
  all_goals
    repeat first
      | with_reducible exact h
      | with_reducible apply changes_hvNextNet
      | with_reducible apply changes_lostModule
      | with_reducible apply changes_hvInsert
      | ((with_reducible refine changes_onHv ?_ ?_); on_goal 2 => exact fun _ => rfl)
      | ((with_reducible refine changes_askRead ?_ ?_); on_goal 2 => rfl)

theorem changes_hvStart {x : StepRec} (h : Changes gr v s.view) : Changes gr v (s.hvStart x).view := by
  unfold State.hvStart
  try dsimp only
  all_goals
    repeat first
      | with_reducible exact h
      | ((with_reducible refine changes_onHv ?_ ?_); on_goal 2 => exact fun _ => rfl)
      | with_reducible apply changes_hvTakeNet

theorem changes_hvFailed {lowest : Nat} (h : Changes gr v s.view) : Changes gr v (s.hvFailed lowest).view := by
  unfold State.hvFailed
  try dsimp only
  all_goals
    repeat first
      | with_reducible exact h
      | with_reducible apply changes_hvInsert

/-- Opening a stream leaves the HV Controller, the limits block and the run as they are. -/
theorem openStream_frame (p : List Byte) : (s.openStream p).hv = s.hv ∧ (s.openStream p).limits = s.limits ∧
    (s.openStream p).run = s.run := by
  unfold State.openStream
  split
  · exact ⟨rfl, rfl, rfl⟩
  · exact ⟨(handOver_frame _).1, (handOver_frame _).2.1, (handOver_frame _).2.2.1⟩

theorem openStream_pins {p : List Byte} : (s.openStream p).pins = s.pins := by
  unfold State.openStream
  split
  · rfl
  · exact fillQueue_pins 9

theorem changes_rampStart (h : Changes gr v s.view) (hi : s.pins.interlockClosed = true) :
    Changes gr v s.rampStart.view := by
  unfold State.rampStart
  dsimp only
  have h1 := h.step (.keepalive s.view s.limits.timing.keepalive (.inr (.inr rfl)))
  have h2 := h1.step (.window _ [] (by simp))
  split
  · exact h2.to rfl
  · apply changes_homeCut
    refine changes_onRun ?_ fun _ => rfl
    refine changes_leaveSafe (changes_openStream (h2.to rfl)) (fun _ => ⟨rfl, rfl⟩) (.inr ⟨fun _ => rfl, ?_, ?_⟩)
    · rw [(openStream_frame _).1, (openStream_frame _).2.1]
      rfl
    · exact (congrArg Pins.interlockClosed openStream_pins).trans hi

theorem changes_interlockTest (h : Changes gr v s.view) : Changes gr v s.interlockTest.view := by
  unfold State.interlockTest
  split
  · rename_i hi
    exact changes_rampStart (changes_onHv h fun _ => rfl) hi
  · exact changes_enterPaused h

theorem changes_hvReady (h : Changes gr v s.view) : Changes gr v s.hvReady.view := by
  unfold State.hvReady
  try dsimp only
  all_goals
    repeat first
      | with_reducible exact h
      | ((with_reducible refine changes_onHv ?_ ?_); on_goal 2 => exact fun _ => rfl)
      | with_reducible apply changes_interlockTest

/-- A test ends: the HV state is DISCHARGE from then on (R132). -/
theorem changes_hvEnd (h : Changes gr v { s.view with hv := .discharge }) : Changes gr v s.hvEnd.view :=
  changes_placeHvc (h.to rfl)

theorem changes_hvRecord {e : Option Insert} (h : Changes gr v s.view) : Changes gr v (s.hvRecord e).view := by
  unfold State.hvRecord
  split
  · exact changes_insert h
  · exact h

theorem changes_hvAbort (h : Changes gr v { s.view with hv := .discharge }) : Changes gr v s.hvAbort.view :=
  changes_beginAbort (changes_raise (changes_hvRecord (changes_hvEnd h)))

/-- A test that is live comes to DISCHARGE. -/
theorem changes_live (h : Changes gr v s.view) (live : s.hv.state = .ramp ∨ s.hv.state = .dwell) :
    Changes gr v { s.view with hv := .discharge } :=
  (h.step (.testEnds s.view s.hv.keepalive live)).to rfl

theorem changes_hvEvaluate {ramp : Bool} (h : Changes gr v s.view) : Changes gr v (s.hvEvaluate ramp).view := by
  unfold State.hvEvaluate
  dsimp only
  split
  · exact changes_countMeasurement (changes_hvRecord h)
  · exact changes_hvRecord h

theorem changes_hvExpired {ramp : Bool} (h : Changes gr v s.view)
    (live : s.hv.state = .ramp ∨ s.hv.state = .dwell) : Changes gr v (s.hvExpired ramp).view := by
  have h1 := changes_hvEnd (changes_live h live)
  unfold State.hvExpired
  dsimp only
  split
  · exact changes_hvEvaluate h1
  · generalize s.hvEnd = s1 at h1 ⊢
    exact h1.same rfl

theorem pushWindow_length (w : List Conv) (c : Conv) : (pushWindow w c).length ≤ 64 := by
  simp [pushWindow]
  omega

theorem changes_liveSample {c : Conv} (h : Changes gr v s.view)
    (live : s.hv.state = .ramp ∨ s.hv.state = .dwell) : Changes gr v (s.liveSample c).view := by
  have h1 := h.step (.testEnds s.view (s.hv.keepalive - 1) live)
  unfold State.liveSample
  dsimp only
  split
  · exact changes_countMeasurement (changes_hvRecord (changes_hvEnd (h1.to rfl)))
  · split
    · exact changes_hvAbort ((h1.step (.window _ _ (pushWindow_length s.hv.window c))).to rfl)
    · rename_i hk
      have hp : 0 < s.hv.keepalive - 1 := by
        have : ¬s.hv.keepalive - 1 = 0 := hk
        omega
      have k1 := h.step (.keepalive s.view (s.hv.keepalive - 1) (.inr (.inl hp)))
      have k2 := k1.step (.window _ _ (pushWindow_length s.hv.window c))
      split
      · rename_i hr
        have hr' : s.hv.state = .ramp := by
          simp only [Bool.and_eq_true, decide_eq_true_eq] at hr
          exact hr.1
        have k3 := k2.step (.window _ [] (by simp))
        have k4 := k3.step (.hv _ .dwell (fun e => absurd (hr'.symm.trans e) (by simp))
          (fun _ => .inl hr') (by simp))
        exact k4.to rfl
      · exact k2.to rfl

theorem changes_runToldSafe (h : Changes gr v s.view) : Changes gr v s.runToldSafe.view := by
  unfold State.runToldSafe
  try dsimp only
  repeat' split
  all_goals
    repeat first
      | with_reducible exact h
      | ((with_reducible refine changes_onRun ?_ ?_); on_goal 2 => exact fun _ => rfl)
      | with_reducible apply changes_requestHome

theorem changes_testComplete (h : Changes gr v s.view) : Changes gr v s.testComplete.view := by
  unfold State.testComplete
  try dsimp only
  repeat' split
  all_goals
    repeat first
      | with_reducible exact h
      | with_reducible apply changes_enterStalled
      | with_reducible apply changes_hvBoundary

theorem changes_evaluationDone {ramp : Bool} (h : Changes gr v s.view) :
    Changes gr v (s.evaluationDone ramp).view := by
  have h1 : Changes gr v ((s.onHv fun h => { h with work := .ended }).hvEvaluate ramp).view :=
    changes_hvEvaluate (h.same rfl)
  unfold State.evaluationDone
  dsimp only
  split
  · exact changes_testComplete h1
  · exact h1

/-- The HV state becomes SAFE. -/
theorem changes_toSafe {f : Hv → Hv} (h : Changes gr v s.view)
    (hf : ∀ x, (f x).state = .safe ∧ (f x).keepalive = x.keepalive ∧ (f x).window = x.window) :
    Changes gr v (s.onHv f).view := by
  refine (h.step (.hv s.view .safe (fun _ e => absurd rfl e) (by simp) (by simp))).to ?_
  simp [State.view, State.onHv, hf, State.repliesOwed]

theorem changes_safeSample (h : Changes gr v s.view) : Changes gr v s.safeSample.view := by
  have h1 : Changes gr v (((s.onHv fun h => { h with dischargeTimer := none }).closeStream).onHv fun h =>
      { h with state := .safe, cause := .none }).view :=
    changes_toSafe (changes_closeStream (h.same rfl)) fun _ => ⟨rfl, rfl, rfl⟩
  unfold State.safeSample
  dsimp only
  split
  · exact changes_runToldSafe (h1.same rfl)
  · split
    · exact changes_testComplete h1
    · exact h1

theorem changes_hvSample {c : Conv} (h : Changes gr v s.view) : Changes gr v (s.hvSample c).view := by
  unfold State.hvSample
  split
  · exact changes_liveSample h (.inl ‹_›)
  · exact changes_liveSample h (.inr ‹_›)
  · split
    · exact changes_safeSample h
    · exact h
  · split
    · exact changes_safeSample h
    · exact h
  · exact h

theorem hvAbandon_run : s.hvAbandon.run = s.run := by
  unfold State.hvAbandon
  simp only [State.onArith_run, State.onHv_run]
  split
  · rfl
  · exact (handOver_frame _).2.2.1
  · exact (handOver_frame _).2.2.1
  · rfl
  · rfl

theorem retryStream_run : s.retryStream.run = s.run := by
  unfold State.retryStream
  split
  · exact (openStream_frame _).2.2
  · rfl

theorem mcIdle_run : s.mcIdle.run = s.run := retryStream_run

theorem dropMsr_run : s.dropMsr.run = s.run := by
  unfold State.dropMsr
  split
  · exact mcIdle_run.trans (withdraw_frame _).2.2.1
  · exact mcIdle_run
  · exact mcIdle_run
  · rfl
  · rfl

theorem setSafeHalt_run : s.setSafeHalt.run = s.run := by
  unfold State.setSafeHalt
  dsimp only
  refine hvAbandon_run.trans ?_
  refine dropMsr_run.trans ?_
  split
  · exact abandonConfiguration_frame.2.2.1.trans raise_run
  · exact abandonConfiguration_frame.2.2.1.trans raise_run

/-- A DISCHARGE-TIMEOUT leaves no run active (R42). -/
theorem reportFault_ends {r : FaultReport} (hr : r.code = .dischargeTimeout) :
    (s.reportFault r).run.state.isActive = false := by
  unfold State.reportFault
  dsimp only
  generalize (if s.run.active = true then s.run.step else none) = st
  split
  · rename_i h
    rw [raise_run]
    simpa [Run.active_eq, State.onFault] using h
  · split
    · rw [setSafeHalt_run, enterDone_state]
      rfl
    · rw [enterDone_state]
      rfl

/-! The HV state through a report -/

theorem noticeDue_hv : s.noticeDue.hv = s.hv := by
  unfold State.noticeDue
  dsimp only
  repeat' split
  all_goals rfl

theorem raise_hv {e : Event} : (s.raise e).hv = s.hv := by
  unfold State.raise
  dsimp only
  repeat' split
  · rfl
  · rfl
  · exact noticeDue_hv

theorem beginChar_hv : s.beginChar.hv = s.hv := by
  unfold State.beginChar
  split <;> rfl

theorem startSending_hv {b : Bool} : (s.startSending b).hv = s.hv := beginChar_hv

theorem lineComplete_hv {b : Bool} {t : List Byte} : (s.lineComplete b t).hv = s.hv := by
  unfold State.lineComplete
  dsimp only
  split
  · exact startSending_hv
  · rfl

theorem recordComplete_hv {t : List Byte} : (s.recordComplete t).hv = s.hv := by
  unfold State.recordComplete
  split
  · rfl
  · exact lineComplete_hv

theorem formatValue_hv : s.formatValue.hv = s.hv := by
  unfold State.formatValue
  repeat' split
  · rfl
  · rfl
  · exact recordComplete_hv

theorem formatNetB_hv : s.formatNetB.hv = s.hv := by
  unfold State.formatNetB
  repeat' split
  · rfl
  · exact formatValue_hv
  · rfl
  · exact formatValue_hv

theorem formatNetA_hv : s.formatNetA.hv = s.hv := by
  unfold State.formatNetA
  dsimp only
  repeat' split
  · rfl
  · rfl
  · exact formatNetB_hv

theorem beginLine_hv {start : State → State} (h : (start s).hv = s.hv) : (s.beginLine start).hv = s.hv := by
  unfold State.beginLine
  split
  · rfl
  · exact h

theorem look_hv (n : Nat) : (s.look n).hv = s.hv := by
  induction n generalizing s with
  | zero => rfl
  | succ n ih =>
    rw [State.look]
    dsimp only
    repeat' split
    all_goals
      first
        | rfl
        | exact ih.trans rfl
        | exact beginLine_hv rfl
        | exact beginLine_hv formatNetA_hv

theorem printRunEnds_hv {t : Termination} : (s.printRunEnds t).hv = s.hv := by
  unfold State.printRunEnds State.printLook
  dsimp only
  split
  · exact look_hv _
  · exact look_hv _

theorem stepEnd_hv {t : Option Termination} : (s.stepEnd t).hv = s.hv := by
  unfold State.stepEnd
  split
  · rfl
  · exact raise_hv

theorem enterDone_hvState {t : Termination} : (s.enterDone t).hv.state = s.hv.state := by
  unfold State.enterDone
  dsimp only
  rw [printRunEnds_hv, raise_hv]
  split
  · exact (congrArg Hv.state (stepEnd_hv (s := s) (t := some t)) : _)
  · rfl

theorem retryStream_hvState : s.retryStream.hv.state = s.hv.state := by
  unfold State.retryStream
  split
  · exact (congrArg Hv.state (openStream_frame _).1).trans rfl
  · rfl

theorem dropMsr_hvState : s.dropMsr.hv.state = s.hv.state := by
  unfold State.dropMsr
  split
  · exact retryStream_hvState.trans (congrArg Hv.state (withdraw_frame _).1)
  · exact retryStream_hvState
  · exact retryStream_hvState
  · rfl
  · rfl

theorem hvAbandon_discharge (h : s.hv.state = .discharge) : s.hvAbandon.hv.state = .discharge := by
  unfold State.hvAbandon
  dsimp only
  rw [h]
  exact h

theorem setSafeHalt_discharge (h : s.hv.state = .discharge) : s.setSafeHalt.hv.state = .discharge := by
  have a : ∀ x : State, x.abandonConfiguration.hv = x.hv := fun x => abandonConfiguration_frame.1
  unfold State.setSafeHalt
  dsimp only
  refine hvAbandon_discharge (dropMsr_hvState.trans ?_)
  split
  · exact (congrArg Hv.state (a _)).trans ((congrArg Hv.state raise_hv).trans h)
  · exact (congrArg Hv.state (a _)).trans ((congrArg Hv.state raise_hv).trans h)

/-- A DISCHARGE-TIMEOUT leaves the HV state as it is (R42). -/
theorem reportFault_discharge {r : FaultReport} (hr : r.code = .dischargeTimeout)
    (h : s.hv.state = .discharge) : (s.reportFault r).hv.state = .discharge := by
  unfold State.reportFault
  dsimp only
  generalize (if s.run.active = true then s.run.step else none) = st
  have h1 : ((s.onFault fun f => f.report st r).raise .fault).hv.state = .discharge :=
    (congrArg Hv.state raise_hv).trans h
  split
  · exact h1
  · split
    · exact setSafeHalt_discharge (enterDone_hvState.trans h1)
    · exact enterDone_hvState.trans h1

theorem changes_dischargeExpired (h : Changes gr v s.view) (hs : s.hv.state = .discharge) :
    Changes gr v s.dischargeExpired.view := by
  unfold State.dischargeExpired
  have h1 : Changes gr v (s.onHv fun h => { h with dischargeTimer := none, safeWait := false }).view := h.same rfl
  let r : FaultReport :=
    { code := .dischargeTimeout, hv := .discharge, net := s.hv.net, point := none, table := none }
  have h2 := changes_reportFault (r := r) h1
  have hd := reportFault_discharge (s := s.onHv fun h => { h with dischargeTimer := none, safeWait := false })
    (r := r) rfl hs
  have hr := reportFault_ends (s := s.onHv fun h => { h with dischargeTimer := none, safeWait := false })
    (r := r) rfl
  generalize ((s.onHv fun h => { h with dischargeTimer := none, safeWait := false }).reportFault r) = x at *
  refine (h2.step (.hv _ .stuck (fun e => ?_) (by simp) (fun _ => hr))).to rfl
  exact absurd (hd.symm.trans e) (by simp)

theorem changes_hvPeriod (h : Changes gr v s.view) : Changes gr v s.hvPeriod.view := by
  unfold State.hvPeriod
  split
  · split
    · exact changes_periodDischarge (changes_homeCut (changes_leaveSafe h (fun _ => ⟨rfl, rfl⟩)
        (.inl fun _ => rfl)))
    · exact h
  · split
    · exact changes_periodDischarge h
    · exact h
  · exact changes_periodDischarge h
  · exact h

theorem changes_hvInserted (h : Changes gr v s.view) : Changes gr v s.hvInserted.view := by
  unfold State.hvInserted
  try dsimp only
  repeat' split
  all_goals
    repeat first
      | with_reducible exact h
      | with_reducible apply changes_hvBoundary

/-! ### Configurations (chapter 03) -/

theorem changes_seqOver (h : Changes gr v s.view) : Changes gr v (s.onSeq Sequencer.over).view :=
  (h.step (.rests s.view)).to rfl

theorem changes_configReady (h : Changes gr v s.view) : Changes gr v s.configReady.view := by
  unfold State.configReady
  try dsimp only
  repeat' split
  all_goals
    repeat first
      | with_reducible exact h
      | with_reducible apply changes_sweepReady
      | with_reducible apply changes_hvReady
      | with_reducible apply changes_seqOver

theorem changes_configFailed (h : Changes gr v s.view) : Changes gr v s.configFailed.view := by
  unfold State.configFailed
  try dsimp only
  repeat' split
  all_goals
    repeat first
      | with_reducible exact h
      | with_reducible apply changes_sweepFailed
      | with_reducible apply changes_hvFailed
      | with_reducible apply changes_seqOver

end Sys2Proof.Machine
end

