-- ==== Sys2Proof/Laws/ChangesTables.lean ====
section
/-! SUPPORT. What configurations, the reads of a step, the table check, the completion of a record access and
the print port can do, as `Changes` of the view. -/

namespace Sys2Proof.Machine

variable {gr : Grant} {v : View} {s : State}

/-! ### Configurations (R49 to R57) -/

/-- Frames of transactions are handed over one after the other. -/
theorem changes_queueAttempts {ts : List Transaction} (h : Changes gr v s.view)
    (hm : ∀ t ∈ ts, t.masks ∈ s.seq.transactions.map (·.masks)) : Changes gr v (s.queueAttempts ts).view := by
  unfold State.queueAttempts
  induction ts generalizing s with
  | nil => exact h
  | cons t rest ih =>
    rw [List.foldl_cons]
    refine ih ?_ fun u hu => by rw [handOver_masks]; exact hm u (List.mem_cons_of_mem _ hu)
    obtain ⟨x, hx, hxm⟩ := List.mem_map.mp (hm t List.mem_cons_self)
    exact changes_handOver h (fun _ => .inr (List.ne_nil_of_mem hx)) fun m _ => ⟨x, hx, by rw [hxm]; rfl⟩

/-- No transaction closes both relays of a channel where no module's masks are in conflict (R52). -/
theorem newTransactions_apart (h : ¬(s.modules.any fun a => (desiredMasks s.seq.placed a).conflict) = true) :
    ∀ t ∈ s.newTransactions, t.masks.apart := by
  intro t ht
  obtain ⟨a, ha, rfl⟩ := List.mem_map.mp (List.mem_of_mem_filter ht)
  simp only [List.any_eq_true, not_exists, not_and] at h
  have := h a ha
  simpa [Masks.conflict, Masks.apart, Transaction.fresh] using this

theorem changes_buildMasks (h : Changes gr v s.view) (hs : s.seq.state = .translating) :
    Changes gr v s.buildMasks.view := by
  unfold State.buildMasks
  split
  · exact changes_seqOver h
  · rename_i hc
    split
    · exact changes_configReady h
    · have h1 := h.step (.verifies s.view s.newTransactions hs (newTransactions_apart hc))
      exact changes_queueAttempts (h1.same rfl) fun t ht => List.mem_map.mpr ⟨t, ht, rfl⟩

theorem lookup_seq (p : Nat) (w : LookupFor) : (s.lookup p w).1.seq = s.seq := by
  unfold State.lookup
  split
  · rfl
  · split <;> rfl

theorem translated_state (q : Sequencer) (r : PointRec) : (q.translated r).state = q.state := by
  unfold Sequencer.translated
  split <;> rfl

theorem changes_translated {r : PointRec} (h : Changes gr v s.view) :
    Changes gr v (s.onSeq fun q => q.translated r).view := by
  refine h.same ?_
  have e : (s.seq.translated r).state = s.seq.state ∧ (s.seq.translated r).transactions = s.seq.transactions := by
    unfold Sequencer.translated
    split <;> exact ⟨rfl, rfl⟩
  simp [State.view, State.onSeq, e, State.repliesOwed]

theorem changes_translate (n : Nat) (h : Changes gr v s.view) (hs : s.seq.state = .translating) :
    Changes gr v (s.translate n).view := by
  induction n generalizing s with
  | zero =>
    rw [State.translate.eq_def]
    dsimp only
    split
    · exact changes_buildMasks h hs
    · exact h
  | succ n ih =>
    rw [State.translate.eq_def]
    dsimp only
    split
    · exact changes_buildMasks h hs
    · split
      · refine ih (changes_translated (changes_lookup h)) ?_
        exact (translated_state _ _).trans ((congrArg Sequencer.state (lookup_seq _ _)).trans hs)
      · exact changes_lookup h

theorem changes_configRequest {who : Requester} {settle : Nat} {pairs : List (Nat × Bus)}
    (h : Changes gr v s.view) : Changes gr v (s.configRequest who settle pairs).view := by
  unfold State.configRequest
  split
  · exact h
  · rename_i hg
    simp only [Bool.or_eq_true, decide_eq_true_eq, not_or, not_not] at hg
    have h1 := h.step (.begins s.view .translating (.inl rfl) hg.1.2 hg.2)
    exact changes_translate _ (h1.same rfl) rfl

theorem changes_translationFound {r : PointRec} (h : Changes gr v s.view) :
    Changes gr v (s.translationFound r).view := by
  unfold State.translationFound
  split
  · exact h
  · rename_i hs
    exact changes_translate _ (changes_translated h) ((translated_state _ _).trans (not_not.mp hs))

theorem changes_configEnd (h : Changes gr v s.view) : Changes gr v s.configEnd.view := by
  unfold State.configEnd
  split
  · exact h
  · rename_i hg
    simp only [Bool.or_eq_true, decide_eq_true_eq, not_or, not_not, Bool.not_eq_true', Bool.not_eq_false,
      List.isEmpty_iff] at hg
    split
    · exact (h.step (.settles s.view hg.1 hg.2)).same rfl
    · exact changes_configFailed h

theorem changes_verifyEcho {module tag countA countB : Nat} (h : Changes gr v s.view) :
    Changes gr v (s.verifyEcho module tag countA countB).view := by
  unfold State.verifyEcho
  try dsimp only
  repeat' split
  all_goals
    repeat first
      | with_reducible exact h
      | with_reducible apply changes_answered
      | with_reducible apply changes_believe
      | with_reducible apply changes_endTransaction
      | with_reducible apply changes_configEnd
      | with_reducible apply changes_faultAgainst
      | with_reducible apply changes_attemptFails

theorem believe_state (m : Nat) (k : Option Masks) : (s.believe m k).seq.state = s.seq.state := by
  unfold State.believe
  split <;> rfl

theorem changes_homeEcho {module tag countA countB : Nat} (h : Changes gr v s.view)
    (hs : s.seq.state = .homing) : Changes gr v (s.homeEcho module tag countA countB).view := by
  unfold State.homeEcho
  split
  · exact h
  · dsimp only
    generalize (if countA = 0 && countB = 0 then some Masks.clear else none) = m
    have h2 : Changes gr v (s.believe module m).view := changes_believe h
    split
    · exact changes_homeEnd (h2.same rfl) ((believe_state _ _).trans hs)
    · exact h2.same rfl

theorem changes_ownEcho {module tag countA countB : Nat} (h : Changes gr v s.view) :
    Changes gr v (s.ownEcho module tag countA countB).view := by
  unfold State.ownEcho
  split
  · exact changes_verifyEcho h
  · exact changes_homeEcho h ‹_›
  · exact h

theorem changes_switchUnclaimed {module tag : Nat} (h : Changes gr v s.view) :
    Changes gr v (s.switchUnclaimed module tag).view := by
  unfold State.switchUnclaimed
  try dsimp only
  repeat' split
  all_goals
    repeat first
      | with_reducible exact h
      | with_reducible apply changes_answered
      | with_reducible apply changes_attemptFails
      | with_reducible apply changes_configEnd

theorem changes_msrFails (h : Changes gr v s.view) : Changes gr v s.msrFails.view := by
  unfold State.msrFails
  split
  · refine changes_handOverPlain (h.same rfl) (by simp [msrEntry, ownFrame, clsMsr, clsSw]) fun m e => ?_
    simp [msrEntry] at e
  · exact changes_reportFault (changes_mcIdle h)

/-! ### Reads of a step (chapters 06 to 08) -/

theorem changes_sweepConfigure {busA busB : List Nat} (h : Changes gr v s.view) :
    Changes gr v (s.sweepConfigure busA busB).view := by
  unfold State.sweepConfigure
  try dsimp only
  all_goals
    repeat first
      | with_reducible exact h
      | with_reducible apply changes_onSweep
      | with_reducible apply changes_configRequest

theorem changes_hvConfigure (h : Changes gr v s.view) : Changes gr v s.hvConfigure.view := by
  unfold State.hvConfigure
  try dsimp only
  all_goals
    repeat first
      | with_reducible exact h
      | ((with_reducible refine changes_onHv ?_ ?_); on_goal 2 => exact fun _ => rfl)
      | with_reducible apply changes_configRequest

theorem changes_visitPoint {point : Nat} (h : Changes gr v s.view) : Changes gr v (s.visitPoint point).view := by
  unfold State.visitPoint
  try dsimp only
  repeat' split
  all_goals
    repeat first
      | with_reducible exact h
      | with_reducible apply changes_sweepNextMember
      | with_reducible apply changes_onSweep
      | with_reducible apply changes_sweepRead

theorem changes_visitModule {module : Nat} (h : Changes gr v s.view) :
    Changes gr v (s.visitModule module).view := by
  unfold State.visitModule
  try dsimp only
  repeat' split
  all_goals
    repeat first
      | with_reducible exact h
      | with_reducible apply changes_onSweep
      | with_reducible apply changes_alive
      | with_reducible apply changes_sweepConfigure
      | with_reducible apply changes_insertThenBoundary

theorem changes_visitNet {r : NetRec} (h : Changes gr v s.view) : Changes gr v (s.visitNet r).view := by
  unfold State.visitNet
  try dsimp only
  repeat' split
  all_goals
    repeat first
      | with_reducible exact h
      | with_reducible apply changes_onSweep
      | with_reducible apply changes_sweepNextNet
      | with_reducible apply changes_sweepRead
      | with_reducible apply changes_sweepNextMember

theorem changes_scanNextMember (h : Changes gr v s.view) : Changes gr v s.scanNextMember.view := by
  unfold State.scanNextMember
  try dsimp only
  all_goals
    repeat first
      | with_reducible exact h
      | with_reducible apply changes_sweepRead
      | with_reducible apply changes_scanMember

theorem changes_nextCandidate {j : Nat} (h : Changes gr v s.view) : Changes gr v (s.nextCandidate j).view := by
  unfold State.nextCandidate
  try dsimp only
  repeat' split
  all_goals
    repeat first
      | with_reducible exact h
      | with_reducible apply changes_bound
      | with_reducible apply changes_startScan
      | with_reducible apply changes_sweepNextNet
      | with_reducible apply changes_onSweep
      | with_reducible apply changes_popGroup

theorem changes_nextGroupNet (h : Changes gr v s.view) : Changes gr v s.nextGroupNet.view := by
  unfold State.nextGroupNet
  try dsimp only
  repeat' split
  all_goals
    repeat first
      | with_reducible exact h
      | with_reducible apply changes_onSweep
      | with_reducible apply changes_startScan
      | with_reducible apply changes_sweepConfigure

theorem changes_workBuilt (h : Changes gr v s.view) : Changes gr v s.workBuilt.view := by
  unfold State.workBuilt
  try dsimp only
  all_goals
    repeat first
      | with_reducible exact h
      | with_reducible apply changes_onSweep
      | with_reducible apply changes_takeEntry

theorem changes_scanDone (h : Changes gr v s.view) : Changes gr v s.scanDone.view := by
  unfold State.scanDone
  try dsimp only
  repeat' split
  all_goals
    repeat first
      | with_reducible exact h
      | with_reducible apply changes_nextCandidate
      | with_reducible apply changes_onSweep
      | with_reducible apply changes_nextGroupNet
      | with_reducible apply changes_sweepRead
      | with_reducible apply changes_workBuilt

theorem changes_scanLost {point module : Nat} (h : Changes gr v s.view) :
    Changes gr v (s.scanLost point module).view := by
  unfold State.scanLost
  try dsimp only
  repeat' split
  all_goals
    repeat first
      | with_reducible exact h
      | with_reducible apply changes_netEndRecord
      | with_reducible apply changes_nextCandidate
      | with_reducible apply changes_onSweep
      | with_reducible apply changes_popGroup
      | with_reducible apply changes_nextEntry

theorem changes_workMember {point : Nat} (h : Changes gr v s.view) : Changes gr v (s.workMember point).view := by
  unfold State.workMember
  try dsimp only
  repeat' split
  all_goals
    repeat first
      | with_reducible exact h
      | with_reducible apply changes_onSweep
      | with_reducible apply changes_workBuilt
      | with_reducible apply changes_scanNextMember
      | with_reducible apply changes_startScan

theorem changes_scanMember {point : Nat} (h : Changes gr v s.view) : Changes gr v (s.scanMember point).view := by
  unfold State.scanMember
  try dsimp only
  repeat' split
  all_goals
    repeat first
      | with_reducible exact h
      | with_reducible apply changes_workMember
      | with_reducible apply changes_sweepRead

theorem changes_scanModule {point module : Nat} (h : Changes gr v s.view) :
    Changes gr v (s.scanModule point module).view := by
  unfold State.scanModule
  try dsimp only
  repeat' split
  all_goals
    repeat first
      | with_reducible exact h
      | with_reducible apply changes_alive
      | with_reducible apply changes_onSweep
      | with_reducible apply changes_scanNextMember
      | with_reducible apply changes_scanDone
      | with_reducible apply changes_scanLost

theorem changes_entryModule {point module : Nat} (h : Changes gr v s.view) :
    Changes gr v (s.entryModule point module).view := by
  unfold State.entryModule
  try dsimp only
  repeat' split
  all_goals
    repeat first
      | with_reducible exact h
      | with_reducible apply changes_alive
      | with_reducible apply changes_sweepConfigure
      | with_reducible apply changes_nextEntry

theorem changes_sweepReadDone {bs : List Byte} (h : Changes gr v s.view) :
    Changes gr v (s.sweepReadDone bs).view := by
  unfold State.sweepReadDone
  try dsimp only
  repeat' split
  all_goals
    repeat first
      | with_reducible exact h
      | with_reducible apply changes_onSweep
      | with_reducible apply changes_visitNet
      | with_reducible apply changes_sweepRead
      | with_reducible apply changes_sweepNextMember
      | with_reducible apply changes_visitPoint
      | with_reducible apply changes_visitModule
      | with_reducible apply changes_scanNextMember
      | with_reducible apply changes_scanMember
      | with_reducible apply changes_scanModule
      | with_reducible apply changes_entryModule

theorem changes_hvReadDone {bs : List Byte} (h : Changes gr v s.view) : Changes gr v (s.hvReadDone bs).view := by
  unfold State.hvReadDone
  try dsimp only
  repeat' split
  all_goals
    repeat first
      | with_reducible exact h
      | with_reducible apply changes_hvNetRead
      | ((with_reducible refine changes_onHv ?_ ?_); on_goal 2 => exact fun _ => rfl)
      | with_reducible apply changes_bound
      | ((with_reducible refine changes_askRead ?_ ?_); on_goal 2 => rfl)
      | with_reducible apply changes_hvConfigure

theorem changes_stepStarts {index : Nat} {x : StepRec} (h : Changes gr v s.view) :
    Changes gr v (s.stepStarts index x).view := by
  unfold State.stepStarts
  try dsimp only
  repeat' split
  all_goals
    repeat first
      | with_reducible exact h
      | ((with_reducible refine changes_askWrite ?_ ?_); on_goal 2 => rfl)
      | ((with_reducible refine changes_onRun ?_ ?_); on_goal 2 => exact fun _ => rfl)
      | with_reducible apply changes_sweepStart
      | with_reducible apply changes_hvStart
      | with_reducible apply changes_raise
      | with_reducible apply changes_stepFinished

theorem changes_runReadDone {bs : List Byte} (h : Changes gr v s.view) : Changes gr v (s.runReadDone bs).view := by
  unfold State.runReadDone
  try dsimp only
  repeat' split
  all_goals
    repeat first
      | with_reducible exact h
      | with_reducible apply changes_stepStarts

/-! ### The table check (R17, R18) -/

theorem changes_checkFails {reason : CheckReason} {kind : TableKind} {index : Nat} (h : Changes gr v s.view)
    (hc : s.tables.check.isSome = true) : Changes gr v (s.checkFails reason kind index).view := by
  refine changes_raise ?_
  exact (h.step (.checked s.view .loaded hc)).same rfl

theorem changes_checkPasses (h : Changes gr v s.view) (hc : s.tables.check.isSome = true) :
    Changes gr v s.checkPasses.view := by
  refine changes_raise (changes_invalidate ?_)
  exact (h.step (.checked s.view .ready hc)).same rfl

theorem changes_checkAt {w : CheckWork} (h : Changes gr v s.view)
    (hc : s.tables.check.isSome = true ∨ s.tables.state = .checking) : Changes gr v (s.checkAt w).view := by
  refine changes_askRead ?_ rfl
  exact (h.step (.checks s.view hc)).same rfl

theorem changes_checkPoint {w : CheckWork} {i : Nat} {r : PointRec} (h : Changes gr v s.view)
    (hc : s.tables.check.isSome = true) : Changes gr v (s.checkPoint w i r).view := by
  unfold State.checkPoint
  try dsimp only
  repeat' split
  all_goals
    first
      | exact changes_checkFails h hc
      | exact changes_checkPasses h hc
      | exact changes_checkAt h (.inl hc)

theorem changes_checkNet {w : CheckWork} {j : Nat} {r : NetRec} (h : Changes gr v s.view)
    (hc : s.tables.check.isSome = true) : Changes gr v (s.checkNet w j r).view := by
  unfold State.checkNet
  try dsimp only
  repeat' split
  all_goals
    first
      | exact changes_checkFails h hc
      | exact changes_checkPasses h hc
      | exact changes_checkAt h (.inl hc)

theorem changes_checkMember {w : CheckWork} {j pos p : Nat} (h : Changes gr v s.view)
    (hc : s.tables.check.isSome = true) : Changes gr v (s.checkMember w j pos p).view := by
  unfold State.checkMember
  try dsimp only
  repeat' split
  all_goals
    first
      | exact changes_checkFails h hc
      | exact changes_checkPasses h hc
      | exact changes_checkAt h (.inl hc)

theorem changes_checkMemberPoint {w : CheckWork} {j pos : Nat} {r : PointRec} (h : Changes gr v s.view)
    (hc : s.tables.check.isSome = true) : Changes gr v (s.checkMemberPoint w j pos r).view := by
  unfold State.checkMemberPoint
  try dsimp only
  repeat' split
  all_goals
    first
      | exact changes_checkFails h hc
      | exact changes_checkPasses h hc
      | exact changes_checkAt h (.inl hc)

theorem changes_checkFound {w : CheckWork} {i : Nat} {r : PointRec} (h : Changes gr v s.view)
    (hc : s.tables.check.isSome = true) : Changes gr v (s.checkFound w i r).view := by
  unfold State.checkFound
  try dsimp only
  repeat' split
  all_goals
    first
      | exact changes_checkFails h hc
      | exact changes_checkPasses h hc
      | exact changes_checkAt h (.inl hc)

theorem changes_checkStep {w : CheckWork} {i : Nat} {r : StepRec} (h : Changes gr v s.view)
    (hc : s.tables.check.isSome = true) : Changes gr v (s.checkStep w i r).view := by
  unfold State.checkStep
  try dsimp only
  repeat' split
  all_goals
    first
      | exact changes_checkFails h hc
      | exact changes_checkPasses h hc
      | exact changes_checkAt h (.inl hc)

theorem changes_checkReadDone {bytes : Option (List Byte)} (h : Changes gr v s.view) :
    Changes gr v (s.checkReadDone bytes).view := by
  unfold State.checkReadDone
  split
  · exact h
  · rename_i w hw
    have hc : s.tables.check.isSome = true := by rw [hw]; rfl
    split
    · exact changes_checkFails h hc
    · split
      · exact changes_checkPoint h hc
      · exact changes_checkNet h hc
      · exact changes_checkAt h (.inl hc)
      · exact changes_checkMember h hc
      · exact changes_checkMemberPoint h hc
      · exact changes_checkFound h hc
      · exact changes_checkStep h hc

/-! ### The end of a fill (R19, R20, R86) -/

theorem changes_leadKnown {r : PointRec} (h : Changes gr v s.view) : Changes gr v (s.leadKnown r).view := h

theorem changes_lookupLeads (n : Nat) (h : Changes gr v s.view) : Changes gr v (s.lookupLeads n).view := by
  induction n generalizing s with
  | zero => exact h
  | succ n ih =>
    rw [State.lookupLeads]
    dsimp only
    split
    · exact h
    · split
      · exact ih (changes_leadKnown (changes_lookup h))
      · exact changes_lookup h

theorem changes_deliver {who : LookupFor} {r : PointRec} (h : Changes gr v s.view) :
    Changes gr v (s.deliver who r).view := by
  unfold State.deliver
  split
  · exact changes_translationFound h
  · exact changes_lookupLeads 2 (changes_leadKnown h)
  · split
    · exact changes_referenceKnown h
    · exact h
  · exact h

theorem changes_serveWaiting (n : Nat) (h : Changes gr v s.view) : Changes gr v (s.serveWaiting n).view := by
  induction n generalizing s with
  | zero => exact h
  | succ n ih =>
    rw [State.serveWaiting]
    split
    · exact h
    · split
      · exact h
      · dsimp only
        split
        · exact ih (changes_deliver (changes_lookup (h.same rfl)))
        · exact changes_lookup (h.same rfl)

/-- The INVALIDATE MAP commands that waited are answered from the places they held (log 10). -/
theorem changes_answerInvalidates {p : Nat} (h : Changes gr v s.view) :
    Changes gr v (s.answerInvalidates p).view := by
  have k : ∀ (ts : List Byte) (x : State) (n : Nat), Changes gr v { x.view with load := n } →
      Changes gr v { (ts.foldl (fun acc tag => (acc.onCache fun c => c.invalidate (some p)).reply tag 0x15 .ok
          [byte (acc.cache.count (some p))]) x).view with load := n } ∧
        (ts.foldl (fun acc tag => (acc.onCache fun c => c.invalidate (some p)).reply tag 0x15 .ok
          [byte (acc.cache.count (some p))]) x).view.load = x.view.load + ts.length := by
    intro ts
    induction ts with
    | nil => exact fun x n hx => ⟨hx, rfl⟩
    | cons t rest ih =>
      intro x n hx
      rw [List.foldl_cons]
      have hi : Changes gr v { ((x.onCache fun c => c.invalidate (some p)).reply t 0x15 .ok
          [byte (x.cache.count (some p))]).view with load := n } := by
        refine (hx.step (.entries _ (fun e => if e.valid && e.tag = p then { e with valid := false } else e)
          fun e => ?_)).to ?_
        · split <;> simp_all
        · simp [State.view, State.reply, State.trunkPut, State.onTrunk, State.onCache, Cache.invalidate]
      have hl : ((x.onCache fun c => c.invalidate (some p)).reply t 0x15 .ok
          [byte (x.cache.count (some p))]).view.load = x.view.load + 1 := by
        simp [State.view, State.reply, State.trunkPut, State.onTrunk, State.onCache, State.repliesOwed,
          Cache.invalidate]
        omega
      obtain ⟨a, b⟩ := ih _ n hi
      refine ⟨a, b.trans ?_⟩
      rw [hl, List.length_cons]
      omega
  unfold State.answerInvalidates
  obtain ⟨a, b⟩ := k s.cache.invalidates (s.onCache fun c => { c with invalidates := [] }) s.view.load
    (h.to rfl)
  refine a.to ?_
  have e : (s.onCache fun c => { c with invalidates := [] }).view.load + s.cache.invalidates.length
      = s.view.load := by
    simp [State.view, State.onCache, State.repliesOwed]
    omega
  rw [e] at b
  rw [← b]


theorem changes_fillFailed {who : LookupFor} (h : Changes gr v s.view) :
    Changes gr v (s.fillFailed who).view := by
  unfold State.fillFailed
  repeat' split
  · exact changes_seqOver h
  · exact h
  · exact h
  · exact h

theorem changes_fillDone {bytes : Option (List Byte)} (h : Changes gr v s.view) :
    Changes gr v (s.fillDone bytes).view := by
  unfold State.fillDone
  split
  · exact h
  · rename_i p who hf
    split
    · dsimp only
      apply changes_deliver
      apply changes_serveWaiting
      apply changes_answerInvalidates
      refine (h.step (.filled s.view p _ (by simp [State.view, hf]))).same rfl
    · dsimp only
      apply changes_serveWaiting
      apply changes_tableParity
      apply changes_fillFailed
      apply changes_answerInvalidates
      exact (h.step (.fillEnds s.view)).same rfl

/-! ### The completion of a record access (R2, R3) -/

theorem changes_leadWritten {point lead : Nat} (h : Changes gr v s.view) :
    Changes gr v (s.leadWritten point lead).view := by
  unfold State.leadWritten
  dsimp only
  split
  · exact changes_atBoundary (changes_writeLead h)
  · exact changes_writeLead h

theorem changes_printReadDone {bytes : Option (List Byte)} (h : Changes gr v s.view) :
    Changes gr v (if (s.printRead bytes).print.fmt.isNone then (s.printRead bytes).printLook
      else s.printRead bytes).view := by
  split
  · exact changes_printLook (changes_printRead h)
  · exact changes_printRead h

/-- A requester that owes no reply goes on. -/
theorem changes_accessDone {a : Access} {bytes : Option (List Byte)} (h : Changes gr v s.view)
    (ho : a.owner.owesReply = false) : Changes gr v (s.accessDone a bytes).view := by
  unfold State.accessDone
  cases e : a.owner with
  | load tag code last =>
    cases last with
    | false => exact h
    | true => rw [e] at ho; exact absurd ho (by simp [Owner.owesReply])
  | leads tag last =>
    cases last with
    | false => exact h
    | true => rw [e] at ho; exact absurd ho (by simp [Owner.owesReply])
  | readTable tag => rw [e] at ho; exact absurd ho (by simp [Owner.owesReply])
  | check => exact changes_checkReadDone h
  | fill => exact changes_fillDone h
  | runRead =>
    cases bytes with
    | none => exact changes_tableParity h
    | some bs => exact changes_runReadDone h
  | runWrite => exact h
  | sweepRead =>
    cases bytes with
    | none => exact changes_tableParity h
    | some bs => exact changes_sweepReadDone h
  | sweepLead point lead => exact changes_leadWritten h
  | hvRead =>
    cases bytes with
    | none => exact changes_tableParity h
    | some bs => exact changes_hvReadDone h
  | print => exact changes_printReadDone h
  | dropped => exact h

/-- A requester that owes a reply answers, whatever was read. -/
theorem accessDone_replies {a : Access} {bytes : Option (List Byte)} (ho : a.owner.owesReply = true) :
    ∃ tag code r data, s.accessDone a bytes = s.reply tag code r data := by
  unfold State.accessDone
  cases e : a.owner with
  | load tag code last =>
    cases last with
    | true => exact ⟨_, _, _, _, rfl⟩
    | false => rw [e] at ho; exact absurd ho (by simp [Owner.owesReply])
  | leads tag last =>
    cases last with
    | true => exact ⟨_, _, _, _, rfl⟩
    | false => rw [e] at ho; exact absurd ho (by simp [Owner.owesReply])
  | readTable tag =>
    cases bytes with
    | none => exact ⟨_, _, _, _, rfl⟩
    | some bs => exact ⟨_, _, _, _, rfl⟩
  | _ => rw [e] at ho; exact absurd ho (by simp [Owner.owesReply])

theorem portDone_load {a : Access} {rest : List Access} (hq : s.port.queue = a :: rest) :
    s.portDone.view = { s.view with load := s.portDone.view.load } ∧
      s.portDone.view.load + (if a.owner.owesReply then 1 else 0) = s.view.load := by
  refine ⟨?_, ?_⟩
  · have e : s.portDone.rst.held = s.rst.held := by
      by_cases hp : s.rst.phase = .accessing <;> simp [State.portDone, State.onPort, State.onRst, hp]
    simp only [State.view, e]
    rfl
  simp only [State.portDone, State.view, State.onPort, State.onRst, State.repliesOwed, hq, List.drop_succ_cons,
    List.drop_zero, List.filter_cons]
  split
  all_goals
    try simp only [List.length_cons]
    omega

/-- The access at the head leaves the port, and its requester goes on. -/
theorem changes_portAccessDone {a : Access} {rest : List Access} {bytes : Option (List Byte)}
    (h : Changes gr v s.view) (hq : s.port.queue = a :: rest) {f : Tables → Tables}
    (hf : ∀ t, (f t).state = t.state ∧ (f t).check = t.check) :
    Changes gr v ((s.portDone.onTables f).accessDone a bytes).view := by
  obtain ⟨e, l⟩ := portDone_load hq
  have e' : (s.portDone.onTables f).view = s.portDone.view := by
    simp [State.view, State.onTables, hf, State.repliesOwed]
  cases ho : a.owner.owesReply with
  | true =>
    obtain ⟨tag, code, r, data, k⟩ :=
      accessDone_replies (s := s.portDone.onTables f) (a := a) (bytes := bytes) ho
    rw [k]
    have lr : ((s.portDone.onTables f).reply tag code r data).view
        = { (s.portDone.onTables f).view with load := (s.portDone.onTables f).view.load + 1 } := by
      simp [State.view, State.reply, State.trunkPut, State.onTrunk, State.onTables, State.repliesOwed]
      omega
    rw [lr, e', e]
    rw [ho] at l
    exact h.to (by simp only [if_true] at l; rw [l])
  | false =>
    refine changes_accessDone ?_ ho
    rw [e']
    exact changes_loadTo h e (.inl (by omega))

theorem changes_writeRun {a : Nat} {bs : List Byte} (h : Changes gr v s.view) (hk : gr.mem = true) :
    Changes gr v (s.onMem fun m => m.writeRun a bs).view := by
  induction bs generalizing s a with
  | nil => exact h.same rfl
  | cons b rest ih =>
    have h1 : Changes gr v (s.onMem fun m => m.write a b).view := (h.step (.write s.view a b hk)).same rfl
    exact (ih (a := a + 1) h1).same rfl

theorem changes_upsetRecord {a : Access} {u : Option Nat} (h : Changes gr v s.view) (hk : gr.mem = true) :
    Changes gr v (s.upsetRecord a u).view := by
  unfold State.upsetRecord
  split
  · split
    · exact (h.step (.upset s.view _ hk)).same rfl
    · exact h
  · exact h

theorem upsetRecord_port {a : Access} {u : Option Nat} : (s.upsetRecord a u).port = s.port := by
  unfold State.upsetRecord
  repeat' split
  all_goals rfl

theorem changes_completeAccess {a : Access} {rest : List Access} (h : Changes gr v s.view)
    (hk : gr.mem = true) (hq : s.port.queue = a :: rest) : Changes gr v (s.completeAccess a).view := by
  unfold State.completeAccess
  split
  · exact changes_portAccessDone (f := id) (changes_writeRun h hk) hq fun _ => ⟨rfl, rfl⟩
  · split
    · exact changes_portAccessDone (f := id) h hq fun _ => ⟨rfl, rfl⟩
    · exact changes_portAccessDone h hq fun _ => ⟨rfl, rfl⟩

/-! ### The print port and removals (R150, R159 to R161) -/

theorem changes_producerInserted (h : Changes gr v s.view) : Changes gr v s.producerInserted.view := by
  unfold State.producerInserted
  try dsimp only
  repeat' split
  all_goals
    repeat first
      | with_reducible exact h
      | with_reducible apply changes_hvInserted
      | with_reducible apply changes_sweepInserted

/-- The run goes on after a stall; it is active throughout. -/
theorem changes_goOn {f : Run → Run} (h : Changes gr v s.view) (hs : s.run.state.isActive = true)
    (hf : ∀ x, (f x).state = .running ∧ (f x).summary = x.summary) : Changes gr v (s.onRun f).view := by
  refine (h.step (.run s.view .running (fun _ => .inl hs) (.inr (.inr hs)))).to ?_
  simp [State.view, State.onRun, hf, State.repliesOwed]

theorem insert_run (r : Insert) (h : s.run.state = .stalled) : (s.insert r).1.run.state.isActive = true := by
  unfold State.insert
  dsimp only
  split
  · simp [State.onRun, State.onDefects, Run.inserted, h, RunState.isActive]
  · split
    · simp [h, RunState.isActive]
    · split
      · dsimp only
        split
        · unfold State.enterStalled
          split
          · rw [raise_run]; rfl
          · simp [State.onRun, h, RunState.isActive]
        · simp [State.onRun, h, RunState.isActive]
      · dsimp only
        split
        · rw [raise_run]; simp [State.onRun, State.onDefects, Run.inserted, Run.appended, h, RunState.isActive]
        · rw [State.printLook, look_run, raise_run]
          simp [State.onRun, State.onDefects, Run.inserted, Run.appended, h, RunState.isActive]

theorem changes_removalReported (h : Changes gr v s.view) : Changes gr v s.removalReported.view := by
  unfold State.removalReported
  split
  · exact h
  · rename_i r _
    have h1 : Changes gr v ((s.onRun fun x => { x with slot := none }).insert r).1.view :=
      changes_insert (h.same rfl)
    dsimp only
    split
    · rename_i hs
      exact changes_producerInserted
        (changes_goOn h1 (insert_run r (s := s.onRun fun x => { x with slot := none }) hs) fun _ => ⟨rfl, rfl⟩)
    · exact h1

theorem changes_removeRecord {n : Nat} (h : Changes gr v s.view) : Changes gr v (s.removeRecord n).view :=
  changes_removalReported ((h.step (.drops s.view fun d => d.seq ≠ n)).same rfl)

theorem changes_foldl {α : Type} {f : State → α → State} (hf : ∀ x a, Changes gr v x.view → Changes gr v (f x a).view)
    (l : List α) (h : Changes gr v s.view) : Changes gr v (l.foldl f s).view := by
  induction l generalizing s with
  | nil => exact h
  | cons a rest ih => exact ih (hf s a h)

theorem changes_removeIfLeaving {n : Nat} (h : Changes gr v s.view) : Changes gr v (s.removeIfLeaving n).view := by
  unfold State.removeIfLeaving
  split
  · exact changes_removeRecord h
  · exact h

theorem changes_retireAll {ns : List Nat} (h : Changes gr v s.view) : Changes gr v (s.retireAll ns).view :=
  changes_foldl (fun _ _ hx => changes_removeIfLeaving (changes_setRetired hx)) ns h

theorem changes_printOff (h : Changes gr v s.view) : Changes gr v s.printOff.view := by
  unfold State.printOff
  dsimp only
  refine changes_foldl (fun _ _ hx => changes_removeRecord hx) _ ?_
  exact changes_onArith (changes_give (changes_onPrint h))

theorem changes_afterLine (h : Changes gr v s.view) : Changes gr v s.afterLine.view := by
  unfold State.afterLine
  try dsimp only
  repeat' split
  all_goals
    repeat first
      | with_reducible exact h
      | with_reducible apply changes_startSending
      | with_reducible apply changes_printLook
      | with_reducible apply changes_onPrint

theorem changes_lineEnd {second : Bool} (h : Changes gr v s.view) : Changes gr v (s.lineEnd second).view := by
  unfold State.lineEnd
  dsimp only
  have tail : ∀ x : State, Changes gr v x.view → Changes gr v (if x.print.disableReq then x.printOff
      else if x.print.holdReq then x.onPrint fun p => { p with state := .held, holdReq := false }
      else x.afterLine).view := by
    intro x hx
    split
    · exact changes_printOff hx
    · split
      · exact hx
      · exact changes_afterLine hx
  split
  · exact tail _ (changes_onPrint (changes_removeIfLeaving (changes_setPrinted h)))
  · exact tail _ (changes_onPrint h)

theorem changes_charSent (h : Changes gr v s.view) : Changes gr v s.charSent.view := by
  unfold State.charSent
  try dsimp only
  repeat' split
  all_goals
    repeat first
      | with_reducible exact h
      | with_reducible apply changes_onPrint
      | with_reducible apply changes_printLook
      | with_reducible apply changes_beginChar
      | with_reducible apply changes_lineEnd

theorem changes_busyExpired (h : Changes gr v s.view) : Changes gr v s.busyExpired.view := by
  unfold State.busyExpired
  try dsimp only
  repeat' split
  all_goals
    repeat first
      | with_reducible exact h
      | with_reducible apply changes_onPrint
      | with_reducible apply changes_raise
      | with_reducible apply changes_printOff

end Sys2Proof.Machine
end

