-- ==== Sys2Proof/Laws/ChangesExec.lean ====
section
/-! SUPPORT. What a row of the operation table can do, as `Changes` of the view: every row but the four that reset
the chip. -/

namespace Sys2Proof.Machine

variable {gr : Grant} {v : View} {s t : State}

/-! ### The frame of an event -/

/-- An event goes on in a chip that is out of reset (R180). -/
theorem changes_event {f : State → State} (e : s.event f = .next t) (hf : Changes gr s.view (f s).view) :
    Changes gr s.view t.view := by
  unfold State.event at e
  split at e
  · injection e with e
    subst e
    exact .refl _
  · injection e with e
    subst e
    exact hf.same rfl

theorem view_load_of_not_deaf (h : ¬s.trunkDeaf = true) : s.view.load < 8 := by
  refine view_load_of_not_full fun e => h ?_
  simp [State.trunkDeaf, e]

/-- A command is taken with room for its answer, and outside SAFE-HALT unless it is taken there too (R167,
R172). -/
theorem changes_command {tag code : Byte} {inHalt : Bool} {args : List Byte} {body : State → State}
    (e : s.command tag code inHalt args body = .next t)
    (hb : s.view.load < 8 → (inHalt = false → s.fault.safeHalt = false) → Changes gr s.view (body s).view) :
    Changes gr s.view t.view := by
  unfold State.command at e
  split at e
  · injection e with e
    subst e
    exact .refl _
  · rename_i hd
    have room := view_load_of_not_deaf fun d => hd (by rw [d, Bool.true_or])
    split at e
    · injection e with e
      subst e
      exact (changes_reply (.refl _) room).same rfl
    · rename_i hh
      injection e with e
      subst e
      refine (hb room fun hi => ?_).same rfl
      simpa [hi] using hh

/-- A command without arguments (R172). -/
theorem changes_bare {tag code : Byte} {inHalt : Bool} {args : List Byte} {body : State → State}
    (e : s.bareCommand tag code inHalt args body = .next t)
    (hb : s.view.load < 8 → (inHalt = false → s.fault.safeHalt = false) → Changes gr s.view (body s).view) :
    Changes gr s.view t.view := by
  refine changes_command e fun room halt => ?_
  split
  · exact hb room halt
  · exact changes_reply (.refl _) room

theorem changes_periodStart (h : Changes gr v s.view) : Changes gr v s.periodStart.view :=
  changes_hvPeriod (changes_pump (h.same rfl))

/-! ### Loads (R5 to R13, R21) -/

theorem changes_askLoad {kind : TableKind} {tag code : Byte} {first : Nat} {rs : List (List Byte)}
    (h : Changes gr v s.view) (room : s.view.load < 8) :
    Changes gr v (s.askLoad kind tag code first rs).view := by
  induction rs generalizing s first with
  | nil => exact h
  | cons r rest ih =>
    rw [State.askLoad]
    cases rest with
    | nil => exact changes_askOwing h room
    | cons r' rest' =>
      refine ih (changes_ask h rfl) ?_
      simp only [State.askWrite, view_ask, List.isEmpty_cons, Owner.owesReply]
      simpa using room

theorem changes_askLeads {tag : Byte} {point : Nat} {ls : List (List Byte)}
    (h : Changes gr v s.view) (room : s.view.load < 8) : Changes gr v (s.askLeads tag point ls).view := by
  induction ls generalizing s point with
  | nil => exact h
  | cons r rest ih =>
    rw [State.askLeads]
    cases rest with
    | nil => exact changes_askOwing h room
    | cons r' rest' =>
      refine ih (changes_ask h rfl) ?_
      simp only [State.askWrite, view_ask, List.isEmpty_cons, Owner.owesReply]
      simpa using room

theorem loadRefusal_none {needs : Bool} (h : s.loadRefusal needs = none) :
    s.run.state.isActive = false ∧ s.tables.state ≠ .checking := by
  unfold State.loadRefusal at h
  split at h
  · cases h
  · rename_i h1
    split at h
    · cases h
    · rename_i h2
      exact ⟨by simpa [Run.active_eq] using h1, h2⟩

/-- An accepted structural load (R5). -/
theorem changes_loaded {f : Tables → Tables} (h : Changes gr v s.view)
    (hn : s.run.state.isActive = false ∧ s.tables.state ≠ .checking)
    (hf : ∀ t, (f t).state = .loaded ∧ (f t).check = t.check) : Changes gr v (s.onTables f).view := by
  refine (h.step (.tables s.view .loaded hn.1 hn.2)).to ?_
  simp [State.view, State.onTables, hf, State.repliesOwed]

theorem changes_loadTable {kind : TableKind} {tag code : Byte} {args : List Byte} (h : Changes gr v s.view)
    (room : s.view.load < 8) : Changes gr v (s.loadTable kind tag code args).view := by
  unfold State.loadTable
  split
  · exact changes_reply h room
  · rename_i hn
    split
    · exact changes_reply h room
    · exact changes_askLoad (changes_loaded h (loadRefusal_none hn) fun _ => ⟨rfl, rfl⟩) room

theorem writeChannels_view (cs : List Nat) : ∀ (x : State) (a : Nat), ∃ ns : List Node,
    ns.length = x.sup.nodes.length ∧
      (x.writeChannels a cs).view = { x.view with nodes := ns } ∧ (x.writeChannels a cs).sup.nodes = ns := by
  induction cs with
  | nil => exact fun x a => ⟨x.sup.nodes, rfl, rfl, rfl⟩
  | cons c rest ih =>
    intro x a
    have hb : ∀ (y : State), (y.believe a none).view = y.view ∧ (y.believe a none).sup = y.sup := by
      intro y
      unfold State.believe
      split <;> exact ⟨rfl, rfl⟩
    obtain ⟨ns, l, e, n⟩ := ih ((x.onSup fun u =>
      { u with nodes := u.nodes.modify (a - 1) fun n => { n with channels := c } }).believe a none) (a + 1)
    refine ⟨ns, ?_, ?_, n⟩
    · rw [l, (hb _).2]
      simp [State.onSup]
    · rw [State.writeChannels, e, (hb _).1]
      rfl

theorem changes_loadModules {tag : Byte} {first : Nat} {counts : List Nat} (h : Changes gr v s.view)
    (room : s.view.load < 8) (hk : gr.modules = true) :
    Changes gr v (((s.writeChannels first counts).reply tag 0x09 .ok).modulesLoaded).view := by
  obtain ⟨ns, l, e, n⟩ := writeChannels_view counts s first
  unfold State.modulesLoaded
  dsimp only
  apply changes_periodStart
  have h1 : Changes gr v (((s.writeChannels first counts).reply tag 0x09 .ok).onSup fun u =>
      { u with nodes := u.nodes.map Node.flagsCleared }).view := by
    have h2 := (h.step (.modules s.view (ns.map Node.flagsCleared) (by simpa [State.view] using l)
      (by simp [Node.flagsCleared]) hk)).step (.load _ (s.view.load + 1) (.inr (by omega)))
    refine h2.to ?_
    have e' : (((s.writeChannels first counts).reply tag 0x09 .ok).onSup fun u =>
        { u with nodes := u.nodes.map Node.flagsCleared }).view
        = { (s.writeChannels first counts).view with
            nodes := (s.writeChannels first counts).sup.nodes.map Node.flagsCleared
            load := (s.writeChannels first counts).view.load + 1 } := by
      simp [State.view, State.onSup, State.reply, State.trunkPut, State.onTrunk, State.repliesOwed]
      omega
    rw [e', e, n]
  split
  · exact changes_raise h1
  · exact h1

/-! ### Resumes, starts and the rest of the commands -/

theorem changes_runStarts {correlate : Bool} {first copies : Nat} (h : Changes gr v s.view)
    (ready : s.tables.state = .ready) (safe : s.hv.state = .safe) (halt : s.fault.safeHalt = false)
    (empty : s.defects = []) : Changes gr v (s.runStarts correlate first copies).view := by
  refine changes_requestHome (changes_printRunStarts ?_)
  have h1 := (h.step (.fresh s.view empty)).step
    (.run _ .running (fun _ => .inr ⟨ready, safe⟩) (.inr (.inl halt)))
  exact h1.to rfl

theorem startRefusal_none {first copies : Nat} (h : s.startRefusal first copies = none) :
    s.tables.state = .ready ∧ s.hv.state = .safe ∧ s.defects = [] := by
  unfold State.startRefusal at h
  repeat' split at h
  any_goals cases h
  simp_all

theorem changes_runContinues (h : Changes gr v s.view) : Changes gr v s.runContinues.view := by
  unfold State.runContinues
  split
  · exact changes_askStep h
  · split
    · exact changes_hvNextNet h
    · exact changes_sweepGoOn h
  · exact h

theorem changes_resumed (h : Changes gr v s.view) (hp : s.run.state = .paused) :
    Changes gr v (s.onRun Run.resumed).view :=
  changes_goOn h (by rw [hp]; rfl) fun _ => ⟨rfl, rfl⟩

theorem changes_printEnable (h : Changes gr v s.view) : Changes gr v s.printEnable.view := by
  unfold State.printEnable
  try dsimp only
  repeat' split
  all_goals
    repeat first
      | with_reducible exact h
      | with_reducible apply changes_onPrint
      | with_reducible apply changes_printLook

theorem changes_printDisable (h : Changes gr v s.view) : Changes gr v s.printDisable.view := by
  unfold State.printDisable
  try dsimp only
  repeat' split
  all_goals
    repeat first
      | with_reducible exact h
      | with_reducible apply changes_onPrint
      | with_reducible apply changes_printOff

theorem changes_printGoHeld (h : Changes gr v s.view) : Changes gr v s.printGoHeld.view := by
  unfold State.printGoHeld
  try dsimp only
  repeat' split
  all_goals
    repeat first
      | with_reducible exact h
      | with_reducible apply changes_startSending
      | with_reducible apply changes_printLook
      | with_reducible apply changes_onPrint

theorem changes_printGoFaulted (h : Changes gr v s.view) : Changes gr v s.printGoFaulted.view := by
  unfold State.printGoFaulted
  try dsimp only
  all_goals
    repeat first
      | with_reducible exact h
      | with_reducible apply changes_onPrint
      | with_reducible apply changes_beginChar
      | with_reducible apply changes_printLook

theorem changes_readRecord {tag : Byte} {kind : TableKind} {index : Nat} (h : Changes gr v s.view)
    (room : s.view.load < 8) : Changes gr v (s.readRecord tag kind index).view := by
  unfold State.readRecord
  repeat' split
  all_goals
    first
      | exact changes_reply h room
      | exact changes_askOwing h room

theorem changes_invalidateMap {tag : Byte} {target : Option Nat} (h : Changes gr v s.view)
    (room : s.view.load < 8) : Changes gr v (s.invalidateMap tag target).view := by
  unfold State.invalidateMap
  extract_lets w
  clear_value w
  split
  · refine changes_loadTo (n := s.view.load + 1) h ?_ (.inr (by omega))
    simp only [State.view, State.onCache, State.repliesOwed, List.length_append, List.length_singleton,
      ← Nat.add_assoc]
  · refine changes_reply (changes_invalidate h) ?_
    simpa [State.view, State.onCache, State.repliesOwed, Cache.invalidate] using room

/-! ### Frames (chapter 11) -/

theorem changes_passThrough {f : Frame} (h : Changes gr v s.view) (room : s.view.load < 8) :
    Changes gr v (s.passThrough f).view := by
  unfold State.passThrough
  split
  · exact changes_reply h room
  · rename_i hn
    unfold State.passRefusal at hn
    repeat' split at hn
    any_goals cases hn
    rename_i _ _ _ _ hh hq
    refine (h.step (.passes s.view f ?_ ?_)).same rfl
    · simpa [State.view] using hq
    · intro hc
      show s.hv.state = .safe
      simpa [hc] using hh

theorem changes_resetReplySent (h : Changes gr v s.view) : Changes gr v s.resetReplySent.view :=
  changes_onRst h rfl

theorem changes_trunkSent (h : Changes gr v s.view) : Changes gr v s.trunkSent.view := by
  unfold State.trunkSent
  split
  · exact h
  · rename_i e rest hq
    have h1 : Changes gr v (s.onTrunk fun t => { t with queue := rest, begun := false }).view := by
      refine changes_trunk h rfl (.inl ?_)
      simp [State.view, State.onTrunk, State.repliesOwed, hq]
    dsimp only
    have h2 : Changes gr v (if s.trunk.held = true then
        (s.onTrunk fun t => { t with queue := rest, begun := false }).noticeDue
        else s.onTrunk fun t => { t with queue := rest, begun := false }).view := by
      split
      · exact changes_noticeDue h1
      · exact h1
    split
    · exact changes_resetReplySent h2
    · exact h2

theorem changes_homeFrameSent {tag : Nat} (h : Changes gr v s.view) : Changes gr v (s.homeFrameSent tag).view := by
  unfold State.homeFrameSent
  dsimp only
  split
  · rename_i hc
    simp only [Bool.and_eq_true, decide_eq_true_eq] at hc
    exact changes_homeEnd (changes_homeSent h) hc.1.1
  · exact changes_homeSent h

theorem changes_msrSent {tag : Nat} (h : Changes gr v s.view) : Changes gr v (s.msrSent tag).view := by
  unfold State.msrSent
  try dsimp only
  repeat' split
  all_goals
    repeat first
      | with_reducible exact h
      | ((with_reducible refine changes_onMc ?_ ?_); on_goal 2 => exact fun _ => rfl)

theorem changes_sentAct {e : RingEntry} (h : Changes gr v s.view) : Changes gr v (s.sentAct e).view := by
  unfold State.sentAct
  try dsimp only
  repeat' split
  all_goals
    repeat first
      | with_reducible exact h
      | with_reducible apply changes_switchSent
      | with_reducible apply changes_homeFrameSent
      | with_reducible apply changes_msrSent

theorem changes_ringSent (h : Changes gr v s.view) : Changes gr v s.ringSent.view := by
  unfold State.ringSent
  split
  · exact h
  · rename_i e rest hq
    have h1 : Changes gr v ((s.onRing fun r => { r with queue := rest }).pump).view :=
      changes_pump (changes_leave h (by rw [hq]; exact List.sublist_cons_self e rest) (List.Sublist.refl _) rfl)
    dsimp only
    split
    · exact h1
    · exact changes_sentAct h1

theorem changes_ownUnclaimed {dst : Nat} {cls : Byte} {tag : Nat} (h : Changes gr v s.view) :
    Changes gr v (s.ownUnclaimed dst cls tag).view := by
  unfold State.ownUnclaimed
  try dsimp only
  repeat' split
  all_goals
    repeat first
      | with_reducible exact h
      | with_reducible apply changes_switchUnclaimed
      | with_reducible apply changes_msrFails

theorem changes_frameReturned {f : Frame} (h : Changes gr v s.view) : Changes gr v (s.frameReturned f).view := by
  unfold State.frameReturned
  try dsimp only
  repeat' split
  all_goals
    repeat first
      | with_reducible exact h
      | with_reducible apply changes_copyUp
      | with_reducible apply changes_faultAgainst
      | with_reducible apply changes_ownUnclaimed

theorem changes_echoArrives {src tag countA countB : Byte} (h : Changes gr v s.view) :
    Changes gr v (s.echoArrives src tag countA countB).view := by
  unfold State.echoArrives
  try dsimp only
  repeat' split
  all_goals
    repeat first
      | with_reducible exact h
      | with_reducible apply changes_heardFrom
      | with_reducible apply changes_ownEcho
      | with_reducible apply changes_copyUp

theorem changes_checkBelief {module countA countB : Nat} (h : Changes gr v s.view) :
    Changes gr v (s.checkBelief module countA countB).view := by
  unfold State.checkBelief
  try dsimp only
  repeat' split
  all_goals
    repeat first
      | with_reducible exact h
      | with_reducible apply changes_modules
      | with_reducible apply changes_believed
      | with_reducible apply changes_believe

theorem changes_statusArrives {src tag kind channels countA countB flags : Byte} (h : Changes gr v s.view) :
    Changes gr v (s.statusArrives src tag kind channels countA countB flags).view := by
  unfold State.statusArrives
  try dsimp only
  repeat' split
  all_goals
    repeat first
      | with_reducible exact h
      | with_reducible apply changes_heardFrom
      | with_reducible apply changes_onNode
      | with_reducible apply changes_checkBelief
      | with_reducible apply changes_hvEvidence
      | with_reducible apply changes_copyUp
      | exact fun _ => rfl

theorem changes_ownSample {tag : Nat} {x : Sample} (h : Changes gr v s.view) :
    Changes gr v (s.ownSample tag x).view := by
  unfold State.ownSample
  split
  · exact changes_onMc h fun _ => rfl
  · rename_i hc
    simp only [Bool.or_eq_true, not_or, decide_eq_true_eq, Nat.not_le] at hc
    refine changes_onArith (changes_samples h (.inr ?_))
    rw [List.length_append]
    exact hc.2

theorem changes_sampleArrives {tag seq : Byte} {vcode icode : BitVec 16} {range flags : Byte} (h : Changes gr v s.view) :
    Changes gr v (s.sampleArrives tag seq vcode icode range flags).view := by
  unfold State.sampleArrives
  try dsimp only
  repeat' split
  all_goals
    repeat first
      | with_reducible exact h
      | with_reducible apply changes_heardFrom
      | with_reducible apply changes_hvEvidence
      | with_reducible apply changes_ownSample
      | with_reducible apply changes_copyUp

theorem changes_echoExpired {module : Nat} (h : Changes gr v s.view) :
    Changes gr v (s.echoExpired module).view := by
  unfold State.echoExpired
  try dsimp only
  repeat' split
  all_goals
    repeat first
      | with_reducible exact h
      | with_reducible apply changes_transaction
      | with_reducible apply changes_attemptFails
      | with_reducible apply changes_configEnd

/-! ### Timers, the Arithmetic Unit and pins -/

theorem changes_periodExpired (h : Changes gr v s.view) : Changes gr v s.periodExpired.view := by
  unfold State.periodExpired
  dsimp only
  apply changes_periodStart
  have h1 : Changes gr v (s.onSup fun u => { u with nodes := u.nodes.map Node.judged }).view :=
    (h.step (.nodes s.view Node.judged fun n => ⟨rfl, fun c => by simp [Node.judged, c]⟩)).to rfl
  have h2 : Changes gr v (if (s.sup.nodes.any Node.changes) = true then
      (s.onSup fun u => { u with nodes := u.nodes.map Node.judged }).raise .moduleChange
      else s.onSup fun u => { u with nodes := u.nodes.map Node.judged }).view := by
    split
    · exact changes_raise h1
    · exact h1
  generalize (if (s.sup.nodes.any Node.changes) = true then
      (s.onSup fun u => { u with nodes := u.nodes.map Node.judged }).raise .moduleChange
      else s.onSup fun u => { u with nodes := u.nodes.map Node.judged }) = x at *
  split
  · exact changes_reportFault h2
  · exact h2

theorem changes_keepaliveZero (h : Changes gr v s.view) (live : s.hv.state = .ramp ∨ s.hv.state = .dwell) :
    Changes gr v ((s.onHv fun h => { h with keepalive := 0 }).hvAbort).view :=
  changes_hvAbort ((h.step (.testEnds s.view 0 live)).to rfl)

theorem Hv.live_iff (h : Hv) : h.live = true ↔ h.state = .ramp ∨ h.state = .dwell := by
  simp [Hv.live]

theorem changes_serve {op : ArithOp} (h : Changes gr v s.view) : Changes gr v (s.serve op).view := by
  unfold State.serve
  try dsimp only
  all_goals
    repeat first
      | with_reducible exact h
      | with_reducible apply changes_onArith

theorem changes_takeAnswer {x : Sample} (h : Changes gr v s.view) : Changes gr v (s.takeAnswer x).view := by
  unfold State.takeAnswer
  try dsimp only
  repeat' split
  all_goals
    repeat first
      | with_reducible exact h
      | with_reducible apply changes_mcIdle
      | with_reducible apply changes_serve
      | with_reducible apply changes_lookupLeads

theorem changes_takeStream {x : Sample} (h : Changes gr v s.view) : Changes gr v (s.takeStream x).view := by
  unfold State.takeStream
  try dsimp only
  repeat' split
  all_goals
    repeat first
      | with_reducible exact h
      | ((with_reducible refine changes_onMc ?_ ?_); on_goal 2 => exact fun _ => rfl)
      | with_reducible apply changes_serve

theorem changes_takeSample (h : Changes gr v s.view) : Changes gr v s.takeSample.view := by
  unfold State.takeSample
  split
  · exact h
  · have h1 : Changes gr v (s.onMc Measure.taken).view :=
      changes_samples h (.inl ((List.drop_sublist 1 s.mc.queue).length_le))
    dsimp only
    split
    · exact changes_takeAnswer h1
    · exact changes_takeStream h1
    · exact h1

theorem changes_takeFormat (h : Changes gr v s.view) : Changes gr v s.takeFormat.view := by
  unfold State.takeFormat
  try dsimp only
  repeat' split
  all_goals
    repeat first
      | with_reducible exact h
      | with_reducible apply changes_serve

theorem changes_arithStart (h : Changes gr v s.view) : Changes gr v s.arithStart.view := by
  unfold State.arithStart
  try dsimp only
  repeat' split
  all_goals
    repeat first
      | with_reducible exact h
      | with_reducible apply changes_onArith
      | with_reducible apply changes_serve
      | with_reducible apply changes_takeSample
      | with_reducible apply changes_takeFormat

theorem changes_served (h : Changes gr v s.view) : Changes gr v s.served.view := by
  unfold State.served
  try dsimp only
  all_goals
    repeat first
      | with_reducible exact h
      | with_reducible apply changes_onArith

theorem changes_textComplete (h : Changes gr v s.view) : Changes gr v s.textComplete.view := by
  unfold State.textComplete
  split
  · exact changes_lineComplete h
  · exact h

theorem changes_formatDone {text : List Byte} (h : Changes gr v s.view) :
    Changes gr v (s.formatDone text).view := by
  unfold State.formatDone
  apply changes_printLook
  split
  · exact changes_recordComplete h
  · exact changes_textComplete h

theorem changes_arithEnd (h : Changes gr v s.view) : Changes gr v s.arithEnd.view := by
  unfold State.arithEnd
  try dsimp only
  repeat' split
  all_goals
    repeat first
      | with_reducible exact h
      | with_reducible apply changes_served
      | with_reducible apply changes_mcIdle
      | with_reducible apply changes_sweepResult
      | with_reducible apply changes_hvSample
      | with_reducible apply changes_evaluationDone
      | with_reducible apply changes_formatDone

/-! ### The rows -/

theorem changes_execIdentify {tag : Byte} {args : List Byte} (e : execIdentify tag args s = .next t) :
    Changes gr s.view t.view := by
  unfold execIdentify at e
  refine changes_bare e fun room halt => ?_
  try dsimp only
  exact changes_reply (.refl _) room

theorem changes_execReadStatus {tag : Byte} {args : StatusArgs}
    (e : execReadStatus tag args s = .next t) : Changes gr s.view t.view := by
  unfold execReadStatus at e
  refine changes_command (s := s.onPins fun p => { p with prnBusy := args.busy }) e fun room halt => ?_
  try dsimp only
  repeat' split
  all_goals exact changes_reply (.refl _) room

theorem changes_execLoadDimensions {tag : Byte} {args : List Byte} (e : execLoadDimensions tag args s = .next t) :
    Changes gr s.view t.view := by
  unfold execLoadDimensions at e
  refine changes_command e fun room halt => ?_
  try dsimp only
  split
  · exact changes_reply (.refl _) room
  · rename_i hn
    split
    · exact changes_reply (.refl _) room
    · exact changes_reply (changes_loaded (.refl _) (loadRefusal_none hn) fun _ => ⟨rfl, rfl⟩) room

theorem changes_execLoadPoints {tag : Byte} {args : List Byte} (e : execLoadPoints tag args s = .next t) :
    Changes gr s.view t.view := by
  unfold execLoadPoints at e
  refine changes_command e fun room halt => ?_
  try dsimp only
  exact changes_loadTable (.refl _) room

theorem changes_execLoadNets {tag : Byte} {args : List Byte} (e : execLoadNets tag args s = .next t) :
    Changes gr s.view t.view := by
  unfold execLoadNets at e
  refine changes_command e fun room halt => ?_
  try dsimp only
  exact changes_loadTable (.refl _) room

theorem changes_execLoadMembers {tag : Byte} {args : List Byte} (e : execLoadMembers tag args s = .next t) :
    Changes gr s.view t.view := by
  unfold execLoadMembers at e
  refine changes_command e fun room halt => ?_
  try dsimp only
  exact changes_loadTable (.refl _) room

theorem changes_execLoadNames {tag : Byte} {args : List Byte} (e : execLoadNames tag args s = .next t) :
    Changes gr s.view t.view := by
  unfold execLoadNames at e
  refine changes_command e fun room halt => ?_
  try dsimp only
  exact changes_loadTable (.refl _) room

theorem changes_execLoadSteps {tag : Byte} {args : List Byte} (e : execLoadSteps tag args s = .next t) :
    Changes gr s.view t.view := by
  unfold execLoadSteps at e
  refine changes_command e fun room halt => ?_
  try dsimp only
  exact changes_loadTable (.refl _) room

theorem changes_execLoadModules {tag : Byte} {args : List Byte} (e : execLoadModules tag args s = .next t)
    (hk : gr.modules = true) :
    Changes gr s.view t.view := by
  unfold execLoadModules at e
  refine changes_command e fun room halt => ?_
  try dsimp only
  split
  · exact changes_reply (.refl _) room
  · rename_i hn
    split
    · exact changes_reply (.refl _) room
    · exact changes_loadModules (changes_loaded (.refl _) (loadRefusal_none hn) fun _ => ⟨rfl, rfl⟩) room hk

theorem changes_execLoadLimits {tag : Byte} {args : List Byte} (e : execLoadLimits tag args s = .next t)
    (hk : gr.limits = true) :
    Changes gr s.view t.view := by
  unfold execLoadLimits at e
  refine changes_command e fun room halt => ?_
  try dsimp only
  split
  · exact changes_reply (.refl _) room
  · rename_i ha
    split
    · exact changes_reply (.refl _) room
    · refine changes_reply ?_ room
      exact (Changes.one (.limits s.view _ _ (show s.run.state.isActive = false by simpa [Run.active_eq] using ha) hk)).to rfl

theorem changes_execLoadLeads {tag : Byte} {args : List Byte} (e : execLoadLeads tag args s = .next t) :
    Changes gr s.view t.view := by
  unfold execLoadLeads at e
  refine changes_command e fun room halt => ?_
  try dsimp only
  split
  · exact changes_reply (.refl _) room
  · split
    · exact changes_reply (.refl _) room
    · split
      · exact changes_reply (.refl _) room
      · exact changes_askLeads (.refl _) room

theorem changes_execReadTable {tag : Byte} {args : List Byte} (e : execReadTable tag args s = .next t) :
    Changes gr s.view t.view := by
  unfold execReadTable at e
  refine changes_command e fun room halt => ?_
  try dsimp only
  split
  · split
    · exact changes_reply (.refl _) room
    · exact changes_readRecord (.refl _) room
  · exact changes_reply (.refl _) room

theorem changes_execCheckTables {tag : Byte} {args : List Byte} (e : execCheckTables tag args s = .next t) :
    Changes gr s.view t.view := by
  unfold execCheckTables at e
  refine changes_bare e fun room halt => ?_
  try dsimp only
  split
  · exact changes_reply (.refl _) room
  · rename_i ha
    split
    · exact changes_reply (.refl _) room
    · rename_i hc
      split
      · exact changes_reply (.refl _) room
      · refine changes_checkAt ?_ (.inr rfl)
        refine changes_reply ?_ room
        exact (Changes.one (.tables s.view .checking (show s.run.state.isActive = false by simpa [Run.active_eq] using ha) hc)).to rfl

theorem changes_execStartRun {tag : Byte} {args : List Byte} (e : execStartRun tag args s = .next t) :
    Changes gr s.view t.view := by
  unfold execStartRun at e
  refine changes_command e fun room halt => ?_
  try dsimp only
  split
  · split
    · exact changes_reply (.refl _) room
    · split
      · exact changes_reply (.refl _) room
      · rename_i hn
        have k := startRefusal_none hn
        exact changes_runStarts (changes_reply (.refl _) room) k.1 k.2.1 (halt rfl) k.2.2
  · exact changes_reply (.refl _) room

theorem changes_execPause {tag : Byte} {args : List Byte} (e : execPause tag args s = .next t) :
    Changes gr s.view t.view := by
  unfold execPause at e
  refine changes_bare e fun room halt => ?_
  try dsimp only
  split
  · exact changes_reply (changes_onRun (.refl _) fun _ => rfl) room
  · exact changes_reply (.refl _) room

theorem changes_execResume {tag : Byte} {args : List Byte} (e : execResume tag args s = .next t) :
    Changes gr s.view t.view := by
  unfold execResume at e
  refine changes_bare e fun room halt => ?_
  try dsimp only
  have h := changes_reply (gr := gr) (v := s.view) (s := s) (tag := tag) (code := 0x10) (r := .ok) (data := []) (.refl _) room
  split
  · exact changes_reply (.refl _) room
  · rename_i hp
    have hp' : s.run.state = .paused := not_not.mp hp
    split
    · split
      · exact changes_interlockTest (changes_resumed h hp')
      · exact changes_reply (.refl _) room
    · exact changes_runContinues (changes_resumed h hp')

theorem changes_execAbort {tag : Byte} {args : List Byte} (e : execAbort tag args s = .next t) :
    Changes gr s.view t.view := by
  unfold execAbort at e
  refine changes_bare e fun room halt => ?_
  try dsimp only
  split
  · exact changes_beginAbort (changes_reply (.refl _) room)
  · exact changes_beginAbort (changes_reply (.refl _) room)
  · exact changes_beginAbort (changes_reply (.refl _) room)
  · exact changes_reply (.refl _) room
  · exact changes_reply (.refl _) room
  · exact changes_reply (.refl _) room

theorem changes_execRelease {tag : Byte} {args : List Byte} (e : execRelease tag args s = .next t) :
    Changes gr s.view t.view := by
  unfold execRelease at e
  refine changes_bare e fun room halt => ?_
  try dsimp only
  split
  · refine changes_reply ?_ room
    exact (Changes.one (.run s.view .idle (by simp [RunState.isActive]) (.inr (.inl (halt rfl))))).to rfl
  · exact changes_reply (.refl _) room

theorem changes_execReadDefects {tag : Byte} {args : List Byte} (e : execReadDefects tag args s = .next t) :
    Changes gr s.view t.view := by
  unfold execReadDefects at e
  refine changes_command e fun room halt => ?_
  try dsimp only
  split
  all_goals exact changes_reply (.refl _) room

theorem changes_execRetireDefects {tag : Byte} {args : List Byte} (e : execRetireDefects tag args s = .next t) :
    Changes gr s.view t.view := by
  unfold execRetireDefects at e
  refine changes_command e fun room halt => ?_
  try dsimp only
  split
  · exact changes_retireAll (changes_reply (.refl _) room)
  · exact changes_reply (.refl _) room

theorem changes_execInvalidateMap {tag : Byte} {args : List Byte} (e : execInvalidateMap tag args s = .next t) :
    Changes gr s.view t.view := by
  unfold execInvalidateMap at e
  refine changes_command e fun room halt => ?_
  try dsimp only
  split
  · exact changes_reply (.refl _) room
  · exact changes_invalidateMap (.refl _) room

theorem changes_execProbeMap {tag : Byte} {args : List Byte} (e : execProbeMap tag args s = .next t) :
    Changes gr s.view t.view := by
  unfold execProbeMap at e
  refine changes_command e fun room halt => ?_
  try dsimp only
  split
  all_goals exact changes_reply (.refl _) room

theorem changes_execKeep {tag : Byte} {args : List Byte} (e : execKeep tag args s = .next t) :
    Changes gr s.view t.view := by
  unfold execKeep at e
  refine changes_bare e fun room halt => ?_
  try dsimp only
  split
  · refine changes_reply ?_ room
    exact (Changes.one (.keepalive s.view s.limits.timing.keepalive (.inr (.inr rfl)))).to rfl
  · exact changes_reply (.refl _) room

theorem changes_execReadEvents {tag : Byte} {args : List Byte} (e : execReadEvents tag args s = .next t) :
    Changes gr s.view t.view := by
  unfold execReadEvents at e
  refine changes_bare e fun room halt => ?_
  try dsimp only
  exact changes_reply (.refl _) room

theorem changes_execClearEvents {tag : Byte} {args : List Byte} (e : execClearEvents tag args s = .next t) :
    Changes gr s.view t.view := by
  unfold execClearEvents at e
  refine changes_command e fun room halt => ?_
  try dsimp only
  split
  · exact changes_reply (.refl _) room
  · exact changes_reply (changes_onEvents (.refl _)) room

theorem changes_execSetEventMask {tag : Byte} {args : List Byte} (e : execSetEventMask tag args s = .next t) :
    Changes gr s.view t.view := by
  unfold execSetEventMask at e
  refine changes_command e fun room halt => ?_
  try dsimp only
  split
  · exact changes_reply (.refl _) room
  · split
    · exact changes_noticeDue (changes_reply (changes_onEvents (.refl _)) room)
    · exact changes_reply (changes_onEvents (.refl _)) room

theorem changes_execPrintEnable {tag : Byte} {args : List Byte} (e : execPrintEnable tag args s = .next t) :
    Changes gr s.view t.view := by
  unfold execPrintEnable at e
  refine changes_bare e fun room halt => ?_
  try dsimp only
  exact changes_printEnable (changes_reply (.refl _) room)

theorem changes_execPrintDisable {tag : Byte} {args : List Byte} (e : execPrintDisable tag args s = .next t) :
    Changes gr s.view t.view := by
  unfold execPrintDisable at e
  refine changes_bare e fun room halt => ?_
  try dsimp only
  exact changes_printDisable (changes_reply (.refl _) room)

theorem changes_execPrintHold {tag : Byte} {args : List Byte} (e : execPrintHold tag args s = .next t) :
    Changes gr s.view t.view := by
  unfold execPrintHold at e
  refine changes_bare e fun room halt => ?_
  try dsimp only
  split
  · exact changes_reply (changes_onPrint (.refl _)) room
  · exact changes_reply (changes_onPrint (.refl _)) room
  · exact changes_reply (changes_onPrint (.refl _)) room
  · exact changes_reply (changes_onPrint (.refl _)) room
  · exact changes_reply (.refl _) room
  · exact changes_reply (.refl _) room

theorem changes_execPrintGo {tag : Byte} {args : List Byte} {busy : Bool}
    (e : execPrintGo tag args busy s = .next t) : Changes gr s.view t.view := by
  unfold execPrintGo at e
  refine changes_bare (s := s.onPins fun p => { p with prnBusy := busy }) e fun room halt => ?_
  split
  · exact changes_printGoHeld (changes_reply (.refl _) room)
  · exact changes_printGoFaulted (changes_reply (.refl _) room)
  · exact changes_reply (.refl _) room

theorem changes_execReadModules {tag : Byte} {args : List Byte} (e : execReadModules tag args s = .next t) :
    Changes gr s.view t.view := by
  unfold execReadModules at e
  refine changes_command e fun room halt => ?_
  try dsimp only
  repeat' split
  all_goals exact changes_reply (.refl _) room

theorem changes_execReadFault {tag : Byte} {args : List Byte} (e : execReadFault tag args s = .next t) :
    Changes gr s.view t.view := by
  unfold execReadFault at e
  refine changes_bare e fun room halt => ?_
  try dsimp only
  exact changes_reply (.refl _) room

theorem changes_execClearFault {tag : Byte} {args : List Byte} (e : execClearFault tag args s = .next t) :
    Changes gr s.view t.view := by
  unfold execClearFault at e
  refine changes_bare e fun room halt => ?_
  try dsimp only
  split
  · exact changes_reply (.refl _) room
  · refine changes_reply ?_ room
    refine Changes.to (.refl _) ?_
    have hh := halt rfl
    simp [State.view, State.onFault, FaultMon.reset, hh, State.repliesOwed]

theorem changes_execResetChip {tag : Byte} {args : List Byte} (e : execResetChip tag args s = .next t) :
    Changes gr s.view t.view := by
  unfold execResetChip at e
  refine changes_bare e fun room halt => ?_
  try dsimp only
  exact changes_onRst (changes_trunkPut (.refl _) room) rfl

theorem changes_execUnknownCommand {tag : Byte} {code : UnknownCode} {args : List Byte}
    (e : execUnknownCommand tag code args s = .next t) : Changes gr s.view t.view := by
  unfold execUnknownCommand at e
  refine changes_command e fun room halt => ?_
  exact changes_reply (.refl _) room

theorem changes_execPassThroughRequest {frame : PassRequest} (e : execPassThroughRequest frame s = .next t) :
    Changes gr s.view t.view := by
  unfold execPassThroughRequest at e
  split at e
  · injection e with e
    subst e
    exact .refl _
  · rename_i hd
    injection e with e
    subst e
    exact (changes_passThrough (.refl _) (view_load_of_not_deaf fun d => hd (by rw [d, Bool.true_or]))).same rfl

theorem changes_execFrameDiscarded {link : Link} {bytes : List Byte}
    (e : exec (.frameDiscarded link bytes) s = .next t) : Changes gr s.view t.view := by
  injection e with e
  subst e
  exact .refl _

theorem changes_execTrunkFrameSent (e : execTrunkFrameSent s = .next t) :
    Changes gr s.view t.view := by
  unfold execTrunkFrameSent at e
  refine changes_event e ?_
  exact changes_trunkSent (.refl _)

theorem changes_execRingFrameSent (e : execRingFrameSent s = .next t) :
    Changes gr s.view t.view := by
  unfold execRingFrameSent at e
  refine changes_event e ?_
  exact changes_ringSent (.refl _)

theorem changes_execReturnedFrame {dst cls tag : Byte} {payload : List Byte} (e : execReturnedFrame dst cls tag payload s = .next t) :
    Changes gr s.view t.view := by
  unfold execReturnedFrame at e
  refine changes_event e ?_
  split
  · exact changes_frameReturned (.refl _)
  · exact .refl _

theorem changes_execEchReceived {src tag countA countB : Byte} (e : execEchReceived src tag countA countB s = .next t) :
    Changes gr s.view t.view := by
  unfold execEchReceived at e
  refine changes_event e ?_
  split
  · exact changes_echoArrives (.refl _)
  · exact .refl _

theorem changes_execStaReceived {src tag kind channels countA countB flags : Byte} (e : execStaReceived src tag kind channels countA countB flags s = .next t) :
    Changes gr s.view t.view := by
  unfold execStaReceived at e
  refine changes_event e ?_
  split
  · exact changes_statusArrives (.refl _)
  · exact .refl _

theorem changes_execSmpReceived {src tag seq : Byte} {vcode icode : BitVec 16} {range flags : Byte} (e : execSmpReceived src tag seq vcode icode range flags s = .next t) :
    Changes gr s.view t.view := by
  unfold execSmpReceived at e
  refine changes_event e ?_
  split
  · exact changes_sampleArrives (.refl _)
  · exact .refl _

theorem changes_execEchoTimeout {module : Nat} (e : execEchoTimeout module s = .next t) :
    Changes gr s.view t.view := by
  unfold execEchoTimeout at e
  refine changes_event e ?_
  exact changes_echoExpired (.refl _)

theorem changes_execHomeEchoTimeout (e : execHomeEchoTimeout s = .next t) :
    Changes gr s.view t.view := by
  unfold execHomeEchoTimeout at e
  refine changes_event e ?_
  split
  · rename_i hc
    simp only [Bool.and_eq_true, decide_eq_true_eq] at hc
    exact changes_homeEnd (.refl _) hc.1
  · exact .refl _

theorem changes_execSettleTimeout (e : execSettleTimeout s = .next t) :
    Changes gr s.view t.view := by
  unfold execSettleTimeout at e
  refine changes_event e ?_
  split
  · exact changes_configReady (.refl _)
  · exact .refl _

theorem changes_execSampleTimeout (e : execSampleTimeout s = .next t) :
    Changes gr s.view t.view := by
  unfold execSampleTimeout at e
  refine changes_event e ?_
  split
  · exact changes_msrFails (.refl _)
  · exact .refl _

theorem changes_execMonitorPeriodExpiry (e : execMonitorPeriodExpiry s = .next t) :
    Changes gr s.view t.view := by
  unfold execMonitorPeriodExpiry at e
  refine changes_event e ?_
  split
  · exact changes_periodExpired (.refl _)
  · exact .refl _

theorem changes_execRampTimerExpiry (e : execRampTimerExpiry s = .next t) :
    Changes gr s.view t.view := by
  unfold execRampTimerExpiry at e
  refine changes_event e ?_
  split
  · rename_i hc
    simp only [Bool.and_eq_true, decide_eq_true_eq] at hc
    exact changes_hvExpired (.refl _) (.inl hc.1)
  · exact .refl _

theorem changes_execDwellTimerExpiry (e : execDwellTimerExpiry s = .next t) :
    Changes gr s.view t.view := by
  unfold execDwellTimerExpiry at e
  refine changes_event e ?_
  split
  · rename_i hc
    simp only [Bool.and_eq_true, decide_eq_true_eq] at hc
    exact changes_hvExpired (.refl _) (.inr hc.1)
  · exact .refl _

theorem changes_execDischargeTimerExpiry (e : execDischargeTimerExpiry s = .next t) :
    Changes gr s.view t.view := by
  unfold execDischargeTimerExpiry at e
  refine changes_event e ?_
  split
  · rename_i hc
    simp only [Bool.and_eq_true, decide_eq_true_eq] at hc
    exact changes_dischargeExpired (.refl _) hc.1
  · exact .refl _

theorem changes_execKeepaliveExpiry (e : execKeepaliveExpiry s = .next t) :
    Changes gr s.view t.view := by
  unfold execKeepaliveExpiry at e
  refine changes_event e ?_
  split
  · exact changes_keepaliveZero (.refl _) ((Hv.live_iff _).mp ‹_›)
  · exact .refl _

/-- The interlock opens: while the chip is held in reset no high voltage is up (R180). -/
theorem changes_execInterlockOpens (e : execInterlockOpens s = .next t)
    (hl : s.rst.held = true → s.hv.live = false) : Changes gr s.view t.view := by
  have off : s.hv.live = false → Changes gr s.view (s.onPins fun p => { p with interlockClosed := false }).view := by
    intro hv
    refine (Changes.one (.interlock s.view false (.inr ?_))).to rfl
    have := (Hv.live_iff s.hv).not.mp (by simp [hv])
    exact not_or.mp this
  unfold execInterlockOpens State.event at e
  split at e
  · rename_i hh
    injection e with e
    subst e
    exact off (hl hh)
  · injection e with e
    subst e
    refine Changes.same (x := (if (s.onPins fun p => { p with interlockClosed := false }).hv.live then
      (s.onPins fun p => { p with interlockClosed := false }).hvAbort
      else s.onPins fun p => { p with interlockClosed := false })) ?_ rfl
    split
    · rename_i hv
      refine changes_hvAbort ?_
      have h1 := (Changes.refl (k := gr) s.view).step (.testEnds s.view s.hv.keepalive ((Hv.live_iff _).mp hv))
      exact (h1.step (.interlock _ false (.inr (by simp)))).to rfl
    · rename_i hv
      exact off (Bool.eq_false_iff.mpr hv)

theorem changes_execInterlockCloses (e : execInterlockCloses s = .next t) : Changes gr s.view t.view := by
  have h := (Changes.refl (k := gr) s.view).step (.interlock s.view true (.inl rfl))
  unfold execInterlockCloses State.event at e
  split at e
  · injection e with e
    subst e
    exact h.to rfl
  · injection e with e
    subst e
    exact h.to rfl

theorem changes_execPrnBusyFalls (e : execPrnBusyFalls s = .next t) : Changes gr s.view t.view := by
  unfold execPrnBusyFalls at e
  refine changes_event (s := s.onPins fun p => { p with prnBusy := false }) e ?_

  split
  · exact changes_beginChar (.refl _)
  · exact .refl _

theorem changes_execBusyTimeout (e : execBusyTimeout s = .next t) :
    Changes gr s.view t.view := by
  unfold execBusyTimeout at e
  refine changes_event e ?_
  split
  · exact changes_busyExpired (.refl _)
  · exact .refl _

theorem changes_execPrintCharacterSent {busy : Bool} (e : execPrintCharacterSent busy s = .next t) : Changes gr s.view t.view := by
  unfold execPrintCharacterSent at e
  refine changes_event (s := s.onPins fun p => { p with prnBusy := busy }) e ?_

  exact changes_charSent (.refl _)

theorem changes_execTableAccessComplete {upset : Option Nat} {busy : Bool}
    (e : execTableAccessComplete upset busy s = .next t) (hk : gr.mem = true) : Changes gr s.view t.view := by
  unfold execTableAccessComplete at e
  extract_lets x at e
  split at e
  · injection e with e
    subst e
    exact .refl _
  · rename_i a rest hq
    split at e
    · injection e with e
      subst e
      exact .refl _
    · split at e
      · cases e
      · injection e with e
        subst e
        refine Changes.same (changes_completeAccess
          (changes_upsetRecord (s := s.onPins fun p => { p with prnBusy := busy }) (.refl _) hk) hk (rest := rest) ?_) rfl
        rw [upsetRecord_port]
        exact hq

theorem changes_execArithmeticOperationStart (e : execArithmeticOperationStart s = .next t) :
    Changes gr s.view t.view := by
  unfold execArithmeticOperationStart at e
  refine changes_event e ?_
  exact changes_arithStart (.refl _)

theorem changes_execArithmeticOperationEnd {busy : Bool} (e : execArithmeticOperationEnd busy s = .next t) : Changes gr s.view t.view := by
  unfold execArithmeticOperationEnd at e
  refine changes_event (s := s.onPins fun p => { p with prnBusy := busy }) e ?_

  exact changes_arithEnd (.refl _)

theorem changes_execResetEnd (e : execResetEnd s = .next t) : Changes gr s.view t.view := by
  unfold execResetEnd at e
  split at e
  · injection e with e
    subst e
    exact (changes_periodStart ((Changes.one (.released s.view)).to (w' := (s.onRst fun r => { r with held := false }).view) rfl)).same rfl
  · injection e with e
    subst e
    exact .refl _

/-- What each row may change (R2, R12, R13). -/
def grantOf (i : Instr) : Grant where
  mem := match i with
    | .tableAccessComplete _ _ => true
    | _ => false
  limits := match i with
    | .loadLimits _ _ => true
    | _ => false
  modules := match i with
    | .loadModules _ _ => true
    | _ => false

/-- Every row but those that reset the chip changes the view only by `Changes`. -/
theorem exec_changes {i : Instr} (hi : i.resets = false) (hl : s.rst.held = true → s.hv.live = false) (e : exec i s = .next t) :
    Changes (grantOf i) s.view t.view := by
  cases i with
  | identify => exact changes_execIdentify e
  | readStatus => exact changes_execReadStatus e
  | loadDimensions => exact changes_execLoadDimensions e
  | loadPoints => exact changes_execLoadPoints e
  | loadNets => exact changes_execLoadNets e
  | loadMembers => exact changes_execLoadMembers e
  | loadNames => exact changes_execLoadNames e
  | loadSteps => exact changes_execLoadSteps e
  | loadModules => exact changes_execLoadModules e rfl
  | loadLimits => exact changes_execLoadLimits e rfl
  | loadLeads => exact changes_execLoadLeads e
  | readTable => exact changes_execReadTable e
  | checkTables => exact changes_execCheckTables e
  | startRun => exact changes_execStartRun e
  | pause => exact changes_execPause e
  | resume => exact changes_execResume e
  | abort => exact changes_execAbort e
  | release => exact changes_execRelease e
  | readDefects => exact changes_execReadDefects e
  | retireDefects => exact changes_execRetireDefects e
  | invalidateMap => exact changes_execInvalidateMap e
  | probeMap => exact changes_execProbeMap e
  | keep => exact changes_execKeep e
  | readEvents => exact changes_execReadEvents e
  | clearEvents => exact changes_execClearEvents e
  | setEventMask => exact changes_execSetEventMask e
  | printEnable => exact changes_execPrintEnable e
  | printDisable => exact changes_execPrintDisable e
  | printHold => exact changes_execPrintHold e
  | printGo => exact changes_execPrintGo e
  | readModules => exact changes_execReadModules e
  | readFault => exact changes_execReadFault e
  | clearFault => exact changes_execClearFault e
  | resetChip => exact changes_execResetChip e
  | unknownCommand => exact changes_execUnknownCommand e
  | passThroughRequest => exact changes_execPassThroughRequest e
  | frameDiscarded => exact changes_execFrameDiscarded e
  | trunkFrameSent => exact changes_execTrunkFrameSent e
  | ringFrameSent => exact changes_execRingFrameSent e
  | returnedFrame => exact changes_execReturnedFrame e
  | echReceived => exact changes_execEchReceived e
  | staReceived => exact changes_execStaReceived e
  | smpReceived => exact changes_execSmpReceived e
  | echoTimeout => exact changes_execEchoTimeout e
  | homeEchoTimeout => exact changes_execHomeEchoTimeout e
  | settleTimeout => exact changes_execSettleTimeout e
  | sampleTimeout => exact changes_execSampleTimeout e
  | monitorPeriodExpiry => exact changes_execMonitorPeriodExpiry e
  | rampTimerExpiry => exact changes_execRampTimerExpiry e
  | dwellTimerExpiry => exact changes_execDwellTimerExpiry e
  | dischargeTimerExpiry => exact changes_execDischargeTimerExpiry e
  | keepaliveExpiry => exact changes_execKeepaliveExpiry e
  | busyTimeout => exact changes_execBusyTimeout e
  | interlockOpens => exact changes_execInterlockOpens e hl
  | interlockCloses => exact changes_execInterlockCloses e
  | prnBusyFalls => exact changes_execPrnBusyFalls e
  | printCharacterSent => exact changes_execPrintCharacterSent e
  | powerOnReset b => cases b <;> simp [Instr.resets] at hi
  | pinReset => simp [Instr.resets] at hi
  | clockLossReset => simp [Instr.resets] at hi
  | commandReset => simp [Instr.resets] at hi
  | resetEnd => exact changes_execResetEnd e
  | tableAccessComplete => exact changes_execTableAccessComplete e rfl
  | arithmeticOperationStart => exact changes_execArithmeticOperationStart e
  | arithmeticOperationEnd => exact changes_execArithmeticOperationEnd e

/-- While the chip is held in reset, a row other than the resets and RESET_END changes at most the levels of
the pins (R180). -/
theorem exec_held {i : Instr} (hi : i.resets = false) (hr : i ≠ .resetEnd) (hh : s.rst.held = true)
    (e : exec i s = .next t) : ∃ p, t = s.onPins fun _ => p := by
  have hd : s.trunkDeaf = true := by simp [State.trunkDeaf, hh]
  have held : ∀ {b : Bool} {x : Answer}, b = true → (if b = true then (.next s : Answer) else x) = .next t →
      ∃ p, t = s.onPins fun _ => p := by
    intro b x hb e
    rw [if_pos hb] at e
    injection e with e
    exact ⟨s.pins, e.symm⟩
  have ev : ∀ f, s.event f = .next t → ∃ p, t = s.onPins fun _ => p := by
    intro f e
    rw [State.event, if_pos hh] at e
    injection e with e
    exact ⟨s.pins, e.symm⟩
  have evp : ∀ (p : Pins → Pins) f, (s.onPins p).event f = .next t → ∃ p, t = s.onPins fun _ => p := by
    intro p f e
    rw [State.event, if_pos (show (s.onPins p).rst.held = true from hh)] at e
    injection e with e
    exact ⟨p s.pins, e.symm⟩
  cases i with
  | resetEnd => exact absurd rfl hr
  | powerOnReset b => cases b <;> simp [Instr.resets] at hi
  | pinReset => simp [Instr.resets] at hi
  | clockLossReset => simp [Instr.resets] at hi
  | commandReset => simp [Instr.resets] at hi
  | printGo tag args busy =>
    simp only [exec, execPrintGo, State.bareCommand, State.command] at e
    rw [if_pos (by simp [State.trunkDeaf, State.onPins, hh])] at e
    injection e with e
    exact ⟨_, e.symm⟩
  | readStatus tag args =>
    simp only [exec, execReadStatus, State.command] at e
    rw [if_pos (by simp [State.trunkDeaf, State.onPins, hh])] at e
    injection e with e
    exact ⟨_, e.symm⟩
  | passThroughRequest frame =>
    simp only [exec, execPassThroughRequest, hd, Bool.true_or, if_true] at e
    injection e with e
    exact ⟨s.pins, e.symm⟩
  | frameDiscarded link bytes =>
    simp only [exec, execFrameDiscarded] at e
    injection e with e
    exact ⟨s.pins, e.symm⟩
  | interlockOpens => exact evp _ _ e
  | interlockCloses => exact evp (fun p => { p with interlockClosed := true }) (fun s => s) e
  | prnBusyFalls => exact evp _ _ e
  | printCharacterSent busy => exact evp _ _ e
  | arithmeticOperationEnd busy => exact evp _ _ e
  | tableAccessComplete upset busy =>
    simp only [exec, execTableAccessComplete] at e
    split at e
    · injection e with e
      exact ⟨_, e.symm⟩
    · rw [if_pos (by simp [State.onPins, hh])] at e
      injection e with e
      exact ⟨_, e.symm⟩
  | _ =>
    first
      | exact held hh e
      | exact held (b := s.trunkDeaf || !argsFit _) (by rw [hd, Bool.true_or]) e

/-! ### Resets (R180, R181) -/

/-- The view that a reset leaves. -/
theorem inReset_view (cause : ResetCause) (command : Bool) :
    (s.inReset cause command).view =
      { State.reset.view with
        mem := s.mem
        limits := if command then s.limits else Limits.default
        interlock := s.pins.interlockClosed
        pending := s.pending
        nodes := if command then s.sup.nodes.map fun n => Node.cleared n.channels
                 else List.replicate 65 (Node.cleared 0)
        tables := if command then s.tables.state.afterCommandReset else .empty } := rfl

end Sys2Proof.Machine
end

