-- ==== Sys2Proof/Laws/Memory.lean ====
section
/-! SUPPORT. Every operation on table memory keeps its canonical form (addresses strictly rising, in the bytes written
and in the parity bits that hold a one, and none of these without its byte), and what a write and an upset leave to read. -/

namespace Sys2Proof.Machine

/-- The addresses of a list of cells in which a byte has been put. -/
theorem putCell_address {a x : Nat} {b : Byte} :
    ∀ {cs : List Host.Cell}, x ∈ (putCell a b cs).map (·.1) → x = a ∨ x ∈ cs.map (·.1)
  | [], h => by simpa [putCell] using h
  | c :: rest, h => by
    simp only [putCell] at h
    split at h
    · simpa using h
    · split at h
      · simp only [List.map_cons, List.mem_cons] at h ⊢
        exact h.imp_right .inr
      · simp only [List.map_cons, List.mem_cons] at h ⊢
        rcases h with h | h
        · exact .inr (.inl h)
        · exact (putCell_address h).imp_right .inr

/-- Putting a byte keeps the addresses strictly rising. -/
theorem putCell_wf (a : Nat) (b : Byte) :
    ∀ {cs : List Host.Cell}, (cs.map (·.1)).Pairwise (· < ·) → ((putCell a b cs).map (·.1)).Pairwise (· < ·)
  | [], _ => by simp [putCell]
  | c :: rest, h => by
    simp only [List.map_cons, List.pairwise_cons] at h
    simp only [putCell]
    split
    · rename_i hlt
      simp only [List.map_cons, List.pairwise_cons, List.mem_cons]
      refine ⟨?_, h⟩
      rintro x (rfl | hx)
      · exact hlt
      · exact Nat.lt_trans hlt (h.1 x hx)
    · split
      · rename_i heq
        simp only [List.map_cons, List.pairwise_cons]
        exact ⟨fun x hx => heq ▸ h.1 x hx, h.2⟩
      · simp only [List.map_cons, List.pairwise_cons]
        refine ⟨fun x hx => ?_, putCell_wf a b h.2⟩
        rcases putCell_address hx with rfl | hx
        · omega
        · exact h.1 x hx

/-- The addresses of a list in which one has been put. -/
theorem putAddress_mem {a x : Nat} : ∀ {l : List Nat}, x ∈ putAddress a l → x = a ∨ x ∈ l
  | [], h => by simpa [putAddress] using h
  | y :: rest, h => by
    simp only [putAddress] at h
    split at h
    · simpa using h
    · split at h
      · exact .inr h
      · simp only [List.mem_cons] at h ⊢
        rcases h with h | h
        · exact .inr (.inl h)
        · exact (putAddress_mem h).imp_right .inr

/-- Putting an address keeps the list strictly rising. -/
theorem putAddress_wf (a : Nat) :
    ∀ {l : List Nat}, l.Pairwise (· < ·) → (putAddress a l).Pairwise (· < ·)
  | [], _ => by simp [putAddress]
  | y :: rest, h => by
    have h' := List.pairwise_cons.mp h
    simp only [putAddress]
    split
    · rename_i hlt
      refine List.pairwise_cons.mpr ⟨?_, h⟩
      intro x hx
      rcases List.mem_cons.mp hx with rfl | hx
      · exact hlt
      · exact Nat.lt_trans hlt (h'.1 x hx)
    · split
      · exact h
      · refine List.pairwise_cons.mpr ⟨fun x hx => ?_, putAddress_wf a h'.2⟩
        rcases putAddress_mem hx with rfl | hx
        · omega
        · exact h'.1 x hx

/-- What is found at an address once a byte has been put. -/
theorem putCell_find {a x : Nat} {b : Byte} :
    ∀ {cs : List Host.Cell},
      ((putCell a b cs).find? fun c => c.1 = x) = if x = a then some (a, b) else cs.find? fun c => c.1 = x
  | [] => by
    by_cases h : x = a
    · simp [putCell, h]
    · simp [putCell, h, Ne.symm h]
  | c :: rest => by
    simp only [putCell]
    split
    · by_cases h : x = a
      · simp [h]
      · simp [List.find?_cons, h, Ne.symm h]
    · split
      · rename_i hc
        by_cases h : x = a
        · simp [h]
        · simp [h, Ne.symm h, ← hc]
      · rename_i hc
        by_cases h : x = a
        · simp [putCell_find, h, Ne.symm hc]
        · simp [List.find?_cons, putCell_find, h]

/-- An address that has been put is in the list. -/
theorem putAddress_self (a : Nat) : ∀ l : List Nat, a ∈ putAddress a l
  | [] => by simp [putAddress]
  | y :: rest => by
    simp only [putAddress]
    split
    · simp
    · split
      · simp_all
      · exact List.mem_cons_of_mem _ (putAddress_self a rest)

/-- Putting an address keeps those that are in the list. -/
theorem putAddress_mono {a x : Nat} : ∀ {l : List Nat}, x ∈ l → x ∈ putAddress a l
  | y :: rest, h => by
    simp only [putAddress]
    split
    · exact List.mem_cons_of_mem _ h
    · split
      · exact h
      · rcases List.mem_cons.mp h with rfl | h
        · exact List.mem_cons_self
        · exact List.mem_cons_of_mem _ (putAddress_mono h)

/-- What an address reads as once a byte and its parity bit have been put. -/
theorem TableMem.put_lookup (m : TableMem) (a x : Nat) (b : Byte) (dp : Bool) :
    (m.put a b dp).lookup x = if x = a then some b else m.lookup x := by
  unfold TableMem.put TableMem.lookup
  rw [putCell_find]
  split <;> rfl

/-- The parity bits once a byte and its parity bit have been put. -/
theorem TableMem.put_dp_mem (m : TableMem) (a x : Nat) (b : Byte) (dp : Bool) :
    x ∈ (m.put a b dp).dp ↔ if x = a then dp = true else x ∈ m.dp := by
  cases dp <;> by_cases h : x = a
  · simp [TableMem.put, h]
  · simp [TableMem.put, h]
  · simp [TableMem.put, h, putAddress_self]
  · simp only [TableMem.put, if_true, h, if_false]
    exact ⟨fun hx => (putAddress_mem hx).resolve_left h, putAddress_mono⟩

@[simp] theorem TableMem.put_read (m : TableMem) (a x : Nat) (b : Byte) (dp : Bool) :
    (m.put a b dp).read x = if x = a then b else m.read x := by
  unfold TableMem.read
  rw [TableMem.put_lookup]
  split <;> rfl

@[simp] theorem TableMem.put_dpAt (m : TableMem) (a x : Nat) (b : Byte) (dp : Bool) :
    (m.put a b dp).dpAt x = if x = a then dp else m.dpAt x := by
  unfold TableMem.dpAt
  rw [TableMem.put_lookup]
  have hm := TableMem.put_dp_mem m a x b dp
  by_cases h : x = a
  · simp only [h, if_true] at hm ⊢
    cases dp <;> simp_all
  · simp only [h, if_false] at hm ⊢
    have : (m.put a b dp).dp.contains x = m.dp.contains x := by
      rw [Bool.eq_iff_iff, List.contains_iff_mem, List.contains_iff_mem]
      exact hm
    rw [this]
    rfl

/-- What a write leaves to read: the byte with good parity, and every other byte as before (R2). -/
theorem TableMem.write_parityBad (m : TableMem) (a x : Nat) (b : Byte) :
    (m.write a b).parityBad x = if x = a then false else m.parityBad x := by
  unfold TableMem.parityBad TableMem.write
  rw [TableMem.put_read, TableMem.put_dpAt]
  split
  · simp [parityBit]
  · rfl

/-- What an upset leaves: the byte fails its check, and every other byte is as before (R3, log 9). -/
theorem TableMem.upset_parityBad (m : TableMem) (a x : Nat) :
    (m.upset a).parityBad x = if x = a then true else m.parityBad x := by
  unfold TableMem.parityBad TableMem.upset
  rw [TableMem.put_read, TableMem.put_dpAt]
  split
  · simp [parityBit]
  · rfl

/-- Putting a byte with a parity bit keeps the canonical form. -/
theorem TableMem.put_wf {m : TableMem} (a : Nat) (b : Byte) (dp : Bool) (h : m.wf) : (m.put a b dp).wf := by
  refine ⟨putCell_wf a b h.1, ?_, fun x hx => ?_⟩
  · cases dp
    · exact h.2.1.sublist List.filter_sublist
    · exact putAddress_wf a h.2.1
  · rw [TableMem.put_lookup]
    rw [TableMem.put_dp_mem] at hx
    split
    · rfl
    · rename_i hne
      rw [if_neg hne] at hx
      exact h.2.2 x hx

/-- A write keeps the canonical form (R2). -/
theorem TableMem.write_wf {m : TableMem} (a : Nat) (b : Byte) (h : m.wf) : (m.write a b).wf := TableMem.put_wf a b _ h

/-- A write of bytes keeps the canonical form (R2). -/
theorem TableMem.writeRun_wf :
    ∀ {m : TableMem} (a : Nat) (bytes : List Byte), m.wf → (m.writeRun a bytes).wf
  | _, _, [], h => h
  | _, a, b :: rest, h => writeRun_wf (a + 1) rest (write_wf a b h)

/-- A torn write keeps the canonical form (R2, log 7). -/
theorem TableMem.writeTorn_wf (occasion a : Nat) :
    ∀ {m : TableMem} (i : Nat) (bytes : List Byte), m.wf → (m.writeTorn occasion a i bytes).wf
  | _, _, [], h => h
  | m, i, b :: rest, h => by
    simp only [TableMem.writeTorn]
    apply writeTorn_wf
    split
    · exact write_wf (a + i) b h
    · exact h

/-- A parity upset keeps the canonical form (R3, log 9). -/
theorem TableMem.upset_wf {m : TableMem} (a : Nat) (h : m.wf) : (m.upset a).wf := TableMem.put_wf a _ _ h

/-- Memory that has lost its power is canonical (log 8). -/
theorem TableMem.empty_wf (epoch : Nat) : ({ cells := [], dp := [], epoch } : TableMem).wf :=
  ⟨.nil, .nil, by simp⟩

/-- The memory of the reset state is canonical. -/
theorem State.reset_mem_wf : State.reset.mem.wf := TableMem.empty_wf 0

end Sys2Proof.Machine
end

