-- ==== Sys2Proof/Laws/PerInstr.lean ====
section
/-! SUPPORT. One statement about every row as syntax: the frame that brings a well-formed row fits a link and is one
that the trunk takes (R164, R167, R172). -/

namespace Sys2Proof.Laws

/-- The frame of a well-formed row has at most 64 payload bytes and is not one that the trunk discards. -/
def SpellsFrame.Statement (i : Instr) : Prop :=
  ∀ f, i.frame? = some f → i.WellFormed = true → f.payload.length ≤ 64 ∧ trunkFrameIgnored f = false

/-- The frame of a command with arguments that fit it. -/
theorem cmdFrame_spells (tag code : Byte) {args : List Byte} (h : argsFit args = true) :
    (cmdFrame tag code args).payload.length ≤ 64 ∧ trunkFrameIgnored (cmdFrame tag code args) = false := by
  simp only [argsFit, decide_eq_true_eq] at h
  exact ⟨by simp only [cmdFrame, List.length_cons]; omega, rfl⟩

/-- A row that comes as the frame of a command. -/
theorem spells_of_command {i : Instr} (tag code : Byte) {args : List Byte}
    (hf : i.frame? = some (cmdFrame tag code args)) (hw : i.WellFormed = true → argsFit args = true) :
    SpellsFrame.Statement i := by
  intro f e h
  rw [hf] at e
  injection e with e
  subst e
  exact cmdFrame_spells tag code (hw h)

/-- A row that comes as no frame of the trunk. -/
theorem spells_of_none {i : Instr} (hf : i.frame? = none) : SpellsFrame.Statement i := by
  intro f e
  rw [hf] at e
  cases e

namespace SpellsFrame

theorem identify (tag : Byte) (args : List Byte) : Statement (.identify tag args) :=
  spells_of_command tag 0x01 rfl id
theorem readStatus (tag : Byte) (args : StatusArgs) : Statement (.readStatus tag args) :=
  spells_of_command tag 0x02 rfl id
theorem loadDimensions (tag : Byte) (args : List Byte) : Statement (.loadDimensions tag args) :=
  spells_of_command tag 0x03 rfl id
theorem loadPoints (tag : Byte) (args : List Byte) : Statement (.loadPoints tag args) :=
  spells_of_command tag 0x04 rfl id
theorem loadNets (tag : Byte) (args : List Byte) : Statement (.loadNets tag args) :=
  spells_of_command tag 0x05 rfl id
theorem loadMembers (tag : Byte) (args : List Byte) : Statement (.loadMembers tag args) :=
  spells_of_command tag 0x06 rfl id
theorem loadNames (tag : Byte) (args : List Byte) : Statement (.loadNames tag args) :=
  spells_of_command tag 0x07 rfl id
theorem loadSteps (tag : Byte) (args : List Byte) : Statement (.loadSteps tag args) :=
  spells_of_command tag 0x08 rfl id
theorem loadModules (tag : Byte) (args : List Byte) : Statement (.loadModules tag args) :=
  spells_of_command tag 0x09 rfl id
theorem loadLimits (tag : Byte) (args : List Byte) : Statement (.loadLimits tag args) :=
  spells_of_command tag 0x0A rfl id
theorem loadLeads (tag : Byte) (args : List Byte) : Statement (.loadLeads tag args) :=
  spells_of_command tag 0x0B rfl id
theorem readTable (tag : Byte) (args : List Byte) : Statement (.readTable tag args) :=
  spells_of_command tag 0x0C rfl id
theorem checkTables (tag : Byte) (args : List Byte) : Statement (.checkTables tag args) :=
  spells_of_command tag 0x0D rfl id
theorem startRun (tag : Byte) (args : List Byte) : Statement (.startRun tag args) :=
  spells_of_command tag 0x0E rfl id
theorem pause (tag : Byte) (args : List Byte) : Statement (.pause tag args) :=
  spells_of_command tag 0x0F rfl id
theorem resume (tag : Byte) (args : List Byte) : Statement (.resume tag args) :=
  spells_of_command tag 0x10 rfl id
theorem abort (tag : Byte) (args : List Byte) : Statement (.abort tag args) :=
  spells_of_command tag 0x11 rfl id
theorem release (tag : Byte) (args : List Byte) : Statement (.release tag args) :=
  spells_of_command tag 0x12 rfl id
theorem readDefects (tag : Byte) (args : List Byte) : Statement (.readDefects tag args) :=
  spells_of_command tag 0x13 rfl id
theorem retireDefects (tag : Byte) (args : List Byte) : Statement (.retireDefects tag args) :=
  spells_of_command tag 0x14 rfl id
theorem invalidateMap (tag : Byte) (args : List Byte) : Statement (.invalidateMap tag args) :=
  spells_of_command tag 0x15 rfl id
theorem probeMap (tag : Byte) (args : List Byte) : Statement (.probeMap tag args) :=
  spells_of_command tag 0x16 rfl id
theorem keep (tag : Byte) (args : List Byte) : Statement (.keep tag args) :=
  spells_of_command tag 0x17 rfl id
theorem readEvents (tag : Byte) (args : List Byte) : Statement (.readEvents tag args) :=
  spells_of_command tag 0x18 rfl id
theorem clearEvents (tag : Byte) (args : List Byte) : Statement (.clearEvents tag args) :=
  spells_of_command tag 0x19 rfl id
theorem setEventMask (tag : Byte) (args : List Byte) : Statement (.setEventMask tag args) :=
  spells_of_command tag 0x1A rfl id
theorem printEnable (tag : Byte) (args : List Byte) : Statement (.printEnable tag args) :=
  spells_of_command tag 0x1B rfl id
theorem printDisable (tag : Byte) (args : List Byte) : Statement (.printDisable tag args) :=
  spells_of_command tag 0x1C rfl id
theorem printHold (tag : Byte) (args : List Byte) : Statement (.printHold tag args) :=
  spells_of_command tag 0x1D rfl id
theorem printGo (tag : Byte) (args : List Byte) (busy : Bool) : Statement (.printGo tag args busy) :=
  spells_of_command tag 0x1E rfl id
theorem readModules (tag : Byte) (args : List Byte) : Statement (.readModules tag args) :=
  spells_of_command tag 0x1F rfl id
theorem readFault (tag : Byte) (args : List Byte) : Statement (.readFault tag args) :=
  spells_of_command tag 0x20 rfl id
theorem clearFault (tag : Byte) (args : List Byte) : Statement (.clearFault tag args) :=
  spells_of_command tag 0x21 rfl id
theorem resetChip (tag : Byte) (args : List Byte) : Statement (.resetChip tag args) :=
  spells_of_command tag 0x22 rfl id
theorem unknownCommand (tag : Byte) (code : UnknownCode) (args : List Byte) :
    Statement (.unknownCommand tag code args) :=
  spells_of_command tag code.code rfl id
theorem passThroughRequest (frame : PassRequest) : Statement (.passThroughRequest frame) := by
  intro f e h
  injection e with e
  subst e
  refine ⟨by simpa [Instr.WellFormed, payloadFits, PassRequest.frame] using h, ?_⟩
  obtain ⟨cls, _, _, _, _⟩ := frame
  cases cls <;> rfl
theorem frameDiscarded (link : Link) (bytes : List Byte) : Statement (.frameDiscarded link bytes) :=
  spells_of_none rfl
theorem trunkFrameSent : Statement (.trunkFrameSent) :=
  spells_of_none rfl
theorem ringFrameSent : Statement (.ringFrameSent) :=
  spells_of_none rfl
theorem returnedFrame (dst cls tag : Byte) (payload : List Byte) :
    Statement (.returnedFrame dst cls tag payload) :=
  spells_of_none rfl
theorem echReceived (src tag countA countB : Byte) :
    Statement (.echReceived src tag countA countB) :=
  spells_of_none rfl
theorem staReceived (src tag kind channels countA countB flags : Byte) :
    Statement (.staReceived src tag kind channels countA countB flags) :=
  spells_of_none rfl
theorem smpReceived (src tag seq : Byte) (vcode icode : BitVec 16) (range flags : Byte) :
    Statement (.smpReceived src tag seq vcode icode range flags) :=
  spells_of_none rfl
theorem echoTimeout (module : Nat) : Statement (.echoTimeout module) :=
  spells_of_none rfl
theorem homeEchoTimeout : Statement (.homeEchoTimeout) :=
  spells_of_none rfl
theorem settleTimeout : Statement (.settleTimeout) :=
  spells_of_none rfl
theorem sampleTimeout : Statement (.sampleTimeout) :=
  spells_of_none rfl
theorem monitorPeriodExpiry : Statement (.monitorPeriodExpiry) :=
  spells_of_none rfl
theorem rampTimerExpiry : Statement (.rampTimerExpiry) :=
  spells_of_none rfl
theorem dwellTimerExpiry : Statement (.dwellTimerExpiry) :=
  spells_of_none rfl
theorem dischargeTimerExpiry : Statement (.dischargeTimerExpiry) :=
  spells_of_none rfl
theorem keepaliveExpiry : Statement (.keepaliveExpiry) :=
  spells_of_none rfl
theorem busyTimeout : Statement (.busyTimeout) :=
  spells_of_none rfl
theorem interlockOpens : Statement (.interlockOpens) :=
  spells_of_none rfl
theorem interlockCloses : Statement (.interlockCloses) :=
  spells_of_none rfl
theorem prnBusyFalls : Statement (.prnBusyFalls) :=
  spells_of_none rfl
theorem printCharacterSent (busy : Bool) : Statement (.printCharacterSent busy) :=
  spells_of_none rfl
theorem powerOnReset (memoryPowered : Bool) : Statement (.powerOnReset memoryPowered) :=
  spells_of_none rfl
theorem pinReset : Statement (.pinReset) :=
  spells_of_none rfl
theorem clockLossReset : Statement (.clockLossReset) :=
  spells_of_none rfl
theorem commandReset : Statement (.commandReset) :=
  spells_of_none rfl
theorem resetEnd : Statement (.resetEnd) :=
  spells_of_none rfl
theorem tableAccessComplete (upset : Option Nat) (busy : Bool) :
    Statement (.tableAccessComplete upset busy) :=
  spells_of_none rfl
theorem arithmeticOperationStart : Statement (.arithmeticOperationStart) :=
  spells_of_none rfl
theorem arithmeticOperationEnd (busy : Bool) : Statement (.arithmeticOperationEnd busy) :=
  spells_of_none rfl

end SpellsFrame

end Sys2Proof.Laws
end

