-- ==== Sys2Proof/Laws/Printing.lean ====
section
/-! SUPPORT. Says once what the Print Engine's choice of the next line can do: a complete line is READY or is being sent
(`lineComplete_eq`, `recordComplete_eq`), a line begun rests FORMATTING (`startLine_askFormat`, `startRecordLine_eq`), the
look for work of an event is the one that `State.looked` describes (`printLook_looked`), and it stands beside the trunk
(`reply_printLook`). -/

namespace Sys2Proof.Machine

@[simp] theorem Print.buffer_onBuffer (p : Print) (second : Bool) (f : Buffer → Buffer) :
    (p.onBuffer second f).buffer second = f (p.buffer second) := by cases second <;> rfl

@[simp] theorem Print.onBuffer_onBuffer (p : Print) (second : Bool) (f g : Buffer → Buffer) :
    (p.onBuffer second f).onBuffer second g = p.onBuffer second fun b => g (f b) := by cases second <;> rfl

@[simp] theorem Print.onBuffer_state (p : Print) (second : Bool) (f : Buffer → Buffer) :
    (p.onBuffer second f).state = p.state := by cases second <;> rfl

/-- The only buffer that is SENDING is the one just set so. -/
theorem Print.bufferIn_sending (p : Print) (second : Bool) (f : Buffer → Buffer) (h : p.bufferIn .sending = none)
    (hf : (f (p.buffer second)).state = .sending) : (p.onBuffer second f).bufferIn .sending = some second := by
  cases second <;> simp only [Print.bufferIn, Print.onBuffer, Print.buffer] at * <;> grind

/-- A buffer is EMPTY that the search for one names. -/
theorem Print.bufferIn_some {p : Print} {st : BufState} {second : Bool} (h : p.bufferIn st = some second) :
    (p.buffer second).state = st := by
  unfold Print.bufferIn at h
  split at h
  · cases h; assumption
  · split at h
    · cases h; assumption
    · cases h

/-- A character is ready to begin: it waits on PRN_BUSY, or it is the one at the send position of the SENDING line. -/
theorem beginChar_eq (s : State) (second : Bool) (h : s.print.bufferIn .sending = some second) :
    s.beginChar =
      { s with print :=
          { s.print with
            busyTimer := if s.pins.prnBusy then some s.limits.timing.busy else none
            char :=
              if s.pins.prnBusy then none
              else some (characterAt s.limits.timing.rate (s.print.buffer second).text s.print.sendPos) } } := by
  have hn : s.print.nextByte = (s.print.buffer second).text.getD s.print.sendPos 0 := by
    simp only [Print.nextByte, h]
  unfold State.beginChar State.onPrint
  split <;> simp_all [characterAt, frameBits]

/-- The line that a READY buffer holds begins to be sent. -/
theorem startSending_eq (s : State) (second : Bool) (h : s.print.bufferIn .sending = none) :
    s.startSending second =
      s.sendingLine (s.print.onBuffer second fun b => { b with state := .sending }) (s.print.buffer second).text 0 := by
  have hb := s.print.bufferIn_sending second (fun b => { b with state := .sending }) h rfl
  unfold State.startSending
  rw [beginChar_eq _ second hb]
  cases second <;> rfl

/-- A line complete while another is sent, or while printing does not go on, is READY. -/
theorem lineComplete_of_sending (s : State) (second : Bool) (text : List Byte)
    (h : ¬(s.print.state = .format ∨ s.print.state = .idle)) :
    s.lineComplete second text =
      { s with print := s.print.onBuffer second fun b => { b with state := .ready, text } } := by
  simp only [not_or] at h
  simp [State.lineComplete, State.onPrint, h.1, h.2]

/-- A line complete with none being sent is sent. -/
theorem lineComplete_of_free (s : State) (second : Bool) (text : List Byte)
    (h : s.print.state = .format ∨ s.print.state = .idle) (hs : s.print.bufferIn .sending = none) :
    s.lineComplete second text =
      s.sendingLine (s.print.onBuffer second fun b => { b with state := .sending, text }) text 0 := by
  have hs' : (s.print.onBuffer second fun b => { b with state := .ready, text }).bufferIn .sending = none := by
    revert hs; cases second <;> simp only [Print.bufferIn, Print.onBuffer] <;> grind
  have hc : (s.print.state = .format || s.print.state = .idle) = true := by simpa using h
  have := startSending_eq
    { s with print := s.print.onBuffer second fun b => { b with state := .ready, text } } second hs'
  simp only [State.lineComplete, State.onPrint, Print.onBuffer_state, hc, if_true]
  rw [this]
  simp [State.sendingLine]

/-- A header or summary line begun rests FORMATTING, with the format operation that completes it. -/
theorem startLine_askFormat (s : State) (second : Bool) (c : LineContent) (text : List Byte) :
    (s.startLine second c text).askFormat = s.lineStarted second c text := rfl

/-- The record line of a free buffer begins, with its first request. -/
theorem startRecordLine_eq (s : State) (second : Bool) (d : Defect) :
    s.startRecordLine second d = s.recordStarted second d := by
  unfold State.recordStarted State.startRecordLine
  dsimp only
  by_cases ha : d.key.netA < s.bound .nets
  · rw [if_pos ha]
    exact (if_pos (decide_eq_true ha)).trans (by cases second <;> rfl)
  · rw [if_neg ha]
    refine (if_neg (Bool.eq_false_iff.1 (decide_eq_false ha))).trans ?_
    cases hb : d.key.netB with
    | none => simp [State.formatNetB, hb, State.formatValue, State.onPrint, State.startLine]; cases second <;> rfl
    | some n =>
      dsimp only
      by_cases hn : n < s.bound .nets
      · rw [if_pos hn]
        simp [State.formatNetB, hb, State.onPrint, State.startLine]
        exact (if_pos (decide_eq_true hn)).trans (by cases second <;> rfl)
      · rw [if_neg hn]
        simp [State.formatNetB, hb, State.formatValue, State.onPrint, State.startLine]
        exact (if_neg (Bool.eq_false_iff.1 (decide_eq_false hn))).trans (by cases second <;> rfl)

/-- A line is complete (R153, R155, R162), no record line being formatted any more. -/
theorem lineComplete_eq (s : State) (second : Bool) (text : List Byte) (hf : s.print.fmt = none)
    (hs : s.print.state = .format ∨ s.print.state = .idle → s.print.bufferIn .sending = none) :
    s.lineComplete second text = s.lineReady second text := by
  have hp : ∀ f : Buffer → Buffer, { s.print.onBuffer second f with fmt := none } = s.print.onBuffer second f := by
    intro f; cases second <;> simp [Print.onBuffer, ← hf]
  unfold State.lineReady
  dsimp only
  by_cases h : s.print.state = .format ∨ s.print.state = .idle
  · rw [if_pos h, hp]
    exact lineComplete_of_free s second text h (hs h)
  · rw [if_neg h, hp]
    exact lineComplete_of_sending s second text h

/-- The line of a record is complete (R155, R162). -/
theorem recordComplete_eq (s : State) (w : FmtWork) (value : List Byte) (hw : s.print.fmt = some w)
    (hs : s.print.state = .format ∨ s.print.state = .idle → s.print.bufferIn .sending = none) :
    s.recordComplete value = s.lineDone w value := by
  unfold State.recordComplete State.lineDone
  simp only [hw]
  exact (lineComplete_eq (s.onPrint fun p => { p with fmt := none }) w.second _ rfl hs).trans (by cases w.second <;> rfl)

/-- The record that a look for work is given: the oldest one that is final and not PRINTED, but for the one whose line
is in the other buffer (R154). -/
theorem find_given (s : State) (b : Buffer) :
    (s.defects.find? fun d => d.printable && decide (b.recordSeq ≠ some d.seq)) =
      s.defects.find? fun d => d.printable && decide (b.content ≠ some (.record d.seq)) := by
  congr 1; funext d
  unfold Buffer.recordSeq
  split <;> simp_all

/-- The summary comes next, as the look tests it. -/
theorem summaryNext_iff (s : State) :
    (s.print.summaryDue && !(s.defects.any Defect.printable) && !s.print.buf0.isRecord && !s.print.buf1.isRecord) = true ↔
      s.summaryNext := by
  have hr : ∀ b : Buffer, b.isRecord = false ↔ ∀ n, b.content ≠ some (.record n) := by
    intro b; unfold Buffer.isRecord; split <;> simp_all
  simp only [Bool.and_eq_true, Bool.not_eq_true', hr, State.summaryNext, List.any_eq_false, Bool.not_eq_true, and_assoc,
    and_congr_right_iff]
  intro _ _
  exact ⟨fun ⟨h0, h1⟩ second n => by cases second <;> simp_all [Print.buffer],
    fun h => ⟨fun n => h false n, fun n => h true n⟩⟩

/-- A line begins where none is FORMATTING. -/
theorem beginLine_eq (s : State) (start : State → State) :
    s.beginLine start = if s.print.bufferIn .formatting = none then start s else s := by
  unfold State.beginLine
  cases s.print.bufferIn .formatting <;> simp

/-- One look for work, where a buffer is EMPTY and the state is IDLE, FORMAT or SEND (R154). -/
theorem look_of_free (s : State) (fuel : Nat) (second : Bool)
    (hl : s.print.state = .idle ∨ s.print.state = .format ∨ s.print.state = .send)
    (he : s.print.bufferIn .empty = some second) :
    (s.summaryNext → s.look (fuel + 1) = s.beginLine fun s => s.startSummaryLine second) ∧
      (¬s.summaryNext →
        (∀ step, s.print.header = some step → s.look (fuel + 1) = s.beginLine fun s => s.startHeaderLine second step) ∧
          (s.print.header = none →
            s.look (fuel + 1) =
              match s.defects.find? fun d =>
                  d.printable && decide ((s.print.buffer !second).content ≠ some (.record d.seq)) with
              | none => s
              | some d =>
                if d.explained && d.key.kind = .short then (s.passOver d).look fuel
                else s.beginLine fun s => s.startRecordLine second d)) := by
  have hl' : (!(s.print.state = .idle || s.print.state = .format || s.print.state = .send)) = false := by
    rcases hl with h | h | h <;> simp [h]
  rw [← find_given s (s.print.buffer !second)]
  refine ⟨fun h => ?_, fun h => ⟨fun step hh => ?_, fun hh => ?_⟩⟩
  · rw [State.look]
    simp only [hl', he, (summaryNext_iff s).2 h, if_true, Bool.false_eq_true, if_false]
  · rw [← summaryNext_iff, Bool.not_eq_true] at h
    rw [State.look]
    simp only [hl', he, h, hh, Bool.false_eq_true, if_false]
  · rw [← summaryNext_iff, Bool.not_eq_true] at h
    rw [State.look]
    simp only [hl', he, h, hh, Bool.false_eq_true, if_false]
    all_goals rfl

/-- A pass-over marks the record PRINTED, and it leaves where it is RETIRED (R150, R154). -/
theorem passOver_eq (s : State) (d : Defect) (hd : d ∈ s.defects) (hp : d.printable = true) (hs : s.listSound)
    (ho : s.print.state ≠ .off) :
    s.passOver d =
      { s with defects :=
          (s.defects.filter fun x => !(decide (x.seq = d.seq) && x.retired)).map fun x =>
            if x.seq = d.seq then { x with printed := true } else x } := by
  have hu : ∀ x ∈ s.defects, x.seq = d.seq → x = d := fun x hx h =>
    List.inj_on_of_nodup_map (List.pairwise_map.2 (hs.2.2.1.imp fun h => Nat.ne_of_lt h)) hx hd h
  have hq : d.provisional = false := by simp only [Defect.printable, Bool.and_eq_true, Bool.not_eq_true'] at hp; exact hp.1
  have hm : setPrinted s.defects d.seq = s.defects.map fun x => if x.seq = d.seq then { x with printed := true } else x :=
    List.map_congr_left fun x hx => by
      by_cases h : x.seq = d.seq
      · simp [hu x hx h, hq]
      · simp [h]
  have hl : seqLeaves (setPrinted s.defects d.seq) d.seq (decide (s.print.state = .off)) = d.retired := by
    rw [hm, seqLeaves, List.any_map, Bool.eq_iff_iff, List.any_eq_true]
    constructor
    · rintro ⟨x, hx, h⟩
      by_cases hn : x.seq = d.seq
      · simp_all [Defect.leaves]
      · simp [hn] at h
    · intro h
      exact ⟨d, hd, by simp [Defect.leaves, h]⟩
  rw [hm] at hl
  unfold State.passOver State.onDefects
  simp only [hm, hl]
  congr 1
  cases hr : d.retired
  · rw [if_neg (by simp)]
    congr 1
    refine (List.filter_eq_self.2 fun x hx => ?_).symm
    by_cases h : x.seq = d.seq
    · simp [hu x hx h, hr]
    · simp [h]
  · rw [if_pos rfl, removeSeq, List.filter_map]
    congr 1
    refine List.filter_congr fun x hx => ?_
    by_cases h : x.seq = d.seq
    · simp [hu x hx h, hr]
    · simp [h]

/-- The next line of the summary block begins (R158). -/
theorem startSummaryLine_eq (s : State) (second : Bool) :
    s.startSummaryLine second =
      State.lineStarted
        { s with print :=
            { s.print with summaryLeft := s.print.summaryLeft - 1, summaryDue := decide (1 < s.print.summaryLeft) } }
        second .summary s.print.summaryText := by
  have ht : (match s.print.summary with
      | some r => summaryLine r s.print.summaryLeft
      | none => crlf) = s.print.summaryText := by
    unfold Print.summaryText
    cases s.print.summary with
    | none => rfl
    | some r =>
      simp only [summaryLine]
      split <;> simp_all [crlf]
  rw [← ht]
  rfl

/-- The header line begins (R158). -/
theorem startHeaderLine_eq (s : State) (second : Bool) (step : Nat) :
    s.startHeaderLine second step =
      State.lineStarted { s with print := { s.print with header := none } } second .header
        (ascii ['R', 'U', 'N', ' ', 'S', 'T', 'A', 'R', 'T', ' ', 'S', 'T', 'E', 'P', ' '] ++ digits 4 step ++
          [0x0D, 0x0A]) := rfl

/-- A look for work that is not made, or finds nothing to print, changes nothing (R154). -/
theorem look_of_nothing (s : State) (fuel : Nat)
    (h : ¬(s.print.state = .idle ∨ s.print.state = .format ∨ s.print.state = .send) ∨ s.print.bufferIn .empty = none ∨
      s.nothingToSelect) : s.look (fuel + 1) = s := by
  by_cases hl : s.print.state = .idle ∨ s.print.state = .format ∨ s.print.state = .send
  swap
  · rw [State.look]
    split
    · rfl
    · simp_all
  cases he : s.print.bufferIn .empty with
  | none =>
    rw [State.look, he]
    split <;> rfl
  | some second =>
    obtain ⟨hd, hh, hc, ha⟩ : s.nothingToSelect := by
      rcases h with h | h | h
      · exact absurd hl h
      · rw [he] at h; cases h
      · exact h
    rw [((look_of_free s fuel second hl he).2 fun hn => by simp [State.summaryNext, hd] at hn).2 hh]
    have hnone : s.defects.find? (fun d =>
        d.printable && decide ((s.print.buffer !second).content ≠ some (.record d.seq))) = none := by
      rw [List.find?_eq_none]
      intro d hm hp
      simp only [Bool.and_eq_true, decide_eq_true_eq] at hp
      obtain ⟨b, hb⟩ := ha d hm hp.1
      have hec := hc second (Print.bufferIn_some he)
      cases b <;> cases second <;> simp_all
    rw [hnone]

/-- The looks for work of an event are the ones that `State.lookedIn` describes (R154). -/
theorem look_lookedIn (n : Nat) (s : State) : s.lookedIn n (s.look n) := by
  induction n generalizing s with
  | zero => rfl
  | succ n ih =>
    rw [State.lookedIn]
    refine ⟨fun h => look_of_nothing s n h, fun second hl he => ⟨fun hn => ?_, fun step hn hh => ?_, fun hn hh =>
      ⟨fun ho => ?_, fun d ho => ⟨fun hk => ?_, fun hx hk hls => ?_⟩⟩⟩⟩
    · rw [(look_of_free s _ second hl he).1 hn, beginLine_eq, startSummaryLine_eq]
    · rw [((look_of_free s _ second hl he).2 hn).1 step hh, beginLine_eq, startHeaderLine_eq]
    · dsimp only at ho
      rw [((look_of_free s _ second hl he).2 hn).2 hh, ho]
    · dsimp only at ho
      rw [((look_of_free s _ second hl he).2 hn).2 hh, ho]
      simp only [Bool.and_eq_true, decide_eq_true_eq, hk, if_false]
      rw [beginLine_eq, startRecordLine_eq]
    · dsimp only at ho
      rw [((look_of_free s _ second hl he).2 hn).2 hh, ho]
      have hm : d ∈ s.defects := List.mem_of_find?_eq_some ho
      have hp : d.printable = true := by
        have := List.find?_some ho
        simp only [Bool.and_eq_true] at this
        exact this.1
      have hoff : s.print.state ≠ .off := by rcases hl with h | h | h <;> simp [h]
      simp only [hx, hk, decide_true, Bool.and_self, if_true]
      rw [passOver_eq s d hm hp hls hoff]
      exact ih _

/-- The look for work of an event (R154). -/
theorem printLook_looked (s : State) : s.looked s.printLook := look_lookedIn _ s

/-! ### Printing and the trunk

The Print Engine neither reads nor writes the trunk, so a reply placed before a look for work is the reply placed after
it. -/

/-- The state with another trunk transmit queue. -/
def State.withTrunk (t : Trunk) (s : State) : State := { s with trunk := t }

theorem onPrint_withTrunk (t : Trunk) (s : State) (f : Print → Print) :
    (s.withTrunk t).onPrint f = (s.onPrint f).withTrunk t := rfl
theorem onArith_withTrunk (t : Trunk) (s : State) (f : Arith → Arith) :
    (s.withTrunk t).onArith f = (s.onArith f).withTrunk t := rfl
theorem askRead_withTrunk (t : Trunk) (s : State) (kind : TableKind) (i : Nat) (o : Owner) :
    (s.withTrunk t).askRead kind i o = (s.askRead kind i o).withTrunk t := rfl
@[simp] theorem withTrunk_print (t : Trunk) (s : State) : (s.withTrunk t).print = s.print := rfl
@[simp] theorem withTrunk_pins (t : Trunk) (s : State) : (s.withTrunk t).pins = s.pins := rfl
@[simp] theorem withTrunk_limits (t : Trunk) (s : State) : (s.withTrunk t).limits = s.limits := rfl
@[simp] theorem withTrunk_defects (t : Trunk) (s : State) : (s.withTrunk t).defects = s.defects := rfl
@[simp] theorem withTrunk_netReadable (t : Trunk) (s : State) (n : Nat) :
    (s.withTrunk t).netReadable n = s.netReadable n := rfl

theorem beginChar_withTrunk (t : Trunk) (s : State) : (s.withTrunk t).beginChar = s.beginChar.withTrunk t := by
  simp only [State.beginChar, withTrunk_pins, withTrunk_limits, onPrint_withTrunk, apply_ite (State.withTrunk t)]; rfl
theorem startSending_withTrunk (t : Trunk) (s : State) (second : Bool) :
    (s.withTrunk t).startSending second = (s.startSending second).withTrunk t := by
  simp only [State.startSending, onPrint_withTrunk, beginChar_withTrunk]
theorem lineComplete_withTrunk (t : Trunk) (s : State) (second : Bool) (text : List Byte) :
    (s.withTrunk t).lineComplete second text = (s.lineComplete second text).withTrunk t := by
  simp only [State.lineComplete, onPrint_withTrunk, withTrunk_print, startSending_withTrunk,
    apply_ite (State.withTrunk t)]; rfl
theorem recordComplete_withTrunk (t : Trunk) (s : State) (value : List Byte) :
    (s.withTrunk t).recordComplete value = (s.recordComplete value).withTrunk t := by
  simp only [State.recordComplete, withTrunk_print, onPrint_withTrunk, lineComplete_withTrunk]
  cases s.print.fmt <;> rfl
theorem askFormat_withTrunk (t : Trunk) (s : State) : (s.withTrunk t).askFormat = s.askFormat.withTrunk t := rfl
theorem formatValue_withTrunk (t : Trunk) (s : State) : (s.withTrunk t).formatValue = s.formatValue.withTrunk t := by
  simp only [State.formatValue, withTrunk_print, onPrint_withTrunk, askFormat_withTrunk, recordComplete_withTrunk]
  cases s.print.fmt with
  | none => rfl
  | some w => simp only [apply_ite (State.withTrunk t)]
theorem formatNetB_withTrunk (t : Trunk) (s : State) : (s.withTrunk t).formatNetB = s.formatNetB.withTrunk t := by
  simp only [State.formatNetB, withTrunk_print, onPrint_withTrunk, askRead_withTrunk, formatValue_withTrunk,
    withTrunk_netReadable]
  cases s.print.fmt with
  | none => rfl
  | some w =>
    dsimp only
    cases w.defect.key.netB with
    | none => rfl
    | some n => simp only [apply_ite (State.withTrunk t)]
theorem formatNetA_withTrunk (t : Trunk) (s : State) : (s.withTrunk t).formatNetA = s.formatNetA.withTrunk t := by
  simp only [State.formatNetA, withTrunk_print, onPrint_withTrunk, askRead_withTrunk, formatNetB_withTrunk,
    withTrunk_netReadable]
  cases s.print.fmt with
  | none => rfl
  | some w => simp only [apply_ite (State.withTrunk t)]
theorem startLine_withTrunk (t : Trunk) (s : State) (second : Bool) (c : LineContent) (text : List Byte) :
    (s.withTrunk t).startLine second c text = (s.startLine second c text).withTrunk t := rfl
theorem startRecordLine_withTrunk (t : Trunk) (s : State) (second : Bool) (d : Defect) :
    (s.withTrunk t).startRecordLine second d = (s.startRecordLine second d).withTrunk t := by
  simp only [State.startRecordLine, startLine_withTrunk, onPrint_withTrunk, formatNetA_withTrunk]
theorem startSummaryLine_withTrunk (t : Trunk) (s : State) (second : Bool) :
    (s.withTrunk t).startSummaryLine second = (s.startSummaryLine second).withTrunk t := rfl
theorem startHeaderLine_withTrunk (t : Trunk) (s : State) (second : Bool) (step : Nat) :
    (s.withTrunk t).startHeaderLine second step = (s.startHeaderLine second step).withTrunk t := rfl
theorem beginLine_withTrunk (t : Trunk) (s : State) (start : State → State)
    (h : start (s.withTrunk t) = (start s).withTrunk t) :
    (s.withTrunk t).beginLine start = (s.beginLine start).withTrunk t := by
  simp only [State.beginLine, withTrunk_print, h, apply_ite (State.withTrunk t)]
theorem passOver_withTrunk (t : Trunk) (s : State) (d : Defect) :
    (s.withTrunk t).passOver d = (s.passOver d).withTrunk t := rfl

theorem look_withTrunk (t : Trunk) (fuel : Nat) (s : State) :
    (s.withTrunk t).look fuel = (s.look fuel).withTrunk t := by
  induction fuel generalizing s with
  | zero => rfl
  | succ n ih =>
    have given : ∀ (second : Bool) (o : Option Defect),
        (match o with
          | none => s.withTrunk t
          | some d =>
            if d.explained && d.key.kind = .short then ((s.withTrunk t).passOver d).look n
            else (s.withTrunk t).beginLine fun s => s.startRecordLine second d) =
          State.withTrunk t
            (match o with
              | none => s
              | some d =>
                if d.explained && d.key.kind = .short then (s.passOver d).look n
                else s.beginLine fun s => s.startRecordLine second d) := by
      intro second o
      cases o with
      | none => rfl
      | some d =>
        simp only [apply_ite (State.withTrunk t), passOver_withTrunk, ih]
        exact ite_congr rfl (fun _ => rfl) fun _ =>
          beginLine_withTrunk t s (fun s => s.startRecordLine second d) (startRecordLine_withTrunk t s _ _)
    simp only [State.look, withTrunk_print, withTrunk_defects, apply_ite (State.withTrunk t)]
    refine ite_congr rfl (fun _ => rfl) fun _ => ?_
    cases s.print.bufferIn .empty with
    | none => rfl
    | some second =>
      simp only [apply_ite (State.withTrunk t)]
      refine ite_congr rfl (fun _ => beginLine_withTrunk t s _ (startSummaryLine_withTrunk t s _)) fun _ => ?_
      cases s.print.header with
      | some step => exact beginLine_withTrunk t s _ (startHeaderLine_withTrunk t s _ _)
      | none =>
        exact given second _

theorem printLook_withTrunk (t : Trunk) (s : State) : (s.withTrunk t).printLook = s.printLook.withTrunk t :=
  look_withTrunk t _ s

@[simp] theorem printLook_trunk (s : State) : s.printLook.trunk = s.trunk := by
  have h := printLook_withTrunk s.trunk s
  rw [show s.withTrunk s.trunk = s from rfl] at h
  rw [h]
  rfl

/-- A reply and the look for work of its command, at the end of the event. -/
theorem reply_printLook (s : State) (tag code : Byte) (r : Result) (data : List Byte) :
    ((s.reply tag code r data).printLook).endEvent = s.printLook.replied tag code r data := by
  have h : s.reply tag code r data = s.withTrunk (s.reply tag code r data).trunk := rfl
  rw [h, printLook_withTrunk]
  simp [State.withTrunk, State.endEvent, State.replied, State.onTrunk, State.reply, State.trunkPut]

end Sys2Proof.Machine
end

