-- ==== Sys2Proof/Tests/Slice0.lean ====
section
/-! SUPPORT. Tests by hand from the spec: ill-formed operands are refused, frames and their check field, at most two
small tests for a row, and for each claim with hypotheses a state that meets them. -/

namespace Sys2Proof.Tests

open Sys2Proof Sys2Proof.Machine

set_option Elab.async false

/-! ### States and helpers -/

/-- Whether a row answers a next state with a property. -/
def after (i : Instr) (s : State) (p : State → Bool) : Bool :=
  match exec i s with
  | .next t => p t
  | _ => false

/-- Whether a row does nothing. -/
def idle (i : Instr) (s : State) : Bool := after i s fun t => t = { s with trunk := { s.trunk with begun := t.trunk.begun } }

/-- Whether a step answers a next state. -/
def steps (s : State) : Bool :=
  match step s with
  | .next _ => true
  | _ => false

/-- The payload of the last frame of the trunk transmit queue. -/
def lastUp (t : State) : List Byte := ((t.trunk.queue.getLast?).map (·.frame.payload)).getD []

/-- The chip out of reset, the HV state SAFE, nothing going on. -/
def base : State :=
  { State.reset with
    rst := { held := false, cause := .power, phase := .none }
    hv := { Hv.reset with state := .safe, cause := .none }
    sup := { State.reset.sup with timer := some 10 } }

/-- Small tables, READY, module 1 with four channels and the head Alive. -/
def tabled : State :=
  { base with
    tables :=
      { base.tables with
        dims := some { points := 4, nets := 2, members := 4, names := 1, steps := 2 }, state := .ready }
    sup :=
      { base.sup with
        nodes := (base.sup.nodes.set 0 { Node.cleared 4 with alive := true }).set 64
          { Node.cleared 0 with alive := true } } }

/-- A run in a state, over the small tables. -/
def running (st : RunState) : State :=
  { tabled with run := { Run.reset with state := st, step := some 0, inProgress := true, waiting := .owner } }

/-- A defect record of a kind. -/
def record (seq : Nat) (kind : DefectKind) : Defect :=
  { seq, key := { kind, netA := seq, point := none, netB := none }, value := some 5, step := 0, rep := 1
    provisional := false, explained := false, lowv := false, printed := false, retired := false }

/-- A run in which the HV state is RAMP or DWELL, with a keepalive count left and a stream open. -/
def live (st : HvState) : State :=
  { running .running with
    hv :=
      { Hv.reset with
        state := st, cause := .none, net := some 1, keepalive := 16, work := .testing
        rampTimer := if st = .ramp then some 2100 else none
        dwellTimer := if st = .dwell then some 1000 else none }
    mc := { Measure.reset with state := .stream, requester := .hv, stream := 1, curTag := some 3 }
    pins := { interlockClosed := true, prnBusy := false } }

/-- A CONT visit whose MSR is outstanding. -/
def measuring : State :=
  { running .running with
    sweep :=
      { Sweep.reset with
        state := .measuring, kind := some .cont, netCursor := some 0, lastNet := 1, fixedPoint := some 0, fixedModule := some 1
        visitedPoint := some 1, memberCursor := some 1, net := { NetRec.zero with count := 4 } }
    mc :=
      { Measure.reset with
        state := .msrWait, requester := .sweep, range := 2, ctxNet := some 0, ctxPoint := some 1
        curTag := some 7, timer := some 20, leads := [0, 1] } }

/-- Masks that close channel 2 on bus A. -/
def masksA2 : Masks := { a := 4, b := 0 }

/-- A transaction of module 1 that has been sent with tag 9. -/
def sentTx : Transaction :=
  { module := 1, masks := masksA2, attempt := 1, tag := some 9, timer := some 5, phase := .sent }

/-- A configuration of the Sweep Engine in VERIFYING, with the given transactions. -/
def verifying (ts : List Transaction) : State :=
  { tabled with seq := { Sequencer.reset with state := .verifying, requester := .sweep, transactions := ts } }

/-- A HOME in progress, its broadcast sent. -/
def homing : State :=
  { running .running with
    seq :=
      { Sequencer.reset with
        state := .homing, requester := .run
        home := { tag := some 4, expected := [1], answered := [], timer := some 5 } }
    run := { Run.reset with state := .running, waiting := .startHome 0 } }

/-- The Print Engine in a state. -/
def printing (st : PrintState) : State := { base with print := { Print.reset with state := st } }

/-- The Print Engine sending the line of record 1. -/
def sending : State :=
  { base with
    defects := [record 1 .highR]
    run := { Run.reset with summary := { Summary.cleared with defects := 1 } }
    print :=
      { Print.reset with
        state := .send, buf0 := { state := .sending, content := some (.record 1), text := [0x41, 0x0D, 0x0A] }
        char := some (characterAt 3 [0x41] 0) } }

/-- The chip with an access in progress. -/
def withAccess (s : State) (a : Access) : State := { s with port := { queue := [a] } }

/-- Table memory with one record. -/
def withRecord (s : State) (kind : TableKind) (index : Nat) (bytes : List Byte) : State :=
  { s with mem := s.mem.writeRun (recordAddress kind index) bytes }

/-- A point record: module 1, channel 2, WIRED, lead 258 mΩ, net 0. -/
def pointBytes : List Byte := [1, 2, 1, 1, 2, 0, 0]

/-! ### WellFormed (R164 to R170) -/

theorem test_wf_arguments_too_long : (Instr.readStatus 0 ⟨List.replicate 64 0, false⟩).WellFormed = false := by decide +kernel
theorem test_wf_longest_arguments : (Instr.readStatus 0 ⟨List.replicate 63 0, false⟩).WellFormed = true := by decide +kernel
theorem test_unknown_code : isCommandCode 0x22 = true ∧ isCommandCode 0x23 = false ∧ isCommandCode 0 = false := by
  decide +kernel
theorem test_wf_unknown_arguments :
    (Instr.unknownCommand 0 { code := 0x23, unknown := rfl } (List.replicate 64 0)).WellFormed = false := by
  decide +kernel
theorem test_wf_pass_through_length :
    (Instr.passThroughRequest ⟨.pol, 1, 0, 0x80, List.replicate 65 0⟩).WellFormed = false := by decide +kernel
theorem test_wf_discarded_is_valid :
    (Instr.frameDiscarded .trunk (cmdFrame 1 1 []).bytes).WellFormed = false := by decide +kernel
theorem test_wf_returned_length : (Instr.returnedFrame 1 0x10 0 [0]).WellFormed = false := by decide +kernel
theorem test_wf_returned_address : (Instr.returnedFrame 200 0x12 0 []).WellFormed = false := by decide +kernel
theorem test_wf_ech_from_chip : (Instr.echReceived 0 0 0 0).WellFormed = false := by decide +kernel
theorem test_wf_sta_from_broadcast : (Instr.staReceived 127 0 0 0 0 0 0).WellFormed = false := by decide +kernel
theorem test_wf_smp_from_chip : (Instr.smpReceived 0 0 0 0 0 0 0).WellFormed = false := by decide +kernel
theorem test_wf_echo_timeout_module : (Instr.echoTimeout 65).WellFormed = false := by decide +kernel

/-- What no frame can carry, or brings no valid frame, is discarded with no effect (R165, R169, log 38). -/
theorem test_discarded_arguments : idle (.readStatus 0 ⟨List.replicate 64 0, false⟩) base = true := by decide +kernel
theorem test_discarded_payload : idle (.passThroughRequest ⟨.pol, 1, 0, 0x80, List.replicate 65 0⟩) base = true := by
  decide +kernel
theorem test_discarded_returned : idle (.returnedFrame 1 0x10 0 [0]) base = true := by decide +kernel
theorem test_discarded_returned_address : idle (.returnedFrame 200 0x12 0x80 []) base = true := by decide +kernel
theorem test_discarded_ech : idle (.echReceived 127 0x80 0 0) base = true := by decide +kernel
theorem test_discarded_sta : idle (.staReceived 0 0x80 0 0 0 0 0) base = true := by decide +kernel
theorem test_discarded_smp : idle (.smpReceived 71 0x80 0 0 0 0 0) base = true := by decide +kernel

/-! ### Frames (R164, R165, R167) -/

/-- The nine characters "123456789" give 0x29B1 (R165). -/
theorem test_crc : crc16 [0x31, 0x32, 0x33, 0x34, 0x35, 0x36, 0x37, 0x38, 0x39] = 0x29B1#16 := by decide +kernel

/-- DST, SRC, CLASS, TAG, LEN, PAYLOAD, CHK (R164). -/
theorem test_frame_layout :
    ({ dst := 1, src := 0, cls := 1, tag := 7, payload := [2, 3] } : Frame).body = [1, 0, 1, 7, 2, 2, 3] := by
  decide +kernel

theorem test_frame_received : receive .trunk (cmdFrame 7 2 [3]).bytes = some (cmdFrame 7 2 [3]) := by decide +kernel

theorem test_frame_bad_check : receive .trunk [1, 0, 1, 7, 0, 0, 0] = none := by decide +kernel

/-! ### Reports and the frame of a command (R172, R174, R178, R182) -/

/-- "PT-816", then the reset cause POWER and SAFE-HALT clear (R182). -/
theorem test_identify :
    after (.identify 7 []) base (fun t =>
      (lastUp t).take 8 = [0x01, 0x00, 0x50, 0x54, 0x2D, 0x38, 0x31, 0x36]
        && (lastUp t).drop 9 = [0, 0]) = true := by decide +kernel

/-- Section 5: SAFE, cause NONE, no net, keepalive 0, window 0, no timer (R174). -/
theorem test_read_status :
    after (.readStatus 7 ⟨[5], false⟩) base (fun t => lastUp t = [0x02, 0x00, 0, 0xFF, 0xFF, 0xFF, 0, 0, 0, 0])
      = true := by decide +kernel

/-- Section 7 reports the level of PRN_BUSY at the command, bit 4 of its flags (R152, R174). -/
theorem test_read_status_busy :
    after (.readStatus 7 ⟨[7], true⟩) base (fun t => (lastUp t).getD 11 0 = 0x10 && t.pins.prnBusy) = true := by
  decide +kernel

/-- The head: period 10, empty poll list, address 72, no count, Alive, kind and channels not reported (R75). -/
theorem test_read_modules :
    after (.readModules 7 [72]) tabled (fun t =>
      lastUp t = [0x1F, 0x00, 10, 0, 72, 0xFF, 4, 0xFF, 0, 0, 0]) = true := by decide +kernel

theorem test_read_fault :
    after (.readFault 7 []) base (fun t =>
      lastUp t = [0x20, 0, 0, 0xFF, 0xFF, 0xFF, 0xFF, 0xFF, 0xFF, 0xFF, 0xFF, 0xFF, 0xFF, 0xFF, 0, 0])
      = true := by decide +kernel

theorem test_clear_fault_in_run :
    after (.clearFault 7 []) (running .paused) (fun t => lastUp t = [0x21, 0x04]) = true := by decide +kernel

theorem test_unknown_command :
    after (.unknownCommand 7 { code := 0x23, unknown := rfl } []) base (fun t => lastUp t = [0x23, 0x0D]) = true := by decide +kernel

theorem test_reset_chip :
    after (.resetChip 7 []) base (fun t => lastUp t = [0x22, 0x00] && t.rst.phase = .replying) = true := by
  decide +kernel

/-- A command is discarded when the trunk transmit queue is full (R167). -/
theorem test_command_discarded_when_full :
    after (.identify 7 [])
      { base with trunk := { base.trunk with queue := List.replicate 8 (noticeEntry 1) } }
      (fun t => t.trunk.queue.length = 8) = true := by decide +kernel

/-! ### Tables, limits and the cache (chapter 01) -/

theorem test_load_dimensions :
    after (.loadDimensions 7 [0x20, 0, 0x10, 0, 0x40, 0, 0, 0, 4, 0]) base (fun t =>
      t.tables.dims = some { points := 8192, nets := 4096, members := 16384, names := 0, steps := 1024 }
        && t.tables.state = .loaded && lastUp t = [0x03, 0x00]) = true := by decide +kernel

theorem test_load_dimensions_out_of_range :
    after (.loadDimensions 7 [0x20, 1, 0x10, 0, 0x40, 0, 0, 0, 4, 0]) base (fun t => lastUp t = [0x03, 0x05])
      = true := by decide +kernel

theorem test_load_points :
    after (.loadPoints 7 ([0, 3] ++ pointBytes)) tabled (fun t =>
      t.port.queue = [{ kind := .points, index := 3, write := some (0, pointBytes), owner := .load 7 0x04 true }]
        && t.tables.state = .loaded) = true := by decide +kernel

/-- A point record whose module is 65 is out of range (R6). -/
theorem test_load_points_bad_module :
    after (.loadPoints 7 [0, 0, 65, 2, 1, 0, 0, 0, 0]) tabled (fun t => lastUp t = [0x04, 0x05]) = true := by
  decide +kernel

theorem test_load_nets :
    after (.loadNets 7 [0, 0, 0, 0, 0, 2, 0, 1, 0xFF, 0, 0xFF, 0xFF]) tabled (fun t => t.port.queue.length = 1)
      = true := by decide +kernel

theorem test_load_members :
    after (.loadMembers 7 [0, 0, 0, 1, 0, 2]) tabled (fun t =>
      t.port.queue.map (·.index) = [0, 1] && t.port.queue.map (·.owner) = [.load 7 6 false, .load 7 6 true])
      = true := by decide +kernel

/-- A name of two characters is stored padded with spaces (R9). -/
theorem test_load_names :
    after (.loadNames 7 ([0, 0, 2] ++ [0x41, 0x42] ++ List.replicate 14 0)) tabled (fun t =>
      t.port.queue.map (·.write) = [some (0, [0x41, 0x42] ++ List.replicate 14 0x20)]) = true := by
  decide +kernel

/-- A step is stored NOT-RUN whatever the status it is sent with (R10). -/
theorem test_load_steps :
    after (.loadSteps 7 [0, 1, 5, 0, 0, 0, 1, 0, 0, 0, 0, 6, 9, 9]) tabled (fun t =>
      t.port.queue.map (·.write) = [some (0, [5, 0, 0, 0, 1, 0, 0, 0, 0, 0, 0, 0])]) = true := by decide +kernel

theorem test_load_modules :
    after (.loadModules 7 [0, 64, 128]) tabled (fun t =>
      t.channels 64 = 128 && t.channels 1 = 4 && !t.alive 1 && t.events.isPending .moduleChange) = true := by
  decide +kernel

theorem test_load_modules_past_end :
    after (.loadModules 7 [0, 64, 1, 1]) tabled (fun t => lastUp t = [0x09, 0x05]) = true := by decide +kernel

/-- The open limit is raised to the good limit stored, and the reply is CLAMPED (R13, R14). -/
theorem test_load_limits :
    after (.loadLimits 7 [3, 0, 0, 0, 9, 0, 0, 0, 8, 2]) base (fun t =>
      t.limits.contSet 3 = { good := 9, opn := 9, range := 2 } && lastUp t = [0x0A, 0x01]) = true := by
  decide +kernel

theorem test_load_leads :
    after (.loadLeads 7 [0, 2, 1, 2, 3, 4]) tabled (fun t =>
      t.port.queue.map (fun a => (a.index, a.write)) = [(2, some (3, [1, 2])), (3, some (3, [3, 4]))]) = true := by
  decide +kernel

theorem test_read_table_dimensions :
    after (.readTable 7 [0, 0, 0]) tabled (fun t =>
      lastUp t = [0x0C, 0, 0, 0, 0, 0, 4, 0, 2, 0, 4, 0, 1, 0, 2]) = true := by decide +kernel

theorem test_read_table_point :
    after (.readTable 7 [1, 0, 3]) tabled (fun t =>
      t.port.queue = [{ kind := .points, index := 3, write := none, owner := .readTable 7 }]) = true := by
  decide +kernel

theorem test_check_tables :
    after (.checkTables 7 []) tabled (fun t =>
      t.tables.state = .checking && t.port.queue.map (·.index) = [0] && lastUp t = [0x0D, 0]) = true := by
  decide +kernel

/-- An entry that is valid for point 5. -/
def cached : State :=
  { base with cache :=
      { Cache.reset with
        entries := Cache.reset.entries.set 3
          { valid := true, tag := 5, copy := { PointRec.zero with module := 1, channel := 2, lead := 258 } }
        pointer := 4 } }

theorem test_invalidate_map :
    after (.invalidateMap 7 [0, 5]) cached (fun t =>
      t.cache.entries.all (fun e => !e.valid) && lastUp t = [0x15, 0, 1]) = true := by decide +kernel

/-- Hit, pointer 4, entry 3, module 1, channel 2, UNUSED, lead 258, no net (R20). -/
theorem test_probe_map :
    after (.probeMap 7 [0, 5]) cached (fun t => lastUp t = [0x16, 0, 1, 4, 3, 1, 2, 0, 1, 2, 0xFF, 0xFF])
      = true := by decide +kernel

/-! ### Runs and defects (chapters 02, 09) -/

theorem test_start_run :
    after (.startRun 7 [0, 1, 1, 0]) tabled (fun t =>
      t.run.state = .running && t.run.correlate && t.seq.state = .homing && t.seq.home.expected = [1]) = true := by
  decide +kernel

theorem test_start_run_copies :
    after (.startRun 7 [0, 1, 1, 5]) tabled (fun t => lastUp t = [0x0E, 0x05]) = true := by decide +kernel

theorem test_pause : after (.pause 7 []) (running .running) (fun t => t.run.pauseReq) = true := by decide +kernel

theorem test_resume :
    after (.resume 7 [])
      { running .paused with run := { (running .paused).run with pauseCause := .request, waiting := .heldStep 1 } }
      (fun t => t.run.state = .running && t.port.queue.map (·.index) = [1]) = true := by decide +kernel

theorem test_abort :
    after (.abort 7 []) (running .running) (fun t =>
      t.run.state = .aborting && t.run.waiting = .home && t.seq.state = .homing) = true := by decide +kernel

/-- In DWELL an ABORT begins the discharge and waits for SAFE (R40, R135). -/
theorem test_abort_in_dwell :
    after (.abort 7 []) (live .dwell) (fun t =>
      t.hv.state = .discharge && t.hv.safeWait && t.run.waiting = .safe) = true := by decide +kernel

theorem test_release : after (.release 7 []) (running .done) (fun t => t.run.state = .idle) = true := by
  decide +kernel

/-- Record 1 as its 17 bytes: HIGH-R of net 1, 5 mΩ, step 0, one insert, HAS-VALUE (R148, R174). -/
theorem test_read_defects :
    after (.readDefects 7 [0, 0]) sending (fun t =>
      lastUp t = [0x13, 0, 0, 1, 0, 1, 1, 0, 1, 0xFF, 0xFF, 0xFF, 0xFF, 0, 0, 0, 5, 0, 0, 1, 0x80]) = true := by
  decide +kernel

theorem test_retire_defects :
    after (.retireDefects 7 [0, 1]) { base with defects := [record 1 .opn, record 2 .short] } (fun t =>
      t.defects = [record 2 .short] && lastUp t = [0x14, 0, 0, 1]) = true := by decide +kernel

/-- The record that waits for room is inserted once one has left, and the run goes on (R39). -/
theorem test_retire_ends_stall :
    after (.retireDefects 7 [0, 1])
      { running .stalled with
        defects := [record 1 .opn]
        sweep := { (running .stalled).sweep with state := .inserting, kind := some .cont, netCursor := some 0 }
        run :=
          { (running .stalled).run with
            slot := some { key := (record 9 .highR).key, value := some 6, lowv := false }
            summary := { Summary.cleared with defects := 1 } } }
      (fun t => t.run.slot = none && t.defects.map (·.seq) = [2] && t.run.state = .running) = true := by
  decide +kernel

theorem test_keep : after (.keep 7 []) (live .ramp) (fun t => t.hv.keepalive = 256) = true := by decide +kernel

/-! ### Events (R175, R176) -/

theorem test_read_events :
    after (.readEvents 7 []) base (fun t => lastUp t = [0x18, 0, 0, 0, 0x0F, 0xF8]) = true := by decide +kernel

theorem test_clear_events :
    after (.clearEvents 7 [0, 1]) { base with events := { pending := 3, mask := 0xFF8 } } (fun t =>
      t.events.pending = 2 && lastUp t = [0x19, 0, 0, 2]) = true := by decide +kernel

/-- Unmasking a pending event places a notice after the reply (R173, R176). -/
theorem test_set_event_mask :
    after (.setEventMask 7 [0, 0]) { base with events := { pending := 8, mask := 0xFFF } } (fun t =>
      t.trunk.queue.map (·.frame.payload) = [[0x1A, 0, 0, 0], [0, 8]]) = true := by decide +kernel

/-! ### The Print Engine (chapter 10) -/

theorem test_print_enable :
    after (.printEnable 7 []) base (fun t => t.print.state = .idle) = true := by decide +kernel

/-- A final record is selected and its net record read for its name (R154, R155). -/
theorem test_print_enable_selects :
    after (.printEnable 7 []) { tabled with defects := [record 1 .highR] } (fun t =>
      t.print.state = .format && t.print.buf0.content = some (.record 1)
        && t.port.queue.map (fun a => (a.kind, a.index)) = [(.nets, 1)]) = true := by decide +kernel

theorem test_print_disable :
    after (.printDisable 7 []) { printing .held with defects := [{ record 1 .opn with retired := true }] } (fun t =>
      t.print.state = .off && t.defects = []) = true := by decide +kernel

theorem test_print_hold : after (.printHold 7 []) (printing .idle) (fun t => t.print.state = .held) = true := by
  decide +kernel

theorem test_print_go :
    after (.printGo 7 [] true) (printing .faulted) (fun t => t.print.state = .send && t.print.busyTimer = some 10)
      = true := by decide +kernel

/-- 0x41 least significant bit first, between a low start bit and a high stop bit (R159). -/
theorem test_prn_busy_falls :
    after .prnBusyFalls { sending with print := { sending.print with busyTimer := some 10, char := none } }
      (fun t => t.print.tx = [false, true, false, false, false, false, false, true, false, true] && t.print.busyTimer = none) = true := by decide +kernel

theorem test_busy_timeout :
    after .busyTimeout { sending with print := { sending.print with busyTimer := some 10, char := none } }
      (fun t => t.print.state = .faulted && t.events.isPending .printerFault) = true := by decide +kernel

theorem test_character_sent :
    after (.printCharacterSent false) sending (fun t => t.print.sendPos = 1) = true := by decide +kernel

/-- The LF of its line makes a record PRINTED (R150, R159). -/
theorem test_line_sent :
    after (.printCharacterSent false) { sending with print := { sending.print with sendPos := 2 } } (fun t =>
      t.defects.map (·.printed) = [true] && t.print.state = .idle && t.print.buf0.state = .empty) = true := by
  decide +kernel

/-- The line of R156: seq, kind in column 7, net A in column 16, the value ending in column 69, no L. -/
theorem test_record_line :
    recordLine (record 1 .highR) (indexForm 1) [] (valueText .milliohm 5) =
      ascii "00001 HIGH-R   N0001".toList ++ List.replicate 43 0x20 ++ ascii "0.005R  ".toList ++ [0x0D, 0x0A] := by
  decide +kernel

/-! ### Links (chapter 11) -/

/-- A pass-through POL whose tag belongs to the chip is BAD-TAG, with DST and class (R170). -/
theorem test_pass_through_tag :
    after (.passThroughRequest ⟨.pol, 3, 0, 0x7F, []⟩) base (fun t =>
      lastUp t = [0x00, 0x08, 3, 0x12]) = true := by decide +kernel

theorem test_pass_through :
    after (.passThroughRequest ⟨.pol, 3, 0, 0x80, []⟩) base (fun t =>
      t.ring.queue.map (·.frame.dst) = [3] && t.trunk.queue = []) = true := by decide +kernel

/-- A request to an address above 127 is placed as any other (R167, R170). -/
theorem test_pass_through_address :
    after (.passThroughRequest ⟨.msr, 200, 0, 0x80, [2]⟩) base (fun t => t.ring.queue.map (·.frame.dst) = [200]) = true := by
  decide +kernel

theorem test_frame_discarded : after (.frameDiscarded .ring [1, 2, 3]) base (fun t => t = base) = true := by
  decide +kernel

theorem test_trunk_frame_sent :
    after .trunkFrameSent { base with trunk := { queue := [noticeEntry 1], begun := true, held := false } } (fun t =>
      t.trunk = { queue := [], begun := false, held := false }) = true := by decide +kernel

theorem test_ring_frame_sent :
    after .ringFrameSent
      { measuring with
        mc := { measuring.mc with state := .msrQueued, timer := none }
        ring :=
          { Ring.reset with queue :=
              [{ frame := { dst := 72, src := 0, cls := 0x20, tag := 7, payload := [2] }, owner := .msr }] } }
      (fun t => t.mc.state = .msrWait && t.mc.timer = some 20 && t.ring.queue = []) = true := by decide +kernel

/-- An own MSR that comes back unclaimed is a fault of the head, and is sent again (R70, R81). -/
theorem test_returned_frame :
    after (.returnedFrame 72 0x20 7 [2]) measuring (fun t =>
      t.mc.attempt = 2 && t.ring.queue.map (·.frame.dst) = [72]
        && ((t.node? 72).map (·.fault)) = some true) = true := by decide +kernel

/-! ### Answers and timers (chapters 03, 04, 05, 08) -/

theorem test_ech_received :
    after (.echReceived 1 9 1 0) (verifying [sentTx]) (fun t =>
      t.seq.state = .settling && t.believed 1 = some masksA2 && t.seq.settleTimer = some 1) = true := by
  decide +kernel

theorem test_sta_received :
    after (.staReceived 1 3 0 4 0 0 0) tabled (fun t =>
      (t.node? 1).map (fun n => (n.heard, n.kind, n.reported)) = some (true, .module, 4)) = true := by
  decide +kernel

/-- High voltage reported in SAFE is HV-UNEXPECTED, and a discharge stream is opened (R138). -/
theorem test_sta_hv_unexpected :
    after (.staReceived 72 3 1 0 0 0 1) tabled (fun t =>
      t.fault.code = some .hvUnexpected && t.hv.state = .discharge && t.mc.state = .stream) = true := by
  decide +kernel

theorem test_smp_received :
    after (.smpReceived 72 7 1 0x0100 0x0200 2 0) measuring (fun t =>
      t.mc.state = .msrAnswered && t.mc.queue.map (·.vcode) = [0x0100#16] && t.arith.waiting = [.sample]) = true := by
  decide +kernel

theorem test_smp_discarded :
    after (.smpReceived 72 8 1 0 0 2 0) measuring (fun t => t.mc.discards = 1 && t.mc.state = .msrWait) = true := by
  decide +kernel

/-- The fourth failure of a transaction is a fault of its module, and the configuration fails on it (R56, R57). -/
theorem test_echo_timeout :
    after (.echoTimeout 1) (verifying [{ sentTx with attempt := 4 }]) (fun t =>
      t.seq.failed = [1] && t.seq.state = .idle && (t.node? 1).map (·.fault) = some true) = true := by
  decide +kernel

theorem test_home_echo_timeout :
    after .homeEchoTimeout homing (fun t =>
      t.seq.state = .idle && t.port.queue.map (fun a => (a.kind, a.index)) = [(.steps, 0)]) = true := by
  decide +kernel

/-- With no module expected, an ECH with the HOME's tag before the broadcast is sent does not end the HOME (R61). -/
theorem test_home_echo_before_sent :
    after (.echReceived 1 4 0 0)
      { homing with
        seq := { homing.seq with home := { tag := some 4, expected := [], answered := [], timer := none } } }
      (fun t => t.seq.state = .homing && t.seq.home.answered = [1]) = true := by
  decide +kernel

theorem test_settle_timeout :
    after .settleTimeout
      { measuring with
        mc := Measure.reset
        seq := { Sequencer.reset with state := .settling, requester := .sweep, settleTimer := some 1 } }
      (fun t => t.mc.state = .msrQueued && t.mc.leads = [0, 1] && t.ring.queue.map (·.frame.payload) = [[2]])
      = true := by decide +kernel

/-- The third failure of an MSR is HEAD-TIMEOUT, and the run goes into ABORTING (R81). -/
theorem test_sample_timeout :
    after .sampleTimeout { measuring with mc := { measuring.mc with attempt := 3 } } (fun t =>
      t.fault.code = some .headTimeout && t.fault.point = some 1 && t.run.state = .aborting) = true := by
  decide +kernel

/-- A head that has not been heard is lost, and a run ends in ABORTING (R71, R72). -/
theorem test_monitor_period_expiry :
    after .monitorPeriodExpiry (running .running) (fun t =>
      !t.alive 72 && t.fault.code = some .headLost && t.run.state = .aborting) = true := by decide +kernel

theorem test_ramp_timer_expiry :
    after .rampTimerExpiry (live .ramp) (fun t =>
      t.hv.state = .discharge && t.defects.map (fun d => (d.key.kind, d.key.netA, d.lowv)) = [(.leak, 1, true)])
      = true := by decide +kernel

theorem test_dwell_timer_expiry :
    after .dwellTimerExpiry (live .dwell) (fun t =>
      t.hv.state = .discharge && t.defects.map (·.key.kind) = [.untested]) = true := by decide +kernel

theorem test_discharge_timer_expiry :
    after .dischargeTimerExpiry { base with hv := { Hv.reset with dischargeTimer := some 2000 } } (fun t =>
      t.hv.state = .stuck && t.fault.code = some .dischargeTimeout) = true := by decide +kernel

theorem test_keepalive_expiry :
    after .keepaliveExpiry (live .dwell) (fun t =>
      t.hv.state = .discharge && t.run.abortCause = .hvAbort && t.defects.map (·.key.kind) = [.untested]) = true := by
  decide +kernel

theorem test_interlock_opens :
    after .interlockOpens (live .ramp) (fun t =>
      !t.pins.interlockClosed && t.hv.state = .discharge && t.events.isPending .hvAbort) = true := by decide +kernel

theorem test_interlock_closes :
    after .interlockCloses base (fun t => t.pins.interlockClosed) = true := by decide +kernel

/-! ### Resets (R180, R181) -/

/-- Memory that lost its power lists nothing, in an epoch of its own (R2, log 8). -/
theorem test_power_on_reset :
    after (.powerOnReset false) (withRecord base .members 0 [0, 1]) (fun t =>
      t.mem = { cells := [], dp := [], epoch := 1 } && t.rst.cause = .power && t.hv.state = .discharge) = true := by
  decide +kernel

theorem test_pin_reset :
    after .pinReset (withRecord tabled .members 0 [0, 1]) (fun t =>
      t.mem.lookup 98305 = some 1 && t.tables.dims = none && t.rst.held && t.rst.cause = .pin) = true := by
  decide +kernel

theorem test_clock_loss_reset :
    after .clockLossReset tabled (fun t => t.rst.cause = .clock && t.channels 1 = 0) = true := by decide +kernel

/-- A command reset keeps the dimensions and the module table, the tables being LOADED (R181). -/
theorem test_command_reset :
    after .commandReset { tabled with rst := { tabled.rst with phase := .ready } } (fun t =>
      t.channels 1 = 4 && t.tables.dims.isSome && t.tables.state = .loaded && t.rst.cause = .command) = true := by
  decide +kernel

/-- The first monitor period polls the head, and a discharge begins (R66, R139). -/
theorem test_reset_end :
    after .resetEnd State.reset (fun t =>
      t.ring.queue.map (fun e => (e.frame.dst, e.frame.cls)) = [(72, 0x12), (72, 0x22)] && t.mc.state = .stream
        && t.sup.timer = some 10) = true := by decide +kernel

/-! ### Accesses and arithmetic (R2, R84) -/

theorem test_access_write :
    after (.tableAccessComplete none false)
      (withAccess base
        { kind := .members, index := 1, write := some (0, [1, 2]), owner := .load 7 6 true })
      (fun t => t.mem.lookup 98306 = some 1 && t.mem.lookup 98307 = some 2 && lastUp t = [0x06, 0]) = true := by
  decide +kernel

/-- A byte that has come to fail its parity check makes READ TABLE answer TABLE-ERROR (R3, R11). -/
theorem test_parity_bit :
    (State.reset.mem.write 5 0x03).dpAt 5 = true ∧ (State.reset.mem.write 5 0x07).dpAt 5 = false ∧
      ((State.reset.mem.write 5 0x03).write 5 0x07).dpAt 5 = false := by decide +kernel
theorem test_access_parity :
    after (.tableAccessComplete (some 1) false)
      (withAccess (withRecord base .members 1 [1, 2])
        { kind := .members, index := 1, write := none, owner := .readTable 7 })
      (fun t => lastUp t = [0x0C, 0x0C, 3, 0, 1] && t.tables.parityCount = 1) = true := by decide +kernel

/-- 1000 codes of 61 µV over 500 codes of 610,352 pA: 61,000 µV over 305,176,000 pA is 199,884 mΩ (R85). -/
theorem test_arithmetic_start :
    after .arithmeticOperationStart
      { measuring with
        mc :=
          { measuring.mc with
            state := .msrAnswered, leads := []
            queue := [{ seq := 1, vcode := 1000, icode := 500, range := 2, ovl := false, cmp := false, hv := false }] }
        arith := { job := none, waiting := [.sample] } }
      (fun t => t.arith.job = some { op := .lowVolt 199884 [] 0, live := true }) = true := by decide +kernel

/-- 3,000 mΩ under the defaults 2,000 and 50,000 is HIGH-R (R87, R101). -/
theorem test_arithmetic_end :
    after (.arithmeticOperationEnd false)
      { measuring with arith := { job := some { op := .lowVolt 3500 [] 500, live := true }, waiting := [] } }
      (fun t =>
        t.defects.map (fun d => (d.key.kind, d.key.point, d.value)) = [(.highR, some 1, some 3000)]
          && t.run.summary.measurements = 1) = true := by decide +kernel

/-! ### Witnesses: states that meet the hypotheses of the claims, clause by clause -/

theorem takes_base : base.takesCommands := by unfold State.takesCommands State.hearsTrunk; decide +kernel
theorem takes_tabled : tabled.takesCommands := by unfold State.takesCommands State.hearsTrunk; decide +kernel
theorem takes_cached : cached.takesCommands := by unfold State.takesCommands State.hearsTrunk; decide +kernel
theorem takes_sending : sending.takesCommands := by unfold State.takesCommands State.hearsTrunk; decide +kernel
theorem takes_running (st : RunState) : (running st).takesCommands := by
  cases st <;> exact ⟨⟨rfl, rfl, by decide +kernel⟩, rfl⟩
theorem takes_printing (st : PrintState) : (printing st).takesCommands := by
  cases st <;> exact ⟨⟨rfl, rfl, by decide +kernel⟩, rfl⟩
theorem takes_live (st : HvState) : (live st).takesCommands := by
  cases st <;> exact ⟨⟨rfl, rfl, by decide +kernel⟩, rfl⟩

/-- SAFE-HALT set, the run DONE. -/
def halted : State :=
  { base with fault := { FaultMon.reset with safeHalt := true }, run := { Run.reset with state := .done } }

theorem hears_halted : halted.hearsTrunk := by unfold State.hearsTrunk; decide +kernel

/-- A RAMP with a command waiting, a record in the list, a transaction that has ended and a fill in progress. -/
def busy : State :=
  { live .ramp with
    pending := [.keep 7 []]
    defects := [record 1 .highR]
    cache := { cached.cache with fill := some (6, .dropped) }
    run := { (live .ramp).run with summary := { Summary.cleared with defects := 1 } }
    trunk := { queue := [noticeEntry 1], begun := true, held := false }
    ring :=
      { queue := [{ frame := { dst := 72, src := 0, cls := 0x22, tag := 3, payload := [2] }, owner := .hvc 1 true }]
        wait := [], ownTag := 127 } }

theorem witness_StepRunsFrontCommand : State.reset.pending = [] := rfl
theorem witness_StepKeepsMemoryCanonical :
    (withRecord busy .members 0 [0, 1]).mem.wf ∧ steps (withRecord busy .members 0 [0, 1]) = true := by
  decide +kernel
theorem witness_StepKeepsLimitsSound : busy.limitsSound ∧ steps busy = true := by
  unfold State.limitsSound; decide +kernel
theorem witness_StepKeepsCacheSound : busy.cacheSound ∧ steps busy = true := by
  unfold State.cacheSound; decide +kernel
theorem witness_StepKeepsRunSound : busy.runSound ∧ steps busy = true := by unfold State.runSound; decide +kernel
theorem witness_StepKeepsLinksSound : busy.linksSound ∧ steps busy = true := by
  unfold State.linksSound; decide +kernel
theorem witness_StepKeepsRelaysSound : busy.relaysSound ∧ steps busy = true := by
  refine ⟨⟨fun _ h => (by cases (show _ ∈ ([] : List Transaction) from h)), ?_, by decide +kernel, fun _ => ⟨?_, by decide +kernel, by decide +kernel⟩⟩,
    by decide +kernel⟩
  · intro e he m hm
    simp only [busy, List.append_nil, List.mem_singleton] at he
    subst he
    cases hm
  · intro e he
    simp only [busy, List.append_nil, List.mem_singleton] at he
    subst he
    unfold RingEntry.setsRelays
    decide +kernel
theorem witness_StepKeepsNodesSound : busy.nodesSound ∧ steps busy = true := by
  unfold State.nodesSound; decide +kernel
theorem witness_StepKeepsMeasuringSound : busy.measuringSound ∧ steps busy = true := by
  unfold State.measuringSound; decide +kernel
theorem witness_StepKeepsInterlockSound : busy.interlockSound ∧ steps busy = true := by
  unfold State.interlockSound; decide +kernel
theorem witness_StepKeepsListSound : busy.listSound ∧ steps busy = true := by unfold State.listSound; decide +kernel

theorem witness_SafeHaltStays :
    (Instr.identify 7 []).resets = false ∧ halted.fault.safeHalt = true ∧
      after (.identify 7 []) halted (fun _ => true) = true := by decide +kernel
theorem witness_OnlyOwnersChangeTables :
    (Instr.identify 7 []).resets = false ∧ after (.identify 7 []) base (fun _ => true) = true ∧
      (∀ upset busy, Instr.identify 7 [] ≠ .tableAccessComplete upset busy) ∧
      (∀ tag args, Instr.identify 7 [] ≠ .loadLimits tag args) ∧
      ∀ tag args, Instr.identify 7 [] ≠ .loadModules tag args :=
  ⟨rfl, by decide +kernel, fun _ _ h => (by cases h), fun _ _ h => (by cases h), fun _ _ h => (by cases h)⟩
theorem witness_FramesRoundTrip :
    (List.replicate 64 (0 : Byte)).length ≤ 64 ∧ ringLengthAllowed clsSw 32 = true ∧
      (Instr.keep 7 []).frame? = some (cmdFrame 7 0x17 []) ∧ (Instr.keep 7 []).WellFormed = true := by
  decide +kernel

theorem witness_IdentifyReports : base.hearsTrunk := takes_base.1
theorem witness_StatusAndModulesReported :
    base.hearsTrunk ∧ base.status 0 = some base.tables.status ∧ (7 : Byte).toNat ≤ 7 ∧ 7 < (8 : Byte).toNat ∧
      base.fault.safeHalt = false ∧ base.sup.timer = some 10 ∧ 1 ≤ (1 : Byte).toNat ∧ (64 : Byte).toNat ≤ 64 ∧
      (0 : Byte).toNat = 0 ∧ 64 < (65 : Byte).toNat ∧ (65 : Byte) ≠ 72 := ⟨takes_base.1, by decide +kernel⟩
theorem witness_FaultRecordReadAndCleared :
    base.hearsTrunk ∧ halted.hearsTrunk ∧ halted.fault.safeHalt = true ∧ base.fault.safeHalt = false ∧
      base.run.state = .idle ∧ (running .aborting).hearsTrunk ∧ (running .aborting).fault.safeHalt = false ∧
      (running .aborting).run.state ≠ .idle ∧ (running .aborting).run.state ≠ .done :=
  ⟨takes_base.1, hears_halted, rfl, rfl, rfl, (takes_running _).1, rfl, by decide, by decide⟩
theorem witness_SafeHaltAnswersHalted :
    halted.hearsTrunk ∧ halted.fault.safeHalt = true ∧ (Instr.clearFault 7 []).WellFormed = true ∧
      (Instr.clearFault 7 []).frame? = some (cmdFrame 7 0x21 []) ∧ isCommandCode 0x21 = true ∧
      (∀ tag args busy, Instr.clearFault 7 [] ≠ .printGo tag args busy) ∧ isCommandCode 0x23 = false ∧
      isCommandCode 0 = false :=
  ⟨hears_halted, rfl, rfl, rfl, rfl, fun _ _ _ h => (by cases h), rfl, rfl⟩
theorem witness_DiscardedFramesDoNothing :
    (Instr.keep 7 []).frame? = some (cmdFrame 7 0x17 []) ∧ (Instr.keep 7 []).WellFormed = true ∧
      State.reset.rst.held = true ∧
      (∀ tag args busy, Instr.keep 7 [] ≠ .printGo tag args busy ∧ Instr.keep 7 [] ≠ .readStatus tag ⟨args, busy⟩) ∧
      ([1, 2, 3] : List Byte).length < 7 ∧
      frameIsDiscarded .trunk { dst := 2, src := 0, cls := 0x01, tag := 7, payload := [1] : Frame }.bytes = true ∧
      frameIsDiscarded .trunk (cmdFrame 7 0x17 []).bytes = false ∧
      ringLengthAllowed 0x11 2 = true ∧
      frameIsDiscarded .ring { dst := 0, src := 127, cls := 0x11, tag := 7, payload := [0, 0] : Frame }.bytes = true ∧
      frameIsDiscarded .ring { dst := 0, src := 126, cls := 0x11, tag := 7, payload := [0, 0] : Frame }.bytes = false :=
  ⟨rfl, rfl, rfl, fun _ _ _ => ⟨nofun, nofun⟩, by decide, by decide +kernel⟩
theorem witness_BareCommandsTakeNoArguments :
    (Instr.pause 7 [0]).WellFormed = true ∧ (Instr.pause 7 [0]).frame? = some (cmdFrame 7 0x0F [0]) ∧
      ([0] : List Byte) ≠ [] ∧ base.takesCommands ∧ ([0, 0, 0] : List Byte).length ≠ 4 ∧
      1 < (([0, 0, 2, 0] : List Byte).getD 2 0).toNat ∧ (List.replicate 63 (0 : Byte)).length ≤ 63 :=
  ⟨rfl, rfl, by decide, takes_base, by decide, by decide, by decide⟩

theorem witness_DimensionsLoaded :
    base.takesCommands ∧ base.run.active = false ∧ base.tables.state ≠ .checking ∧
      (running .running).takesCommands ∧ (running .running).run.active = true ∧
      ¬∃ p n m a c : Nat, ([] : List Byte) = be16 p ++ be16 n ++ be16 m ++ be16 a ++ be16 c ∧
        1 ≤ p ∧ p ≤ 8192 ∧ 1 ≤ n ∧ n ≤ 4096 ∧ 1 ≤ m ∧ m ≤ 16384 ∧ a ≤ 4096 ∧ 1 ≤ c ∧ c ≤ 1024 :=
  ⟨takes_base, rfl, by decide, takes_running _, rfl, fun ⟨_, _, _, _, _, h, _⟩ => by simp [be16] at h⟩
theorem witness_TableLoadsAccepted :
    tabled.takesCommands ∧ tabled.run.active = false ∧ tabled.tables.state ≠ .checking ∧
      tabled.tables.dims.isSome = true ∧
      loadRow .points 7 (be16 3 ++ [pointBytes].flatten) =
        some (.loadPoints 7 (be16 3 ++ [pointBytes].flatten), 0x04) ∧
      (∀ r ∈ [pointBytes], r.length = TableKind.points.loadSize ∧ TableKind.points.loadOk r = true) ∧
      3 + [pointBytes].length ≤ tabled.bound .points ∧ (16 : Byte).toNat ≤ 16 :=
  ⟨takes_tabled, by decide +kernel⟩
theorem witness_TableLoadsRefused :
    (running .paused).takesCommands ∧ (running .paused).run.active = true ∧ base.takesCommands ∧
      base.tables.dims = none ∧ tabled.takesCommands ∧ tabled.tables.dims.isSome = true ∧
      loadRow .nets 7 [] = some (.loadNets 7 [], 0x05) ∧
      ¬∃ (first : Nat) (rs : List (List Byte)), ([] : List Byte) = be16 first ++ rs.flatten ∧ first < 65536 ∧ rs ≠ [] ∧
        (∀ r ∈ rs, r.length = TableKind.nets.loadSize ∧ TableKind.nets.loadOk r = true) ∧
        first + rs.length ≤ tabled.bound .nets :=
  ⟨takes_running _, rfl, takes_base, rfl, takes_tabled, rfl, rfl, fun ⟨_, _, h, _⟩ => by simp [be16] at h⟩
theorem witness_ModulesLoaded :
    tabled.takesCommands ∧ tabled.sup.nodes.length = 65 ∧ tabled.run.active = false ∧
      tabled.tables.state ≠ .checking ∧ 64 + ([128] : List Byte).length ≤ 65 ∧ (128 : Byte).toNat ≤ 128 ∧
      (running .stalled).takesCommands ∧ (running .stalled).run.active = true ∧
      ¬∃ (first : Nat) (counts : List Byte), ([] : List Byte) = be16 first ++ counts ∧ counts ≠ [] ∧ 1 ≤ first ∧
        first + counts.length ≤ 65 ∧ ∀ c ∈ counts, c.toNat ≤ 128 :=
  ⟨takes_tabled, by decide +kernel, rfl, by decide, by decide, by decide, takes_running _, rfl,
    fun ⟨_, _, h, _⟩ => by simp [be16] at h⟩

/-- A ring transmit queue with a number of pass-through frames and the last own tag next. -/
def queued (n : Nat) : State :=
  { tabled with ring :=
      { queue := List.replicate n { frame := { dst := 1, src := 0, cls := clsSw, tag := 0, payload := [] }, owner := .passThrough }
        wait := [], ownTag := 127 } }
theorem takes_queued (n : Nat) : (queued n).takesCommands := takes_tabled
theorem witness_ModulesLoaded_pollRound :
    ∀ n ∈ [0, 7, 8], (queued n).takesCommands ∧ (queued n).sup.nodes.length = 65 ∧ (queued n).run.active = false ∧
      (queued n).tables.state ≠ .checking ∧ (queued n).ring.wait = [] ∧ (queued n).ring.ownTag < 128 ∧
      (queued n).hv.state = .safe :=
  fun n _ => ⟨takes_queued n, rfl, rfl, TableState.noConfusion, rfl, (by decide : 127 < 128), rfl⟩

theorem witness_LimitsLoaded :
    base.takesCommands ∧ base.run.active = false ∧ (running .running).takesCommands ∧
      (running .running).run.active = true ∧ 18 < (19 : Byte).toNat ∧
      Section.ofCode (18 : Byte).toNat = some .calibration ∧ (List.replicate 36 (0 : Byte)).length = Section.calibration.size ∧
      ([] : List Byte).length ≠ Section.calibration.size :=
  ⟨takes_base, rfl, takes_running _, rfl, by decide +kernel⟩
theorem witness_SectionsClamped :
    (7 : Nat) < 8 ∧ 4294967295 < 4294967296 ∧ (List.replicate 8 4294967295).length = 8 := by decide
theorem witness_LeadsLoaded :
    tabled.takesCommands ∧ tabled.run.active = false ∧ tabled.tables.dims.isSome = true ∧
      3 + [65535].length ≤ tabled.bound .points ∧ base.takesCommands ∧ base.tables.dims = none ∧
      (running .running).takesCommands ∧ (running .running).run.active = true ∧
      ¬∃ (first : Nat) (leads : List Nat), ([] : List Byte) = be16 first ++ (leads.map be16).flatten ∧ leads ≠ [] ∧
        first < 65536 ∧ first + leads.length ≤ tabled.bound .points :=
  ⟨takes_tabled, rfl, rfl, by decide +kernel, takes_base, rfl, takes_running _, rfl,
    fun ⟨_, _, h, _⟩ => by simp [be16] at h⟩
theorem witness_TableRead :
    tabled.takesCommands ∧ tabled.tables.dims.isSome = true ∧ 3 < tabled.bound .points ∧ tabled.bound .points ≤ 4 ∧
      base.takesCommands ∧ base.tables.dims = none ∧ Section.ofCode 18 = some .calibration ∧
      ([8, 0, 0] : List Byte).length = 3 ∧ 7 < (8 : Byte).toNat ∧ ([] : List Byte).length ≠ 3 :=
  ⟨takes_tabled, rfl, by decide +kernel, by decide +kernel, takes_base, rfl, rfl, rfl, by decide, by decide⟩

/-- The check at its last record, a MARK step over net 0. -/
def checking (bytes : List Byte) : State :=
  withAccess
    (withRecord
      { tabled with
        tables :=
          { tabled.tables with
            state := .checking, check := some { pos := .step 1, net := NetRec.zero, claimed := [], found := [] } } }
      .steps 1 bytes)
    { kind := .steps, index := 1, write := none, owner := .check }

/-- A MARK step over net 0. -/
def markStep : List Byte := [4, 0, 0, 0, 0, 0, 0, 0, 0, 0, 0, 0]

theorem witness_CheckBeginsAndEnds :
    (running .running).takesCommands ∧ (running .running).run.active = true ∧ base.takesCommands ∧
      base.tables.state = .empty ∧ tabled.takesCommands ∧ tabled.run.active = false ∧ tabled.tables.state = .ready ∧
      tabled.tables.dims.isSome = true ∧ (checking markStep).rst.held = false ∧
      (checking markStep).rst.phase ≠ .ready ∧ 1 + 1 = (checking markStep).bound .steps ∧
      (checking markStep).port.queue = [{ kind := .steps, index := 1, write := none, owner := .check }] ∧
      (checking markStep).mem.record .steps 1 = some markStep ∧ (decodeStep markStep).kind = .mark ∧
      (decodeStep markStep).lastNet < (checking markStep).bound .nets ∧
      ({ checking markStep with mem := (checking markStep).mem.upset 196620 } : State).mem.record .steps 1 = none :=
  ⟨takes_running _, rfl, takes_base, rfl, takes_tabled, by decide +kernel⟩

/-- The check at a place, the record it asked for with these bytes in table memory. -/
def checkingAt (w : CheckWork) (bytes : List Byte) : State :=
  withAccess
    (withRecord { tabled with tables := { tabled.tables with state := .checking, check := some w } } w.target.1
      w.target.2 bytes)
    (readFor w.target.1 w.target.2 .check)

/-- A place of the check, over a net of two members from position 2. -/
def checkPlace (pos : CheckAt) : CheckWork :=
  { pos, net := { NetRec.zero with first := 2, count := 2 }, claimed := [(1, 3)], found := [3] }

theorem witness_CheckBeginsAndEnds_places :
    ∀ x ∈ ([(.point 3, [1, 3, 0, 0, 0, 0xFF, 0xFF]), (.net 1, [0, 2, 0, 3, 0, 0, 0xFF, 0, 0xFF, 0xFF]),
        (.net 1, [0, 2, 0, 2, 0, 0, 0xFF, 0, 0, 0]), (.name 1 0, List.replicate 16 0x41), (.member 1 1, [0, 3]), (.memberPoint 1 1 3, [1, 3, 1, 0, 0, 0, 1]), (.found 3, [1, 3, 1, 0, 0, 0, 1]),
        (.step 0, markStep)] : List (CheckAt × List Byte)),
      (checkingAt (checkPlace x.1) x.2).rst.held = false ∧ (checkingAt (checkPlace x.1) x.2).rst.phase ≠ .ready ∧
        (checkPlace x.1).target.2 < (checkPlace x.1).target.1.capacity ∧
        (checkingAt (checkPlace x.1) x.2).mem.record (checkPlace x.1).target.1 (checkPlace x.1).target.2 = some x.2 := by
  decide +kernel

/-- A net that names name 0 has that name read before its members, and a name that fails its parity check ends the check
with PARITY, NAMES and its index (R3, R18, log 58). -/
theorem test_check_name :
    after (.tableAccessComplete none false) (checkingAt (checkPlace (.net 1)) [0, 2, 0, 2, 0, 0, 0xFF, 0, 0, 0])
        (fun t => t.port.queue.map (fun a => (a.kind, a.index)) = [(.names, 0)]) = true ∧
      after (.tableAccessComplete none false) (checkingAt (checkPlace (.name 1 0)) (List.replicate 16 0x41))
        (fun t => t.port.queue.map (fun a => (a.kind, a.index)) = [(.members, 2)]) = true := by decide +kernel
theorem test_check_name_parity :
    after (.tableAccessComplete (some 15) false) (checkingAt (checkPlace (.name 1 0)) (List.replicate 16 0x41))
      (fun t => t.tables.result = .fail .parity .names 0 && t.tables.state = .loaded) = true := by decide +kernel

/-- The last write of a load of members. -/
def lastWrite : Access := { kind := .members, index := 16383, write := some (0, [0, 1]), owner := .load 7 6 true }

theorem witness_LoadWriteCompletes :
    (withAccess base lastWrite).rst.held = false ∧ (withAccess base lastWrite).rst.phase ≠ .ready ∧
      (withAccess base lastWrite).port.queue = [lastWrite] ∧ lastWrite.write = some (0, [0, 1]) ∧
      lastWrite.index < lastWrite.kind.capacity ∧ lastWrite.owner = .load 7 6 true := by decide +kernel
/-- A LEADCAL visit of point 1 whose lead is being written, the cache holding the point. -/
def leadWriting : State :=
  withAccess
    { running .running with
      sweep :=
        { Sweep.reset with
          state := .writing, kind := some .leadcal, netCursor := some 0, lastNet := 1, fixedPoint := some 0
          fixedModule := some 1, visitedPoint := some 1, memberCursor := some 0, net := { NetRec.zero with count := 2 } } }
    { kind := .points, index := 1, write := some (3, be16 258), owner := .sweepLead 1 258 }

theorem witness_LoadWriteCompletes_lead :
    leadWriting.rst.held = false ∧ leadWriting.rst.phase ≠ .ready ∧ (1 : Nat) < TableKind.points.capacity ∧
      leadWriting.sweep.netDone = false ∧ leadWriting.alive 1 = true ∧
      leadWriting.run.summary.defects < leadWriting.limits.timing.defectLimit ∧ leadWriting.run.stopArmed = false ∧
      leadWriting.run.pauseReq = false ∧ measuring.sweep.state ≠ .writing := by decide +kernel

/-- A fill of point 5 for a requester, its record in table memory. -/
def filling (s : State) (who : LookupFor) : State :=
  withAccess (withRecord { s with cache := { Cache.reset with fill := some (5, who) } } .points 5 pointBytes)
    (readFor .points 5 .fill)

/-- A configuration in TRANSLATING with these pairs to do. -/
def translating (todo : List (Nat × Bus)) : State :=
  { tabled with seq := { Sequencer.reset with state := .translating, requester := .sweep, todo } }

theorem witness_RecordReadCompletes_fill :
    (∀ who ∈ ([.dropped, .translate, .lead] : List LookupFor),
      (filling (translating [(5, .a)]) who).rst.held = false ∧
        (filling (translating [(5, .a)]) who).cache.waiting = [] ∧
        (filling (translating [(5, .a)]) who).cache.invalidates = [] ∧
        (filling (translating [(5, .a)]) who).mem.record .points 5 = some pointBytes) ∧
      (translating [(5, .a)]).seq.todo = [(5, .a)] ∧
      (translating [(5, .a), (6, .b)]).seq.todo = [(5, .a), (6, .b)] ∧
      (∀ e ∈ (Cache.reset.entries.set 0 { valid := true, tag := 5, copy := decodePoint pointBytes }),
        ¬(e.valid = true ∧ e.tag = 6)) ∧
      (translating []).modules = [1] ∧ (translating []).sup.pollList = [] ∧
      (desiredMasks [{ module := 1, channel := 2, bus := .a }] 1).a = 4 ∧
      (desiredMasks [{ module := 1, channel := 2, bus := .a }, { module := 1, channel := 2, bus := .b }] 1).b = 4 ∧
      (translating []).fault.valid = false ∧ (translating []).run.active = false ∧
      ({ filling tabled .lead with mem := (filling tabled .lead).mem.upset 35 } : State).mem.record .points 5 = none := by
  decide +kernel

/-- A low-voltage operation that waits for the leads of points. -/
def awaiting (s : State) (points : List Nat) : State :=
  { s with arith := { job := some { op := .lowVolt 500 points 0, live := true }, waiting := [] } }

/-- The state with lookups and INVALIDATE MAP commands that wait for the fill. -/
def behindFill (s : State) (waiting : List (Nat × LookupFor)) (invalidates : List Byte) : State :=
  { s with cache := { s.cache with waiting, invalidates } }

theorem witness_RecordReadCompletes_waits :
    (∀ q ∈ [5, 6],
      let s := behindFill (awaiting (filling tabled .dropped) [q]) [(q, .lead)] []
      s.accessing (readFor .points 5 .fill) [] ∧ s.cache.fill = some (5, .dropped) ∧
        s.mem.record .points 5 = some pointBytes ∧ s.cache.pointer < s.cache.entries.length ∧
        s.cache.entries.length = 32 ∧ ∀ e ∈ s.cache.entries, ¬(e.valid = true ∧ e.tag = q)) ∧
      (∀ points ∈ [[5], [5, 5], [5, 6]],
        let s := behindFill (awaiting (filling tabled .lead) points) [] [7]
        s.accessing (readFor .points 5 .fill) [] ∧ s.cache.fill = some (5, .lead) ∧ s.cache.invalidates = [7] ∧
          s.mem.record .points 5 = some pointBytes ∧ s.arith.job.isSome = true ∧
          ∀ e ∈ (s.cache.entries.set 0 { valid := true, tag := 5, copy := decodePoint pointBytes }).map
            (fun e => if e.valid = true ∧ e.tag = 5 then { e with valid := false } else e),
            ¬(e.valid = true ∧ e.tag = points.getD 1 5)) ∧
      (let s := filling measuring .reference
       s.accessing (readFor .points 5 .fill) [] ∧ s.cache.fill = some (5, .reference) ∧ s.cache.waiting = [] ∧
         s.cache.invalidates = [] ∧ s.sweep.state = .measuring ∧ s.sweep.visitedPoint = some 1) := by
  unfold State.accessing; decide +kernel
/-- An INVALIDATE MAP that waited clears the entry before the second lookup of the same point (log 28). -/
theorem test_invalidate_before_lead :
    after (.tableAccessComplete none false) (behindFill (awaiting (filling tabled .lead) [5, 5]) [] [7]) (fun t =>
      t.cache.fill = some (5, .lead) && lastUp t = [0x15, 0, 1] && t.arith.nextLead = some 5) = true := by decide +kernel

/-- A CONT visit whose configuration needs no module changed: channel 2 of module 1 is on bus A by now. -/
def readyAtOnce : State :=
  filling
    { measuring with
      mc := Measure.reset, sweep := { measuring.sweep with state := .configuring }
      seq :=
        { Sequencer.reset with
          state := .translating, requester := .sweep, todo := [(5, .a)]
          believed := Sequencer.reset.believed.set 0 (some masksA2) } }
    .translate

theorem witness_RecordReadCompletes_ready :
    readyAtOnce.accessing (readFor .points 5 .fill) [] ∧ readyAtOnce.cache.waiting = [] ∧
      readyAtOnce.cache.invalidates = [] ∧ readyAtOnce.mem.record .points 5 = some pointBytes ∧
      readyAtOnce.seq.todo = [(5, .a)] ∧ readyAtOnce.modules = [1] ∧ readyAtOnce.believed 1 = some masksA2 ∧
      desiredMasks [{ module := 1, channel := 2, bus := .a }] 1 = masksA2 ∧ readyAtOnce.ringFree ∧
      after (.tableAccessComplete none false) readyAtOnce (fun t => t.mc.state = .msrQueued && t.seq.settleTimer.isNone) =
        true := by
  unfold State.accessing State.ringFree; decide +kernel
theorem witness_RecordReadCompletes :
    (checking markStep).rst.held = false ∧ (1 : Nat) < TableKind.members.capacity ∧
      (∀ i < TableKind.members.size,
        (withRecord base .members 1 [1, 2]).mem.parityBad (recordAddress .members 1 + i) = false) ∧
      ∃ i < TableKind.members.size,
        ((withRecord base .members 1 [1, 2]).mem.upset (recordAddress .members 1)).parityBad
          (recordAddress .members 1 + i) = true := by decide +kernel
theorem witness_CacheCommands :
    cached.takesCommands ∧ 8191 ≤ 8191 ∧ (∀ f ∈ cached.cache.fill, f.1 ≠ 5) ∧
      busy.cache.fill = some (6, .dropped) ∧ (∀ e ∈ base.cache.entries, ¬(e.valid = true ∧ e.tag = 5)) ∧
      (∃ e, cached.cache.entries[3]? = some e ∧ e.valid = true ∧ e.tag = 5) ∧
      (∀ j < 3, ∀ f ∈ cached.cache.entries[j]?, ¬(f.valid = true ∧ f.tag = 5)) ∧
      8191 < beNat [0x20, 0] ∧ beNat [0x20, 0] ≠ 0xFFFF :=
  ⟨takes_cached, by decide, by decide +kernel, rfl, by decide +kernel, ⟨_, rfl, rfl, rfl⟩, by decide +kernel,
    by decide, by decide⟩
theorem witness_StartRefused :
    halted.hearsTrunk ∧ halted.fault.safeHalt = true ∧ (running .done).hearsTrunk ∧
      (running .done).run.state ≠ .idle ∧ base.hearsTrunk ∧ base.tables.state ≠ .ready ∧ tabled.hearsTrunk ∧
      tabled.hv.state = .safe ∧ tabled.alive 72 = true ∧ tabled.defects = [] ∧ tabled.bound .steps ≤ 2 ∧
      4 < (5 : Byte).toNat :=
  ⟨hears_halted, rfl, (takes_running _).1, by decide, takes_base.1, by decide, takes_tabled.1, by decide +kernel⟩
theorem witness_RunStarts :
    tabled.takesCommands ∧ tabled.run.state = .idle ∧ tabled.tables.state = .ready ∧ tabled.hv.state = .safe ∧
      tabled.alive 72 = true ∧ tabled.defects = [] ∧ 1 < tabled.bound .steps ∧ tabled.seq.state = .idle ∧
      tabled.print.state = .off ∧ ({ tabled with print := (printing .idle).print } : State).takesCommands ∧
      ({ tabled with print := (printing .idle).print } : State).print.state ≠ .off :=
  ⟨takes_tabled, by decide +kernel, by decide +kernel, by decide +kernel, by decide +kernel, by decide +kernel,
    by decide +kernel, by decide +kernel, rfl, takes_tabled, by decide +kernel⟩

/-- A run PAUSED at the interlock. -/
def atInterlock (closed : Bool) : State :=
  { running .paused with
    run := { (running .paused).run with pauseCause := .interlock }
    pins := { interlockClosed := closed, prnBusy := false } }

theorem takes_atInterlock (closed : Bool) : (atInterlock closed).takesCommands := by
  cases closed <;> exact ⟨⟨rfl, rfl, by decide +kernel⟩, rfl⟩

theorem witness_PauseReleaseResume :
    (running .running).takesCommands ∧ (running .running).run.state = .running ∧ (running .done).takesCommands ∧
      (running .done).run.state = .done ∧
      ({ running .paused with run := { (running .paused).run with waiting := .heldStep 1 } } : State).takesCommands :=
  ⟨takes_running _, rfl, takes_running _, rfl, ⟨rfl, rfl, by decide⟩, rfl⟩

/-- A run PAUSED by request in the middle of a step, its owner being this sweep and this HV Controller. -/
def pausedIn (kind : StepKind) (w : Sweep) (hv : Hv) : State :=
  { running .paused with
    sweep := w, hv
    run :=
      { (running .paused).run with
        pauseCause := .request, stepRec := some { decodeStep (List.replicate 12 0) with kind } } }

theorem witness_PauseReleaseResume_owner :
    (∀ s ∈ [pausedIn .insul Sweep.reset { base.hv with net := some 0, lastNet := 1 },
        pausedIn .cont measuring.sweep base.hv, pausedIn .leadcal { measuring.sweep with kind := some .leadcal } base.hv,
        pausedIn .cont { measuring.sweep with netDone := true } base.hv,
        pausedIn .cont { measuring.sweep with memberCursor := some 3 } base.hv,
        pausedIn .iso { Sweep.reset with kind := some .iso, stack := [{ start := 0, length := 1 }] } base.hv],
      s.takesCommands ∧ s.run.state = .paused ∧ s.run.pauseCause ≠ .interlock ∧ s.run.waiting = .owner) ∧
      (pausedIn .insul Sweep.reset base.hv).run.isInsul = true ∧
      (pausedIn .cont measuring.sweep base.hv).run.isInsul = false ∧ (0 : Nat) ≠ measuring.sweep.lastNet ∧
      measuring.sweep.netDone = false ∧ measuring.sweep.nextPosition = some 2 ∧
      ({ measuring.sweep with kind := some .leadcal } : Sweep).nextPosition = some 2 ∧
      ({ measuring.sweep with memberCursor := some 3 } : Sweep).nextPosition = none ∧
      (pausedIn .cont measuring.sweep base.hv).alive (measuring.sweep.fixedModule.getD 0) = true := by
  unfold State.takesCommands State.hearsTrunk; decide +kernel
theorem witness_ResumeStartsRamp :
    ({ atInterlock true with mc := { Measure.reset with state := .msrWait } } : State).mc.state ≠ .idle ∧
      (atInterlock true).mc.state = .idle ∧
    (atInterlock true).takesCommands ∧ (atInterlock true).run.state = .paused ∧
      (atInterlock true).run.pauseCause = .interlock ∧ (atInterlock true).pins.interlockClosed = true ∧
      (atInterlock true).hv.state = .safe ∧ (atInterlock true).seq.state = .idle ∧
      (atInterlock false).takesCommands ∧ (atInterlock false).pins.interlockClosed = false :=
  ⟨by decide, rfl, takes_atInterlock _, rfl, rfl, rfl, rfl, rfl, takes_atInterlock _, rfl⟩
theorem witness_AbortBegins :
    (running .running).takesCommands ∧ (running .running).hv.state = .safe ∧ (live .dwell).takesCommands ∧
      (live .dwell).run.state = .running ∧ (live .dwell).hv.state = .dwell ∧ (running .aborting).takesCommands ∧
      (running .aborting).run.state = .aborting ∧ base.takesCommands ∧ base.run.state = .idle :=
  ⟨takes_running _, rfl, takes_live _, rfl, rfl, takes_running _, rfl, takes_base, rfl⟩
theorem witness_AbortBegins_home :
    homing.takesCommands ∧ homing.run.state = .running ∧ homing.hv.state = .safe ∧ homing.seq.state = .homing ∧
      (running .running).seq.state ≠ .homing ∧
      ({ running .paused with seq := (verifying [sentTx]).seq } : State).run.state = .paused ∧
      ({ running .paused with seq := (verifying [sentTx]).seq } : State).takesCommands ∧
      ({ running .paused with seq := (verifying [sentTx]).seq } : State).hv.state = .safe ∧
      ({ running .paused with seq := (verifying [sentTx]).seq } : State).seq.state ≠ .homing :=
  ⟨takes_base, rfl, rfl, rfl, by decide, rfl, takes_base, rfl, by decide⟩

/-- A CONT step over net 0. -/
def contStep : List Byte := [0, 0, 0, 0, 1, 0, 0, 0, 0, 0, 0, 0]

/-- The read of the CONT step 0 in progress. -/
def stepRead : State :=
  withAccess
    (withRecord { running .running with run := { (running .running).run with waiting := .stepRead 0 } } .steps 0
      contStep)
    { kind := .steps, index := 0, write := none, owner := .runRead }

theorem witness_ContinuityStepStarts :
    stepRead.rst.held = false ∧ stepRead.rst.phase ≠ .ready ∧ stepRead.run.waiting = .stepRead 0 ∧
      stepRead.port.queue = [readFor .steps 0 .runRead] ∧ stepRead.mem.record .steps 0 = some contStep ∧
      [0, 1, 2, 3, 4, 5].map (fun k : Byte => (decodeStep (k :: contStep.drop 1)).kind) =
        [.cont, .iso, .insul, .leadcal, .mark, .endStep] ∧
      0 + 1 < stepRead.bound .steps ∧ stepRead.run.pauseReq = false ∧ stepRead.print.state = .off ∧
      (stepRead.mem.upset 196608).record .steps 0 = none ∧ stepRead.run.state = .running ∧
      stepRead.fault.valid = false := by decide +kernel

/-- An ISO step at net 0, with these reads of a scan behind it. -/
def isolating (w : Sweep) : State :=
  { running .running with
    sweep := { w with state := .reading, kind := some .iso, netCursor := some 0, lastNet := 1 } }

/-- A scan of a net of two members, at a position. -/
def scanAt (purpose : ScanFor) (net pos : Nat) : Scan :=
  { purpose, net, record := { NetRec.zero with first := 2, count := 2 }, pos, points := [] }

/-- The point record of a scan read, on module 1 or on module 2, which is not Alive. -/
def scanRead (w : Sweep) (alive : Bool) : State :=
  withAccess
    (withRecord (isolating { w with reading := .scanPoint 3 }) .points 3
      (if alive then pointBytes else 2 :: pointBytes.drop 1))
    (readFor .points 3 .sweepRead)

/-- An entry of the correlation work list: point 3 of net 0, against net 1. -/
def entry : WorkEntry := { point := 3, own := 0, other := 1, contSet := 0 }

theorem witness_ContinuityStepStarts_scan :
    (scanRead Sweep.reset true).rst.held = false ∧ (3 : Nat) < TableKind.points.capacity ∧
      (scanRead Sweep.reset true).mem.record .points 3 = some pointBytes ∧
      (scanRead Sweep.reset true).alive (decodePoint pointBytes).module = true ∧
      (scanRead Sweep.reset false).alive (decodePoint (2 :: pointBytes.drop 1)).module = false ∧
      (∀ purpose ∈ ([.startK, .candidate, .groupK, .groupNet, .entryOther] : List ScanFor),
        (scanAt purpose 0 0).pos + 1 < (scanAt purpose 0 0).record.count ∧
          (scanAt purpose 0 1).record.count ≤ (scanAt purpose 0 1).pos + 1) ∧
      (scanAt .candidate 0 1).net + 1 < (scanRead Sweep.reset true).bound .nets ∧
      (scanRead Sweep.reset true).bound .nets ≤ (scanAt .candidate 1 1).net + 1 ∧
      (scanRead { Sweep.reset with groupTodo := [1] } true).sweep.groupTodo = [1] ∧
      (scanRead { Sweep.reset with stack := [{ start := 0, length := 1 }] } false).sweep.stack =
        [{ start := 0, length := 1 }] ∧
      (scanRead { Sweep.reset with work := [entry, entry] } false).sweep.work[0 + 1]? = some entry ∧
      (0 : Nat) ≠ (scanRead Sweep.reset false).sweep.lastNet ∧ (scanRead Sweep.reset false).print.state = .off ∧
      (scanRead Sweep.reset false).run.stopArmed = false ∧ (scanRead Sweep.reset false).run.pauseReq = false ∧
      (scanRead Sweep.reset false).run.stopsOnDefect = false ∧
      (scanRead Sweep.reset false).run.summary.defects + 1 < (scanRead Sweep.reset false).limits.timing.defectLimit ∧
      (scanRead Sweep.reset false).defects = [] := by decide +kernel
theorem witness_ContinuityStepStarts_configures : (scanRead { Sweep.reset with busA := [3] } true).configures 3 := by
  unfold State.configures; decide +kernel

/-- A member position of the work list read, point 3 standing there. -/
def workRead (w : Sweep) : State :=
  withAccess (withRecord (isolating { w with reading := .scanMember }) .members 2 [0, 3]) (readFor .members 2 .sweepRead)

theorem witness_ContinuityStepStarts_work :
    (workRead Sweep.reset).rst.held = false ∧ (2 : Nat) < TableKind.members.capacity ∧
      (workRead Sweep.reset).mem.record .members 2 = some [0, 3] ∧
      (scanAt .workK 0 0).pos + 1 < (scanAt .workK 0 0).record.count ∧
      (scanAt .workG 1 1).record.count ≤ (scanAt .workG 1 1).pos + 1 ∧ [entry].head? = some entry ∧
      8 ≤ (List.replicate 8 entry).length ∧ (List.replicate 8 entry).head? = some entry ∧
      (isolating { Sweep.reset with work := [entry, entry], reading := .entryAnchor }).sweep.work[0]? = some entry ∧
      (scanRead { Sweep.reset with work := [entry, entry] } false).mem.record .points entry.point =
        some (2 :: pointBytes.drop 1) := by decide +kernel

/-- The last member of net g read for the work list, no record being OPEN, over this stack. -/
def workListEmpty (stack : List Group) : State := workRead { Sweep.reset with scan := scanAt .workG 1 1, stack }

theorem witness_ContinuityStepStarts_workListEmpty :
    ∀ stack ∈ ([[], [{ start := 0, length := 1 }]] : List (List Group)),
      (workListEmpty stack).accessing (readFor .members 2 .sweepRead) [] ∧
        (workListEmpty stack).mem.record .members 2 = some [0, 3] ∧ (workListEmpty stack).sweep.reading = .scanMember ∧
        (workListEmpty stack).sweep.scan.purpose = .workG ∧
        (workListEmpty stack).sweep.scan.record.count ≤ (workListEmpty stack).sweep.scan.pos + 1 ∧
        (workListEmpty stack).defects = [] ∧ (workListEmpty stack).sweep.work = [] ∧
        (workListEmpty stack).sweep.kind = some .iso ∧
        (workListEmpty stack).sweep.shortCount < (workListEmpty stack).limits.iso.shortCap ∧
        (workListEmpty stack).runGoesOn ∧ (workListEmpty stack).sweep.stack = stack ∧
        (workListEmpty stack).sweep.netCursor = some 0 ∧ (0 : Nat) ≠ (workListEmpty stack).sweep.lastNet := by
  unfold State.accessing State.runGoesOn; decide +kernel

/-- A read of the Sweep Engine with these bytes, in a CONT or LEADCAL net of four members from position 4. -/
def visiting (kind : SweepKind) (reading : SweepRead) (w : Sweep) (read : TableKind × Nat) (bytes : List Byte) : State :=
  withAccess
    (withRecord
      { running .running with
        sweep :=
          { w with
            state := .reading, kind := some kind, reading, netCursor := some 0, lastNet := 1
            fixedModule := if reading = .refPoint then none else some 1
            net := { NetRec.zero with first := 4, count := 4 } } }
      read.1 read.2 bytes)
    (readFor read.1 read.2 .sweepRead)

/-- The net records of a WIRED net of four members from position 4, and of a net of one member. -/
def netBytes : List (List Byte) := [[0, 4, 0, 4, 0, 0, 0xFF, 0, 0xFF, 0xFF], [0, 4, 0, 1, 0, 0, 0xFF, 0, 0xFF, 0xFF]]

theorem witness_ContinuityStepStarts_visits :
    (∀ x ∈ ([(.net, (.nets, 0), netBytes.getD 0 []), (.net, (.nets, 0), netBytes.getD 1 []),
        (.refPoint, (.points, 3), pointBytes), (.refPoint, (.points, 3), 2 :: pointBytes.drop 1), (.anchorPos, (.members, 4), [0, 3]), (.anchorPoint, (.points, 3), pointBytes),
        (.anchorPoint, (.points, 3), 2 :: pointBytes.drop 1), (.memberPos, (.members, 5), [0, 3]),
        (.memberPoint, (.points, 3), pointBytes), (.memberPoint, (.points, 3), 2 :: pointBytes.drop 1)] :
          List (SweepRead × (TableKind × Nat) × List Byte)),
      ∀ kind ∈ ([.cont, .leadcal] : List SweepKind),
        (visiting kind x.1 Sweep.reset x.2.1 x.2.2).accessing (readFor x.2.1.1 x.2.1.2 .sweepRead) [] ∧
          (visiting kind x.1 Sweep.reset x.2.1 x.2.2).mem.record x.2.1.1 x.2.1.2 = some x.2.2 ∧
          (visiting kind x.1 Sweep.reset x.2.1 x.2.2).alive 1 = true ∧
          (visiting kind x.1 Sweep.reset x.2.1 x.2.2).alive 2 = false ∧
          (visiting kind x.1 Sweep.reset x.2.1 x.2.2).run.stopsOnDefect = false ∧
          (visiting kind x.1 Sweep.reset x.2.1 x.2.2).print.state = .off ∧
          (visiting kind x.1 Sweep.reset x.2.1 x.2.2).run.summary.defects + 1 <
            (visiting kind x.1 Sweep.reset x.2.1 x.2.2).limits.timing.defectLimit ∧
          (visiting kind x.1 Sweep.reset x.2.1 x.2.2).defects = []) ∧
      (decodeNet (netBytes.getD 0 [])).count = 4 ∧ (decodeNet (netBytes.getD 0 [])).kind ≠ .spare ∧
      (decodeNet (netBytes.getD 1 [])).count = 1 ∧ (decodePoint pointBytes).module = 1 ∧
      (decodePoint (2 :: pointBytes.drop 1)).module = 2 ∧ Sweep.reset.memberCursor = none ∧ Sweep.reset.netDone = false ∧
      (visiting .cont .anchorPoint Sweep.reset (.points, 3) pointBytes).sweep.nextPosition = some 1 ∧
      (visiting .leadcal .refPoint Sweep.reset (.points, 3) pointBytes).sweep.nextPosition = some 0 ∧
      (visiting .leadcal .net Sweep.reset (.nets, 0) (netBytes.getD 0 [])).sweep.fixedModule = some 1 ∧
      (visiting .leadcal .memberPos { Sweep.reset with fixedPoint := some 3, memberCursor := some 0 } (.members, 4)
        [0, 3]).sweep.nextPosition = some 1 := by
  unfold State.accessing; decide +kernel
/-- The first net record of a LEADCAL step with reference point 3 read, the reference being on module 1 or on a module that
is not Alive. -/
def firstNetRead (fixed : Option Nat) : State :=
  withAccess
    (withRecord
      { running .running with
        sweep :=
          { Sweep.reset with
            state := .reading, kind := some .leadcal, reading := .net, netCursor := some 0, lastNet := 1
            fixedPoint := some 3, fixedModule := fixed } }
      .nets 0 (netBytes.getD 0 []))
    (readFor .nets 0 .sweepRead)

theorem witness_ContinuityStepStarts_reference :
    (∀ fixed ∈ ([none, some 1, some 2] : List (Option Nat)),
      (firstNetRead fixed).accessing (readFor .nets 0 .sweepRead) [] ∧
        (firstNetRead fixed).mem.record .nets 0 = some (netBytes.getD 0 []) ∧
        (firstNetRead fixed).sweep.fixedModule = fixed ∧ (firstNetRead fixed).sweep.fixedPoint = some 3 ∧
        (firstNetRead fixed).sweep.memberCursor = none ∧ 0 < (decodeNet (netBytes.getD 0 [])).count) ∧
      (firstNetRead (some 1)).alive 1 = true ∧ (firstNetRead (some 2)).alive 2 = false := by
  unfold State.accessing; decide +kernel
/-- A LEADCAL step reads its first net record, then its reference point, then the first member position (R96). -/
theorem test_leadcal_reads :
    after (.tableAccessComplete none false)
        (withRecord stepRead .steps 0 [3, 0, 0, 0, 1, 0, 0, 0, 3, 0, 0, 0])
        (fun t => t.sweep.kind = some .leadcal && t.port.queue.drop 1 = [readFor .nets 0 .sweepRead]) = true ∧
      after (.tableAccessComplete none false) (firstNetRead none)
        (fun t => t.port.queue = [readFor .points 3 .sweepRead]) = true ∧
      after (.tableAccessComplete none false) (visiting .leadcal .refPoint Sweep.reset (.points, 3) pointBytes)
        (fun t => t.sweep.fixedModule = some 1 && t.port.queue = [readFor .members 4 .sweepRead]) = true := by
  decide +kernel
theorem witness_ContinuityStepStarts_visits_configure :
    (visiting .cont .memberPoint { Sweep.reset with fixedPoint := some 0, visitedPoint := some 3 } (.points, 3)
      pointBytes).configures 0 := by
  unfold State.configures; decide +kernel

/-- A read of the HV Controller with these bytes, net 0 of nets 0 and 1 being under test. -/
def insulating (work : HvWork) (pairs : List (Nat × Bus)) (read : TableKind × Nat) (bytes : List Byte) : State :=
  withAccess (withRecord { running .running with hv := { base.hv with net := some 0, lastNet := 1, work, pairs } } read.1
    read.2 bytes) (readFor read.1 read.2 .hvRead)

theorem witness_ContinuityStepStarts_insulation :
    (∀ x ∈ ([(.readingNet, (.nets, 0), netBytes.getD 0 []),
        (.readingNet, (.nets, 0), [0, 4, 0, 4, 0, 0, 2, 0, 0xFF, 0xFF]), (.readingMap 0, (.points, 0), pointBytes),
        (.readingMap 3, (.points, 3), pointBytes)] : List (HvWork × (TableKind × Nat) × List Byte)),
      (insulating x.1 [] x.2.1 x.2.2).accessing (readFor x.2.1.1 x.2.1.2 .hvRead) [] ∧
        (insulating x.1 [] x.2.1 x.2.2).mem.record x.2.1.1 x.2.1.2 = some x.2.2) ∧
      (decodeNet (netBytes.getD 0 [])).insulClass = none ∧
      (decodeNet [0, 4, 0, 4, 0, 0, 2, 0, 0xFF, 0xFF]).insulClass = some 2 ∧
      (∀ a ∈ (insulating .readingNet [] (.nets, 0) []).modules, (insulating .readingNet [] (.nets, 0) []).alive a = true) ∧
      ({ insulating .readingNet [] (.nets, 0) [] with sup :=
          { tabled.sup with nodes := tabled.sup.nodes.set 0 (Node.cleared 4) } } : State).modules = [1] ∧
      ({ insulating .readingNet [] (.nets, 0) [] with sup :=
          { tabled.sup with nodes := tabled.sup.nodes.set 0 (Node.cleared 4) } } : State).alive 1 = false ∧
      (insulating (.readingMap 0) [] (.points, 0) pointBytes).bound .points = 4 ∧
      (decodePoint pointBytes).net = some 0 := by
  unfold State.accessing; decide +kernel
theorem witness_ContinuityStepStarts_insulation_configures :
    (insulating (.readingMap 3) [(2, .b)] (.points, 3) pointBytes).configures 2 := by
  unfold State.configures; decide +kernel

theorem witness_DefectCommands :
    sending.takesCommands ∧ (65535 : Nat) < 65536 ∧ sending.listSound ∧ sending.run.slot = none ∧
      ([0] : List Byte).length ≠ 2 :=
  ⟨takes_sending, by decide, by unfold State.listSound; decide +kernel, rfl, by decide⟩

/-- A record of net 9 held in the pending-insert slot, with one record in the list. -/
def held (st : RunState) : State :=
  { running st with
    defects := [record 1 .opn]
    sweep :=
      { measuring.sweep with
        state := .inserting, after := .boundary, results := [{ key := (record 9 .highR).key, value := some 6, lowv := false }] }
    run :=
      { (running st).run with
        slot := some { key := (record 9 .highR).key, value := some 6, lowv := false }
        summary := { Summary.cleared with defects := 1 } } }

theorem witness_DefectCommands_held :
    ∀ st ∈ ([.running, .stalled] : List RunState),
      (held st).takesCommands ∧ (held st).listSound ∧ (held st).print.state = .off ∧
        (held st).run.slot.isSome = true ∧ (∀ d ∈ (held st).defects, d.key ≠ (record 9 .highR).key) ∧
        (held st).run.summary.defects + 1 < (held st).limits.timing.defectLimit ∧
        (∃ d ∈ (held st).defects, (d.seq ≤ 1 && !d.provisional && !d.retired) = true) ∧
        (held st).run.isInsul = false ∧ (held st).sweep.kind = some .cont ∧ (held st).sweep.netDone = false ∧
        (held st).alive ((held st).sweep.fixedModule.getD 0) = true ∧ (held st).run.stopsOnDefect = false ∧
        (held st).sweep.nextPosition = some 2 := by
  unfold State.takesCommands State.hearsTrunk State.listSound; decide +kernel

/-- PRINTER-FAULT pending and masked. -/
def masked : State := { base with events := { pending := 8, mask := 0xFFF } }

theorem witness_EventCommands :
    masked.takesCommands ∧ masked.events.pending &&& masked.events.mask &&& ~~~(8#12) = 0 ∧
      masked.events.pending &&& masked.events.mask &&& ~~~(0#12) ≠ 0 ∧ 4095 < beNat [0x10, 0] ∧
      ([0x10, 0, 0] : List Byte).length ≠ 2 :=
  ⟨⟨⟨rfl, rfl, by decide⟩, rfl⟩, by decide, by decide, by decide, by decide⟩

/-- The Print Engine in a state, buffer 1 holding the line of record 1 in a state, and buffer 0 in another. -/
def lined (st : PrintState) (b0 b1 : BufState) : State :=
  { printing st with
    defects := [record 1 .highR]
    print :=
      { (printing st).print with
        buf0 := if b0 = .empty then Buffer.empty else { state := b0, content := some .header, text := [0x0D, 0x0A] }
        buf1 := { state := b1, content := some (.record 1), text := [0x41, 0x0D, 0x0A] } } }

theorem nothing_lined (st : PrintState) (b0 b1 : BufState) (h : b1 ≠ .empty) : (lined st b0 b1).nothingToSelect := by
  unfold State.nothingToSelect; revert h; cases st <;> cases b0 <;> cases b1 <;> decide +kernel
theorem takes_lined (st : PrintState) (b0 b1 : BufState) : (lined st b0 b1).takesCommands := by
  unfold State.takesCommands State.hearsTrunk; cases st <;> cases b0 <;> cases b1 <;> decide +kernel

theorem witness_PrintCommands :
    (∀ st, (lined st .empty .ready).takesCommands ∧ (lined st .empty .ready).nothingToSelect ∧
      (lined st .empty .ready).print.state = st) ∧
      (∀ b0 b1, b1 ≠ .empty → (lined .held b0 b1).takesCommands ∧ (lined .held b0 b1).nothingToSelect) ∧
      (lined .held .empty .ready).print.bufferIn .ready = some true ∧
      (lined .held .ready .formatting).print.bufferIn .ready = some false ∧
      (lined .held .empty .formatting).print.bufferIn .ready = none ∧
      (lined .held .empty .formatting).print.bufferIn .formatting = some true ∧
      (lined .faulted .empty .sending).print.bufferIn .sending = some true ∧
      (printing .held).print.bufferIn .ready = none ∧ (printing .held).print.bufferIn .formatting = none ∧
      (printing .held).nothingToSelect ∧ (printing .held).print.bufferIn .sending = none ∧
      (printing .held).listSound ∧ (printing .held).run.slot = none :=
  ⟨fun st => ⟨takes_lined st _ _, nothing_lined st _ _ (by decide), by cases st <;> rfl⟩,
    fun b0 b1 h => ⟨takes_lined _ b0 b1, nothing_lined _ b0 b1 h⟩, rfl, rfl, rfl, rfl, rfl, rfl, rfl,
    by unfold State.nothingToSelect; decide +kernel, rfl, by unfold State.listSound; decide +kernel, rfl⟩

/-- Record 1 to be printed, printing OFF, or in SEND with record 2 on its way and the disable request set. -/
def toPrint (send : Bool) : State :=
  { tabled with
    defects := if send then [record 2 .highR, record 1 .highR] else [record 1 .highR]
    print :=
      if send then
        { Print.reset with
          state := .send, disableReq := true
          buf0 := { state := .sending, content := some (.record 2), text := [0x41, 0x0D, 0x0A] } }
      else Print.reset }

theorem witness_PrintCommands_work :
    ∀ send : Bool, (toPrint send).takesCommands ∧ (toPrint send).print.summaryDue = false ∧
      (toPrint send).print.header = none ∧ (toPrint send).print.bufferIn .formatting = none ∧
      (toPrint send).print.bufferIn .empty = some send ∧
      (toPrint send).defects.find? (fun x =>
        x.printable && decide (((toPrint send).print.buffer !send).content ≠ some (.record x.seq))) =
          some (record 1 .highR) ∧
      (record 1 .highR).explained = false ∧ (record 1 .highR).key.netA < (toPrint send).bound .nets := by
  unfold State.takesCommands State.hearsTrunk; decide +kernel

/-- The Print Engine in a state, the summary block due or not, with a header pending or none, and these records. -/
def choosing (st : PrintState) (due : Bool) (header : Option Nat) (ds : List Defect) : State :=
  { tabled with
    defects := ds
    run := { tabled.run with summary := { Summary.cleared with defects := 3 } }
    print :=
      { Print.reset with
        state := st, header, summaryDue := due, summaryLeft := if due then 4 else 0
        summary := if due then some (.complete, 0, 4) else none } }

/-- An EXPLAINED SHORT to be passed over, RETIRED or not. -/
def explained (retired : Bool) : Defect := { record 1 .short with explained := true, retired }

/-- The Print Engine in HELD with the header line FORMATTING in buffer 0. -/
def formattingHeld : Print :=
  { Print.reset with state := .held, buf0 := { state := .formatting, content := some .header, text := headerLine 7 } }

theorem witness_PrintCommands_selects :
    (∀ st ∈ ([.off, .held] : List PrintState),
      (choosing st true none []).takesCommands ∧ (choosing st true none []).summaryNext ∧
        (choosing st false (some 7) []).takesCommands ∧ ¬(choosing st false (some 7) []).summaryNext ∧
        (choosing st false none [record 1 .leak]).takesCommands ∧
        ¬(choosing st false none [record 1 .leak]).summaryNext ∧
        (choosing st true none [record 1 .leak]).summaryNext = False ∧
        (choosing st false none []).print.bufferIn .empty = some false ∧
        (choosing st false none []).print.bufferIn .sending = none ∧
        (choosing st false none []).print.bufferIn .ready = none ∧
        (choosing st false none []).print.bufferIn .formatting = none) ∧
      (let s := { choosing .held true none [explained true] with print := formattingHeld }
       s.takesCommands ∧ s.print.state = .held ∧ s.print.bufferIn .sending = none ∧ s.print.bufferIn .ready = none ∧
         s.print.bufferIn .formatting = some false ∧ s.print.bufferIn .empty = some true) ∧
      (∀ retired : Bool, (choosing .off false none [explained retired]).listSound ∧
        (explained retired).printable = true ∧ (explained retired).key.kind = .short) ∧
      (record 1 .leak).printable = true ∧ (record 1 .leak).key.netA < (choosing .off false none []).bound .nets := by
  unfold State.takesCommands State.hearsTrunk State.summaryNext State.listSound
  refine ⟨?_, by decide +kernel, ?_, ?_⟩
  · intro st h
    rcases List.mem_pair.1 h with rfl | rfl <;>
      refine ⟨by decide +kernel, ⟨rfl, by decide +kernel, ?_⟩, by decide +kernel, fun h => absurd h.1 (by decide), by decide +kernel,
        fun h => absurd h.1 (by decide), eq_false fun h => absurd (h.2.1 _ (List.mem_singleton.2 rfl)) (by decide),
        rfl, rfl, rfl, rfl⟩ <;> intro second n <;> cases second <;> simp [choosing, Print.buffer, Print.reset, Buffer.empty]
  · decide +kernel
  · decide +kernel
theorem test_print_enable_summary :
    after (.printEnable 7 []) (choosing .off true none []) (fun t =>
      t.print.buf0.text = ascii ['R', 'E', 'S', 'U', 'L', 'T', ' ', 'C', 'O', 'M', 'P', 'L', 'E', 'T', 'E'] ++ crlf &&
        t.print.state = .format && t.print.buf0.state = .formatting && t.arith.waiting = [.format] &&
        t.print.buf1.state = .empty && t.print.summaryLeft = 3) = true := by decide +kernel
/-- While a line is FORMATTING in the other buffer, an EXPLAINED SHORT is passed over and no line begins (R152, R154). -/
theorem test_pass_over_in_format :
    after (.printGo 7 [] false)
      { choosing .held false none [explained true, record 2 .leak] with print := formattingHeld } (fun t =>
      t.print.state = .format && t.defects = [record 2 .leak] && t.print.buf1 = Buffer.empty) = true := by decide +kernel
theorem test_print_go_record :
    after (.printGo 7 [] false) (choosing .held false none [record 1 .leak]) (fun t =>
      t.print.state = .format && t.print.buf0.content = some (.record 1) &&
        t.port.queue = [readFor .nets 1 .print]) = true := by decide +kernel

/-- HELD with a retired record in the list and one in the pending-insert slot. -/
def retiredHeld : State :=
  { held .running with
    defects := [{ record 1 .opn with retired := true }], print := { Print.reset with state := .held } }

theorem witness_PrintCommands_slot :
    retiredHeld.takesCommands ∧ retiredHeld.listSound ∧ retiredHeld.run.slot.isSome = true ∧
      (∃ d ∈ retiredHeld.defects, d.retired = true) ∧ retiredHeld.run.state = .running ∧
      (∀ d ∈ retiredHeld.defects, d.key ≠ (record 9 .highR).key) ∧
      retiredHeld.run.summary.defects < retiredHeld.limits.timing.defectLimit := by
  unfold State.takesCommands State.hearsTrunk State.listSound; decide +kernel

/-- Sending the last character of the line of record 1, a hold requested. -/
def lastCharacter : State :=
  { sending with
    events := { pending := 0, mask := 0 }, print := { sending.print with sendPos := 2, holdReq := true } }

theorem witness_PrintPort :
    sending.rst.held = false ∧ (printing .send).rst.held = false ∧
      ({ sending with print := { sending.print with busyTimer := some 10, char := none } } :
        State).print.busyTimer.isSome = true ∧ sending.print.disableReq = false ∧
      lastCharacter.events.isPending .printerFault = false ∧ lastCharacter.events.isMasked .printerFault = false ∧
      sending.print.char = some (characterAt 3 [0x41] 0) ∧ sending.print.busyTimer = none ∧ sending.print.bufferIn .sending = some false ∧
      sending.print.sendPos + 2 < (sending.print.buffer false).text.length ∧
      (lastCharacter.print.buffer false).text.length ≤ lastCharacter.print.sendPos + 1 ∧
      (lastCharacter.print.buffer false).content = some (.record 1) ∧ lastCharacter.print.holdReq = true ∧
      ∀ d ∈ lastCharacter.defects, d.seq = 1 → d.provisional = false ∧ d.retired = false := by decide +kernel

/-- Sending the last character of the line in buffer 0, with buffer 1 in a state. -/
def lineOver (content : LineContent) (other : BufState) (disable hold : Bool) : State :=
  { sending with
    defects := [{ record 1 .highR with retired := true }]
    print :=
      { sending.print with
        sendPos := 2, disableReq := disable, holdReq := hold
        buf0 := { sending.print.buf0 with content := some content }
        buf1 :=
          if other = .empty then Buffer.empty else { state := other, content := some .header, text := [0x41, 0x0D, 0x0A] } } }

theorem witness_PrintPort_lineEnd :
    ∀ content ∈ ([.record 1, .summary] : List LineContent), ∀ other ∈ ([.empty, .ready, .formatting] : List BufState),
      ∀ disable hold : Bool,
        (lineOver content other disable hold).print.char.isSome = true ∧
          (lineOver content other disable hold).print.bufferIn .sending = some false ∧
          (lineOver content other disable hold).rst.held = false ∧ (lineOver content other disable hold).run.slot = none ∧
          (lineOver content other disable hold).listSound ∧
          ∀ d ∈ (lineOver content other disable hold).defects, d.provisional = false := by
  unfold State.listSound; decide +kernel
/-- The BUSY timer runs within the line of record 1, the disable request is set, and another record is RETIRED. -/
def busyToOff (slot : Option Insert) (retired : Bool) : State :=
  { sending with
    events := { pending := 0, mask := 0 }, defects := [record 1 .highR, { record 2 .leak with retired }]
    run := { sending.run with slot, summary := { Summary.cleared with defects := 2 } }
    print := { sending.print with busyTimer := some 10, char := none, disableReq := true } }
theorem witness_PrintPort_disableAtTimeout :
    ∀ x ∈ ([(none, true), (some { key := (record 3 .leak).key, value := some 1, lowv := false }, false)] :
        List (Option Insert × Bool)),
      (busyToOff x.1 x.2).rst.held = false ∧ (busyToOff x.1 x.2).print.busyTimer.isSome = true ∧
        (busyToOff x.1 x.2).print.disableReq = true ∧ (busyToOff x.1 x.2).listSound ∧
        ((busyToOff x.1 x.2).run.slot = none ∨ ∀ d ∈ (busyToOff x.1 x.2).defects, d.retired = false) ∧
        (busyToOff x.1 x.2).events.isPending .printerFault = false ∧
        (busyToOff x.1 x.2).events.isMasked .printerFault = false := by
  unfold State.listSound; decide +kernel
theorem test_busy_timeout_disable :
    after .busyTimeout (busyToOff none true) (fun t =>
      t.print.state = .off && t.print.buf0 = Buffer.empty && t.defects = [record 1 .highR] &&
        t.events.isPending .printerFault) = true := by decide +kernel
theorem test_line_end_other_ready :
    after (.printCharacterSent true) (lineOver (.record 1) .ready false false) (fun t =>
      t.print.state = .send && t.print.buf1.state = .sending && t.print.buf0 = Buffer.empty && t.defects = [] &&
        t.print.busyTimer = some t.limits.timing.busy) = true := by decide +kernel

/-- The line of a record being formatted in buffer 0, with the read of its stage, and these bytes. -/
def formatting (d : Defect) (stage : FmtStage) (read : TableKind × Nat) (bytes : List Byte) : State :=
  withAccess
    (withRecord
      { tabled with
        defects := [d]
        print :=
          { Print.reset with
            state := .format, buf0 := { state := .formatting, content := some (.record 1), text := [] }
            fmt := some { second := false, defect := d, stage, nameA := List.replicate 16 0x41, nameB := [] } } }
      read.1 read.2 bytes)
    (readFor read.1 read.2 .print)

/-- A SHORT between nets 0 and 1, or a net past the tables, with a value or none. -/
def shortOf (other : Nat) (value : Option Nat) : Defect :=
  { record 1 .short with value, key := { kind := .short, netA := 0, point := none, netB := some other } }

/-- A net record whose name index is 0, past the names, or NONE. -/
def named (index : Nat) : List Byte := [0, 0, 0, 2, 0, 0, 0xFF, 0] ++ be16 index

theorem witness_PrintPort_formatting :
    (∀ d ∈ [record 1 .leak, { record 1 .leak with value := none }, shortOf 1 (some 5), shortOf 2 none],
      ∀ x ∈ ([(.netA, (.nets, 0), named 0), (.netA, (.nets, 0), named 1), (.netB, (.nets, 1), named 0xFFFF),
          (.nameA, (.names, 0), List.replicate 16 0x7F), (.nameB, (.names, 0), List.replicate 16 0x42)] :
            List (FmtStage × (TableKind × Nat) × List Byte)),
        (formatting d x.1 x.2.1 x.2.2).accessing (readFor x.2.1.1 x.2.1.2 .print) [] ∧
          (formatting d x.1 x.2.1 x.2.2).mem.record x.2.1.1 x.2.1.2 = some x.2.2 ∧
          (formatting d x.1 x.2.1 x.2.2).print.fmt.isSome = true ∧
          (formatting d x.1 x.2.1 x.2.2).print.bufferIn .sending = none) ∧
      (decodeNet (named 0)).name = some 0 ∧ (decodeNet (named 1)).name = some 1 ∧
      (decodeNet (named 0xFFFF)).name = none ∧ tabled.bound .names = 1 ∧ tabled.bound .nets = 2 ∧
      ((formatting (record 1 .leak) .netA (.nets, 0) (named 0)).mem.upset (recordAddress .nets 0)).record .nets 0 =
        none ∧
      ({ job := none, waiting := [.format] } : Arith).waiting = .format :: [] := by
  unfold State.accessing; decide +kernel
theorem test_format_name :
    after (.tableAccessComplete none false)
      (formatting (shortOf 2 none) .nameA (.names, 0) (0x1F :: List.replicate 15 0x42)) (fun t =>
      t.print.state = .send &&
        t.print.buf0.text =
          digits 5 1 ++ [0x20] ++ ascii ['S', 'H', 'O', 'R', 'T'] ++ spaces 4 ++
            (0x3F :: List.replicate 15 0x42) ++ spaces 7 ++ indexForm 2 ++ spaces 17 ++ crlf) = true := by decide +kernel
/-- A header line FORMATTING in a buffer, its format operation waiting or in service. -/
def textFormatting (st : PrintState) (second served : Bool) : State :=
  { tabled with
    print := (Print.onBuffer { Print.reset with state := st } second fun _ =>
      { state := .formatting, content := some .header, text := headerLine 7 })
    arith :=
      if served then { job := some { op := .format [], live := true }, waiting := [] }
      else { job := none, waiting := [.format] } }
theorem witness_PrintPort_text :
    ∀ st ∈ ([.format, .held, .faulted] : List PrintState), ∀ second served : Bool,
      (textFormatting st second served).rst.held = false ∧ (textFormatting st second served).print.fmt = none ∧
        (textFormatting st second served).print.bufferIn .formatting = some second ∧
        (textFormatting st second served).print.bufferIn .sending = none ∧
        (textFormatting st second served).arith.job.isSome = served := by decide +kernel
/-- A line that is complete in FORMAT begins to be sent, and in HELD it waits as READY (R153, R162). -/
theorem test_header_line_complete :
    (after (.arithmeticOperationEnd true) (textFormatting .format true true) (fun t =>
        t.print.state = .send && t.print.buf1 = { state := .sending, content := some .header, text := headerLine 7 } &&
          t.print.busyTimer = some 10) &&
      after (.arithmeticOperationEnd true) (textFormatting .held true true) (fun t =>
        t.print.state = .held && t.print.buf1.state = .ready)) = true := by decide +kernel
theorem test_format_value :
    after (.arithmeticOperationEnd false)
      { formatting (record 1 .leak) .value (.nets, 0) [] with
        arith := { job := some { op := .format (ascii ['5', 'M']), live := true }, waiting := [] } } (fun t =>
      t.print.state = .send && t.print.fmt.isNone && ((t.print.buf0.text.drop 67).take 2 = ascii ['5', 'M'])) = true := by
  decide +kernel

theorem witness_ResetsLeave :
    (withAccess base lastWrite).port.queue = [lastWrite] ∧ lastWrite.write = some (0, [0, 1]) ∧
      base.rst.phase ≠ .ready ∧
      ({ tabled with rst := { tabled.rst with phase := .ready } } : State).rst.phase = .ready := by decide +kernel

/-- A frame of the chip at the head of the trunk transmit queue, with a notice held or not. -/
def trunkWith (kind : TrunkKind) (held : Bool) : State :=
  { base with trunk :=
      { queue := [{ frame := replyFrame 7 0x22 .ok [], kind }, { frame := replyFrame 8 0x17 .ok [], kind := .reply }]
        begun := true, held } }

theorem witness_TrunkSends :
    base.hearsTrunk ∧ (trunkWith .reply false).rst.held = false ∧
      (∃ e rest, (trunkWith .reply false).trunk.queue = e :: rest ∧ e.kind ≠ .resetReply) ∧
      (trunkWith .reply false).trunk.held = false ∧
      (∃ e rest, (trunkWith .resetReply false).trunk.queue = e :: rest ∧ e.kind = .resetReply) ∧
      (trunkWith .reply true).trunk.held = true ∧
      (∀ kind ∈ ([.reply, .resetReply] : List TrunkKind),
        ∃ e rest, (trunkWith kind true).trunk.queue = e :: rest ∧ e.kind = kind ∧
          rest.all (fun x => x.kind ≠ .notice) = true ∧ rest.length + (trunkWith kind true).repliesOwed < 8) ∧
      let full : State := { trunkWith .reply true with port := { queue := List.replicate 7 (readFor .nets 0 (.readTable 7)) } }
      ∃ e rest, full.trunk.queue = e :: rest ∧ e.kind ≠ .resetReply ∧ rest.all (fun x => x.kind ≠ .notice) = true ∧
        8 ≤ rest.length + full.repliesOwed :=
  ⟨takes_base.1, rfl, ⟨_, _, rfl, by decide⟩, rfl, ⟨_, _, rfl, rfl⟩, rfl,
    fun kind _ => ⟨_, _, rfl, rfl, by simp [replyFrame], by cases kind <;> decide⟩,
    ⟨_, _, rfl, by decide, by decide, by decide⟩⟩

theorem witness_ResetEnds :
    base.rst.held = false ∧ State.reset.rst.held = true ∧ State.reset.ring = Ring.reset ∧
      State.reset.mc = Measure.reset ∧ State.reset.hv = Hv.reset ∧ State.reset.seq = Sequencer.reset ∧
      State.reset.trunk = Trunk.reset ∧ State.reset.fault.safeHalt = false ∧ State.reset.modules.length ≤ 6 := by
  decide +kernel

theorem witness_PassThroughAnswered :
    base.hearsTrunk ∧ (List.replicate 64 (0 : Byte)).length ≤ 64 ∧ base.run.active = false ∧
      base.hv.state = .safe ∧ base.ring.queue.length < 8 := ⟨takes_base.1, by decide +kernel⟩

/-- The state with one frame in the ring transmit queue, and those that wait. -/
def ringWith (s : State) (cls tag : Byte) (owner : RingOwner) (wait : List RingEntry) : State :=
  { s with ring :=
      { queue := [{ frame := { dst := 1, src := 0, cls, tag, payload := [] }, owner }], wait, ownTag := 127 } }

/-- An MSR queued with tag 7. -/
def msrQueued : State := { measuring with mc := { measuring.mc with state := .msrQueued, timer := none } }

theorem witness_RingFrameSent :
    (∀ s ∈ [base, live .ramp, msrQueued], s.rst.held = false ∧ s.sup.pollList = []) ∧
      (ringWith (live .ramp) clsSw 9 (.switch 1) []).hv.state ≠ .safe ∧
      (ringWith msrQueued clsMsr 7 .msr []).mc.curTag = some (7 : Byte).toNat ∧
      (ringWith msrQueued clsMsr 7 .msr []).mc.state = .msrQueued ∧
      (ringWith base clsSw 9 (.switch 1) []).hv.state = .safe ∧
      (ringWith base clsPol 200 .passThrough
        [{ frame := { dst := 72, src := 0, cls := clsMsr, tag := 0, payload := [2] }, owner := .msr }]).ring.wait =
        [{ frame := { dst := 72, src := 0, cls := clsMsr, tag := 0, payload := [2] }, owner := .msr }] := by
  decide +kernel

/-- The POL of an address, waiting. -/
def pollWaiting (a : Nat) : RingEntry :=
  { frame := { dst := byte a, src := 0, cls := clsPol, tag := 0, payload := [] }, owner := .poll a }

/-- A full ring transmit queue with the frame of an owner at its head, behind it these frames waiting, and a poll list. -/
def ringFull (s : State) (cls tag : Byte) (owner : RingOwner) (wait : List RingEntry) (polls : List Nat) : State :=
  { ringWith s cls tag owner wait with
    sup := { s.sup with pollList := polls }
    ring :=
      { (ringWith s cls tag owner wait).ring with
        queue :=
          (ringWith s cls tag owner wait).ring.queue ++
            List.replicate 7 { frame := { dst := 1, src := 0, cls := clsPol, tag := 0, payload := [] }, owner := .poll 1 } } }

/-- A frame that waits, of a class and an owner. -/
def waitingFrame (cls : Byte) (owner : RingOwner) : RingEntry :=
  { frame := { dst := 1, src := 0, cls, tag := 0, payload := [] }, owner }

theorem witness_RingFrameSent_poll :
    (∀ wait ∈ ([[], [pollWaiting 5]] : List (List RingEntry)),
      (ringFull msrQueued clsMsr 7 .msr wait [5, 72]).rst.held = false ∧
        (ringFull msrQueued clsMsr 7 .msr wait [5, 72]).ring.wait = wait ∧
        (ringFull msrQueued clsMsr 7 .msr wait [5, 72]).sup.pollList.head? = some 5 ∧
        ((ringFull msrQueued clsMsr 7 .msr wait [5, 72]).ring.queue.drop 1).length = 7) ∧
      (∀ owner ∈ ([.msr, .switch 1, .home, .hvc (live .ramp).mc.stream false, .hvc 0 true] : List RingOwner),
        let s := ringFull (live .ramp) clsPol 200 .passThrough [waitingFrame clsMsr owner, pollWaiting 5] [5, 72]
        s.ring.wait = [waitingFrame clsMsr owner, pollWaiting 5] ∧ (pollWaiting 5).owner = .poll 5 ∧
          (waitingFrame clsMsr owner).owner = owner ∧ s.mc.state = .stream ∧ (s.ring.queue.drop 1).length = 7 ∧
          s.rst.held = false) := by decide +kernel
/-- The POL that waits takes the room of the frame sent, and the POL of the next address waits in its place (R67). -/
theorem test_ring_frame_sent_poll :
    after .ringFrameSent (ringFull msrQueued clsMsr 7 .msr [pollWaiting 5] [5, 72]) (fun t =>
      t.mc.state = .msrWait && t.sup.pollList = [72] && t.ring.wait = [pollWaiting 72] && t.ring.queue.length = 8 &&
        (t.ring.queue.getLast?).map (fun e => (e.frame.dst, e.frame.tag)) = some (5, 127)) = true := by decide +kernel

/-- A HOME whose broadcast has tag 4 and is still to be sent, with the modules expected. -/
def homeQueued (expected : List Nat) : State :=
  ringWith { homing with seq := { homing.seq with home := { homing.seq.home with expected, timer := none } } }
    clsSw 4 .home []

theorem witness_RingFrameSent_home :
    (∀ expected ∈ ([[], [1]] : List (List Nat)),
      (homeQueued expected).rst.held = false ∧ (homeQueued expected).sup.pollList = [] ∧
        (homeQueued expected).hv.state = .safe ∧ (homeQueued expected).seq.state = .homing ∧
        (homeQueued expected).seq.home.tag = some (4 : Byte).toNat ∧
        (homeQueued expected).run.waiting = .startHome 0 ∧ (homeQueued expected).run.pauseReq = false) ∧
      (∀ a ∈ (homeQueued []).seq.home.expected, a ∈ (homeQueued []).seq.home.answered) ∧
      ∃ a ∈ (homeQueued [1]).seq.home.expected, a ∉ (homeQueued [1]).seq.home.answered := by decide +kernel

theorem witness_ReturnedFrames :
    measuring.rst.held = false ∧ (Instr.returnedFrame 0 0x12 0 []).WellFormed = true ∧
      (Instr.returnedFrame 127 0x10 127 []).WellFormed = true ∧
      (Instr.returnedFrame 127 0x10 128 []).WellFormed = true ∧
      (Instr.returnedFrame 126 0x12 128 []).WellFormed = true ∧
      (Instr.returnedFrame 72 clsMsr 7 [2]).WellFormed = true ∧ measuring.mc.state = .msrWait ∧
      measuring.mc.curTag = some (7 : Byte).toNat ∧ measuring.mc.attempt < 3 ∧ measuring.ring.wait = [] ∧
      measuring.sup.pollList = [] ∧ measuring.ring.queue.length < 8 ∧
      (Instr.returnedFrame 1 clsSw 9 (List.replicate 32 0)).WellFormed = true ∧
      (verifying [sentTx]).rst.held = false ∧ sentTx.module = (1 : Byte).toNat ∧
      sentTx.tag = some (9 : Byte).toNat ∧ sentTx.phase = .sent ∧ sentTx.attempt < 4 ∧
      (verifying [sentTx]).seq.transactions.find? (fun t => t.module = (1 : Byte).toNat) = some sentTx ∧
      (verifying [sentTx]).ring.queue.length < 8 := by decide +kernel

/-- The transaction of module 2, sent with tag 10. -/
def otherTx : Transaction := { sentTx with module := 2, tag := some 10 }

theorem witness_EchoesVerify :
    (verifying [sentTx]).rst.held = false ∧ (Instr.echReceived 1 9 1 0).WellFormed = true ∧
      (Instr.echReceived 126 128 0 0).WellFormed = true ∧
      (verifying [sentTx]).trunk.queue.length + (verifying [sentTx]).repliesOwed < 8 ∧
      (verifying [sentTx, otherTx]).seq.transactions.find? (fun t => t.module = (1 : Byte).toNat) = some sentTx ∧
      sentTx.tag = some (9 : Byte).toNat ∧ sentTx.phase = .sent ∧ maskCount sentTx.masks.a = (1 : Byte).toNat ∧
      maskCount sentTx.masks.b = (0 : Byte).toNat ∧
      ((verifying [sentTx, otherTx]).seq.transactions.filter fun t => t.module ≠ (1 : Byte).toNat) ≠ [] ∧
      ((verifying [sentTx]).seq.transactions.filter fun t => t.module ≠ (1 : Byte).toNat) = [] ∧
      (verifying [sentTx]).seq.failed = [] ∧ sentTx.attempt < 4 ∧ (verifying [sentTx]).ring.wait = [] ∧
      (verifying [sentTx]).sup.pollList = [] ∧ (verifying [sentTx]).ring.queue.length < 8 := by decide +kernel

theorem witness_EchoesVerify_others :
    (∀ st ∈ ([.idle, .translating, .settling] : List SeqState),
      ({ tabled with seq := { Sequencer.reset with state := st } } : State).rst.held = false) ∧
      (verifying [otherTx, sentTx]).seq.transactions.find? (fun t => t.module = (1 : Byte).toNat) = some sentTx ∧
      ¬(maskCount sentTx.masks.a = (0 : Byte).toNat) ∧ (verifying [otherTx, sentTx]).ringFree ∧
      (verifying [otherTx, sentTx]).seq.state = .verifying := by unfold State.ringFree; decide +kernel
/-- Counts that differ send the frame of their module again and leave the other transaction as it was (R55, R56). -/
theorem test_echo_mismatch_among_others :
    after (.echReceived 1 9 0 0) (verifying [otherTx, sentTx]) (fun t =>
      t.seq.transactions =
          [otherTx, { sentTx with attempt := 2, tag := some 0, timer := none, phase := .queued }] &&
        t.ring.queue.map (·.owner) = [.switch 1] && (t.node? 1).map (·.fault) = some true) = true := by decide +kernel

/-- A configuration for a requester in VERIFYING, module 3 failed, with module 1 still to answer. -/
def failing (requester : Requester) (w : Sweep) : State :=
  { running .running with
    seq :=
      { Sequencer.reset with state := .verifying, requester, transactions := [sentTx], failed := [3] }
    sweep := { w with state := .configuring, netCursor := some 0, lastNet := 1 } }

theorem witness_EchoesVerify_failed :
    (∀ w ∈ ([{ Sweep.reset with kind := some .cont }, { Sweep.reset with kind := some .leadcal },
        { Sweep.reset with kind := some .iso, candidates := [1], inHand := some { start := 0, length := 1 } },
        { Sweep.reset with kind := some .iso, work := [entry, entry] }] : List Sweep),
      (failing .sweep w).rst.held = false ∧ (failing .sweep w).seq.failed = [3] ∧
        (failing .sweep w).seq.transactions.find? (fun t => t.module = (1 : Byte).toNat) = some sentTx ∧
        ((failing .sweep w).seq.transactions.filter fun t => t.module ≠ (1 : Byte).toNat) = [] ∧
        (failing .sweep w).print.state = .off ∧ (failing .sweep w).defects = [] ∧
        (failing .sweep w).run.summary.defects < (failing .sweep w).limits.timing.defectLimit) ∧
      (failing .hv Sweep.reset).seq.requester = .hv := by decide +kernel

theorem witness_EchoesVerify_home :
    homing.rst.held = false ∧ (Instr.echReceived 1 4 0 0).WellFormed = true ∧
      (Instr.echReceived 64 4 0 255).WellFormed = true ∧ homing.seq.state = .homing ∧
      homing.seq.home.tag = some (4 : Byte).toNat ∧ (1 : Byte).toNat ∈ homing.modules ∧
      (64 : Byte).toNat ∉ homing.modules ∧
      homing.seq.home.expected ≠ [] ∧
      (∀ a ∈ homing.seq.home.expected, a ∈ putAddress (1 : Byte).toNat homing.seq.home.answered) ∧
      (∃ a ∈ [1, 2], a ∉ putAddress (1 : Byte).toNat homing.seq.home.answered) ∧
      homing.run.waiting = .startHome 0 ∧ homing.run.pauseReq = false := by decide +kernel

theorem witness_StatusRecorded :
    tabled.rst.held = false ∧ (Instr.staReceived 1 3 0 4 0 0 0).WellFormed = true ∧
      (Instr.staReceived 72 128 1 0 0 0 255).WellFormed = true ∧ tabled.configured 126 = false ∧
      1 ≤ (1 : Byte).toNat ∧ (1 : Byte).toNat ≤ 64 ∧ tabled.channels 1 ≠ 0 ∧ (0 : Byte).getLsbD 0 = false ∧
      (255 : Byte).getLsbD 0 = true ∧ tabled.hv.state = .safe ∧ tabled.run.active = false ∧
      tabled.mc.state = .idle ∧ tabled.seq.state ≠ .homing ∧ tabled.fault.valid = false := by decide +kernel

theorem witness_StatusRecorded_inRun :
    measuring.rst.held = false ∧ measuring.hv.state = .safe ∧ measuring.fault.valid = false ∧
      measuring.run.inFaultResponse = false ∧ measuring.run.active = true ∧ measuring.run.state = .running ∧
      measuring.mc.state ≠ .stream ∧ msrQueued.mc.state = .msrQueued ∧
      ({ measuring with hv := { measuring.hv with streamWanted := false } } : State).hv.streamWanted = false ∧
      ({ tabled with mc := measuring.mc } : State).mc.state ≠ .idle := by decide +kernel

/-- The sample queue at its eight entries. -/
def fullSamples : State :=
  { measuring with
    mc :=
      { measuring.mc with
        queue :=
          List.replicate 8
            ({ seq := 1, vcode := 0, icode := 0, range := 2, ovl := false, cmp := false, hv := false } : Sample) } }

theorem witness_SamplesAdmitted :
    measuring.rst.held = false ∧ (Instr.smpReceived 72 7 1 0 0 2 0).WellFormed = true ∧
      (Instr.smpReceived 126 7 1 0 0 2 0).WellFormed = true ∧ (126 : Byte) ≠ 72 ∧ 128 ≤ (128 : Byte).toNat ∧
      (0 : Byte).getLsbD 2 = false ∧ measuring.mc.state = .msrWait ∧ measuring.mc.curTag = some (7 : Byte).toNat ∧
      measuring.mc.queue.length < 8 ∧ (live .ramp).mc.state = .stream ∧
      (live .ramp).mc.curTag = some (3 : Byte).toNat ∧ (live .ramp).hv.state ≠ .safe ∧
      8 ≤ fullSamples.mc.queue.length ∧ fullSamples.hv.state = .safe ∧ (255 : Byte).getLsbD 2 = true ∧
      tabled.hv.state = .safe ∧ tabled.run.active = false ∧ tabled.mc.state = .idle := by decide +kernel

/-- The outstanding MSR at its third attempt. -/
def lastAttempt : State := { measuring with mc := { measuring.mc with attempt := 3 } }

theorem witness_TimeoutsResend :
    (verifying [sentTx]).rst.held = false ∧
      (verifying [sentTx]).seq.transactions.find? (fun t => t.module = 1) = some sentTx ∧ sentTx.phase = .sent ∧
      sentTx.timer.isSome = true ∧ (verifying [sentTx]).seq.state = .verifying ∧ sentTx.attempt < 4 ∧
      (verifying [sentTx]).ring.wait = [] ∧ (verifying [sentTx]).sup.pollList = [] ∧
      (verifying [{ sentTx with attempt := 4 }, otherTx]).seq.transactions.find? (fun t => t.module = 1) =
        some { sentTx with attempt := 4 } ∧
      ((verifying [{ sentTx with attempt := 4 }, otherTx]).seq.transactions.filter fun t => t.module ≠ 1) ≠ [] ∧
      measuring.mc.state = .msrWait ∧ measuring.mc.timer.isSome = true ∧ measuring.mc.attempt < 3 ∧
      measuring.ring.wait = [] ∧ 3 ≤ lastAttempt.mc.attempt ∧ lastAttempt.mc.timer.isSome = true ∧
      lastAttempt.fault.valid = false ∧ lastAttempt.run.state = .running := by decide +kernel

/-- A configuration of a CONT visit in VERIFYING, module 1 at its fourth attempt, with other transactions. -/
def exhausted (others : List Transaction) : State :=
  { running .running with
    seq :=
      { Sequencer.reset with
        state := .verifying, requester := .sweep, transactions := { sentTx with attempt := 4 } :: others, failed := [3] }
    sweep := { measuring.sweep with state := .configuring } }

theorem witness_LastAttempts :
    (∀ others ∈ [[], [otherTx]],
      (exhausted others).rst.held = false ∧ (exhausted others).seq.state = .verifying ∧
        (exhausted others).seq.transactions.find? (fun t => t.module = 1) = some { sentTx with attempt := 4 } ∧
        ((exhausted others).seq.transactions.filter fun t => t.module ≠ 1) = others ∧
        putAddress 1 (exhausted others).seq.failed = [1, 3] ∧ (exhausted others).print.state = .off ∧
        (exhausted others).appends { kind := .switchFault, netA := 0, point := some 1, netB := none } ∧
        ¬(maskCount sentTx.masks.a = (0 : Byte).toNat)) ∧
      (∀ i ∈ [.echoTimeout 1, .returnedFrame 1 clsSw 9 (List.replicate 32 0), .echReceived 1 9 0 0],
        i.WellFormed = true ∧
          after i (exhausted []) (fun t =>
            t.seq.state = .idle && t.seq.failed = [1, 3] && (t.defects.map fun d => (d.key.kind, d.value)) =
              [(.switchFault, some 1)]) = true) ∧
      (Instr.returnedFrame 72 clsMsr 7 [2]).WellFormed = true ∧ lastAttempt.mc.state = .msrWait ∧
      lastAttempt.mc.curTag = some (7 : Byte).toNat ∧ lastAttempt.fault.valid = false ∧
      after (.returnedFrame 72 clsMsr 7 [2]) lastAttempt (fun t =>
        t.fault.code = some .headTimeout && t.run.state = .aborting && t.mc.state ≠ .msrWait) = true := by
  unfold State.appends; decide +kernel
theorem witness_LastAttempts_key :
    (exhausted []).switchFaultKey { kind := .switchFault, netA := 0, point := some 1, netB := none } :=
  .inl ⟨rfl, .inl rfl, rfl⟩

/-- A HOME of the abort response. -/
def homeOfAbort : State :=
  { homing with run :=
      { (running .aborting).run with abortCause := .abort, waiting := .home, step := some 0, inProgress := true } }

/-- A HOME of a response with a cause, every record PRINTED, the level of PRN_BUSY, and the Print Engine in a state. -/
def homeOf (busy : Bool) (cause : AbortCause) (st : PrintState) : State :=
  { homeOfAbort with
    run := { homeOfAbort.run with abortCause := cause }
    defects := [{ record 1 .leak with printed := true }]
    pins := { interlockClosed := false, prnBusy := busy }
    print := { Print.reset with state := st, copies := 1 } }

/-- A configuration of the HV Controller in SETTLING. -/
def hvSettling (closed : Bool) : State :=
  { running .running with
    seq := { Sequencer.reset with state := .settling, requester := .hv, settleTimer := some 1 }
    pins := { interlockClosed := closed, prnBusy := false } }

theorem witness_HomeAndSettleEnd_more :
    (∀ busy : Bool, ∀ cause ∈ ([.abort, .hvAbort, .fault] : List AbortCause), ∀ st ∈ ([.off, .held, .idle] : List PrintState),
      (homeOf busy cause st).rst.held = false ∧ (homeOf busy cause st).seq.state = .homing ∧
        (homeOf busy cause st).seq.home.timer.isSome = true ∧ (homeOf busy cause st).run.waiting = .home ∧
        (homeOf busy cause st).run.abortCause = cause ∧ (homeOf busy cause st).print.state = st ∧
        (homeOf busy cause st).print.copies ≠ 0 ∧ (homeOf busy cause st).print.header = none ∧
        (homeOf busy cause st).print.buf0 = Buffer.empty ∧ (homeOf busy cause st).print.buf1 = Buffer.empty ∧
        (homeOf busy cause st).pins.prnBusy = busy ∧ (∀ d ∈ (homeOf busy cause st).defects, d.printed = true) ∧
        ∀ d ∈ (homeOf busy cause st).defects, d.explained = false) ∧
      ∀ closed : Bool, (hvSettling closed).rst.held = false ∧ (hvSettling closed).seq.state = .settling ∧
        (hvSettling closed).seq.settleTimer.isSome = true ∧ (hvSettling closed).seq.requester = .hv ∧
        (hvSettling closed).pins.interlockClosed = closed ∧ (hvSettling closed).run.state = .running ∧
        (hvSettling closed).hv.state = .safe ∧ (hvSettling closed).mc.state = .idle := by decide +kernel

theorem test_summary_line_at_done :
    after .homeEchoTimeout (homeOf false .abort .idle) (fun t =>
      t.print.state = .format && t.print.buf1 = Buffer.empty && t.print.summaryLeft = 3 &&
        t.print.buf0.state = .formatting &&
        t.print.buf0.text = ascii ['R', 'E', 'S', 'U', 'L', 'T', ' ', 'A', 'B', 'O', 'R', 'T', 'E', 'D'] ++ crlf) =
      true := by decide +kernel

/-- The last row of the worked example of a hold and a busy printer (10.8): the LF of record 5, sent from buffer 1, leaves
FORMAT with summary line 1 FORMATTING in buffer 0, and record 5 PRINTED. -/
theorem test_summary_line_after_record :
    after (.printCharacterSent false)
      { tabled with
        defects := [record 5 .leak]
        print :=
          { Print.reset with
            state := .send, sendPos := 2, char := some (characterAt 3 [0x41] 0), copies := 1, summaryDue := true
            summaryLeft := 4, summary := some (.completeDefects, 5, 4)
            buf1 := { state := .sending, content := some (.record 5), text := [0x41, 0x0D, 0x0A] } } } (fun t =>
      t.print.state = .format && t.print.buf0.state = .formatting && t.print.buf0.content = some .summary &&
        t.print.buf1 = Buffer.empty && t.defects.map (·.printed) = [true]) = true := by decide +kernel

/-- A configuration of a CONT visit in SETTLING. -/
def settling : State :=
  { measuring with
    mc := Measure.reset
    seq := { Sequencer.reset with state := .settling, requester := .sweep, settleTimer := some 1 } }

theorem witness_HomeAndSettleEnd :
    homing.rst.held = false ∧ homing.seq.state = .homing ∧ homing.seq.home.timer.isSome = true ∧
      homing.run.waiting = .startHome 0 ∧ homing.run.pauseReq = false ∧ homeOfAbort.run.waiting = .home ∧
      homeOfAbort.run.abortCause = .abort ∧ homeOfAbort.print.state = .off ∧ homeOfAbort.run.step ≠ none ∧
      homeOfAbort.run.inProgress = true ∧ settling.rst.held = false ∧ settling.seq.state = .settling ∧
      settling.seq.settleTimer.isSome = true ∧ settling.seq.requester = .sweep ∧ settling.sweep.kind = some .cont ∧
      settling.fault.safeHalt = false ∧ settling.mc.state = .idle ∧ settling.hv.state = .safe ∧
      settling.ring.wait = [] ∧ settling.sup.pollList = [] ∧ settling.ring.queue.length < 8 ∧
      settling.sweep.netCursor = some 0 ∧ settling.sweep.fixedPoint = some 0 ∧
      settling.sweep.visitedPoint = some 1 := by decide +kernel

/-- A configuration in SETTLING for each use of a measurement: a LEADCAL visit, a group, and an entry of the correlation. -/
def settlingFor : List State :=
  [{ settling with sweep := { settling.sweep with kind := some .leadcal } },
    { settling with sweep := { settling.sweep with kind := some .iso, inHand := some { start := 0, length := 1 } } },
    { settling with
      sweep := { settling.sweep with kind := some .iso, work := [entry], otherAnchor := 6 } }]

theorem witness_HomeAndSettleEnd_uses :
    (∀ s ∈ settlingFor, s.rst.held = false ∧ s.seq.state = .settling ∧ s.seq.settleTimer.isSome = true ∧
      s.seq.requester = .sweep ∧ s.fault.safeHalt = false ∧ s.mc.state = .idle ∧ s.hv.state = .safe ∧ s.ringFree ∧
      s.sweep.netCursor = some 0 ∧ s.sweep.visitedPoint = some 1) ∧
      settlingFor.map (fun s => s.sweep.kind) = [some .leadcal, some .iso, some .iso] ∧
      settlingFor.map (fun s => s.sweep.work[s.sweep.workCursor]?) = [none, none, some entry] := by
  unfold State.ringFree; decide +kernel
/-- The range, the fault context and the leads that each use asks for (R87, R103, R113, R119). -/
theorem test_settle_timeout_uses :
    (settlingFor.zip [(2, some 0, some 1, []), (1, some 0, none, []), (2, some 0, some 3, [3, 6])]).all (fun x =>
        after .settleTimeout x.1 fun t =>
          t.mc.state = .msrQueued && t.ring.queue.map (·.frame.payload) = [[byte t.mc.range]] &&
            (t.mc.range, t.mc.ctxNet, t.mc.ctxPoint, t.mc.leads) = x.2) = true := by decide +kernel

theorem witness_MonitorPeriodJudges :
    (running .running).rst.held = false ∧ (running .running).sup.timer.isSome = true ∧
      (running .running).sup.nodes.any (fun n => n.alive != (n.heard && !n.fault)) = true ∧
      (∃ n, (running .running).node? 72 = some n ∧ n.alive = true ∧ n.heard = false) ∧
      (running .running).run.active = true ∧ (running .running).fault.valid = false :=
  ⟨rfl, rfl, by decide +kernel, ⟨_, rfl, rfl, rfl⟩, rfl, rfl⟩

/-- A converted sample. -/
def conv (vh ih : Int) : Conv := { vh, ih, range := 2, ovl := false, cmp := false, hv := true, seq := 1 }

/-- No run, the HV state with its cause and SAFE-HALT, and a stream open or not. -/
def quiet (st : HvState) (cause : HvCause) (halt stream : Bool) : State :=
  { tabled with
    hv := { Hv.reset with state := st, cause }
    fault := { FaultMon.reset with safeHalt := halt }
    mc := if stream then { Measure.reset with state := .stream, requester := .hv, stream := 1 } else Measure.reset }

/-- An OFF-DISCHARGE of the open stream in the wait list, behind a full ring transmit queue. -/
def offWaits : State :=
  { quiet .stuck .none false true with
    ring :=
      { queue := List.replicate 8 { frame := { dst := 1, src := 0, cls := clsPol, tag := 0, payload := [] }, owner := .poll 1 }
        wait := [{ frame := { dst := 72, src := 0, cls := clsHvc, tag := 0, payload := [1, 10] }, owner := .hvc 1 false }]
        ownTag := 8 } }

theorem witness_MonitorPeriodJudges_discharge :
    (∀ stream : Bool,
      (quiet .discharge .startUp false stream).run.active = false ∧
        (quiet .discharge .startUp false stream).sup.timer.isSome = true ∧
        (quiet .discharge .startUp false stream).ring.wait = [] ∧
        (quiet .discharge .test true stream).fault.safeHalt = true ∧
        (quiet .discharge .test true stream).hv.state = .discharge ∧
        (quiet .stuck .none false stream).hv.state = .stuck ∧
        (quiet .stuck .none false stream).mc.state = if stream then .stream else .idle) ∧
      (quiet .safe .none true false).hv.state = .safe ∧ (quiet .safe .none true false).seq.state ≠ .homing ∧
      (quiet .discharge .test false true).hv.cause ≠ .startUp ∧ (quiet .discharge .test false true).fault.safeHalt = false ∧
      (quiet .ramp .none false true).hv.state = .ramp ∧ (quiet .dwell .none false true).hv.state = .dwell ∧
      (quiet .safe .none false false).fault.safeHalt = false ∧
      (∃ e ∈ offWaits.ring.wait, e.owner = .hvc offWaits.mc.stream false) ∧ 8 ≤ offWaits.ring.queue.length := by
  decide +kernel

/-- A test with these samples in its averaging window. -/
def windowed (st : HvState) (w : List Conv) : State := { live st with hv := { (live st).hv with window := w } }

/-- DISCHARGE with the discharge timer running, a run in a state. -/
def discharging (st : RunState) : State :=
  { running st with hv := { Hv.reset with dischargeTimer := some 2000, streamWanted := false } }

theorem witness_HvTimersExpire :
    (windowed .ramp [conv 500000 1000]).rst.held = false ∧
      (windowed .ramp [conv 500000 1000]).print.state = .off ∧
      (windowed .ramp [conv 500000 1000]).hv.state = .ramp ∧
      (windowed .ramp [conv 500000 1000]).hv.rampTimer.isSome = true ∧
      (windowed .dwell [conv 500000 50000000]).hv.dwellTimer.isSome = true ∧
      evaluate (windowed .dwell [conv 500000 50000000]).hv.cls [conv 500000 50000000] = .leak 10 ∧
      evaluate (windowed .dwell [conv 449999 1000]).hv.cls [conv 449999 1000] = .leakLow 449999 ∧
      evaluate (windowed .dwell [conv 500000 1]).hv.cls [conv 500000 1] = .pass ∧
      (live .ramp).defects = [] ∧ (live .ramp).run.summary.defects < (live .ramp).limits.timing.defectLimit ∧
      (discharging .aborting).rst.held = false ∧ (discharging .aborting).hv.state = .discharge ∧
      (discharging .aborting).hv.dischargeTimer.isSome = true ∧ (discharging .aborting).hv.streamWanted = false ∧
      (discharging .aborting).fault.valid = false ∧ (discharging .aborting).run.active = true ∧
      (discharging .done).run.active = false := by decide +kernel

/-- A test at its end, with these records in a list whose run defect limit is 10. -/
def listed (s : State) (ds : List Defect) (defects : Nat) : State :=
  { s with
    defects := ds
    run := { s.run with summary := { Summary.cleared with defects } }
    limits := { s.limits with timing := { s.limits.timing with defectLimit := 10 } } }

/-- The key of a LEAK of the net under test. -/
def leakKey : DefectKey := { kind := .leak, netA := 1, point := none, netB := none }

theorem witness_HvTimersExpire_outcomes :
    evaluate (live .dwell).hv.cls (live .dwell).hv.window = .untested ∧
      (live .dwell).arith.job = none ∧ (live .dwell).arith.waiting = [] ∧
      ({ live .dwell with arith := { job := none, waiting := [.sample] } } : State).arith.waiting ≠ [] ∧
      (live .ramp).hv.cursor = 1 ∧ (∃ d ∈ (listed (live .ramp) [record 1 .leak] 10).defects, d.key = leakKey) ∧
      (∀ d ∈ (listed (live .ramp) [record 2 .leak] 10).defects, d.key ≠ leakKey) ∧
      (listed (live .ramp) [record 2 .leak] 10).limits.timing.defectLimit ≤
        (listed (live .ramp) [record 2 .leak] 10).run.summary.defects ∧
      (listed (live .ramp) [record 2 .leak] 9).run.summary.defects <
        (listed (live .ramp) [record 2 .leak] 9).limits.timing.defectLimit ∧
      512 ≤ (listed (live .ramp) (List.replicate 512 (record 2 .leak)) 9).defects.length ∧
      (∀ d ∈ List.replicate 512 (record 2 .leak), d.key ≠ leakKey) ∧
      (∀ d ∈ (listed (live .ramp) [record 2 .leak] 9).defects, d.explained = false) := by decide +kernel

theorem witness_KeepaliveAndInterlock :
    (live .ramp).takesCommands ∧ (live .ramp).hv.state = .ramp ∧ base.takesCommands ∧ base.hv.state ≠ .ramp ∧
      base.hv.state ≠ .dwell ∧ base.rst.held = false ∧ (live .dwell).rst.held = false ∧
      (live .dwell).hv.state = .dwell ∧ (live .dwell).run.active = true ∧ (live .dwell).print.state = .off ∧
      (live .dwell).run.summary.defects < (live .dwell).limits.timing.defectLimit ∧ (live .dwell).defects = [] :=
  ⟨takes_live _, rfl, takes_base, by decide +kernel⟩

/-- A sample of range 2. -/
def smp (vcode icode : BitVec 16) : Sample :=
  { seq := 1, vcode, icode, range := 2, ovl := false, cmp := false, hv := false }

theorem witness_ResistanceAndEvaluation :
    (smp 0 0).icode.toInt * ((base.limits.calib.ilsb.getD 2 0 : Nat) : Int) ≤ 0 ∧
      0 < (smp 0 1).icode.toInt * ((base.limits.calib.ilsb.getD 2 0 : Nat) : Int) ∧
      0 < (smp 1 1).vcode.toInt * ((base.limits.calib.vlsbLv : Nat) : Int) ∧ [conv 500000 1] ≠ [] ∧
      (1 : Nat) = min (2 ^ 0) [conv 500000 1].length ∧
      (500000 : Int) * 1 ≤ ([conv 500000 1].map (·.vh)).sum ∧ ([conv 500000 1].map (·.vh)).sum < (500000 + 1) * 1 ∧
      (1 : Int) * 1 ≤ ([conv 500000 1].map (·.ih)).sum ∧ ([conv 500000 1].map (·.ih)).sum < (1 + 1) * 1 := by
  decide +kernel

/-- The answer of an MSR waiting to be served, with the leads of these points to be found. -/
def answered (leads : List Nat) : State :=
  { measuring with
    mc := { measuring.mc with state := .msrAnswered, timer := none, leads, queue := [smp 1000 500] }
    arith := { job := none, waiting := [.sample] }
    cache := cached.cache }

/-- A stream sample waiting to be served, the last seq being given. -/
def streamed (last : Nat) : State :=
  { live .ramp with
    mc := { (live .ramp).mc with lastSeq := some last, queue := [smp 1000 500] }
    arith := { job := none, waiting := [.sample] } }

/-- An operation at its end. -/
def ending (s : State) (op : ArithOp) : State :=
  { s with arith := { job := some { op, live := true }, waiting := [] } }

/-- DISCHARGE of start-up, on a stream. -/
def startUp : State :=
  { tabled with
    hv := { Hv.reset with streamWanted := false, dischargeTimer := some 2000 }
    mc := { Measure.reset with state := .stream, requester := .hv, stream := 1, curTag := some 3 } }

theorem witness_ArithmeticServes :
    (answered []).rst.held = false ∧ (answered []).arith.job = none ∧ (answered []).arith.waiting = [.sample] ∧
      (answered []).mc.queue = [smp 1000 500] ∧ (answered []).mc.state = .msrAnswered ∧ (answered []).mc.leads = [] ∧
      (answered [5, 5]).mc.leads = [5, 5] ∧ (answered [5, 5]).cache.fill = none ∧
      (answered [5, 5]).cache.find 5 = some 3 ∧ ((answered [5, 5]).cache.entries[3]?).isSome = true ∧
      rawResistance (answered [5, 5]).limits.calib (smp 1000 500) ≠ 4294967295 ∧
      (streamed 1).rst.held = false ∧ (streamed 1).mc.state = .stream ∧ (streamed 1).mc.lastSeq = some 1 ∧
      (streamed 255).mc.lastSeq = some 255 ∧ (smp 1000 500).seq = 1 ∧
      (ending measuring (.lowVolt 2000 [] 0)).arith.job = some { op := .lowVolt 2000 [] 0, live := true } ∧
      (∀ raw ∈ [2000, 2001, 50000, 50001, 4294967295],
        (ending measuring (.lowVolt raw [] 0)).sweep.state = .measuring ∧
          (ending measuring (.lowVolt raw [] 0)).sweep.kind = some .cont ∧
          (ending measuring (.lowVolt raw [] 0)).print.state = .off ∧
          (ending measuring (.lowVolt raw [] 0)).alive 1 = true) ∧
      measuring.run.summary.defects < measuring.limits.timing.defectLimit ∧ measuring.defects = [] ∧
      (measuring.limits.contSet measuring.sweep.net.contSet).good = 2000 ∧
      (measuring.limits.contSet measuring.sweep.net.contSet).opn = 50000 ∧
      1 < (live .ramp).hv.keepalive ∧ (live .ramp).hv.state = .ramp ∧ (live .ramp).hv.arcPred = none ∧
      ((live .ramp).hv.cls.volt * 950 : Nat) ≤ (conv 475000 1).vh ∧
      (conv 474999 1).vh < ((live .ramp).hv.cls.volt * 950 : Nat) ∧
      startUp.hv.state = .discharge ∧ startUp.hv.safeWait = false ∧ startUp.hv.cause ≠ .test ∧
      startUp.ring.wait = [] ∧ startUp.sup.pollList = [] ∧ startUp.ring.queue.length < 8 ∧
      (conv (-30000) 0).vh.natAbs ≤ startUp.limits.timing.safeLevel * 1000 ∧
      startUp.limits.timing.safeLevel * 1000 < (conv 30001 0).vh.natAbs := by decide +kernel

/-- A LEADCAL visit of point 1 at its result, the reference being point 5. -/
def calibrating : State :=
  { measuring with
    sweep := { measuring.sweep with kind := some .leadcal, fixedPoint := some 5 }, cache := cached.cache }

/-- A group of an ISO step at its result, over nets 0 to 4, with the limits of R14. -/
def grouped (w : Sweep) : State :=
  { measuring with
    sweep :=
      { w with
        state := .measuring, kind := some .iso, netCursor := some 0, lastNet := 1, candidates := [1, 2, 3, 4] } }

theorem witness_ArithmeticServes_sweep :
    (∀ s ∈ [calibrating, grouped Sweep.reset], s.rst.held = false ∧ s.sweep.state = .measuring ∧
      s.print.state = .off ∧ s.defects = [] ∧ s.run.summary.defects + 2 < s.limits.timing.defectLimit ∧
      s.run.stopArmed = false ∧ s.run.pauseReq = false ∧ s.run.stopsOnDefect = false ∧ s.cache.fill = none) ∧
      calibrating.sweep.visitedPoint = some 1 ∧ calibrating.cache.find 5 = some 3 ∧
      (calibrating.cache.entries[3]?).isSome = true ∧
      ({ calibrating with cache := Cache.reset } : State).cache.find 5 = none ∧
      (∀ g ∈ ([{ start := 0, length := 1 }, { start := 0, length := 3 }] : List Group),
        (grouped { Sweep.reset with inHand := some g, stack := [{ start := 3, length := 1 }] }).sweep.inHand = some g ∧
          (grouped { Sweep.reset with inHand := some g }).sweep.work = [] ∧
          (grouped Sweep.reset).sweep.candidates[g.start]? = some 1) ∧
      (grouped Sweep.reset).limits.iso.limit = 1000000000 ∧ (grouped Sweep.reset).limits.iso.shortCap = 8 ∧
      0 < (([{ start := 3, length := 1 }] : List Group).map (·.length)).sum + 0 ∧
      (0 : Nat) ≠ (grouped Sweep.reset).sweep.lastNet ∧
      (grouped { Sweep.reset with work := [entry, entry], shortOther := some 1 }).sweep.work[0]? = some entry ∧
      (grouped { Sweep.reset with work := [entry, entry], shortOther := some 1 }).sweep.work[0 + 1]? = some entry ∧
      ((grouped Sweep.reset).limits.contSet entry.contSet).good = 2000 := by decide +kernel

/-- The records that a correlation of point 3 of net 0 against net 1 meets: an OPEN, a MISWIRE or none, a SHORT. -/
def correlated (again : Bool) : List Defect :=
  [{ record 1 .opn with key := { kind := .opn, netA := 0, point := some 3, netB := none } },
   { record 2 .miswire with
     key := { kind := .miswire, netA := 0, point := some 3, netB := if again then some 1 else some 9 } },
   { record 3 .short with key := { kind := .short, netA := 0, point := none, netB := some 1 } }]

theorem witness_ArithmeticServes_correlation :
    ∀ again : Bool,
      (listed (grouped Sweep.reset) (correlated again) 3).listSound ∧
        (∃ d ∈ correlated again, d.key = { kind := .opn, netA := 0, point := some 3, netB := none }) ∧
        ((∃ d ∈ correlated again, d.key = { kind := .miswire, netA := 0, point := some 3, netB := some 1 }) ↔
          again = true) := by
  unfold State.listSound; decide +kernel

theorem witness_ArithmeticServes_lastEntry :
    let s := ending (grouped { Sweep.reset with
      work := [entry], shortOther := some 1, shortCount := 1, stack := [{ start := 3, length := 1 }] }) (.lowVolt 50001 [] 0)
    s.rst.held = false ∧ s.sweep.work[s.sweep.workCursor]? = some entry ∧
      s.sweep.work[s.sweep.workCursor + 1]? = none ∧ s.sweep.shortCount < s.limits.iso.shortCap ∧ s.runGoesOn ∧
      after (.arithmeticOperationEnd false) s (fun t => t.sweep.stack = [] && t.sweep.work = []) = true := by
  unfold State.runGoesOn; decide +kernel

/-- A discharge after a test at a safe sample, its evaluation made or still to make. -/
def testEnded (work : HvWork) (slot : Option Insert) : State :=
  { running .running with
    hv :=
      { Hv.reset with state := .discharge, cause := .test, net := some 0, lastNet := 1, work, dischargeTimer := some 9 }
    mc := startUp.mc, run := { (running .running).run with slot } }

/-- A response that waits for SAFE. -/
def waitsForSafe : State :=
  { testEnded .idle none with
    hv := { (testEnded .idle none).hv with safeWait := true }
    run := { (running .aborting).run with waiting := .safe } }

theorem witness_ArithmeticServes_insulation :
    ({ answered [] with mc := { (answered []).mc with queue := [{ smp 1 1 with hv := true }] } } :
        State).mc.state = .msrAnswered ∧ ({ base.hv with streamWanted := false } : Hv).streamWanted = false ∧
      (answered [5, 6]).cache.find 5 = some 3 ∧ (answered [5, 6]).cache.find 6 = none ∧
      (answered [6, 5]).cache.find 6 = none ∧ (streamed 1).mc.state = .stream ∧
      ({ (streamed 1).mc with lastSeq := none } : Measure).lastSeq = none ∧ (255 : Nat) < 256 ∧
      ({ live .ramp with arith := { job := none, waiting := [.evaluate true, .sample] } } : State).arith.waiting =
        .evaluate true :: [.sample] ∧
      ({ (live .ramp).hv with keepalive := 1 } : Hv).keepalive ≤ 1 ∧ (live .ramp).run.active = true ∧
      (conv 1 1).ovl = false ∧ ({ conv 1 1 with ovl := true } : Conv).ovl = true ∧
      (({ InsulClass.default with arcStep := 5 } : InsulClass).arcStep : Int) < (conv 1 7).ih - 1 ∧
      (∀ work ∈ ([.ended, .evaluating] : List HvWork),
        (testEnded work none).hv.safeWait = false ∧ (testEnded work none).hv.cause = .test ∧
          (testEnded work none).ring.wait = [] ∧ (testEnded work none).sup.pollList = [] ∧
          (testEnded work none).ring.queue.length < 8 ∧ (testEnded work none).run.pauseReq = false ∧
          (testEnded work none).run.stopArmed = false ∧ (0 : Nat) ≠ (testEnded work none).hv.lastNet ∧
          (testEnded work none).run.summary.defects < (testEnded work none).limits.timing.defectLimit) ∧
      (held .running).run.slot.isSome = true ∧ (testEnded .ended none).run.state = .running ∧
      waitsForSafe.hv.safeWait = true ∧ waitsForSafe.run.waiting = .safe ∧ waitsForSafe.seq.state = .idle ∧
      waitsForSafe.fault.safeHalt = false ∧
      evaluate InsulClass.default [conv 500000 50000000] = .leak 10 ∧
      evaluate InsulClass.default [conv 449999 1000] = .leakLow 449999 ∧
      evaluate InsulClass.default [conv 500000 1] = .pass := by decide +kernel

end Sys2Proof.Tests
end

section
/-! PROOFS. The invariants of the tables, the limits, the cache and the run (O4 to O7), and what may change table
memory, the limits block and the channel counts (O15): each is kept by every `Change` of Laws/View.lean and by the
resets. -/

namespace Sys2Proof.Machine

variable {s t : State}

/-! ### What a step does to the view -/

/-- A row that is no reset changes the view by `Changes`, or is a row of a chip held in reset and changes at most the
levels of the pins (R180). -/
theorem exec_changes_or_pins {i : Instr} (hi : i.resets = false) (e : exec i s = .next t) :
    Changes (grantOf i) s.view t.view ∨ (s.rst.held = true ∧ ∃ p, t = s.onPins fun _ => p) := by
  by_cases hh : s.rst.held = true
  · by_cases hr : i = .resetEnd
    · subst hr
      exact .inl (changes_execResetEnd e)
    · exact .inr ⟨hh, exec_held hi hr hh e⟩
  · exact .inl (exec_changes hi (fun h => absurd h hh) e)

/-- The write torn by a reset changes table memory alone, which stays canonical (R2, log 7). -/
theorem tearWrite_view : s.tearWrite.view = { s.view with mem := s.tearWrite.mem } ∧
    (s.mem.wf → s.tearWrite.mem.wf) := by
  unfold State.tearWrite
  split
  · exact ⟨rfl, TableMem.writeTorn_wf _ _ _ _⟩
  · exact ⟨rfl, id⟩

/-- A reset row leaves the state as it is, or leaves every block at its reset value, from a state that differs from the
one before it at most in table memory, which stays canonical (R180, R181). -/
theorem exec_resets {i : Instr} (hi : i.resets = true) (e : exec i s = .next t) :
    t = s ∨ ∃ (x : State) (cause : ResetCause) (command : Bool), t = x.inReset cause command ∧
      x.view = { s.view with mem := x.mem } ∧ (s.mem.wf → x.mem.wf) := by
  obtain ⟨hview, hwf⟩ := tearWrite_view (s := s)
  simp only [Instr.resets, Bool.or_eq_true, decide_eq_true_eq] at hi
  rcases hi with (((rfl | rfl) | rfl) | rfl) | rfl
  · injection e with e
    exact .inr ⟨s.tearWrite, .power, false, e.symm, hview, hwf⟩
  · injection e with e
    refine .inr ⟨s.tearWrite.onMem TableMem.lost, .power, false, e.symm, ?_, fun _ => TableMem.empty_wf _⟩
    change { s.tearWrite.view with mem := s.tearWrite.mem.lost } = _
    rw [hview]
    rfl
  · injection e with e
    exact .inr ⟨s.tearWrite, .pin, false, e.symm, hview, hwf⟩
  · injection e with e
    exact .inr ⟨s.tearWrite, .clock, false, e.symm, hview, hwf⟩
  · simp only [exec, execCommandReset] at e
    split at e <;> injection e with e
    · exact .inr ⟨s, .command, true, e.symm, rfl, id⟩
    · exact .inl e.symm

/-- A property of the view that every `Change` keeps, that does not look at the pins of a chip held in reset nor at the
waiting rows, and that a reset leaves, is kept by every step. -/
theorem step_keeps {P : View → Prop} (change : ∀ k v w, Change k v w → P v → P w)
    (pins : ∀ v b, v.held = true → P v → P { v with interlock := b })
    (rows : ∀ v is, P v → P { v with pending := is })
    (reset : ∀ (x : State) (m : TableMem) (cause : ResetCause) (command : Bool), P { x.view with mem := m } →
      (m.wf → x.mem.wf) → P (x.inReset cause command).view)
    (h : P s.view) (e : step s = .next t) : P t.view := by
  unfold step at e
  split at e
  · injection e with e
    exact e ▸ h
  · rename_i i _ _
    have h' : P s.dequeued.view := rows s.view _ h
    by_cases hi : i.resets = true
    · rcases exec_resets hi e with rfl | ⟨x, cause, command, rfl, hv, hm⟩
      · exact h'
      · refine reset x s.dequeued.mem cause command ?_ hm
        rw [hv]
        exact h'
    · rcases exec_changes_or_pins (Bool.eq_false_iff.mpr hi) e with hc | ⟨hh, p, rfl⟩
      · exact hc.keep (change _) h'
      · exact pins _ p.interlockClosed hh h'

/-! ### Table memory -/

theorem change_keeps_wf {k : Grant} {v w : View} (c : Change k v w) (h : v.mem.wf) : w.mem.wf := by
  cases c with
  | write a b _ => exact TableMem.write_wf a b h
  | upset a _ => exact TableMem.upset_wf a h
  | _ => exact h

/-- Settles O4: every `Change` of table memory writes a byte or upsets one, and a reset tears a write or loses the
memory. -/
theorem stepKeepsMemoryCanonical : Obligations.StepKeepsMemoryCanonical := fun _ _ h e =>
  step_keeps (P := fun v => v.mem.wf) (fun _ _ _ c => change_keeps_wf c) (fun _ _ _ h => h) (fun _ _ h => h)
    (fun _ _ _ _ h hm => hm h) h e

/-! ### The limits block -/

theorem clamp_le {lo hi : Nat} (h : lo ≤ hi) (n : Nat) : clamp lo hi n ≤ hi := by unfold clamp; omega

theorem le_clamp (lo hi n : Nat) : lo ≤ clamp lo hi n := Nat.le_max_left _ _

theorem clampCont_inRange (bs : List Byte) : (clampCont bs).inRange = true := by
  have hg : clamp 0 (rmax - 1) (longAt bs 0) ≤ rmax - 1 := clamp_le (Nat.zero_le _) _
  simp [clampCont, ContSet.inRange, le_clamp, clamp_le hg, clamp_le]

theorem clampIso_inRange (bs : List Byte) : (clampIso bs).inRange = true := by
  simp [clampIso, IsoLimits.inRange, le_clamp, clamp_le, rmax]

theorem clampInsul_inRange (bs : List Byte) : (clampInsul bs).inRange = true := by
  simp [clampInsul, InsulClass.inRange, le_clamp, clamp_le, rmax]

theorem clampTiming_inRange {count : Nat} (h : count ≤ 65535) (bs : List Byte) :
    (clampTiming count bs).inRange = true := by
  have hl : max count (clamp 1 65535 (wordAt bs 9)) ≤ 65535 := max_le h (clamp_le (by decide) _)
  have hg : 1 ≤ max count (clamp 1 65535 (wordAt bs 9)) := le_max_of_le_right (le_clamp _ _ _)
  simp [clampTiming, Timing.inRange, le_clamp, clamp_le, hl, hg]

theorem clampCalib_inRange (bs : List Byte) : (clampCalib bs).inRange = true := by
  simp [clampCalib, Calibration.inRange, le_clamp, clamp_le, maxPicoamp]

/-- A replaced element keeps a test that all elements pass. -/
theorem all_set {α : Type} {p : α → Bool} {l : List α} {n : Nat} {a : α} (h : l.all p = true) (ha : p a = true) :
    (l.set n a).all p = true := by
  rw [List.all_eq_true] at h ⊢
  intro x hx
  rcases List.mem_or_eq_of_mem_set hx with hx | rfl
  · exact h x hx
  · exact ha

/-- Any section loaded leaves the limits block in its ranges (R14, R15). -/
theorem load_inRange {l : Limits} {count : Nat} (h : l.inRange = true) (hc : count ≤ l.timing.defectLimit)
    (sec : Section) (bs : List Byte) : (l.load count sec bs).inRange = true := by
  simp only [Limits.inRange, Bool.and_eq_true, decide_eq_true_eq] at h
  obtain ⟨⟨⟨⟨⟨⟨hlen, hcont⟩, hiso⟩, hilen⟩, hinsul⟩, htiming⟩, hcalib⟩ := h
  have hlimit : l.timing.defectLimit ≤ 65535 := by
    simp only [Timing.inRange, Bool.and_eq_true, decide_eq_true_eq] at htiming
    omega
  cases sec with
  | cont n => simp_all [Limits.load, Limits.inRange, all_set, clampCont_inRange]
  | isolation => simp_all [Limits.load, Limits.inRange, clampIso_inRange]
  | insul n => simp_all [Limits.load, Limits.inRange, all_set, clampInsul_inRange]
  | timing => simp_all [Limits.load, Limits.inRange, clampTiming_inRange (hc.trans hlimit)]
  | calibration => simp_all [Limits.load, Limits.inRange, clampCalib_inRange]

/-- Any section loaded keeps the run defect limit at least at the run defect count (R144). -/
theorem le_load_defectLimit {l : Limits} {count : Nat} (h : count ≤ l.timing.defectLimit) (sec : Section)
    (bs : List Byte) : count ≤ (l.load count sec bs).timing.defectLimit := by
  cases sec with
  | timing => exact Nat.le_max_left _ _
  | _ => exact h

/-- The limits block of a view in its ranges, and the run defect count within its limit. -/
def View.limitsSound (v : View) : Prop := v.limits.inRange = true ∧ v.count ≤ v.limits.timing.defectLimit

theorem change_keeps_limits {k : Grant} {v w : View} (c : Change k v w) (h : v.limitsSound) : w.limitsSound := by
  obtain ⟨hr, hc⟩ := h
  cases c with
  | appends d _ _ limit _ _ => exact ⟨hr, limit⟩
  | fresh _ => exact ⟨hr, Nat.zero_le _⟩
  | limits sec bs _ _ => exact ⟨load_inRange hr hc sec bs, le_load_defectLimit hc sec bs⟩
  | _ => exact ⟨hr, hc⟩

theorem limits_default_inRange : Limits.default.inRange = true := by decide

/-- Settles O5: LOAD LIMITS clamps, an append is refused at the limit, and a reset clears the count. -/
theorem stepKeepsLimitsSound : Obligations.StepKeepsLimitsSound := fun _ _ h e =>
  step_keeps (P := View.limitsSound) (fun _ _ _ c => change_keeps_limits c) (fun _ _ _ h => h) (fun _ _ h => h)
    (fun x _ _ command h _ => by
      cases command
      · exact ⟨limits_default_inRange, Nat.zero_le _⟩
      · exact ⟨h.1, Nat.zero_le _⟩) h e

/-! ### The cache -/

/-- Two cache entries are valid for the same point. -/
def CacheEntry.clashes (e f : CacheEntry) : Prop := e.valid = true ∧ f.valid = true ∧ e.tag = f.tag

/-- The cache of a view is sound: `State.cacheSound` in the terms of the view. -/
def View.cacheSound (v : View) : Prop :=
  v.entries.length = 32 ∧ v.pointer < 32 ∧ v.entries.Pairwise (fun e f => ¬e.clashes f) ∧
    ∀ p ∈ v.fill, ∀ e ∈ v.entries, ¬(e.valid = true ∧ e.tag = p)

theorem cacheSound_view : s.cacheSound ↔ s.view.cacheSound := by
  simp only [State.cacheSound, View.cacheSound, State.view, CacheEntry.clashes]
  rcases s.cache.fill with _ | f <;> simp

/-- An entry for a point that no valid entry holds keeps the entries apart. -/
theorem pairwise_set_entry {es : List CacheEntry} {i p : Nat} {r : PointRec}
    (h : es.Pairwise fun e f => ¬e.clashes f) (miss : ∀ e ∈ es, ¬(e.valid = true ∧ e.tag = p)) :
    (es.set i { valid := true, tag := p, copy := r }).Pairwise fun e f => ¬e.clashes f := by
  induction es generalizing i with
  | nil => exact .nil
  | cons x xs ih =>
    obtain ⟨hx, hxs⟩ := List.pairwise_cons.mp h
    have miss' : ∀ e ∈ xs, ¬(e.valid = true ∧ e.tag = p) := fun e he => miss e (List.mem_cons_of_mem _ he)
    cases i with
    | zero => exact List.pairwise_cons.mpr ⟨fun f hf hc => miss' f hf ⟨hc.2.1, hc.2.2.symm⟩, hxs⟩
    | succ i =>
      refine List.pairwise_cons.mpr ⟨fun f hf hc => ?_, ih hxs miss'⟩
      rcases List.mem_or_eq_of_mem_set hf with hf | rfl
      · exact hx f hf hc
      · exact miss x List.mem_cons_self ⟨hc.1, hc.2.2⟩

theorem change_keeps_cache {k : Grant} {v w : View} (c : Change k v w) (h : v.cacheSound) : w.cacheSound := by
  obtain ⟨hlen, hptr, hpair, hfill⟩ := h
  cases c with
  | advance => exact ⟨hlen, Nat.mod_lt _ (by decide), hpair, hfill⟩
  | fillStarts p _ miss =>
    refine ⟨hlen, hptr, hpair, fun q hq => ?_⟩
    cases hq
    exact miss
  | fillEnds => exact ⟨hlen, hptr, hpair, by simp⟩
  | filled p r h =>
    refine ⟨(List.length_set ..).trans hlen, Nat.mod_lt _ (by decide), ?_, by simp⟩
    exact pairwise_set_entry hpair (hfill p h)
  | entries f hf =>
    refine ⟨(List.length_map ..).trans hlen, hptr, ?_, ?_⟩
    · refine List.pairwise_map.mpr (hpair.imp fun {e e'} hne hc => hne ?_)
      exact ⟨(hf e).2 hc.1, (hf e').2 hc.2.1, (hf e).1 ▸ (hf e').1 ▸ hc.2.2⟩
    · intro p hp e he hc
      obtain ⟨x, hx, rfl⟩ := List.mem_map.mp he
      exact hfill p hp x hx ⟨(hf x).2 hc.1, (hf x).1 ▸ hc.2⟩
  | _ => exact ⟨hlen, hptr, hpair, hfill⟩

theorem cacheSound_reset : Cache.reset.entries.length = 32 ∧
    Cache.reset.entries.Pairwise (fun e f => ¬e.clashes f) := by
  refine ⟨rfl, List.pairwise_replicate.mpr (.inr ?_)⟩
  simp [CacheEntry.clashes]

/-- Settles O6: a fill takes a point that no valid entry holds, and entries otherwise only become invalid or take a
lead. -/
theorem stepKeepsCacheSound : Obligations.StepKeepsCacheSound := fun _ _ h e =>
  cacheSound_view.mpr <| step_keeps (P := View.cacheSound) (fun _ _ _ c => change_keeps_cache c) (fun _ _ _ h => h)
    (fun _ _ h => h)
    (fun _ _ _ _ _ _ => ⟨cacheSound_reset.1, Nat.zero_lt_succ _, cacheSound_reset.2, by
      rintro p ⟨⟩⟩)
    (cacheSound_view.mp h) e

/-! ### The run -/

/-- The run, the table state and SAFE-HALT of a view: `State.runSound` in the terms of the view. -/
def View.runSound (v : View) : Prop :=
  (v.run.isActive = true → v.tables = .ready ∧ v.hv ≠ .stuck) ∧ (v.checking = true → v.tables = .checking) ∧
    (v.halt = true → v.run = .done)

theorem change_keeps_run {k : Grant} {v w : View} (c : Change k v w) (h : v.runSound) : w.runSound := by
  obtain ⟨hrun, hcheck, hhalt⟩ := h
  cases c with
  | hv st _ _ stuck => exact ⟨fun ha => ⟨(hrun ha).1, fun he => by simp_all⟩, hcheck, hhalt⟩
  | testEnds n live => exact ⟨fun ha => ⟨(hrun ha).1, by simp⟩, hcheck, hhalt⟩
  | run st start halt =>
    refine ⟨fun ha => ?_, hcheck, fun hh => ?_⟩
    · rcases start ha with hb | ⟨hready, hsafe⟩
      · exact hrun hb
      · exact ⟨hready, by simp [hsafe]⟩
    · rcases halt with hd | hn | hb
      · exact hd
      · simp_all
      · have := hhalt hh
        simp [this, RunState.isActive] at hb
  | halt hd => exact ⟨hrun, hcheck, fun _ => hd⟩
  | tables st idle busy => exact ⟨fun ha => by simp_all, fun hc => absurd (hcheck hc) busy, hhalt⟩
  | checks on =>
    refine ⟨hrun, fun _ => ?_, hhalt⟩
    exact on.elim hcheck id
  | checked st on =>
    refine ⟨fun ha => ?_, by simp, hhalt⟩
    have := (hrun ha).1.symm.trans (hcheck on)
    cases this
  | _ => exact ⟨hrun, hcheck, hhalt⟩

/-- Settles O7: a run starts over READY tables in SAFE, the tables change state only with no run active, STUCK comes
only with no run active, and SAFE-HALT only with the run DONE. -/
theorem stepKeepsRunSound : Obligations.StepKeepsRunSound := fun _ _ h e =>
  step_keeps (P := View.runSound) (fun _ _ _ c => change_keeps_run c) (fun _ _ _ h => h) (fun _ _ h => h)
    (fun _ _ _ _ _ _ => ⟨by simp [State.inReset, State.view, State.reset, Run.reset, RunState.isActive],
      by simp [State.inReset, State.view, State.reset], by simp [State.inReset, State.view, State.reset,
        FaultMon.reset]⟩) h e

/-! ### What only its own rows change -/

/-- Without the grant of its row a `Change` leaves table memory, the limits block and the channel counts (R2, R12,
R13). -/
def Grant.withheld (k : Grant) (v w : View) : Prop :=
  (k.mem = false → w.mem = v.mem) ∧ (k.limits = false → w.limits = v.limits) ∧
    (k.modules = false → w.nodes.map (·.channels) = v.nodes.map (·.channels))

/-- What an update of a list element leaves the same, it leaves the same in the list. -/
theorem map_modify_of_same {α β : Type} {f : α → α} {g : α → β} (h : ∀ n, g (f n) = g n) (i : Nat) (ns : List α) :
    (ns.modify i f).map g = ns.map g := by
  apply List.ext_getElem?
  intro j
  simp only [List.getElem?_map, List.getElem?_modify]
  split <;> simp [h, Function.comp_def]

theorem change_withheld {k : Grant} {v w : View} (c : Change k v w) : k.withheld v w := by
  cases c with
  | write _ _ hk => exact ⟨fun h => absurd hk (by simp [h]), fun _ => rfl, fun _ => rfl⟩
  | upset _ hk => exact ⟨fun h => absurd hk (by simp [h]), fun _ => rfl, fun _ => rfl⟩
  | limits _ _ _ hk => exact ⟨fun _ => rfl, fun h => absurd hk (by simp [h]), fun _ => rfl⟩
  | modules _ _ _ hk => exact ⟨fun _ => rfl, fun _ => rfl, fun h => absurd hk (by simp [h])⟩
  | node i f hf _ => exact ⟨fun _ => rfl, fun _ => rfl, fun _ => map_modify_of_same hf i v.nodes⟩
  | nodes f hf => exact ⟨fun _ => rfl, fun _ => rfl, fun _ => by simp [Function.comp_def, fun n => (hf n).1]⟩
  | _ => exact ⟨fun _ => rfl, fun _ => rfl, fun _ => rfl⟩

theorem changes_withheld {k : Grant} {v w : View} (h : Changes k v w) : k.withheld v w := by
  induction h with
  | refl => exact ⟨fun _ => rfl, fun _ => rfl, fun _ => rfl⟩
  | step _ c ih =>
    obtain ⟨hm, hl, hn⟩ := change_withheld c
    obtain ⟨jm, jl, jn⟩ := ih
    exact ⟨fun h => (hm h).trans (jm h), fun h => (hl h).trans (jl h), fun h => (hn h).trans (jn h)⟩

/-- Settles O15: each of the three changes only under a grant that one row alone has. -/
theorem onlyOwnersChangeTables : Obligations.OnlyOwnersChangeTables := by
  intro i s t hi e
  rcases exec_changes_or_pins hi e with hc | ⟨_, p, rfl⟩
  · obtain ⟨hm, hl, hn⟩ := changes_withheld hc
    refine ⟨fun h => hm ?_, fun h => hl ?_, fun h => hn ?_⟩
    · cases i with
      | tableAccessComplete upset busy => exact absurd rfl (h upset busy)
      | _ => rfl
    · cases i with
      | loadLimits tag args => exact absurd rfl (h tag args)
      | _ => rfl
    · cases i with
      | loadModules tag args => exact absurd rfl (h tag args)
      | _ => rfl
  · exact ⟨fun _ => rfl, fun _ => rfl, fun _ => rfl⟩

end Sys2Proof.Machine
end

section
/-! PROOFS. The state right after a power-on reset (O2, O3). -/

namespace Sys2Proof.Machine

theorem cache_reset_sound : State.reset.cacheSound := by
  refine ⟨rfl, by decide, List.pairwise_replicate.mpr (.inr ?_), fun f hf => ?_⟩
  · simp
  · cases hf

theorem relays_reset_sound : State.reset.relaysSound := by
  refine ⟨?_, ?_, fun h => absurd rfl h, fun _ => ⟨?_, ?_, ?_⟩⟩
  all_goals simp [State.reset, Sequencer.reset, Ring.reset]

theorem nodes_reset_sound : State.reset.nodesSound := by
  refine ⟨rfl, fun i _ n hn _ => ?_⟩
  obtain rfl : n = Node.cleared 0 := List.eq_of_mem_replicate (List.mem_of_getElem? hn)
  exact ⟨rfl, rfl, rfl⟩

theorem list_reset_sound : State.reset.listSound :=
  ⟨by decide, .nil, .nil, by simp [State.reset], by simp [State.reset]⟩

/-- Settles O2, block by block. -/
theorem resetIsSound : Obligations.ResetIsSound :=
  ⟨State.reset_mem_wf, by unfold State.limitsSound; decide, cache_reset_sound, by unfold State.runSound; decide,
    by unfold State.linksSound; decide, relays_reset_sound, nodes_reset_sound,
    by unfold State.measuringSound; decide, by unfold State.interlockSound; decide, list_reset_sound⟩

/-- Settles O3: every clause is the definition of a reset value. -/
theorem resetValues : Obligations.ResetValues := by
  refine ⟨?_, ⟨rfl, ?_, rfl, rfl⟩, ?_, ?_, ?_, ?_, ?_, ?_, rfl, ?_, ⟨rfl, rfl⟩, rfl, rfl, rfl, rfl⟩
  case refine_2 =>
    intro e he
    exact List.eq_of_mem_replicate he ▸ rfl
  all_goals exact ⟨rfl, by repeat' constructor⟩

end Sys2Proof.Machine
end

section
/-! PROOFS. How a command that is taken is answered (R172), how fields and records stand in a payload (R174), and the
invariants of those codings that the loads test. -/

namespace Sys2Proof.Machine

variable {s : State}

/-! ### A command that is taken (R167, R172) -/

/-- A command that is taken runs its body, and its event ends. -/
theorem command_taken (h : s.takesCommands) {args : List Byte} (ha : args.length ≤ 63) (tag code : Byte)
    (inHalt : Bool) (body : State → State) : s.command tag code inHalt args body = .next (body s).settled := by
  obtain ⟨⟨hheld, hphase, hroom⟩, hhalt⟩ := h
  have hdeaf : s.trunkDeaf = false := by
    simp only [State.trunkDeaf, State.trunkFull, hheld, hphase]
    simpa using hroom
  have hargs : argsFit args = true := by simpa [argsFit] using ha
  simp only [State.command, hdeaf, hargs, hhalt]
  rfl

theorem bareCommand_taken (h : s.takesCommands) (tag code : Byte) (inHalt : Bool) (body : State → State) :
    s.bareCommand tag code inHalt [] body = .next (body s).settled :=
  command_taken h (by simp) tag code inHalt _

/-- A reply is the last frame of the trunk transmit queue, whose head is then being sent. -/
@[simp] theorem reply_settled (s : State) (tag code : Byte) (r : Result) (data : List Byte) :
    (s.reply tag code r data).settled = s.replied tag code r data := by
  simp [State.reply, State.trunkPut, State.onTrunk, State.settled, State.replied]

/-! ### Fields of a payload (R174) -/

@[simp] theorem byteAt_zero (b : Byte) (bs : List Byte) : byteAt (b :: bs) 0 = b.toNat := rfl
@[simp] theorem byteAt_succ (b : Byte) (bs : List Byte) (i : Nat) : byteAt (b :: bs) (i + 1) = byteAt bs i := rfl

theorem byteAt_lt (bs : List Byte) (i : Nat) : byteAt bs i < 256 := (bs.getD i 0).isLt

theorem wordAt_lt (bs : List Byte) (i : Nat) : wordAt bs i < 65536 := by
  have h0 := byteAt_lt bs i
  have h1 := byteAt_lt bs (i + 1)
  unfold wordAt
  omega

theorem byte_toNat {n : Nat} (h : n < 256) : (byte n).toNat = n := by
  simpa using Nat.mod_eq_of_lt h

@[simp] theorem be16_length (n : Nat) : (be16 n).length = 2 := rfl

theorem wordAt_be16 {n : Nat} (h : n < 65536) (bs : List Byte) : wordAt (be16 n ++ bs) 0 = n := by
  simp only [wordAt, be16, List.cons_append, List.nil_append, byteAt_zero, byteAt_succ, BitVec.toNat_ofNat]
  omega

theorem wordAt_succ (b : Byte) (bs : List Byte) (i : Nat) : wordAt (b :: bs) (i + 1) = wordAt bs i := rfl

theorem longAt_be32 {n : Nat} (h : n < 4294967296) (bs : List Byte) : longAt (be32 n ++ bs) 0 = n := by
  simp only [longAt, wordAt, be32, List.cons_append, List.nil_append, byteAt_zero, byteAt_succ, BitVec.toNat_ofNat]
  omega

/-- Two bytes are the coding of the number that they spell. -/
theorem be16_wordAt (a b : Byte) (bs : List Byte) : be16 (wordAt (a :: b :: bs) 0) = [a, b] := by
  have ha := a.isLt
  have hb := b.isLt
  simp only [be16, wordAt, byteAt_zero, byteAt_succ, List.cons.injEq, and_true]
  constructor <;> apply BitVec.eq_of_toNat_eq <;> simp only [BitVec.toNat_ofNat] <;> omega

theorem be16_wordAt_drop {bs : List Byte} (h : 2 ≤ bs.length) : be16 (wordAt bs 0) ++ bs.drop 2 = bs := by
  match bs, h with
  | a :: b :: rest, _ => rw [be16_wordAt]; rfl

theorem beNat_two (a b : Byte) : beNat [a, b] = wordAt [a, b] 0 := by
  simp [beNat, wordAt, byteAt]

/-! ### Whole records of a payload (R5, R174) -/

theorem chunks_flatten {n : Nat} (hn : 0 < n) :
    ∀ {fuel : Nat} {rs : List (List Byte)}, (∀ r ∈ rs, r.length = n) → rs.length ≤ fuel →
      chunks n fuel rs.flatten = rs
  | 0, rs, _, hf => by
    obtain rfl := List.eq_nil_of_length_eq_zero (Nat.le_zero.mp hf)
    rfl
  | fuel + 1, [], _, _ => rfl
  | fuel + 1, r :: rest, h, hf => by
    have hr : r.length = n := h r List.mem_cons_self
    have hne : (r ++ rest.flatten).isEmpty = false := by
      rw [List.isEmpty_eq_false_iff, ← List.length_pos_iff_ne_nil, List.length_append]
      omega
    have ih := chunks_flatten hn (fuel := fuel) (fun x hx => h x (List.mem_cons_of_mem _ hx))
      (Nat.le_of_succ_le_succ hf)
    simp only [chunks, List.flatten_cons, hne]
    rw [← hr, List.take_left, List.drop_left, hr, ih]
    rfl

theorem length_flatten_of_uniform {n : Nat} {rs : List (List Byte)} (h : ∀ r ∈ rs, r.length = n) :
    rs.flatten.length = rs.length * n := by
  rw [List.length_flatten, List.map_congr_left h, List.map_const', List.sum_replicate, smul_eq_mul]

/-- The runs that a payload is cut into join to the payload, and each is whole where the payload is whole. -/
theorem flatten_chunks {n : Nat} (hn : 0 < n) :
    ∀ {fuel : Nat} {bs : List Byte}, bs.length ≤ fuel → bs.length % n = 0 →
      (chunks n fuel bs).flatten = bs ∧ ∀ r ∈ chunks n fuel bs, r.length = n
  | 0, bs, hf, _ => by
    obtain rfl := List.eq_nil_of_length_eq_zero (Nat.le_zero.mp hf)
    exact ⟨rfl, by simp [chunks]⟩
  | fuel + 1, [], _, _ => ⟨rfl, by simp [chunks]⟩
  | fuel + 1, b :: bs, hf, hm => by
    have hlen : n ≤ (b :: bs).length := Nat.le_of_dvd (by simp) (Nat.dvd_of_mod_eq_zero hm)
    have hdrop : ((b :: bs).drop n).length = (b :: bs).length - n := List.length_drop
    have hmod : ((b :: bs).length - n) % n = 0 := by rw [← Nat.mod_eq_sub_mod hlen, hm]
    have hle : (b :: bs).length - n ≤ fuel := by omega
    obtain ⟨ihf, ihl⟩ := flatten_chunks hn (fuel := fuel) (hdrop ▸ hle) (hdrop ▸ hmod)
    constructor
    · simp only [chunks, List.isEmpty_cons]
      exact (congrArg (List.take n (b :: bs) ++ ·) ihf).trans (List.take_append_drop n _)
    · simp only [chunks, List.isEmpty_cons]
      intro r hr
      rcases List.mem_cons.mp hr with rfl | hr
      · exact List.length_take_of_le hlen
      · exact ihl r hr

/-- A payload has whole records exactly where it joins records of the size, at least one. -/
theorem records_eq_some {n : Nat} (hn : 0 < n) {bs : List Byte} {rs : List (List Byte)} :
    records n bs = some rs ↔ bs = rs.flatten ∧ rs ≠ [] ∧ ∀ r ∈ rs, r.length = n := by
  unfold records
  constructor
  · intro h
    split at h
    · cases h
    · rename_i hc
      simp only [Bool.or_eq_true, decide_eq_true_eq, not_or, List.isEmpty_iff, ne_eq, not_not] at hc
      obtain ⟨⟨_, hne⟩, hmod⟩ := hc
      obtain ⟨hflat, hsize⟩ := flatten_chunks hn (Nat.le_refl bs.length) hmod
      cases h
      refine ⟨hflat.symm, fun h => hne ?_, hsize⟩
      rw [← hflat, h]
      rfl
  · rintro ⟨rfl, hne, hsize⟩
    have hlen := length_flatten_of_uniform hsize
    have hpos : 0 < rs.length := List.length_pos_iff_ne_nil.mpr hne
    have hle : rs.length ≤ rs.length * n := Nat.le_mul_of_pos_right _ hn
    have hflat : rs.flatten ≠ [] := fun h => by
      rw [h] at hlen
      simp only [List.length_nil] at hlen
      omega
    rw [if_neg (by simp [hlen, hflat, Nat.ne_of_gt hn]), chunks_flatten hn hsize (hlen ▸ hle)]

end Sys2Proof.Machine
end

section
/-! PROOFS. The loads of the tables (O23, O24, O25, O29). -/

namespace Sys2Proof.Machine

variable {s : State}

/-! ### The tests before the payload (R5) -/

theorem loadRefusal_busy (h : s.run.active = true ∨ s.tables.state = .checking) (needs : Bool) :
    s.loadRefusal needs = some .busy := by
  unfold State.loadRefusal
  rcases h with h | h <;> simp [h]

theorem loadRefusal_idle (hr : s.run.active = false) (hc : s.tables.state ≠ .checking) (needs : Bool) :
    s.loadRefusal needs = if needs && s.tables.dims.isNone then some .notReady else none := by
  simp [State.loadRefusal, hr, hc]

/-! ### LOAD DIMENSIONS (R4) -/

/-- A dimensions record with each count in its range (R4). -/
def Dimensions.inRange (d : Dimensions) : Prop :=
  1 ≤ d.points ∧ d.points ≤ 8192 ∧ 1 ≤ d.nets ∧ d.nets ≤ 4096 ∧ 1 ≤ d.members ∧ d.members ≤ 16384 ∧
    d.names ≤ 4096 ∧ 1 ≤ d.steps ∧ d.steps ≤ 1024

theorem decodeDimensions_encode {d : Dimensions} (h : d.inRange) :
    decodeDimensions (encodeDimensions (some d)) = some d := by
  obtain ⟨p, n, m, a, c⟩ := d
  simp only [Dimensions.inRange] at h
  have e0 : wordAt (encodeDimensions (some ⟨p, n, m, a, c⟩)) 0 = p := wordAt_be16 (n := p) (by omega) _
  have e1 : wordAt (encodeDimensions (some ⟨p, n, m, a, c⟩)) 2 = n :=
    wordAt_be16 (n := n) (by omega) (be16 m ++ be16 a ++ be16 c)
  have e2 : wordAt (encodeDimensions (some ⟨p, n, m, a, c⟩)) 4 = m := wordAt_be16 (n := m) (by omega) (be16 a ++ be16 c)
  have e3 : wordAt (encodeDimensions (some ⟨p, n, m, a, c⟩)) 6 = a := wordAt_be16 (n := a) (by omega) (be16 c)
  have e4 : wordAt (encodeDimensions (some ⟨p, n, m, a, c⟩)) 8 = c := wordAt_be16 (n := c) (by omega) []
  have hlen : (encodeDimensions (some ⟨p, n, m, a, c⟩)).length = 10 := rfl
  simp [decodeDimensions, e0, e1, e2, e3, e4, hlen, h]

theorem decodeDimensions_some {args : List Byte} {d : Dimensions} (h : decodeDimensions args = some d) :
    args = encodeDimensions (some d) ∧ d.inRange := by
  simp only [decodeDimensions] at h
  split at h
  · rename_i hc
    simp only [Bool.and_eq_true, decide_eq_true_eq] at hc
    injection h with h
    subst h
    refine ⟨?_, by simp only [Dimensions.inRange]; omega⟩
    match args, hc.1.1.1.1.1.1.1.1.1 with
    | [a0, a1, b0, b1, c0, c1, d0, d1, e0, e1], _ =>
      simp only [encodeDimensions, wordAt_succ _ _ 1, wordAt_succ _ _ 3, wordAt_succ _ _ 5,
        wordAt_succ _ _ 7, wordAt_succ _ _ 2, wordAt_succ _ _ 4, wordAt_succ _ _ 6, wordAt_succ _ _ 0, be16_wordAt]
      rfl
  · cases h

/-- Settles O23. -/
theorem dimensionsLoaded : Obligations.DimensionsLoaded := by
  intro s tag args hs ha
  have run := command_taken hs ha tag 0x03 false
  refine ⟨fun h => ?_, fun hr hc => ⟨?_, fun hno => ?_⟩⟩
  · simp only [exec, execLoadDimensions, run, loadRefusal_busy h, reply_settled]
  · intro p n m a c e h1 h2 h3 h4 h5 h6 h7 h8 h9
    have hd : decodeDimensions args = some { points := p, nets := n, members := m, names := a, steps := c } :=
      e ▸ decodeDimensions_encode (d := { points := p, nets := n, members := m, names := a, steps := c })
        ⟨h1, h2, h3, h4, h5, h6, h7, h8, h9⟩
    simp only [exec, execLoadDimensions, run, loadRefusal_idle hr hc, Bool.false_and, Bool.false_eq_true, if_false, hd,
      reply_settled]
    rfl
  · have hd : decodeDimensions args = none := by
      by_contra hne
      obtain ⟨d, hd⟩ := Option.ne_none_iff_exists'.mp hne
      obtain ⟨e, h⟩ := decodeDimensions_some hd
      exact hno ⟨d.points, d.nets, d.members, d.names, d.steps, e, h⟩
    simp only [exec, execLoadDimensions, run, loadRefusal_idle hr hc, Bool.false_and, Bool.false_eq_true, if_false, hd,
      reply_settled]

/-! ### The loads of table memory (R5 to R10) -/

theorem exec_loadRow (hs : s.takesCommands) {kind : TableKind} {tag code : Byte} {args : List Byte} {i : Instr}
    (hrow : loadRow kind tag args = some (i, code)) (ha : args.length ≤ 63) :
    exec i s = .next (s.loadTable kind tag code args).settled := by
  cases kind <;> simp only [loadRow, Option.some.injEq, Prod.mk.injEq, reduceCtorEq] at hrow
  all_goals
    obtain ⟨rfl, rfl⟩ := hrow
    exact command_taken hs ha tag _ false fun s => s.loadTable _ tag _ args

theorem loadSize_pos_of_row {kind : TableKind} {tag code : Byte} {args : List Byte} {i : Instr}
    (hrow : loadRow kind tag args = some (i, code)) : 0 < kind.loadSize := by
  cases kind with
  | points | nets | members | names | steps => exact Nat.zero_lt_succ _
  | dimensions | modules | limits => cases hrow

/-- A load's payload passes step 5 of R5 exactly where it is a first index and whole records in their ranges and within
the table. -/
theorem loadRecords_eq_some {kind : TableKind} (hk : 0 < kind.loadSize) {args : List Byte} {first : Nat}
    {rs : List (List Byte)} :
    s.loadRecords kind args = some (first, rs) ↔
      args = be16 first ++ rs.flatten ∧ first < 65536 ∧ rs ≠ [] ∧
        (∀ r ∈ rs, r.length = kind.loadSize ∧ kind.loadOk r = true) ∧ first + rs.length ≤ s.bound kind := by
  simp only [State.loadRecords]
  constructor
  · intro h
    split at h
    · cases h
    · rename_i hlen
      split at h
      · cases h
      · rename_i _ rs' hrs
        split at h
        · rename_i hc
          simp only [Bool.and_eq_true, decide_eq_true_eq, List.all_eq_true] at hc
          cases h
          obtain ⟨hflat, hne, hsize⟩ := (records_eq_some hk).mp hrs
          refine ⟨?_, wordAt_lt .., hne, fun r hr => ⟨hsize r hr, hc.2 r hr⟩, hc.1⟩
          rw [← hflat, be16_wordAt_drop (Nat.not_lt.mp hlen)]
        · cases h
  · rintro ⟨rfl, hf, hne, hr, hb⟩
    have hrec : records kind.loadSize ((be16 first ++ rs.flatten).drop 2) = some rs :=
      (records_eq_some hk).mpr ⟨rfl, hne, fun r h => (hr r h).1⟩
    have hall : rs.all kind.loadOk = true := List.all_eq_true.mpr fun r h => (hr r h).2
    rw [if_neg (by rw [List.length_append, be16_length]; omega), hrec, wordAt_be16 hf]
    simp [hb, hall]

/-- The writes that a load asks for: one for each record, in ascending index, the last of which is answered. -/
def loadWrites (kind : TableKind) (tag code : Byte) (first : Nat) (rs : List (List Byte)) (n : Nat) : List Access :=
  (rs.zipIdx n).map fun x =>
    { kind, index := first + x.2, write := some (0, kind.stored x.1)
      owner := .load tag code (decide (x.2 + 1 = n + rs.length)) }

theorem askLoad_eq (kind : TableKind) (tag code : Byte) (first n : Nat) (rs : List (List Byte)) (s : State) :
    s.askLoad kind tag code (first + n) rs =
      { s with port := { queue := s.port.queue ++ loadWrites kind tag code first rs n } } := by
  induction rs generalizing s n with
  | nil => simp [State.askLoad, loadWrites]
  | cons r rest ih =>
    have hlast : rest.isEmpty = decide (n + 1 = n + (r :: rest).length) := by
      cases rest <;> simp
    have hrest : n + 1 + rest.length = n + (r :: rest).length := by simp; omega
    rw [State.askLoad, Nat.add_assoc, ih (n + 1)]
    simp [loadWrites, State.askWrite, State.ask, State.onPort, hlast, hrest]

theorem loadTable_refused {kind : TableKind} {tag code : Byte} {args : List Byte} {r : Result}
    (h : s.loadRefusal true = some r) : s.loadTable kind tag code args = s.reply tag code r := by
  rw [State.loadTable, h]

theorem loadRefusal_none_of (hr : s.run.active = false) (hc : s.tables.state ≠ .checking)
    (hd : s.tables.dims.isSome = true) : s.loadRefusal true = none := by
  rw [loadRefusal_idle hr hc, if_neg (by simp [Option.isSome_iff_ne_none.mp hd])]

theorem loadTable_badArg {kind : TableKind} {args : List Byte} (h : s.loadRefusal true = none)
    (hl : s.loadRecords kind args = none) (tag code : Byte) :
    s.loadTable kind tag code args = s.reply tag code .badArg := by
  simp only [State.loadTable, h, hl]

theorem loadTable_accepted {kind : TableKind} {args : List Byte} {first : Nat} {rs : List (List Byte)}
    (h : s.loadRefusal true = none) (hl : s.loadRecords kind args = some (first, rs)) (tag code : Byte) :
    s.loadTable kind tag code args = (s.onTables Tables.loaded).askLoad kind tag code first rs := by
  simp only [State.loadTable, h, hl]

theorem stored_name {n : Byte} {chars : List Byte} (hn : n.toNat ≤ 16) (hc : chars.length = 16) :
    TableKind.names.stored (n :: chars) = chars.take n.toNat ++ List.replicate (16 - n.toNat) 0x20#8 := by
  have hl : (chars.take n.toNat).length = n.toNat := List.length_take_of_le (by omega)
  simp only [TableKind.stored, List.drop_succ_cons, List.drop_zero, byteAt_zero]
  rw [List.take_append, hl, List.take_of_length_le (by omega), List.take_replicate, Nat.min_eq_left (by omega)]
  rfl

/-- Settles O24. -/
theorem tableLoadsAccepted : Obligations.TableLoadsAccepted := by
  refine ⟨?_, fun n chars => stored_name, fun _ => rfl, ?_⟩
  · intro kind tag code i first rs s hs hr hc hd hrow ha hne hrs hb hf
    have hk := loadSize_pos_of_row hrow
    rw [exec_loadRow hs hrow ha, loadTable_accepted (loadRefusal_none_of hr hc hd)
      ((loadRecords_eq_some hk).mpr ⟨rfl, hf, hne, hrs, hb⟩)]
    have hask := askLoad_eq kind tag code first 0 rs (s.onTables Tables.loaded)
    simp only [Nat.add_zero] at hask
    simp only [hask, loadWrites, Nat.zero_add]
    rfl
  · intro kind r hn hs
    cases kind with
    | names => exact absurd rfl hn
    | steps => exact absurd rfl hs
    | _ => rfl

/-- Settles O25. -/
theorem tableLoadsRefused : Obligations.TableLoadsRefused := by
  refine ⟨fun r => ⟨⟨rfl, rfl, rfl, rfl, rfl⟩, ?_, ?_, ?_, ?_, ?_⟩, ?_⟩
  · simp [TableKind.loadOk, pointLoadOk, inRangeOrNone, and_assoc]
  · simp [TableKind.loadOk, netLoadOk, inRangeOrNone, and_assoc]
  · simp [TableKind.loadOk, memberLoadOk]
  · simp [TableKind.loadOk, nameLoadOk]
  · simp [TableKind.loadOk, stepLoadOk, and_assoc]
  · intro kind tag code args i s hs ha hrow
    rw [exec_loadRow hs hrow ha]
    refine ⟨fun h => ?_, fun hr hc hd => ?_, fun hr hc hd hno => ?_⟩
    · rw [loadTable_refused (loadRefusal_busy h true), reply_settled]
    · rw [loadTable_refused (by rw [loadRefusal_idle hr hc, hd]; rfl), reply_settled]
    · have hnone : s.loadRecords kind args = none := by
        by_contra hne
        obtain ⟨⟨first, rs⟩, h⟩ := Option.ne_none_iff_exists'.mp hne
        exact hno ⟨first, rs, (loadRecords_eq_some (loadSize_pos_of_row hrow)).mp h⟩
      rw [loadTable_badArg (loadRefusal_none_of hr hc hd) hnone, reply_settled]

/-! ### LOAD LEADS (R21) -/

/-- The payload of LOAD LEADS is accepted exactly where it is a first point and whole leads within the point count. -/
theorem loadLeadsArgs_eq_some {args : List Byte} {first : Nat} {ls : List (List Byte)} :
    s.loadLeadsArgs args = some (first, ls) ↔
      args = be16 first ++ ls.flatten ∧ first < 65536 ∧ ls ≠ [] ∧ (∀ l ∈ ls, l.length = 2) ∧
        first + ls.length ≤ s.bound .points := by
  unfold State.loadLeadsArgs
  constructor
  · intro h
    split at h
    · cases h
    · rename_i hlen
      split at h
      · cases h
      · rename_i _ ls' hls
        split at h
        · rename_i hb
          cases h
          obtain ⟨hflat, hne, hsize⟩ := (records_eq_some (by decide)).mp hls
          refine ⟨?_, wordAt_lt .., hne, hsize, hb⟩
          rw [← hflat, be16_wordAt_drop (Nat.not_lt.mp hlen)]
        · cases h
  · rintro ⟨rfl, hf, hne, hsize, hb⟩
    have hrec : records 2 ((be16 first ++ ls.flatten).drop 2) = some ls :=
      (records_eq_some (by decide)).mpr ⟨rfl, hne, hsize⟩
    rw [if_neg (by rw [List.length_append, be16_length]; omega), hrec, wordAt_be16 hf]
    simp [hb]

/-- The writes that LOAD LEADS asks for: one for each lead, in ascending point, the last of which is answered. -/
def leadWrites (tag : Byte) (first : Nat) (ls : List (List Byte)) (n : Nat) : List Access :=
  (ls.zipIdx n).map fun x =>
    { kind := .points, index := first + x.2, write := some (3, x.1)
      owner := .leads tag (decide (x.2 + 1 = n + ls.length)) }

theorem askLeads_eq (tag : Byte) (first n : Nat) (ls : List (List Byte)) (s : State) :
    s.askLeads tag (first + n) ls =
      { s with port := { queue := s.port.queue ++ leadWrites tag first ls n } } := by
  induction ls generalizing s n with
  | nil => simp [State.askLeads, leadWrites]
  | cons l rest ih =>
    have hlast : rest.isEmpty = decide (n + 1 = n + (l :: rest).length) := by
      cases rest <;> simp
    have hrest : n + 1 + rest.length = n + (l :: rest).length := by simp; omega
    rw [State.askLeads, Nat.add_assoc, ih (n + 1)]
    simp [leadWrites, leadOffset, State.askWrite, State.ask, State.onPort, hlast, hrest]

/-- Runs of two bytes are the codings of numbers. -/
theorem exists_be16_of_pairs {ls : List (List Byte)} (h : ∀ l ∈ ls, l.length = 2) :
    ∃ leads : List Nat, ls = leads.map be16 := by
  refine ⟨ls.map fun l => wordAt l 0, ?_⟩
  rw [List.map_map]
  refine (List.map_id ls).symm.trans (List.map_congr_left fun l hl => ?_)
  match l, h l hl with
  | [a, b], _ => exact (be16_wordAt a b []).symm

/-- Settles O29. -/
theorem leadsLoaded : Obligations.LeadsLoaded := by
  intro s tag args hs ha
  have run := command_taken hs ha tag 0x0B false
  refine ⟨fun h => ?_, fun hr hd => ?_, fun hr hd => ⟨?_, fun hno => ?_⟩⟩
  · simp only [exec, execLoadLeads, run, h, if_true, reply_settled]
  · simp only [exec, execLoadLeads, run, hr, hd]
    exact congrArg _ (reply_settled ..)
  · rintro first leads rfl hne hf _ hb
    have hargs : s.loadLeadsArgs (be16 first ++ (leads.map be16).flatten) = some (first, leads.map be16) :=
      loadLeadsArgs_eq_some.mpr ⟨rfl, hf, by simpa using hne, by simp, by simpa using hb⟩
    have hask := askLeads_eq tag first 0 (leads.map be16) s
    simp only [Nat.add_zero] at hask
    simp only [exec, execLoadLeads, run, hr, Option.isSome_iff_ne_none.mp hd, Option.isNone_iff_eq_none, hargs, hask]
    simp [leadWrites, List.zipIdx_map, Function.comp_def]
  · have hnone : s.loadLeadsArgs args = none := by
      by_contra hne
      obtain ⟨⟨first, ls⟩, h⟩ := Option.ne_none_iff_exists'.mp hne
      obtain ⟨e, hf, hls, hsize, hb⟩ := loadLeadsArgs_eq_some.mp h
      obtain ⟨leads, rfl⟩ := exists_be16_of_pairs hsize
      exact hno ⟨first, leads, e, by simpa using hls, hf, by simpa using hb⟩
    simp only [exec, execLoadLeads, run, hr, Option.isNone_eq_false_iff.mpr hd, hnone]
    exact congrArg _ (reply_settled ..)

end Sys2Proof.Machine
end

section
/-! PROOFS. The limits block (O27, O28), READ TABLE (O30), and the commands of the cache (O34). -/

namespace Sys2Proof.Machine

variable {s : State}

/-! ### LOAD LIMITS (R13) -/

theorem section_ofCode_eq_none {n : Nat} : Section.ofCode n = none ↔ 18 < n := by
  unfold Section.ofCode
  grind

theorem execLoadLimits_taken (hs : s.takesCommands) (tag : Byte) {args : List Byte} (ha : args.length ≤ 63)
    (hr : s.run.active = false) :
    exec (.loadLimits tag args) s = .next
      (match loadLimitsArgs args with
        | none => s.replied tag 0x0A .badArg []
        | some (sec, fields) =>
          State.replied { s with limits := s.limits.load s.run.summary.defects sec fields } tag 0x0A
            (if (s.limits.load s.run.summary.defects sec fields).section sec = fields then .ok else .clamped) []) := by
  simp only [exec, execLoadLimits, command_taken hs ha, hr]
  rcases loadLimitsArgs args with _ | ⟨sec, fields⟩
  · exact congrArg _ (reply_settled ..)
  · exact congrArg _ (reply_settled ..)

/-- Settles O27. -/
theorem limitsLoaded : Obligations.LimitsLoaded := by
  intro s tag hs
  refine ⟨fun args ha hr => ?_, fun hr => ⟨?_, fun sel fields hf hsel => ?_, fun sel sec fields hf hsec => ⟨?_, ?_⟩⟩⟩
  · simp only [exec, execLoadLimits, command_taken hs ha, hr, if_true, reply_settled]
  · rw [execLoadLimits_taken hs tag (by simp) hr]
    rfl
  · rw [execLoadLimits_taken hs tag (by simp; omega) hr]
    simp only [loadLimitsArgs, section_ofCode_eq_none.mpr hsel]
  · intro hne
    rw [execLoadLimits_taken hs tag (by simp; omega) hr]
    simp only [loadLimitsArgs, hsec, if_neg hne]
  · intro he
    rw [execLoadLimits_taken hs tag (by simp; omega) hr]
    simp only [loadLimitsArgs, hsec, if_pos he]

/-! ### The sections (R14, R15) -/

theorem clampCont_fields {good opn range : Nat} (hg : good < 4294967296) (ho : opn < 4294967296) (hr : range < 256) :
    clampCont (be32 good ++ be32 opn ++ [byte range]) =
      { good := min good 4294967294, opn := max (min good 4294967294) (min opn 4294967294), range := min range 7 } := by
  have e0 : longAt (be32 good ++ be32 opn ++ [byte range]) 0 = good := longAt_be32 hg (be32 opn ++ [byte range])
  have e4 : longAt (be32 good ++ be32 opn ++ [byte range]) 4 = opn := longAt_be32 ho [byte range]
  have e8 : byteAt (be32 good ++ be32 opn ++ [byte range]) 8 = range := byte_toNat hr
  simp only [clampCont, clamp, rmax, e0, e4, e8, ContSet.mk.injEq]
  omega

theorem clampIso_fields {limit range cap : Nat} (hl : limit < 4294967296) (hr : range < 256) (hc : cap < 256) :
    clampIso (be32 limit ++ [byte range, byte cap]) =
      { limit := max 1 (min limit 4294967294), range := min range 7, shortCap := max 1 (min cap 64) } := by
  have e0 : longAt (be32 limit ++ [byte range, byte cap]) 0 = limit := longAt_be32 hl _
  have e4 : byteAt (be32 limit ++ [byte range, byte cap]) 4 = range := byte_toNat hr
  have e5 : byteAt (be32 limit ++ [byte range, byte cap]) 5 = cap := byte_toNat hc
  simp only [clampIso, clamp, rmax, e0, e4, e5, IsoLimits.mk.injEq]
  omega

theorem clampInsul_fields {volt ramp dwell ir arc avg : Nat} (hv : volt < 65536) (hr : ramp < 65536)
    (hd : dwell < 65536) (hi : ir < 4294967296) (ha : arc < 4294967296) (hg : avg < 256) :
    clampInsul (be16 volt ++ be16 ramp ++ be16 dwell ++ be32 ir ++ be32 arc ++ [byte avg]) =
      { volt := max 50 (min volt 1500), ramp := max 50 (min ramp 5000), dwell := max 10 (min dwell 60000)
        irLimit := max 1 (min ir 4294967294), arcStep := min arc 4000000000, avgCode := min avg 6 } := by
  generalize hb : be16 volt ++ be16 ramp ++ be16 dwell ++ be32 ir ++ be32 arc ++ [byte avg] = bs
  have e0 : wordAt bs 0 = volt := hb ▸ wordAt_be16 hv (be16 ramp ++ be16 dwell ++ be32 ir ++ be32 arc ++ [byte avg])
  have e2 : wordAt bs 2 = ramp := hb ▸ wordAt_be16 hr (be16 dwell ++ be32 ir ++ be32 arc ++ [byte avg])
  have e4 : wordAt bs 4 = dwell := hb ▸ wordAt_be16 hd (be32 ir ++ be32 arc ++ [byte avg])
  have e6 : longAt bs 6 = ir := hb ▸ longAt_be32 hi (be32 arc ++ [byte avg])
  have e10 : longAt bs 10 = arc := hb ▸ longAt_be32 ha [byte avg]
  have e14 : byteAt bs 14 = avg := hb ▸ byte_toNat hg
  simp only [clampInsul, clamp, rmax, maxPicoamp, e0, e2, e4, e6, e10, e14, InsulClass.mk.injEq]
  omega

theorem clampTiming_fields {count echo sample period keepalive interval safe discharge limit busy rate : Nat}
    (he : echo < 256) (hs : sample < 256) (hp : period < 256) (hk : keepalive < 65536) (hi : interval < 256)
    (hf : safe < 256) (hd : discharge < 65536) (hl : limit < 65536) (hb : busy < 256) (hr : rate < 256) :
    clampTiming count
        ([byte echo, byte sample, byte period] ++ be16 keepalive ++ [byte interval, byte safe] ++ be16 discharge
          ++ be16 limit ++ [byte busy, byte rate]) =
      { echo := max 1 (min echo 50), sample := max 1 sample, period := max 1 period, keepalive := max 16 keepalive
        hvInterval := max 1 (min interval 100), safeLevel := max 10 (min safe 60)
        discharge := max 100 (min discharge 10000), defectLimit := max count (max 1 limit)
        busy := max 1 (min busy 60), rate := min rate 7 } := by
  generalize hbs : [byte echo, byte sample, byte period] ++ be16 keepalive ++ [byte interval, byte safe]
    ++ be16 discharge ++ be16 limit ++ [byte busy, byte rate] = bs
  have e0 : byteAt bs 0 = echo := hbs ▸ byte_toNat he
  have e1 : byteAt bs 1 = sample := hbs ▸ byte_toNat hs
  have e2 : byteAt bs 2 = period := hbs ▸ byte_toNat hp
  have e3 : wordAt bs 3 = keepalive :=
    hbs ▸ wordAt_be16 hk ([byte interval, byte safe] ++ be16 discharge ++ be16 limit ++ [byte busy, byte rate])
  have e5 : byteAt bs 5 = interval := hbs ▸ byte_toNat hi
  have e6 : byteAt bs 6 = safe := hbs ▸ byte_toNat hf
  have e7 : wordAt bs 7 = discharge := hbs ▸ wordAt_be16 hd (be16 limit ++ [byte busy, byte rate])
  have e9 : wordAt bs 9 = limit := hbs ▸ wordAt_be16 hl [byte busy, byte rate]
  have e11 : byteAt bs 11 = busy := hbs ▸ byte_toNat hb
  have e12 : byteAt bs 12 = rate := hbs ▸ byte_toNat hr
  simp only [clampTiming, clamp, e0, e1, e2, e3, e5, e6, e7, e9, e11, e12, Timing.mk.injEq]
  omega

/-- The numbers of a run of four-byte codings. -/
theorem longAt_flatten_be32 {ns : List Nat} (h : ∀ n ∈ ns, n < 4294967296) {i : Nat} (hi : i < ns.length) :
    longAt (ns.map be32).flatten (4 * i) = ns[i] := by
  induction ns generalizing i with
  | nil => cases hi
  | cons n rest ih =>
    cases i with
    | zero => exact longAt_be32 (h n List.mem_cons_self) _
    | succ i =>
      have := ih (fun m hm => h m (List.mem_cons_of_mem _ hm)) (Nat.lt_of_succ_lt_succ hi)
      exact this

theorem clampCalib_fields {lv hv : Nat} {ilsb : List Nat} (hl : lv < 65536) (hh : hv < 65536) (hlen : ilsb.length = 8)
    (hi : ∀ n ∈ ilsb, n < 4294967296) :
    clampCalib (be16 lv ++ be16 hv ++ (ilsb.map be32).flatten) =
      { vlsbLv := max 1 lv, vlsbHv := max 1 (min hv 1000), ilsb := ilsb.map fun n => max 1 (min n 4000000000) } := by
  generalize hb : be16 lv ++ be16 hv ++ (ilsb.map be32).flatten = bs
  have e0 : wordAt bs 0 = lv := hb ▸ wordAt_be16 hl (be16 hv ++ (ilsb.map be32).flatten)
  have e2 : wordAt bs 2 = hv := hb ▸ wordAt_be16 hh (ilsb.map be32).flatten
  have e4 : ∀ i < 8, longAt bs (4 + 4 * i) = longAt (ilsb.map be32).flatten (4 * i) := by
    intro i _
    subst hb
    rw [Nat.add_comm]
    rfl
  simp only [clampCalib, clamp, maxPicoamp, e0, e2, Calibration.mk.injEq]
  refine ⟨by omega, by omega, List.ext_getElem (by simp [hlen]) fun i h8 hi' => ?_⟩
  rw [List.length_map, List.length_range] at h8
  simp only [List.getElem_map, List.getElem_range, e4 i h8, longAt_flatten_be32 hi (hlen ▸ h8), Nat.min_comm]

/-- Settles O28. -/
theorem sectionsClamped : Obligations.SectionsClamped := by
  refine ⟨rfl, fun l count => ⟨?_, ?_, ?_, ?_, ?_⟩⟩
  · intro n good opn range hn hg ho hr
    exact ⟨if_pos (by omega), by rw [Limits.load, clampCont_fields hg ho hr]⟩
  · intro limit range cap hl hr hc
    exact ⟨rfl, by rw [Limits.load, clampIso_fields hl hr hc]⟩
  · intro n volt ramp dwell ir arc avg hn hv hr hd hi ha hg
    refine ⟨?_, by rw [Limits.load, clampInsul_fields hv hr hd hi ha hg]⟩
    unfold Section.ofCode
    rw [if_neg (by omega), if_neg (by omega), if_pos (by omega), Nat.add_sub_cancel_left]
  · intro echo sample period keepalive interval safe discharge limit busy rate he hs hp hk hi hf hd hl hb hr
    exact ⟨rfl, by rw [Limits.load, clampTiming_fields he hs hp hk hi hf hd hl hb hr]⟩
  · intro lv hv ilsb hl hh hlen hi
    exact ⟨rfl, by rw [Limits.load, clampCalib_fields hl hh hlen hi]⟩

/-! ### READ TABLE (R11) -/

theorem tableKind_ofCode {b : Byte} : TableKind.ofCode b.toNat = none ↔ 7 < b.toNat := by
  constructor
  · intro h
    by_contra hle
    have : b.toNat < 8 := by omega
    generalize b.toNat = n at *
    interval_cases n <;> cases h
  · intro h
    generalize b.toNat = n at *
    obtain ⟨m, rfl⟩ := Nat.exists_eq_add_of_lt h
    rw [show 7 + m + 1 = m + 8 by omega]
    rfl

theorem tableKind_ofCode_code (kind : TableKind) : TableKind.ofCode (byte kind.code).toNat = some kind := by
  cases kind <;> rfl

theorem execReadTable_taken (hs : s.takesCommands) (tag : Byte) (kind : TableKind) {index : Nat} (hi : index < 65536) :
    exec (.readTable tag (byte kind.code :: be16 index)) s = .next (s.readRecord tag kind index).settled := by
  have hw : wordAt (byte kind.code :: be16 index) 1 = index := wordAt_be16 hi []
  have hargs : (byte kind.code :: be16 index).length ≤ 63 := by simp
  simp only [exec, execReadTable, command_taken hs hargs]
  simp only [be16, tableKind_ofCode_code]
  exact congrArg (fun i => Host.Outcome.next (s.readRecord tag kind i).settled) hw

/-- A table kind whose records stand in table memory (R1). -/
theorem readRecord_inMemory {kind : TableKind} (hd : kind ≠ .dimensions) (hm : kind ≠ .modules) (hl : kind ≠ .limits)
    (tag : Byte) (index : Nat) :
    s.readRecord tag kind index =
      if s.tables.dims.isNone then s.reply tag 0x0C .notReady
      else if s.bound kind ≤ index then s.reply tag 0x0C .badArg
      else s.askRead kind index (.readTable tag) := by
  cases kind with
  | dimensions => exact absurd rfl hd
  | modules => exact absurd rfl hm
  | limits => exact absurd rfl hl
  | _ => rfl

/-- Settles O30. -/
theorem tableRead : Obligations.TableRead := by
  intro s tag hs
  refine ⟨fun kind index hi => ?_, fun args ha hbad => ?_⟩
  · simp only [execReadTable_taken hs tag kind hi]
    refine ⟨?_, ?_, ?_, fun hd hm hl => ?_⟩
    · rintro rfl
      rcases index with _ | index
      · rcases hdims : s.tables.dims with _ | d
        · simp [State.readRecord, State.onChipRecord, hdims, encodeDimensions]
        · simp [State.readRecord, State.onChipRecord, hdims, encodeDimensions]
      · simp [State.readRecord, State.onChipRecord]
    · rintro rfl
      by_cases hr : 1 ≤ index ∧ index ≤ 64
      · simp [State.readRecord, State.onChipRecord, hr]
      · simp [State.readRecord, State.onChipRecord, hr]
    · rintro rfl
      refine ⟨fun hout => ?_, fun sec hsec => ?_⟩
      · simp [State.readRecord, State.onChipRecord, section_ofCode_eq_none.mpr hout]
      · simp [State.readRecord, State.onChipRecord, hsec]
    · rw [readRecord_inMemory hd hm hl]
      refine ⟨fun h => ?_, fun h hb => ?_, fun h hb => ?_⟩
      · simp [h]
      · simp [Option.isNone_eq_false_iff.mpr h, hb]
      · simp [Option.isNone_eq_false_iff.mpr h, Nat.not_le.mpr hb]
        rfl
  · simp only [exec, execReadTable, command_taken hs ha]
    split
    · rename_i code _ _
      have hcode : TableKind.ofCode code.toNat = none := tableKind_ofCode.mpr (hbad.resolve_left (by simp))
      simp only [hcode, reply_settled]
    · exact congrArg _ (reply_settled ..)

/-! ### INVALIDATE MAP and PROBE MAP (R20) -/

theorem wordAt_two {args : List Byte} (h : args.length = 2) : wordAt args 0 = beNat args := by
  match args, h with
  | [a, b], _ => exact (beNat_two a b).symm

theorem execInvalidateMap_taken (hs : s.takesCommands) (tag : Byte) {args : List Byte} (ha : args.length ≤ 63) :
    exec (.invalidateMap tag args) s =
      match invalidateTarget args with
      | none => .next (s.replied tag 0x15 .badArg [])
      | some target => .next (s.invalidateMap tag target).settled := by
  simp only [exec, execInvalidateMap, command_taken hs ha]
  cases invalidateTarget args with
  | none => exact congrArg _ (reply_settled ..)
  | some target => rfl

theorem execProbeMap_taken (hs : s.takesCommands) (tag : Byte) {args : List Byte} (ha : args.length ≤ 63) :
    exec (.probeMap tag args) s =
      if args.length = 2 ∧ wordAt args 0 ≤ 8191 then
        .next (s.replied tag 0x16 .ok (s.cache.probe (wordAt args 0)))
      else .next (s.replied tag 0x16 .badArg []) := by
  simp only [exec, execProbeMap, command_taken hs ha, Bool.and_eq_true, decide_eq_true_eq]
  split <;> exact congrArg _ (reply_settled ..)

theorem invalidateTarget_be16 {p : Nat} (hp : p ≤ 8191) : invalidateTarget (be16 p) = some (some p) := by
  have hw : wordAt (be16 p) 0 = p := wordAt_be16 (by omega) []
  unfold invalidateTarget
  rw [hw, if_neg (by simp), if_neg (by omega), if_pos hp]

/-- A valid entry for a point is found at its first place. -/
theorem Cache.find_eq_some {c : Cache} {p i : Nat} {e : CacheEntry} (he : c.entries[i]? = some e)
    (hv : e.valid = true) (ht : e.tag = p)
    (hfirst : ∀ j < i, ∀ f, c.entries[j]? = some f → ¬(f.valid = true ∧ f.tag = p)) : c.find p = some i := by
  obtain ⟨hi, rfl⟩ := List.getElem?_eq_some_iff.mp he
  unfold Cache.find
  rw [List.findIdx?_eq_some_iff_getElem]
  refine ⟨hi, by simp [hv, ht], fun j hj => ?_⟩
  simpa using hfirst j hj _ (List.getElem?_eq_getElem (hj.trans hi))

theorem Cache.find_eq_none {c : Cache} {p : Nat} (h : ∀ e ∈ c.entries, ¬(e.valid = true ∧ e.tag = p)) :
    c.find p = none := by
  unfold Cache.find
  rw [List.findIdx?_eq_none_iff]
  intro e he
  simpa using h e he

/-- Settles O34. -/
theorem cacheCommands : Obligations.CacheCommands := by
  intro s tag p hs hp
  have h16 : (be16 p).length ≤ 63 := by simp
  have hw : wordAt (be16 p) 0 = p := wordAt_be16 (by omega) []
  have probe : exec (.probeMap tag (be16 p)) s = .next (s.replied tag 0x16 .ok (s.cache.probe p)) := by
    rw [execProbeMap_taken hs tag h16, hw, if_pos ⟨rfl, hp⟩]
  have invalidate : exec (.invalidateMap tag (be16 p)) s = .next (s.invalidateMap tag (some p)).settled := by
    rw [execInvalidateMap_taken hs tag h16, invalidateTarget_be16 hp]
  refine ⟨?_, fun hfill => ?_, fun f hf => ?_, fun hmiss => ?_, fun i e he hv ht hfirst => ?_, fun args ha => ⟨?_, ?_⟩⟩
  · rw [execInvalidateMap_taken hs tag (by simp), show invalidateTarget [0xFF, 0xFF] = some none
    by simp [invalidateTarget, wordAt, byteAt]]
    simp [State.invalidateMap, Cache.invalidate, Cache.count, State.onCache]
  · rw [invalidate]
    rcases hc : s.cache.fill with _ | f
    · simp [State.invalidateMap, hc, Cache.invalidate, Cache.count, State.onCache]
    · have hne : p ≠ f.1 := Ne.symm (hfill f hc)
      simp [State.invalidateMap, hc, hne, Cache.invalidate, Cache.count, State.onCache]
  · rw [invalidate]
    simp [State.invalidateMap, hf, State.onCache]
  · rw [probe, Cache.probe, Cache.find_eq_none hmiss]
    rfl
  · rw [probe, Cache.probe, Cache.find_eq_some he hv ht hfirst]
    simp [he, boolByte, optWord]
  · intro hbad
    rw [execInvalidateMap_taken hs tag ha]
    have hnone : invalidateTarget args = none := by
      unfold invalidateTarget
      by_cases h2 : args.length = 2
      · have := hbad.resolve_left (not_not.mpr h2)
        rw [if_neg (not_not.mpr h2), wordAt_two h2, if_neg this.2, if_neg (by omega)]
      · rw [if_pos h2]
    rw [hnone]
  · intro hbad
    rw [execProbeMap_taken hs tag ha, if_neg]
    rintro ⟨h2, hle⟩
    rw [wordAt_two h2] at hle
    exact hbad.elim (absurd h2) (by omega)

end Sys2Proof.Machine
end

section
/-! PROOFS. Events and record accesses: what raising an event leaves, what a completed access leaves, the table check
(O31), record writes (O32), and the resets (O45). -/

namespace Sys2Proof.Machine

variable {s : State}

/-! ### Raising an event (R175) -/

theorem or_bit_of_pending {u : Events} {e : Event} (h : u.isPending e = true) : u.pending ||| e.bit = u.pending := by
  have hbit : e.bit = BitVec.twoPow 12 e.index := (BitVec.twoPow_eq ..).symm
  rw [Events.isPending, decide_eq_true_eq, hbit, BitVec.and_twoPow] at h
  have hset : u.pending.getLsbD e.index = true := by
    by_contra hn
    rw [if_neg hn] at h
    exact h rfl
  refine BitVec.eq_of_getLsbD_eq fun i hi => ?_
  rw [hbit, BitVec.getLsbD_or, BitVec.getLsbD_twoPow]
  by_cases hie : e.index = i
  · subst hie
    rw [hset, Bool.true_or]
  · simp [hie]

theorem isPending_or (pending mask : BitVec 12) (e : Event) :
    ({ pending := pending ||| e.bit, mask } : Events).isPending e = true := by
  have hne : e.bit ≠ 0 := by cases e <;> decide
  have habs : (pending ||| e.bit) &&& e.bit = e.bit := by
    refine BitVec.eq_of_getLsbD_eq fun i _ => ?_
    rw [BitVec.getLsbD_and, BitVec.getLsbD_or]
    cases pending.getLsbD i <;> cases e.bit.getLsbD i <;> rfl
  simpa [Events.isPending, habs] using hne

theorem noticeDue_eq (s : State) : s.noticeDue = { s with trunk := s.noticeDue.trunk } := by
  simp only [State.noticeDue]
  repeat' split
  all_goals rfl

/-- Raising an event changes the pending set, and the trunk where a notice becomes due. -/
theorem raise_eq (s : State) (e : Event) :
    s.raise e =
      { s with events := { s.events with pending := s.events.pending ||| e.bit }, trunk := (s.raise e).trunk } := by
  by_cases hp : s.events.isPending e = true
  · rw [show s.raise e = s by rw [State.raise, if_pos hp], or_bit_of_pending hp]
  · rw [State.raise, if_neg hp]
    split
    · rfl
    · exact noticeDue_eq _

theorem raise_isPending (s : State) (e : Event) : (s.raise e).events.isPending e = true := by
  rw [raise_eq]
  exact isPending_or ..

/-! ### The completion of a record access (R2, R3) -/

theorem portDone_eq {a : Access} {rest : List Access} (hq : s.port.queue = a :: rest) (busy : Bool) :
    (s.onPins fun p => { p with prnBusy := busy }).portDone = s.accessed rest busy := by
  simp only [State.portDone, State.onPort, State.onRst, State.onPins, State.accessed, hq, List.drop_one, List.tail_cons]
  split <;> rfl

theorem upsetRecord_eq (a : Access) (upset : Option Nat) :
    s.upsetRecord a upset =
      { s with mem :=
          match upset with
          | some i => if i < a.kind.size then s.mem.upset (recordAddress a.kind a.index + i) else s.mem
          | none => s.mem } := by
  cases upset with
  | none => rfl
  | some i =>
    simp only [State.upsetRecord]
    split <;> rfl

/-- The access in progress completes, out of reset and with no command reset due. -/
theorem execTableAccessComplete_eq {a : Access} {rest : List Access} (h : s.accessing a rest) (upset : Option Nat)
    (busy : Bool) :
    exec (.tableAccessComplete upset busy) s =
      .next (((s.onPins fun p => { p with prnBusy := busy }).upsetRecord a upset).completeAccess a).settled := by
  obtain ⟨hheld, hphase, hindex, hq⟩ := h
  simp only [exec, execTableAccessComplete, State.onPins_port, hq, State.onPins_rst, hheld, hphase,
    Nat.not_le.mpr hindex]
  rfl

/-- A record read completes with the bytes of the record. -/
theorem exec_read_found {kind : TableKind} {index : Nat} {owner : Owner} {rest : List Access} {bs : List Byte}
    (h : s.accessing (readFor kind index owner) rest) (hb : s.mem.record kind index = some bs) (busy : Bool) :
    exec (.tableAccessComplete none busy) s =
      .next ((s.accessed rest busy).accessDone (readFor kind index owner) (some bs)).settled := by
  rw [execTableAccessComplete_eq h, ← portDone_eq h.2.2.2 busy]
  simp only [State.upsetRecord, State.completeAccess, readFor, State.onPins_mem, hb]

/-- A record read completes with a parity failure, which is counted. -/
theorem exec_read_failed {kind : TableKind} {index : Nat} {owner : Owner} {rest : List Access}
    (h : s.accessing (readFor kind index owner) rest) (hb : s.mem.record kind index = none) (busy : Bool) :
    exec (.tableAccessComplete none busy) s =
      .next (((s.accessed rest busy).onTables fun t => t.parityFailed kind index).accessDone
        (readFor kind index owner) none).settled := by
  rw [execTableAccessComplete_eq h, ← portDone_eq h.2.2.2 busy]
  simp only [State.upsetRecord, State.completeAccess, readFor, State.onPins_mem, hb]

/-- A record write completes with its bytes in table memory, an upset of the record coming first. -/
theorem exec_written {a : Access} {rest : List Access} {offset : Nat} {bytes : List Byte} (h : s.accessing a rest)
    (hw : a.write = some (offset, bytes)) (upset : Option Nat) (busy : Bool) :
    exec (.tableAccessComplete upset busy) s =
      .next (State.accessDone
        { s.accessed rest busy with
          mem := (s.upsetRecord a upset).mem.writeRun (recordAddress a.kind a.index + offset) bytes }
        a none).settled := by
  rw [execTableAccessComplete_eq h, ← portDone_eq h.2.2.2 busy]
  simp only [State.completeAccess, hw, upsetRecord_eq]
  rfl

/-! ### The table check (R17, R18) -/

/-- What the end of the check leaves beside the tables. -/
def State.checkEnded (s t : State) (u : Tables) : Prop :=
  t.port = s.port ∧ t.mem = s.mem ∧ t.tables = u ∧ t.events.isPending .checkDone = true ∧ t.run = s.run ∧
    t.fault = s.fault

theorem checkFails_ended (s : State) (reason : CheckReason) (kind : TableKind) (index : Nat) :
    s.checkEnded (s.checkFails reason kind index)
        { s.tables with result := .fail reason kind index, state := .loaded, check := none } ∧
      (s.checkFails reason kind index).cache = s.cache := by
  refine ⟨⟨?_, ?_, ?_, raise_isPending .., ?_, ?_⟩, ?_⟩
  all_goals
    rw [State.checkFails, raise_eq]
    rfl

theorem checkPasses_ended (s : State) :
    s.checkEnded s.checkPasses { s.tables with result := .pass, state := .ready, check := none } ∧
      s.checkPasses.cache = s.cache.invalidate none := by
  refine ⟨⟨?_, ?_, ?_, raise_isPending .., ?_, ?_⟩, ?_⟩
  all_goals
    rw [State.checkPasses, raise_eq]
    rfl

theorem checkAt_eq (s : State) (w : CheckWork) :
    s.checkAt w =
      { s with
        tables := { s.tables with check := some w }
        port := { queue := s.port.queue ++ [readFor w.target.1 w.target.2 .check] } } := rfl

theorem netKind_fits_iff {n : NetKind} {p : PointKind} :
    n.fits p = true ↔ (n = .wired ∧ p = .wired) ∨ (n = .spare ∧ p = .spare) := by
  cases n <;> cases p <;> simp [NetKind.fits]

theorem stepKind_named_iff {k : StepKind} :
    k.named = true ↔ k ∈ ([.cont, .iso, .insul, .leadcal, .mark, .endStep] : List StepKind) := by
  cases k <;> simp [StepKind.named]

/-- Pass 1: the tests of a point in their order, by the words of R18. -/
theorem checkPoint_eq (s : State) (w : CheckWork) (i : Nat) (r : PointRec) :
    s.checkPoint w i r =
      if ¬(1 ≤ r.module ∧ r.module ≤ 64 ∧ s.channels r.module ≠ 0) then s.checkFails .moduleUnconf .points i
      else if s.channels r.module ≤ r.channel then s.checkFails .channelRange .points i
      else if (r.module, r.channel) ∈ w.claimed then s.checkFails .dupChannel .points i
      else if ¬r.netFits (s.bound .nets) = true then s.checkFails .netMismatch .points i
      else if i + 1 < s.bound .points then
        s.checkAt { w with claimed := (r.module, r.channel) :: w.claimed, pos := .point (i + 1) }
      else s.checkAt { w with claimed := (r.module, r.channel) :: w.claimed, pos := .net 0 } := by
  have hmodule : (decide (r.module = headAddress) || !s.configured r.module) = true ↔
      ¬(1 ≤ r.module ∧ r.module ≤ 64 ∧ s.channels r.module ≠ 0) := by
    simp only [State.configured, headAddress]
    by_cases h : r.module = 72
    · simp [h]
    · simp [h]
      omega
  simp only [State.checkPoint, hmodule, List.contains_iff_mem, Bool.not_eq_true', Bool.not_eq_true]
  split_ifs <;> rfl

/-- Pass 2: the tests of a net in their order. -/
theorem checkNet_eq (s : State) (w : CheckWork) (j : Nat) (n : NetRec) :
    s.checkNet w j n =
      if s.bound .members < n.first + n.count then s.checkFails .memberRange .nets j
      else if n.count ≤ n.anchor then s.checkFails .anchorRange .nets j
      else if (n.name.map fun m => decide (s.bound .names ≤ m)).getD false = true then
        s.checkFails .nameRange .nets j
      else if n.kind = .spare ∧ n.count ≠ 1 then s.checkFails .spareShape .nets j
      else s.checkAt { w with net := n, pos := (n.name.map (CheckAt.name j)).getD (.member j 0) } := by
  simp only [State.checkNet, Bool.and_eq_true, decide_eq_true_eq]
  cases n.name <;> rfl

/-- Pass 2: the tests of a member position. -/
theorem checkMember_eq (s : State) (w : CheckWork) (j q p : Nat) :
    s.checkMember w j q p =
      if s.bound .points ≤ p then s.checkFails .memberRange .members (w.net.first + q)
      else if p ∈ w.found then s.checkFails .dupMember .members (w.net.first + q)
      else s.checkAt { w with found := p :: w.found, pos := .memberPoint j q p } := by
  simp only [State.checkMember, List.contains_iff_mem]

/-- Pass 2: the tests of the point of a member position, and the record read next. -/
theorem checkMemberPoint_eq (s : State) (w : CheckWork) (j q : Nat) (r : PointRec) :
    s.checkMemberPoint w j q r =
      if r.net ≠ some j then s.checkFails .netMismatch .members (w.net.first + q)
      else if ¬((w.net.kind = .wired ∧ r.kind = .wired) ∨ (w.net.kind = .spare ∧ r.kind = .spare)) then
        s.checkFails .spareShape .members (w.net.first + q)
      else if q + 1 < w.net.count then s.checkAt { w with pos := .member j (q + 1) }
      else if j + 1 < s.bound .nets then s.checkAt { w with pos := .net (j + 1) }
      else s.checkAt { w with pos := .found 0 } := by
  simp only [State.checkMemberPoint, Bool.not_eq_true', ← netKind_fits_iff, Bool.not_eq_true]
  split_ifs <;> rfl

/-- Pass 3: the test of a point, and the record read next. -/
theorem checkFound_eq (s : State) (w : CheckWork) (i : Nat) (r : PointRec) :
    s.checkFound w i r =
      if r.net ≠ none ∧ i ∉ w.found then s.checkFails .netMismatch .points i
      else if i + 1 < s.bound .points then s.checkAt { w with pos := .found (i + 1) }
      else s.checkAt { w with pos := .step 0 } := by
  have htest : (r.net.isSome && !w.found.contains i) = true ↔ r.net ≠ none ∧ i ∉ w.found := by
    simp [Option.isSome_iff_ne_none]
  simp only [State.checkFound, htest]
  split_ifs <;> rfl

/-- Pass 4: the test of a step, and the record read next or the end. -/
theorem checkStep_eq (s : State) (w : CheckWork) (i : Nat) (x : StepRec) :
    s.checkStep w i x =
      if x.kind ∉ ([.cont, .iso, .insul, .leadcal, .mark, .endStep] : List StepKind) ∨ x.lastNet < x.firstNet ∨
          s.bound .nets ≤ x.lastNet ∨ (x.kind = .leadcal ∧ s.bound .points ≤ x.refPoint) then
        s.checkFails .stepRange .steps i
      else if i + 1 < s.bound .steps then s.checkAt { w with pos := .step (i + 1) }
      else s.checkPasses := by
  simp only [State.checkStep, ← stepKind_named_iff, Bool.or_eq_true, Bool.and_eq_true, decide_eq_true_eq,
    Bool.not_eq_true', Bool.not_eq_true, or_assoc]

end Sys2Proof.Machine
end

section
namespace Sys2Proof.Machine

variable {s : State}

/-- What an answer that ends the check leaves. -/
theorem ends_of_checkEnded {i : Instr} {rest : List Access} {busy : Bool} {x : State} {u : Tables} {c : Cache}
    (hrun : exec i s = .next x.settled) (he : (s.accessed rest busy).checkEnded x u) (hc : x.cache = c) :
    ∃ t, exec i s = .next t ∧ t.port.queue = rest ∧ t.mem = s.mem ∧ t.cache = c ∧ t.tables = u ∧
      t.events.isPending .checkDone = true ∧ t.run = s.run ∧ t.fault = s.fault := by
  obtain ⟨hport, hmem, htables, hdone, hrunRec, hfault⟩ := he
  exact ⟨x.settled, hrun, congrArg Port.queue hport, hmem, hc, htables, hdone, hrunRec, hfault⟩

/-- An answer that depends on a test has what each branch of the test gives. -/
theorem answer_ite {c d P Q : Prop} [Decidable c] [Decidable d] {ans : Answer} {x y : State}
    (hrun : ans = .next (if c then x else y).settled) (hcd : c ↔ d) (hx : ans = .next x.settled → P)
    (hy : ans = .next y.settled → Q) : if d then P else Q := by
  by_cases h : c
  · rw [if_pos h] at hrun
    rw [if_pos (hcd.mp h)]
    exact hx hrun
  · rw [if_neg h] at hrun
    rw [if_neg (mt hcd.mpr h)]
    exact hy hrun

/-- Settles O31: one pass of R18 after the other, each test in its order. -/
theorem checkBeginsAndEnds : Obligations.CheckBeginsAndEnds := by
  refine ⟨fun s tag hs => ?_, fun s w kind index rest busy hacc hw => ?_⟩
  · have run := fun body => bareCommand_taken hs tag 0x0D false body
    refine ⟨fun h => ?_, fun hr hc h => ?_, fun hr hst hd => ?_⟩
    · simp only [exec, execCheckTables, run]
      rcases h with h | h <;> simp [h]
    · simp only [exec, execCheckTables, run, hr, hc]
      simp [h]
    · have hne : s.tables.state ≠ .checking ∧ s.tables.state ≠ .empty := by rcases hst with h | h <;> simp [h]
      simp only [exec, execCheckTables, run, hr, hne.1, hne.2, Option.isNone_eq_false_iff.mpr hd]
      simp [checkAt_eq, State.checkStarts, State.reply, State.trunkPut, State.onTrunk, State.onTables, State.settled,
        State.replied, CheckWork.target, readFor]
  · have fails : ∀ {reason k n}, exec (.tableAccessComplete none busy) s =
          .next ((s.accessed rest busy).checkFails reason k n).settled →
        ∃ t, exec (.tableAccessComplete none busy) s = .next t ∧ t.port.queue = rest ∧ t.mem = s.mem ∧
          t.cache = s.cache ∧ t.tables = { s.tables with result := .fail reason k n, state := .loaded, check := none } ∧
          t.events.isPending .checkDone = true ∧ t.run = s.run ∧ t.fault = s.fault := fun hrun =>
      ends_of_checkEnded hrun (checkFails_ended ..).1 (checkFails_ended ..).2
    intro answer ends fails' goesOn
    refine ⟨fun hb ht => ?_, fun bs hb => ?_⟩
    · have hrun := exec_read_failed hacc hb busy
      simp only [State.accessDone, readFor, State.checkReadDone, State.accessed, State.onTables_tables,
        Tables.parityFailed, hw, ht] at hrun
      exact ends_of_checkEnded (rest := rest) (busy := busy) hrun (checkFails_ended ..).1 (checkFails_ended ..).2
    · have hrun : answer = .next ((s.accessed rest busy).checkReadDone (some bs)).settled :=
        exec_read_found hacc hb busy
      have hw' : (s.accessed rest busy).tables.check = some w := hw
      have hbound : ∀ k, (s.accessed rest busy).bound k = s.bound k := fun _ => rfl
      simp only [State.checkReadDone, hw'] at hrun
      intro r n p x
      refine ⟨?_, ?_, ?_, ?_, ?_, ?_, ?_⟩
      · rintro i hpos rfl rfl
        simp only [hpos, checkPoint_eq] at hrun
        refine answer_ite hrun .rfl fails fun h => answer_ite h .rfl fails fun h => answer_ite h .rfl fails fun h =>
          answer_ite h ?_ fails fun h => answer_ite h .rfl id id
        simp only [r, PointRec.netFits]
        cases (decodePoint bs).net <;> simp [hbound]
      · rintro j hpos rfl rfl
        simp only [hpos] at hrun
        change answer = .next ((s.accessed rest busy).checkNet w index n).settled at hrun
        clear_value n
        rw [checkNet_eq] at hrun
        refine answer_ite hrun .rfl fails fun h => answer_ite h .rfl fails fun h => answer_ite h ?_ fails fun h =>
          answer_ite h .rfl fails fun h => ?_
        · cases n.name <;> rfl
        · rcases hname : n.name with _ | m
          · rw [hname] at h
            exact h
          · rw [hname] at h
            exact h
      · rintro j hpos rfl
        simp only [hpos] at hrun
        exact hrun
      · rintro j q hpos rfl rfl
        simp only [hpos, checkMember_eq] at hrun
        exact answer_ite hrun .rfl fails fun h => answer_ite h .rfl fails id
      · rintro j q hpos rfl
        simp only [hpos, checkMemberPoint_eq] at hrun
        exact answer_ite hrun .rfl fails fun h => answer_ite h .rfl fails fun h => answer_ite h .rfl id fun h =>
          answer_ite h .rfl id id
      · rintro i hpos rfl rfl
        simp only [hpos, checkFound_eq] at hrun
        exact answer_ite hrun .rfl fails fun h => answer_ite h .rfl id id
      · rintro i hpos rfl rfl
        simp only [hpos, checkStep_eq] at hrun
        refine answer_ite hrun .rfl fails fun h => answer_ite h .rfl id fun h => ?_
        obtain ⟨t, ht, hport, hmem, hcache, htables, hrest⟩ :=
          ends_of_checkEnded (rest := rest) (busy := busy) h (checkPasses_ended _).1 (checkPasses_ended _).2
        exact ⟨t, ht, hport, hmem, htables, hcache, hrest⟩

end Sys2Proof.Machine
end

section
/-! PROOFS. Record writes (O32) and the resets (O45): what the bytes of table memory read as afterwards. -/

namespace Sys2Proof.Machine

variable {s : State}

/-! ### Parity (R2) -/

/-- The ones among the nine bits of a byte and its parity bit. -/
def onesOf (b : Byte) (dp : Bool) : Nat := ((List.range 8).filter fun i => b.getLsbD i).length + if dp then 1 else 0

/-- An exclusive or over a list says whether it holds true an odd number of times. -/
theorem foldl_xor_eq {α : Type} (p : α → Bool) (l : List α) (b : Bool) :
    l.foldl (fun odd i => odd ^^ p i) b = (b ^^ decide ((l.filter p).length % 2 = 1)) := by
  induction l generalizing b with
  | nil => simp
  | cons x xs ih =>
    rw [List.foldl_cons, ih]
    cases hp : p x
    · simp [hp]
    · simp only [hp, List.filter_cons_of_pos, List.length_cons]
      rcases Nat.mod_two_eq_zero_or_one (xs.filter p).length with h | h <;> cases b <;>
        simp [h, Nat.add_mod]

theorem onesOf_odd_iff (b : Byte) (dp : Bool) : onesOf b dp % 2 = 1 ↔ (oddOnes b ^^ dp) = true := by
  rw [oddOnes, foldl_xor_eq, Bool.false_xor, onesOf]
  generalize ((List.range 8).filter fun i => b.getLsbD i).length = n
  rcases Nat.mod_two_eq_zero_or_one n with h | h <;> cases dp <;> simp [h, Nat.add_mod]

theorem write_onesOf (m : TableMem) (a : Nat) (b : Byte) : onesOf b ((m.write a b).dpAt a) % 2 = 1 := by
  rw [onesOf_odd_iff, TableMem.write, TableMem.put_dpAt, if_pos rfl, parityBit]
  cases oddOnes b <;> rfl

theorem parityBad_iff (m : TableMem) (a : Nat) : m.parityBad a = true ↔ onesOf (m.read a) (m.dpAt a) % 2 = 0 := by
  have h := onesOf_odd_iff (m.read a) (m.dpAt a)
  rw [TableMem.parityBad, Bool.not_eq_true', ← Bool.not_eq_true, ← h]
  omega

/-! ### Runs of bytes (R2) -/

theorem TableMem.write_read (m : TableMem) (a x : Nat) (b : Byte) :
    (m.write a b).read x = if x = a then b else m.read x := TableMem.put_read ..

/-- What a run of bytes leaves to read: its bytes with good parity, and every other byte as before. -/
theorem TableMem.writeRun_reads (m : TableMem) (start a : Nat) (bytes : List Byte) :
    (m.writeRun start bytes).read a =
        (if start ≤ a ∧ a < start + bytes.length then bytes.getD (a - start) 0 else m.read a) ∧
      (m.writeRun start bytes).parityBad a =
        (if start ≤ a ∧ a < start + bytes.length then false else m.parityBad a) := by
  induction bytes generalizing m start with
  | nil =>
    have h : ¬(start ≤ a ∧ a < start + ([] : List Byte).length) := by simp
    rw [if_neg h, if_neg h]
    exact ⟨rfl, rfl⟩
  | cons b rest ih =>
    obtain ⟨hread, hbad⟩ := ih (m.write start b) (start + 1)
    rw [TableMem.writeRun, hread, hbad, TableMem.write_read, TableMem.write_parityBad, List.length_cons]
    rcases Nat.lt_trichotomy a start with h | rfl | h
    · rw [if_neg (by omega), if_neg (by omega), if_neg (by omega), if_neg (by omega), if_neg (by omega),
        if_neg (by omega)]
      exact ⟨rfl, rfl⟩
    · simp
    · obtain ⟨d, rfl⟩ := Nat.exists_eq_add_of_lt h
      have hin : (start + 1 ≤ start + d + 1 ∧ start + d + 1 < start + 1 + rest.length) ↔
          (start ≤ start + d + 1 ∧ start + d + 1 < start + (rest.length + 1)) := by omega
      have hne : start + d + 1 ≠ start := by omega
      have e1 : start + d + 1 - (start + 1) = d := by omega
      have e2 : start + d + 1 - start = d + 1 := by omega
      simp only [hin, hne, if_false, e1, e2, List.getD_cons_succ, and_self]

/-- What a torn write leaves to read: each byte is as before, or it is the new one with good parity (log 7). -/
theorem TableMem.writeTorn_reads (m : TableMem) (occasion start i a : Nat) (bytes : List Byte) :
    ((m.writeTorn occasion start i bytes).read a = m.read a ∧
        (m.writeTorn occasion start i bytes).parityBad a = m.parityBad a) ∨
      (start + i ≤ a ∧ a < start + i + bytes.length ∧
        (m.writeTorn occasion start i bytes).read a = bytes.getD (a - (start + i)) 0 ∧
        (m.writeTorn occasion start i bytes).parityBad a = false) := by
  induction bytes generalizing m i with
  | nil => exact .inl ⟨rfl, rfl⟩
  | cons b rest ih =>
    rw [TableMem.writeTorn, List.length_cons]
    rcases ih (if Config.tornByteIsNew occasion i then m.write (start + i) b else m) (i + 1) with
      ⟨hread, hbad⟩ | ⟨hlo, hhi, hread, hbad⟩
    · rw [hread, hbad]
      split
      · rw [TableMem.write_read, TableMem.write_parityBad]
        by_cases h : a = start + i
        · subst h
          exact .inr ⟨by omega, by omega, by simp, by simp⟩
        · exact .inl ⟨if_neg h, if_neg h⟩
      · exact .inl ⟨rfl, rfl⟩
    · refine .inr ⟨by omega, by omega, ?_, hbad⟩
      obtain ⟨d, rfl⟩ := Nat.exists_eq_add_of_le hlo
      rw [hread, show start + (i + 1) + d - (start + (i + 1)) = d by omega,
        show start + (i + 1) + d - (start + i) = d + 1 by omega, List.getD_cons_succ]

/-! ### The resets (R180, R181) -/

/-- Table memory as a reset finds it: each byte is as before, or is a new one of the write in progress (R2). -/
theorem tearWrite_reads (s : State) (a : Nat) :
    (s.tearWrite.mem.read a = s.mem.read a ∧ s.tearWrite.mem.parityBad a = s.mem.parityBad a) ∨
      ∃ (x : Access) (rest : List Access) (offset : Nat) (bytes : List Byte),
        s.port.queue = x :: rest ∧ x.write = some (offset, bytes) ∧ recordAddress x.kind x.index + offset ≤ a ∧
          a < recordAddress x.kind x.index + offset + bytes.length ∧
          s.tearWrite.mem.read a = bytes.getD (a - (recordAddress x.kind x.index + offset)) 0 ∧
          s.tearWrite.mem.parityBad a = false := by
  unfold State.tearWrite
  split
  · rename_i kind index offset bytes owner rest hq
    rcases s.mem.writeTorn_reads s.torn (recordAddress kind index + offset) 0 a bytes with h | h
    · exact .inl h
    · exact .inr ⟨_, rest, offset, bytes, hq, rfl, h⟩
  · exact .inl ⟨rfl, rfl⟩

theorem TableMem.writeTorn_epoch (m : TableMem) (occasion start i : Nat) (bytes : List Byte) :
    (m.writeTorn occasion start i bytes).epoch = m.epoch := by
  induction bytes generalizing m i with
  | nil => rfl
  | cons b rest ih =>
    rw [TableMem.writeTorn, ih]
    split <;> rfl

/-- What a reset that abandons the access in progress leaves of the pins, the waiting rows and the memory epoch. -/
theorem tearWrite_outside (s : State) :
    s.tearWrite.pins = s.pins ∧ s.tearWrite.pending = s.pending ∧ s.tearWrite.mem.epoch = s.mem.epoch := by
  unfold State.tearWrite
  split
  · exact ⟨rfl, rfl, TableMem.writeTorn_epoch ..⟩
  · exact ⟨rfl, rfl, rfl⟩

/-- A power, pin or clock reset leaves every block but table memory at its reset value. -/
theorem inReset_eq (s : State) (cause : ResetCause) :
    s.inReset cause false =
      { State.reset with
        mem := s.mem, rst := { held := true, cause, phase := .none }, pins := s.pins, torn := s.torn
        pending := s.pending } := rfl

/-- Settles O45. -/
theorem resetsLeave : Obligations.ResetsLeave := by
  intro s
  obtain ⟨hpins, hpending, hepoch⟩ := tearWrite_outside s
  refine ⟨?_, ⟨(s.tearWrite.onMem TableMem.lost).inReset .power false, rfl, ?_⟩, fun h => ?_, fun h => ?_⟩
  · intro i cause hi
    refine ⟨s.tearWrite.inReset cause false, ?_, ?_, tearWrite_reads s⟩
    · rcases hi with ⟨rfl, rfl⟩ | ⟨rfl, rfl⟩ | ⟨rfl, rfl⟩ <;> rfl
    · rw [inReset_eq, hpins, hpending]
  · rw [inReset_eq, State.onMem_mem, State.onMem_pins, State.onMem_pending, TableMem.lost, hpins, hpending, hepoch]
    rfl
  · simp only [exec, execCommandReset, if_neg h]
  · simp only [exec, execCommandReset, if_pos h]
    have hstate : s.tables.state.afterCommandReset = if s.tables.state = .empty then .empty else .loaded := by
      cases s.tables.state <;> rfl
    simp only [State.inReset, if_true, hstate]
    rfl

/-! ### Record writes (R5, R21, R22) -/

/-- What a write of a load or of LOAD LEADS leaves: the last one is answered. -/
theorem accessDone_load (s : State) {a : Access} {tag code : Byte} {last : Bool} (bytes : Option (List Byte))
    (h : a.owner = .load tag code last ∨ (a.owner = .leads tag last ∧ code = 0x0B)) :
    (s.accessDone a bytes).settled = if last then s.replied tag code .ok [] else s.settled := by
  rcases h with h | ⟨h, rfl⟩
  all_goals
    simp only [State.accessDone, h]
    cases last
    · rfl
    · exact reply_settled ..

/-- A boundary that is not the step's last and stops no run goes on with the owner's next measurement (R31). -/
theorem runBoundary_goesOn (h : s.runGoesOn) (goOn : State → State) : s.runBoundary false goOn = goOn s := by
  obtain ⟨hlimit, harmed, hpause⟩ := h
  simp only [State.runBoundary, Nat.not_le.mpr hlimit, harmed, hpause, Bool.false_eq_true, if_false]

/-- A net of a LEADCAL step has another member position after the one under the cursor. -/
theorem nextPosition_leadcal {w : Sweep} {m : Nat} (hk : w.kind = some .leadcal) (hm : w.memberCursor = some m)
    (hlt : m + 1 < w.net.count) : w.nextPosition = some (m + 1) := by
  simp [Sweep.nextPosition, Sweep.positionFrom, hk, hm, hlt]

theorem netOver_leadcal {w : Sweep} {m : Nat} (hk : w.kind = some .leadcal) (hnet : w.netDone = false)
    (hm : w.memberCursor = some m) (hlt : m + 1 < w.net.count) : w.netOver = false := by
  simp [Sweep.netOver, hk, hnet, nextPosition_leadcal hk hm hlt]

/-- A member visit with the fixed module Alive reads the member position (R103). -/
theorem sweepVisit_alive (h : s.alive (s.sweep.fixedModule.getD 0) = true) (pos : Nat) :
    s.sweepVisit pos =
      { s with
        port := { queue := s.port.queue ++ [readFor .members (s.sweep.net.first + pos) .sweepRead] }
        sweep :=
          { s.sweep with
            state := .reading, memberCursor := some pos, visitedPoint := none, visitedModule := none
            reading := .memberPos } } := by
  rw [State.sweepVisit, if_pos h]
  rfl

/-- A LEADCAL step whose net has another member position goes on with its visit (R103). -/
theorem sweepGoOn_leadcal {p : Nat} (hk : s.sweep.kind = some .leadcal) (hover : s.sweep.netOver = false)
    (hnext : s.sweep.nextPosition = some p) : s.sweepGoOn = s.sweepVisit p := by
  rw [State.sweepGoOn, hover, hk]
  simp only [Bool.false_eq_true, if_false, State.sweepNextMember, hnext]

/-- The boundary of a LEADCAL visit that is not its net's last, where the run goes on: the next member position is read
(R102, R103). -/
theorem atBoundary_leadcal {m : Nat} (hk : s.sweep.kind = some .leadcal) (hnet : s.sweep.netDone = false)
    (hm : s.sweep.memberCursor = some m) (hlt : m + 1 < s.sweep.net.count)
    (halive : s.alive (s.sweep.fixedModule.getD 0) = true) (hgo : s.runGoesOn) :
    s.atBoundary =
      { s with
        port := { queue := s.port.queue ++ [readFor .members (s.sweep.net.first + (m + 1)) .sweepRead] }
        sweep :=
          { s.sweep with
            state := .reading, inHand := none, memberCursor := some (m + 1), visitedPoint := none
            visitedModule := none, reading := .memberPos } } := by
  generalize hx : (s.onSweep fun w => { w with state := .idle, inHand := none }) = x
  obtain ⟨hover, hnext, hk', hgo', halive'⟩ : x.sweep.netOver = false ∧ x.sweep.nextPosition = some (m + 1) ∧
      x.sweep.kind = some .leadcal ∧ x.runGoesOn ∧ x.alive (x.sweep.fixedModule.getD 0) = true := by
    subst hx
    exact ⟨netOver_leadcal hk hnet hm hlt, nextPosition_leadcal hk hm hlt, hk, hgo, halive⟩
  rw [State.atBoundary, netOver_leadcal hk hnet hm hlt, Bool.false_and, hx, runBoundary_goesOn hgo',
    sweepGoOn_leadcal hk' hover hnext, sweepVisit_alive halive']
  subst hx
  rfl

/-- Settles O32. -/
theorem loadWriteCompletes : Obligations.LoadWriteCompletes := by
  refine ⟨fun m a b => ⟨write_onesOf m a b, parityBad_iff m a⟩,
    fun m start a bytes => TableMem.writeRun_reads m start a bytes, ?_, ?_⟩
  · intro s p lead rest busy hacc
    have hrun := exec_written hacc rfl none busy
    have hcache : ∀ c : Cache, c.writeLead p lead =
        { c with entries := c.entries.map fun e =>
            if e.valid = true ∧ e.tag = p then { e with copy := { e.copy with lead } } else e } := by
      intro c
      simp [Cache.writeLead]
    intro done
    have hdone : (State.onCache
        { s.accessed rest busy with
          mem := s.mem.writeRun (recordAddress .points p + 3) (be16 lead) } fun c => c.writeLead p lead) = done := by
      simp only [State.onCache, hcache]
      rfl
    simp only [State.accessDone, State.leadWritten, upsetRecord_eq] at hrun
    rw [hdone] at hrun
    refine ⟨fun hno => ?_, fun m hst hv hk hnet hm hlt halive hgo => ?_⟩
    · rw [hrun, if_neg]
      rw [Bool.and_eq_true, decide_eq_true_eq, decide_eq_true_eq, not_and_or]
      exact hno
    · rw [hrun, if_pos (by simp [State.accessed, hst, hv])]
      rw [atBoundary_leadcal (s := done) hk hnet hm hlt halive hgo]
      rfl
  · intro s a rest offset bytes upset busy tag code last hheld hphase hq hw hindex howner
    have hrun := exec_written ⟨hheld, hphase, hindex, hq⟩ hw upset busy
    rw [accessDone_load _ none howner, upsetRecord_eq] at hrun
    exact hrun

end Sys2Proof.Machine
end

section
/-! PROOFS. The ring transmit queue and the wait list (R67, R171): what placing frames leaves unchanged, that no frame
is lost on the way, and what becomes of a poll round. -/

namespace Sys2Proof.Machine

variable {s t u : State}

/-- What the placing of waiting frames keeps, one frame and one POL handed over at a time, the whole of it keeps. -/
theorem fillQueue_keeps {P : State → Prop} (offer : ∀ s, P s → P s.offerPoll)
    (place : ∀ s e rest, s.ring.wait = e :: rest → s.ring.queue.length < 8 → P s →
      P ((s.onRing fun r => { r with wait := rest }).placeOwn e)) (n : Nat) (h : P s) : P (s.fillQueue n) := by
  induction n generalizing s with
  | zero => exact h
  | succ n ih =>
    rw [State.fillQueue]
    have ho := offer s h
    split
    · exact ho
    · rename_i room
      split
      · exact ho
      · rename_i e rest hw
        exact ih (place _ e rest hw (Nat.not_le.mp room) ho)

theorem pump_keeps {P : State → Prop} (offer : ∀ s, P s → P s.offerPoll)
    (place : ∀ s e rest, s.ring.wait = e :: rest → s.ring.queue.length < 8 → P s →
      P ((s.onRing fun r => { r with wait := rest }).placeOwn e)) (h : P s) : P s.pump :=
  fillQueue_keeps offer place 9 h

/-! ### What placing frames leaves unchanged -/

/-- A state differs from another only as the Ring Interface makes it differ: in the ring, the poll list, the
transactions, the HOME's tag and the tags of the Measurement Controller (R53, R61, R67, R78, R82). -/
def State.ringServed (s t : State) : Prop :=
  t = { s with
    ring := t.ring
    sup := { s.sup with pollList := t.sup.pollList }
    seq := { s.seq with
      transactions := t.seq.transactions, home := { s.seq.home with tag := t.seq.home.tag } }
    mc := { s.mc with curTag := t.mc.curTag, prevTag := t.mc.prevTag } }

theorem State.ringServed.refl (s : State) : s.ringServed s := rfl

theorem State.ringServed.trans (h : s.ringServed t) (j : t.ringServed u) : s.ringServed u := by
  unfold State.ringServed at h j ⊢
  refine j.trans ?_
  rw [h]

theorem State.ringServed.fault (h : s.ringServed t) : t.fault = s.fault := by
  rw [State.ringServed] at h
  rw [h]

theorem State.ringServed.hv (h : s.ringServed t) : t.hv = s.hv := by
  rw [State.ringServed] at h
  rw [h]

theorem ringServed_onRing (s : State) (f : Ring → Ring) : s.ringServed (s.onRing f) := rfl

theorem ringServed_offerPoll (s : State) : s.ringServed s.offerPoll := by
  unfold State.offerPoll
  repeat' split
  all_goals rfl

theorem ringServed_placedAct (s : State) (owner : RingOwner) (tag : Nat) : s.ringServed (s.placedAct owner tag) := by
  cases owner with
  | hvc n closing =>
    simp only [State.placedAct]
    split <;> rfl
  | _ => rfl

theorem ringServed_placeOwn (s : State) (e : RingEntry) : s.ringServed (s.placeOwn e) :=
  (ringServed_onRing s _).trans (ringServed_placedAct _ _ _)

theorem ringServed_pump (s : State) : s.ringServed s.pump :=
  pump_keeps (P := s.ringServed) (fun _ h => h.trans (ringServed_offerPoll _))
    (fun _ e _ _ _ h => h.trans ((ringServed_onRing _ _).trans (ringServed_placeOwn _ e))) (.refl s)

theorem ringServed_handOver (s : State) (e : RingEntry) : s.ringServed (s.handOver e) :=
  (ringServed_onRing s _).trans (ringServed_pump _)

theorem ringServed_withdraw (s : State) (gone : RingEntry → Bool) : s.ringServed (s.withdraw gone) :=
  (ringServed_onRing s _).trans (ringServed_pump _)

/-! ### No frame is lost or added on the way -/

/-- What a frame of the ring transmit queue or the wait list is but for its tag. -/
def RingEntry.content (e : RingEntry) : RingOwner × Byte × Byte × Byte × List Byte :=
  (e.owner, e.frame.dst, e.frame.src, e.frame.cls, e.frame.payload)

/-- The frames still to be sent, but for their tags. -/
def State.frames (s : State) : List (RingOwner × Byte × Byte × Byte × List Byte) :=
  (s.ring.queue ++ s.ring.wait).map RingEntry.content

theorem placedAct_ring (s : State) (owner : RingOwner) (tag : Nat) : (s.placedAct owner tag).ring = s.ring := by
  cases owner with
  | hvc n closing =>
    simp only [State.placedAct]
    split <;> rfl
  | _ => rfl

/-- The oldest waiting frame is placed at the tail of the queue with the own-tag counter's value (R171). -/
theorem placeOwn_ring {e : RingEntry} {rest : List RingEntry} :
    ((s.onRing fun r => { r with wait := rest }).placeOwn e).ring =
      { queue := s.ring.queue ++ [{ e with frame := { e.frame with tag := byte s.ring.ownTag } }]
        wait := rest, ownTag := (s.ring.ownTag + 1) % 128 } := placedAct_ring ..

theorem placeOwn_frames {e : RingEntry} {rest : List RingEntry} (h : s.ring.wait = e :: rest) :
    ((s.onRing fun r => { r with wait := rest }).placeOwn e).frames = s.frames := by
  simp [State.frames, placeOwn_ring, h, RingEntry.content]

/-- With no poll due the frames are those that were there, and no poll becomes due. -/
theorem pump_frames (h : s.sup.pollList = []) : s.pump.frames = s.frames ∧ s.pump.sup.pollList = [] := by
  refine pump_keeps (P := fun t => t.frames = s.frames ∧ t.sup.pollList = []) ?_ ?_ ⟨rfl, h⟩
  · rintro t ⟨hf, hp⟩
    rw [State.offerPoll, hp]
    exact ⟨hf, hp⟩
  · rintro t e rest hw _ ⟨hf, hp⟩
    refine ⟨(placeOwn_frames hw).trans hf, ?_⟩
    simp only [State.placeOwn]
    cases e.owner with
    | poll a => simp [State.placedAct, hp]
    | hvc n closing =>
      simp only [State.placedAct]
      split <;> exact hp
    | _ => exact hp

theorem handOver_frames (h : s.sup.pollList = []) (e : RingEntry) :
    (s.handOver e).frames = s.frames ++ [e.content] ∧ (s.handOver e).sup.pollList = [] := by
  obtain ⟨hf, hp⟩ := pump_frames (s := s.onRing fun r => { r with wait := r.wait ++ [e] }) h
  exact ⟨hf.trans (by simp [State.frames]), hp⟩

/-- A frame still to be sent stays one. -/
theorem pump_frames_mem {c : RingOwner × Byte × Byte × Byte × List Byte} (h : c ∈ s.frames) : c ∈ s.pump.frames := by
  refine pump_keeps (P := fun t => c ∈ t.frames) ?_ ?_ h
  · intro t ht
    unfold State.offerPoll
    split
    · exact ht
    · split
      · exact ht
      · simp only [State.frames, State.onRing_ring, List.map_append, List.mem_append] at ht ⊢
        tauto
  · intro t e rest hw _ ht
    rwa [placeOwn_frames hw]

/-- A frame handed over is still to be sent. -/
theorem handOver_frames_mem (s : State) (e : RingEntry) : e.content ∈ (s.handOver e).frames :=
  pump_frames_mem (by simp [State.frames])

theorem offerPoll_nothing (h : s.sup.pollList = []) : s.offerPoll = s := by
  rw [State.offerPoll, h]

theorem fillQueue_nothing (hp : s.sup.pollList = []) (hw : s.ring.wait = []) (n : Nat) : s.fillQueue n = s := by
  cases n with
  | zero => rfl
  | succ n =>
    rw [State.fillQueue, offerPoll_nothing hp, hw]
    split <;> rfl

theorem fillQueue_places {e : RingEntry} {rest : List RingEntry} (ho : s.offerPoll = t) (room : t.ring.queue.length < 8)
    (hw : t.ring.wait = e :: rest) (n : Nat) :
    s.fillQueue (n + 1) = ((t.onRing fun r => { r with wait := rest }).placeOwn e).fillQueue n := by
  rw [State.fillQueue, ho, if_neg (Nat.not_le.mpr room), hw]

theorem placedAct_pollList (owner : RingOwner) (tag : Nat) (h : s.sup.pollList = []) :
    (s.placedAct owner tag).sup.pollList = [] := by
  cases owner with
  | poll a => simp [State.placedAct, h]
  | hvc n closing =>
    simp only [State.placedAct]
    split <;> exact h
  | _ => exact h

/-- A frame that finds room at once is placed with its tag (R171). -/
theorem handOver_ringFree (h : s.ringFree) (e : RingEntry) :
    s.handOver e =
      { s with ring :=
          { s.ring with
            queue := s.ring.queue ++ [{ e with frame := { e.frame with tag := byte s.ring.ownTag } }]
            ownTag := (s.ring.ownTag + 1) % 128 } }.placedAct e.owner s.ring.ownTag := by
  obtain ⟨hwait, hpoll, hroom⟩ := h
  have hw : (s.onRing fun r => { r with wait := r.wait ++ [e] }).ring.wait = [e] := by simp [hwait]
  have hplaced : ((s.onRing fun r => { r with wait := r.wait ++ [e] }).onRing fun r =>
    { r with wait := [] }).placeOwn e =
      { s with ring :=
          { s.ring with
            queue := s.ring.queue ++ [{ e with frame := { e.frame with tag := byte s.ring.ownTag } }]
            ownTag := (s.ring.ownTag + 1) % 128 } }.placedAct e.owner s.ring.ownTag := by
    simp only [State.placeOwn, State.onRing, hwait]
  have hoffer := offerPoll_nothing (s := s.onRing fun r => { r with wait := r.wait ++ [e] }) hpoll
  rw [State.handOver, State.pump, fillQueue_places hoffer hroom hw, hplaced]
  refine fillQueue_nothing ?_ ?_ 8
  · exact placedAct_pollList _ _ hpoll
  · rw [placedAct_ring]
    exact hwait

/-! ### A poll round (R67) -/

/-- The POL of a node, as it waits. -/
def pollEntry (a : Nat) : RingEntry := { frame := ownFrame a clsPol [], owner := .poll a }

/-- A poll due is in the poll list, or its POL is in the ring transmit queue; a POL that waits is the chip's own. -/
def State.pollsOut (nodes : List Nat) (s : State) : Prop :=
  (∀ e ∈ s.ring.wait, ∀ a, e.owner = .poll a → e.content = (pollEntry a).content) ∧
    ∀ a ∈ nodes, a ∈ s.sup.pollList ∨ ∃ e ∈ s.ring.queue, e.content = (pollEntry a).content

theorem pollsOut_pump {nodes : List Nat} (h : s.pollsOut nodes) : s.pump.pollsOut nodes := by
  refine pump_keeps (P := State.pollsOut nodes) ?_ ?_ h
  · rintro t ⟨hwait, hnodes⟩
    unfold State.offerPoll
    split
    · exact ⟨hwait, hnodes⟩
    · split
      · exact ⟨hwait, hnodes⟩
      · rename_i a _ _ _
        refine ⟨fun e he b hb => ?_, hnodes⟩
        rcases List.mem_append.mp he with he | he
        · exact hwait e he b hb
        · obtain rfl : e = pollEntry a := List.mem_singleton.mp he
          obtain rfl : a = b := by simpa [pollEntry] using hb
          rfl
  · rintro t e rest hw _ ⟨hwait, hnodes⟩
    have hqueue : ((t.onRing fun r => { r with wait := rest }).placeOwn e).ring = _ := placeOwn_ring
    have hpolls : ∀ a ∈ t.sup.pollList, a ∈ ((t.onRing fun r => { r with wait := rest }).placeOwn e).sup.pollList ∨
        e.owner = .poll a := by
      intro a ha
      simp only [State.placeOwn]
      cases howner : e.owner with
      | poll b =>
        by_cases hab : a = b
        · exact .inr (hab ▸ rfl)
        · exact .inl ((List.mem_erase_of_ne hab).mpr ha)
      | hvc n closing =>
        simp only [State.placedAct]
        split <;> exact .inl ha
      | _ => exact .inl ha
    refine ⟨?_, fun a ha => ?_⟩
    · rw [hqueue]
      exact fun x hx => hwait x (hw ▸ List.mem_cons_of_mem _ hx)
    · rw [hqueue]
      rcases hnodes a ha with hp | ⟨x, hx, hc⟩
      · refine (hpolls a hp).imp_right fun howner => ⟨_, List.mem_append_right _ (List.mem_singleton_self _), ?_⟩
        exact hwait e (hw ▸ List.mem_cons_self) a howner
      · exact .inr ⟨x, List.mem_append_left _ hx, hc⟩

theorem pollsOut_handOver {nodes : List Nat} (h : s.pollsOut nodes) {e : RingEntry} (he : e.isPoll = false) :
    (s.handOver e).pollsOut nodes := by
  refine pollsOut_pump ⟨fun x hx a ha => ?_, h.2⟩
  rcases List.mem_append.mp hx with hx | hx
  · exact h.1 x hx a ha
  · obtain rfl := List.mem_singleton.mp hx
    rw [RingEntry.isPoll, ha] at he
    cases he

/-- A poll round with nothing else waiting: as many POLs as find room are placed in order with the own tags that come
next, and the first of the others waits (R67, R171). -/
theorem fillQueue_polls (nodes : List Nat) (hp : s.sup.pollList = nodes) (hw : s.ring.wait = [])
    (ht : s.ring.ownTag < 128) (n : Nat) (hn : 8 - s.ring.queue.length < n) :
    (s.fillQueue n).sup.pollList = nodes.drop (8 - s.ring.queue.length) ∧
      (s.fillQueue n).ring.queue = s.ring.queue ++ (nodes.take (8 - s.ring.queue.length)).mapIdx (fun i a =>
        ({ frame :=
            { dst := byte a, src := 0, cls := clsPol, tag := byte ((s.ring.ownTag + i) % 128), payload := [] }
           owner := .poll a } : RingEntry)) ∧
      (s.fillQueue n).ring.wait.map (·.owner) =
        (nodes.drop (8 - s.ring.queue.length)).head?.toList.map .poll := by
  induction n generalizing s nodes with
  | zero => cases hn
  | succ n ih =>
    cases nodes with
    | nil =>
      rw [fillQueue_nothing hp hw]
      simp [hp, hw]
    | cons a rest =>
      have hoffer : s.offerPoll = s.onRing fun r => { r with wait := [pollEntry a] } := by
        simp [State.offerPoll, hp, hw, State.onRing, pollEntry]
      by_cases hroom : 8 ≤ s.ring.queue.length
      · rw [State.fillQueue, hoffer,
          if_pos (show 8 ≤ (s.onRing fun r => { r with wait := [pollEntry a] }).ring.queue.length from hroom),
          Nat.sub_eq_zero_of_le hroom]
        exact ⟨hp, (List.append_nil _).symm, rfl⟩
      · rw [fillQueue_places hoffer (Nat.not_le.mp hroom) rfl]
        generalize hx : (((s.onRing fun r => { r with wait := [pollEntry a] }).onRing fun r =>
          { r with wait := [] }).placeOwn (pollEntry a)) = x
        have hring : x.ring = _ := hx ▸ placeOwn_ring
        have hpolls : x.sup.pollList = rest := by
          subst hx
          exact (congrArg (·.erase a) hp).trans (List.erase_cons_head ..)
        have hlen : x.ring.queue.length = s.ring.queue.length + 1 := by rw [hring]; simp
        obtain ⟨h1, h2, h3⟩ := ih (s := x) rest hpolls (by rw [hring]) (by rw [hring]; exact Nat.mod_lt _ (by decide))
          (by omega)
        have hk : 8 - s.ring.queue.length = 8 - x.ring.queue.length + 1 := by omega
        rw [hk, List.drop_succ_cons, List.take_succ_cons, List.mapIdx_cons]
        refine ⟨h1, ?_, h3⟩
        rw [h2, hring]
        simp [pollEntry, ownFrame, Nat.mod_eq_of_lt ht, Nat.add_assoc, Nat.add_comm 1]

end Sys2Proof.Machine
end

section
/-! PROOFS. LOAD MODULES (O26). -/

namespace Sys2Proof.Machine

variable {s t u : State}

/-! ### Notices keep the frames of the trunk transmit queue (R173) -/

theorem noticeDue_trunk_mem {e : TrunkEntry} (h : e ∈ s.trunk.queue) (hk : e.kind ≠ .notice) :
    e ∈ s.noticeDue.trunk.queue := by
  rw [← Trunk.sent_append_unsent] at h
  unfold State.noticeDue
  simp only
  split
  · split
    · rcases List.mem_append.mp h with h | h
      · exact List.mem_append_left _ h
      · exact List.mem_append_right _ (List.mem_cons_of_mem _ (List.mem_filter.mpr ⟨h, by simpa using hk⟩))
    · rcases List.mem_append.mp h with h | h
      · exact List.mem_append_left _ h
      · exact List.mem_append_right _ (List.mem_map.mpr ⟨e, h, if_neg hk⟩)
  · split
    · rwa [Trunk.sent_append_unsent] at h
    · split
      · rcases List.mem_append.mp h with h | h
        · exact List.mem_append_left _ h
        · exact List.mem_append_right _ (List.mem_cons_of_mem _ h)
      · exact List.mem_append_left _ h

/-- Raising an event loses no reply. -/
theorem raise_trunk_mem {e : TrunkEntry} (h : e ∈ s.trunk.queue) (hk : e.kind ≠ .notice) (ev : Event) :
    e ∈ (s.raise ev).trunk.queue := by
  unfold State.raise
  split
  · exact h
  · split
    · exact h
    · exact noticeDue_trunk_mem h hk

/-! ### The start of a monitor period (R66, R139) -/

/-- A state differs from another only as the Ring Interface and the Measurement Controller make it differ. -/
def State.mcServed (s t : State) : Prop :=
  t = { s with
    ring := t.ring
    sup := { s.sup with pollList := t.sup.pollList }
    seq := { s.seq with
      transactions := t.seq.transactions, home := { s.seq.home with tag := t.seq.home.tag } }
    mc := t.mc }

theorem State.ringServed.mcServed (h : s.ringServed t) : s.mcServed t := by
  unfold State.ringServed State.mcServed at *
  exact h.trans (by rw [h])

theorem State.mcServed.trans (h : s.mcServed t) (j : t.mcServed u) : s.mcServed u := by
  unfold State.mcServed at h j ⊢
  refine j.trans ?_
  rw [h]

theorem mcServed_openStream (s : State) (payload : List Byte) : s.mcServed (s.openStream payload) := by
  unfold State.openStream
  split
  · rfl
  · exact State.mcServed.trans (t := s.onMc _) rfl (ringServed_handOver _ _).mcServed

theorem mcServed_periodDischarge (s : State) : s.mcServed s.periodDischarge := by
  unfold State.periodDischarge
  split
  · split
    · rfl
    · exact (ringServed_handOver _ _).mcServed
  · exact mcServed_openStream _ _
  · rfl

theorem pollsOut_periodDischarge {nodes : List Nat} (h : s.pollsOut nodes) : s.periodDischarge.pollsOut nodes := by
  unfold State.periodDischarge State.openStream
  split
  · split
    · exact h
    · exact pollsOut_handOver h rfl
  · split
    · exact h
    · exact pollsOut_handOver (s := s.onMc _) h rfl
  · exact h

/-- Out of SAFE-HALT the signal to the HV Controller at a period start opens or renews a discharge, or does nothing. -/
theorem hvPeriod_cases (h : s.fault.safeHalt = false) : s.hvPeriod = s ∨ s.hvPeriod = s.periodDischarge := by
  unfold State.hvPeriod
  split
  · exact .inl (by simp [h])
  · split
    · exact .inr rfl
    · exact .inl rfl
  · exact .inr rfl
  · exact .inl rfl

theorem hvPeriod_safe (h : s.fault.safeHalt = false) (hv : s.hv.state = .safe) : s.hvPeriod = s := by
  simp [State.hvPeriod, hv, h]

/-- The state of a period start before any POL is placed. -/
def State.periodBegun (s : State) : State :=
  s.onSup fun u => { u with timer := some s.limits.timing.period, pollList := s.modules ++ [headAddress] }

theorem periodStart_eq (h : s.fault.safeHalt = false) : s.periodStart = s.periodBegun.pump.hvPeriod := by
  simp [State.periodStart, State.periodBegun, h]

theorem mcServed_periodStart (h : s.fault.safeHalt = false) : s.periodBegun.mcServed s.periodStart := by
  rw [periodStart_eq h]
  have hpump := (ringServed_pump s.periodBegun).mcServed
  rcases hvPeriod_cases (s := s.periodBegun.pump) (by rw [(ringServed_pump _).fault]; exact h) with e | e
  · rwa [e]
  · rw [e]
    exact hpump.trans (mcServed_periodDischarge _)

theorem pollsOut_periodStart (h : s.fault.safeHalt = false) (hw : ∀ e ∈ s.ring.wait, e.isPoll = false) :
    s.periodStart.pollsOut (s.modules ++ [headAddress]) := by
  have hbegun : s.periodBegun.pollsOut (s.modules ++ [headAddress]) := by
    refine ⟨fun e he a ha => ?_, fun a ha => .inl ha⟩
    have := hw e he
    rw [RingEntry.isPoll, ha] at this
    cases this
  rw [periodStart_eq h]
  rcases hvPeriod_cases (s := s.periodBegun.pump) (by rw [(ringServed_pump _).fault]; exact h) with e | e
  · rw [e]
    exact pollsOut_pump hbegun
  · rw [e]
    exact pollsOut_periodDischarge (pollsOut_pump hbegun)

theorem periodStart_safe (h : s.fault.safeHalt = false) (hv : s.hv.state = .safe) :
    s.periodStart = s.periodBegun.fillQueue 9 := by
  have hpump := ringServed_pump s.periodBegun
  rw [periodStart_eq h, hvPeriod_safe (by rw [hpump.fault]; exact h) (by rw [hpump.hv]; exact hv)]
  rfl

/-! ### The channel counts and the believed states (R12, R63) -/

theorem channels_congr (h : t.sup.nodes = s.sup.nodes) (a : Nat) : t.channels a = s.channels a := by
  rw [State.channels, State.node?, h]
  rfl

/-- Entries that keep their channel counts keep those of the addresses. -/
theorem channels_of_map (h : t.sup.nodes.map (·.channels) = s.sup.nodes.map (·.channels)) (a : Nat) :
    t.channels a = s.channels a := by
  have hnode : ∀ x : State, x.channels a = ((nodeIndex a).bind fun i => (x.sup.nodes.map (·.channels))[i]?).getD 0 := by
    intro x
    unfold State.channels State.node?
    cases nodeIndex a with
    | none => rfl
    | some i => simp
  rw [hnode, hnode, h]

theorem modules_congr (h : ∀ a, t.channels a = s.channels a) : t.modules = s.modules := by
  simp only [State.modules, h]

/-- One channel count is written: its address has it, becomes UNKNOWN, and no other changes. -/
def State.writeChannel (s : State) (address c : Nat) : State :=
  (s.onSup fun u =>
    { u with nodes := u.nodes.modify (address - 1) fun n => { n with channels := c } }).believe address none

theorem writeChannel_channels (hlen : s.sup.nodes.length = 65) {b c : Nat} (h1 : 1 ≤ b) (h64 : b ≤ 64) (a : Nat) :
    (s.writeChannel b c).channels a = if a = b then c else s.channels a := by
  have hnodes : (s.writeChannel b c).sup.nodes = s.sup.nodes.modify (b - 1) fun n => { n with channels := c } := by
    simp [State.writeChannel, State.believe, h1]
  simp only [State.channels, State.node?, hnodes, nodeIndex, headAddress]
  by_cases hab : a = b
  · subst hab
    have hlt : a - 1 < s.sup.nodes.length := by omega
    simp [h1, h64, hlt]
  · rw [if_neg hab]
    by_cases ha : 1 ≤ a ∧ a ≤ 64
    · simp [ha, List.getElem?_modify, show b - 1 ≠ a - 1 by omega]
    · by_cases h72 : a = 72
      · simp [h72, List.getElem?_modify, show b - 1 ≠ 64 by omega]
      · simp [ha, h72]

theorem writeChannel_believed {b c : Nat} (h1 : 1 ≤ b) (a : Nat) :
    (s.writeChannel b c).believed a = if a = b then none else s.believed a := by
  simp only [State.writeChannel, State.believe, h1, if_true, State.believed, State.onSeq_seq, State.onSup_seq]
  by_cases hab : a = b
  · subst hab
    simp only [h1, if_true, List.getElem?_set_self']
    cases s.seq.believed[a - 1]? <;> rfl
  · rw [if_neg hab]
    by_cases ha : 1 ≤ a
    · simp [ha, show b - 1 ≠ a - 1 by omega]
    · simp [ha]

/-- Channel counts written from an address on. -/
theorem writeChannels_spec (cs : List Nat) (hlen : s.sup.nodes.length = 65) {b : Nat} (h1 : 1 ≤ b)
    (h65 : b + cs.length ≤ 65) (a : Nat) :
    (s.writeChannels b cs).channels a = (if b ≤ a ∧ a < b + cs.length then cs.getD (a - b) 0 else s.channels a) ∧
      (s.writeChannels b cs).believed a = (if b ≤ a ∧ a < b + cs.length then none else s.believed a) := by
  induction cs generalizing s b with
  | nil =>
    have h : ¬(b ≤ a ∧ a < b + ([] : List Nat).length) := by simp
    rw [if_neg h, if_neg h]
    exact ⟨rfl, rfl⟩
  | cons c rest ih =>
    rw [List.length_cons] at h65
    have hlen' : (s.writeChannel b c).sup.nodes.length = 65 := by
      simp [State.writeChannel, State.believe, h1, hlen]
    obtain ⟨hch, hbel⟩ := ih hlen' (b := b + 1) (by omega) (by omega)
    change (State.writeChannels (s.writeChannel b c) (b + 1) rest).channels a = _ ∧
      (State.writeChannels (s.writeChannel b c) (b + 1) rest).believed a = _
    rw [hch, hbel, writeChannel_channels hlen h1 (by omega), writeChannel_believed h1, List.length_cons]
    rcases Nat.lt_trichotomy a b with h | rfl | h
    · rw [if_neg (by omega), if_neg (by omega), if_neg (by omega), if_neg (by omega), if_neg (by omega),
        if_neg (by omega)]
      exact ⟨rfl, rfl⟩
    · simp
    · obtain ⟨d, rfl⟩ := Nat.exists_eq_add_of_lt h
      have hin : (b + 1 ≤ b + d + 1 ∧ b + d + 1 < b + 1 + rest.length) ↔
          (b ≤ b + d + 1 ∧ b + d + 1 < b + (rest.length + 1)) := by omega
      have hne : b + d + 1 ≠ b := by omega
      have e1 : b + d + 1 - (b + 1) = d := by omega
      have e2 : b + d + 1 - b = d + 1 := by omega
      simp only [hin, hne, if_false, e1, e2, List.getD_cons_succ, and_self]

/-- What writing channel counts leaves: the entries but for their counts, and every block but the module table and the
believed states. -/
theorem writeChannels_eq (cs : List Nat) (b : Nat) (s : State) :
    s.writeChannels b cs =
        { s with
          sup := { s.sup with nodes := (s.writeChannels b cs).sup.nodes }
          seq := { s.seq with believed := (s.writeChannels b cs).seq.believed } } ∧
      (s.writeChannels b cs).sup.nodes.map (fun n => { n with channels := 0 }) =
        s.sup.nodes.map fun n => { n with channels := 0 } := by
  induction cs generalizing s b with
  | nil => exact ⟨rfl, rfl⟩
  | cons c rest ih =>
    obtain ⟨heq, hnodes⟩ := ih (b + 1) (s.writeChannel b c)
    have hone : s.writeChannel b c =
        { s with
          sup := { s.sup with nodes := s.sup.nodes.modify (b - 1) fun n => { n with channels := c } }
          seq := { s.seq with believed := (s.writeChannel b c).seq.believed } } := by
      unfold State.writeChannel State.believe
      split <;> rfl
    have hrest : s.writeChannels b (c :: rest) = (s.writeChannel b c).writeChannels (b + 1) rest := rfl
    rw [hrest]
    generalize s.writeChannel b c = x at *
    refine ⟨heq.trans ?_, hnodes.trans ?_⟩
    · rw [hone]
    · rw [hone]
      exact map_modify_of_same (f := fun n => { n with channels := c }) (g := fun n => { n with channels := 0 })
        (fun _ => rfl) (b - 1) s.sup.nodes

/-! ### LOAD MODULES (R12, R73) -/

theorem loadModulesArgs_accepts {first : Nat} {counts : List Byte} (hne : counts ≠ []) (h1 : 1 ≤ first)
    (h65 : first + counts.length ≤ 65) (hc : ∀ c ∈ counts, c.toNat ≤ 128) :
    loadModulesArgs (be16 first ++ counts) = some (first, counts.map (·.toNat)) := by
  have hw : wordAt (be16 first ++ counts) 0 = first := wordAt_be16 (by omega) counts
  have hdrop : (be16 first ++ counts).drop 2 = counts := rfl
  have hlen : 0 < counts.length := List.length_pos_iff_ne_nil.mpr hne
  simp only [loadModulesArgs, hw, hdrop, List.length_append, be16_length, List.length_map]
  rw [if_neg]
  simp only [Bool.or_eq_true, decide_eq_true_eq, List.any_map, List.any_eq_true, Function.comp]
  rintro (((h | h) | h) | ⟨c, hmem, h⟩)
  · omega
  · omega
  · omega
  · exact absurd (hc c hmem) (by omega)

theorem loadModulesArgs_refuses {args : List Byte}
    (h : ¬∃ (first : Nat) (counts : List Byte), args = be16 first ++ counts ∧ counts ≠ [] ∧ 1 ≤ first ∧
      first + counts.length ≤ 65 ∧ ∀ c ∈ counts, c.toNat ≤ 128) : loadModulesArgs args = none := by
  by_contra hne
  refine h ⟨wordAt args 0, args.drop 2, ?_⟩
  unfold loadModulesArgs at hne
  simp only [ite_eq_left_iff, not_forall, Bool.or_eq_true, decide_eq_true_eq, not_or, List.any_map,
    List.any_eq_true, Function.comp, List.length_map] at hne
  obtain ⟨⟨⟨⟨hlen, hfirst⟩, hlast⟩, hcounts⟩, _⟩ := hne
  refine ⟨(be16_wordAt_drop (by omega)).symm, ?_, by omega, by omega, fun c hc => ?_⟩
  · rw [← List.length_pos_iff_ne_nil, List.length_drop]
    omega
  · by_contra hlt
    exact hcounts ⟨c, hc, Nat.not_le.mp hlt⟩

/-- The state of an accepted LOAD MODULES as the new monitor period starts: counts written, the command answered, flags
cleared, MODULE-CHANGE raised where a node was Alive. -/
def State.modulesWritten (s : State) (tag : Byte) (first : Nat) (counts : List Nat) : State :=
  let s1 := ((s.onTables Tables.loaded).writeChannels first counts).reply tag 0x09 .ok
  let s2 := s1.onSup fun u => { u with nodes := u.nodes.map Node.flagsCleared }
  if s1.sup.nodes.any (·.alive) then s2.raise .moduleChange else s2

theorem exec_loadModules_accepted (hs : s.takesCommands) (hr : s.run.active = false) (hc : s.tables.state ≠ .checking)
    {tag : Byte} {first : Nat} {args : List Byte} {counts : List Nat} (ha : args.length ≤ 63)
    (h : loadModulesArgs args = some (first, counts)) :
    exec (.loadModules tag args) s = .next (s.modulesWritten tag first counts).periodStart.settled := by
  simp only [exec, execLoadModules, command_taken hs ha, loadRefusal_idle hr hc, Bool.false_and, Bool.false_eq_true,
    if_false, h]
  rfl

/-- Writing channel counts and clearing flags leaves whatever part of an entry neither of them touches. -/
theorem writeChannels_map {β : Type} (f : Node → β) (hf : ∀ n c, f { n with channels := c } = f n) (cs : List Nat)
    (b : Nat) (s : State) : (s.writeChannels b cs).sup.nodes.map f = s.sup.nodes.map f := by
  have h := congrArg (List.map f) (writeChannels_eq cs b s).2
  simpa only [List.map_map, Function.comp_def, hf] using h

/-- What an accepted LOAD MODULES changes before its monitor period starts. -/
theorem modulesWritten_eq (s : State) (tag : Byte) (first : Nat) (counts : List Nat) :
    s.modulesWritten tag first counts =
      { s with
        tables := s.tables.loaded
        sup := { s.sup with
          nodes := ((s.onTables Tables.loaded).writeChannels first counts).sup.nodes.map Node.flagsCleared }
        seq := { s.seq with believed := ((s.onTables Tables.loaded).writeChannels first counts).seq.believed }
        events := { s.events with
          pending := s.events.pending ||| if s.sup.nodes.any (·.alive) then Event.moduleChange.bit else 0 }
        trunk := (s.modulesWritten tag first counts).trunk } := by
  have halive : ((s.onTables Tables.loaded).writeChannels first counts).sup.nodes.any (·.alive) =
      s.sup.nodes.any (·.alive) := by
    have h := congrArg (List.any · id)
      (writeChannels_map (·.alive) (fun _ _ => rfl) counts first (s.onTables Tables.loaded))
    simpa only [List.any_map, Function.comp_def, id, State.onTables_sup] using h
  have hw := (writeChannels_eq counts first (s.onTables Tables.loaded)).1
  unfold State.modulesWritten
  generalize (s.onTables Tables.loaded).writeChannels first counts = w at *
  simp only [State.reply, State.trunkPut, State.onTrunk, halive]
  by_cases h : s.sup.nodes.any (·.alive) = true
  · rw [if_pos h, if_pos h, raise_eq, hw]
    rfl
  · rw [if_neg h, if_neg h, hw]
    simp only [BitVec.ofNat_eq_ofNat, BitVec.or_zero]
    rfl

theorem modulesWritten_reply (s : State) (tag : Byte) (first : Nat) (counts : List Nat) :
    ({ frame := replyFrame tag 0x09 .ok [], kind := .reply } : TrunkEntry) ∈
      (s.modulesWritten tag first counts).trunk.queue := by
  have hmem : ∀ w : State, ({ frame := replyFrame tag 0x09 .ok [], kind := .reply } : TrunkEntry) ∈
      (w.reply tag 0x09 .ok).trunk.queue := fun w => List.mem_append_right _ (List.mem_singleton_self _)
  unfold State.modulesWritten
  simp only
  split
  · exact raise_trunk_mem (s := State.onSup _ _) (hmem _) TrunkKind.noConfusion _
  · exact hmem _

theorem modulesWritten_spec (hlen : s.sup.nodes.length = 65) {first : Nat} {counts : List Nat} (h1 : 1 ≤ first)
    (h65 : first + counts.length ≤ 65) (tag : Byte) (a : Nat) :
    ((s.modulesWritten tag first counts).channels a =
        if first ≤ a ∧ a < first + counts.length then counts.getD (a - first) 0 else s.channels a) ∧
      (s.modulesWritten tag first counts).believed a =
        if first ≤ a ∧ a < first + counts.length then none else s.believed a := by
  obtain ⟨hch, hbel⟩ := writeChannels_spec (s := s.onTables Tables.loaded) counts hlen h1 h65 a
  refine ⟨Eq.trans (channels_of_map ?_ a) hch, Eq.trans ?_ hbel⟩
  · rw [modulesWritten_eq]
    simp [Node.flagsCleared]
  · rw [modulesWritten_eq]
    rfl

/-- Settles O26. -/
theorem modulesLoaded : Obligations.ModulesLoaded := by
  unfold Obligations.ModulesLoaded
  refine ⟨fun s tag args hs ha => ⟨fun hbusy => ?_, fun hr hc hbad => ?_⟩, ?_⟩
  · simp only [exec, execLoadModules, command_taken hs ha, loadRefusal_busy hbusy, reply_settled]
  · simp only [exec, execLoadModules, command_taken hs ha, loadRefusal_idle hr hc, Bool.false_and, Bool.false_eq_true,
      if_false, loadModulesArgs_refuses hbad, reply_settled]
  · intro s tag first counts hs hlen hr hc hne h1 h65 h61 hcounts
    have hargs : (be16 first ++ counts).length ≤ 63 := by
      rw [List.length_append, be16_length]
      omega
    refine ⟨_, exec_loadModules_accepted hs hr hc hargs (loadModulesArgs_accepts hne h1 h65 hcounts), ?_⟩
    have hspec := modulesWritten_spec hlen (counts := counts.map (·.toNat)) h1 (by simpa using h65) tag
    have hreply := modulesWritten_reply s tag first (counts.map (·.toNat))
    have hm := modulesWritten_eq s tag first (counts.map (·.toNat))
    have hkinds := writeChannels_map (fun n => (n.kind, n.reported)) (fun _ _ => rfl) (counts.map (·.toNat)) first
      (s.onTables Tables.loaded)
    generalize s.modulesWritten tag first (counts.map (·.toNat)) = m at *
    have hhalt : m.fault.safeHalt = false := by
      rw [hm]
      exact hs.2
    have hring : m.ring = s.ring := by rw [hm]
    have hhv : m.hv = s.hv := by rw [hm]
    have hserved := mcServed_periodStart hhalt
    have hround := pollsOut_periodStart hhalt
    have hsafe := periodStart_safe (s := m) hhalt
    generalize m.periodStart = t at *
    rw [State.mcServed] at hserved
    have hnodes : t.sup.nodes = m.sup.nodes := by
      rw [hserved]
      rfl
    have hmodules : t.settled.modules = m.modules := modules_congr fun a => channels_congr hnodes a
    have hflags : m.sup.nodes = ((s.onTables Tables.loaded).writeChannels first (counts.map (·.toNat))).sup.nodes.map
        Node.flagsCleared := by rw [hm]
    have hin : ∀ a, first ≤ a ∧ a < first + (counts.map (·.toNat)).length ↔ first ≤ a ∧ a < first + counts.length := by
      simp
    simp only [hin] at hspec
    refine ⟨?_, fun a => ?_, fun a => ?_, fun n hn => ?_, ?_, ?_, ?_,
      ⟨fun hwait a ha => ?_, fun hwait htag hv => ?_⟩, ?_,
      ?_⟩
    · rw [State.settled, hserved, State.periodBegun, hm]
      rfl
    · refine (channels_congr hnodes a).trans ((hspec a).1.trans ?_)
      split
      · simp only [List.getD_eq_getElem?_getD, List.getElem?_map]
        cases counts[a - first]? <;> rfl
      · rfl
    · refine Eq.trans ?_ (hspec a).2
      rw [State.settled, hserved]
      rfl
    · obtain ⟨x, -, rfl⟩ := List.mem_map.mp (hflags ▸ hnodes ▸ hn)
      exact ⟨rfl, rfl, rfl⟩
    · change t.sup.nodes.map _ = _
      rw [hnodes, hflags, List.map_map]
      exact hkinds
    · rw [State.settled, hserved, State.periodBegun, hm]
      rfl
    · rw [State.settled, hserved, State.periodBegun, hm]
      rfl
    · rw [hmodules] at ha
      refine ((hround (hring ▸ hwait)).2 a ha).imp_right fun ⟨e, he, hc⟩ => ⟨e, he, ?_⟩
      simpa [RingEntry.content, pollEntry, ownFrame] using hc
    · rw [hmodules]
      have hp := fillQueue_polls (s := m.periodBegun) (m.modules ++ [headAddress]) rfl (hring ▸ hwait) (hring ▸ htag) 9
        (by omega)
      rw [← hsafe (hhv ▸ hv), show m.periodBegun.ring = s.ring from hring] at hp
      exact hp
    · change _ ∈ t.trunk.queue
      rw [hserved]
      exact hreply
    · rw [State.settled, hserved, State.periodBegun, hm]
      exact ⟨rfl, rfl, rfl, rfl, rfl, rfl, rfl, rfl⟩

end Sys2Proof.Machine
end

section
/-! PROOFS. The completion of a record read (O33): the masks of a translation, the end of a cache fill and its
requester, and the response to a fault. -/

namespace Sys2Proof.Machine

variable {s t u : State}

/-! ### The masks of a configuration (R51) -/

theorem maskMark_getLsbD (m : BitVec 128) (channel : Nat) {c : Nat} (hc : c < 128) :
    (maskMark m channel).getLsbD c = (m.getLsbD c || decide (channel = c)) := by
  rw [maskMark, BitVec.getLsbD_or, BitVec.getLsbD_shiftLeft, BitVec.getLsbD_one]
  grind

/-- A translated pair marks its channel in the mask of its bus. -/
def Masks.mark (m : Masks) (x : Placed) : Masks :=
  match x.bus with
  | .a => { m with a := maskMark m.a x.channel }
  | .b => { m with b := maskMark m.b x.channel }

theorem foldl_mark_getLsbD (placed : List Placed) (m : Masks) {c : Nat} (hc : c < 128) :
    (placed.foldl Masks.mark m).a.getLsbD c = (m.a.getLsbD c || placed.any fun x => x.channel = c ∧ x.bus = .a) ∧
      (placed.foldl Masks.mark m).b.getLsbD c = (m.b.getLsbD c || placed.any fun x => x.channel = c ∧ x.bus = .b) := by
  induction placed generalizing m with
  | nil => simp
  | cons x rest ih =>
    obtain ⟨ha, hb⟩ := ih (m.mark x)
    rw [List.foldl_cons, ha, hb]
    cases hx : x.bus <;> simp [Masks.mark, hx, maskMark_getLsbD _ _ hc, Bool.or_assoc]

theorem desiredMasks_getLsbD (placed : List Placed) (a : Nat) {c : Nat} (hc : c < 128) :
    (desiredMasks placed a).a.getLsbD c = placed.any (fun x => x.module = a ∧ x.channel = c ∧ x.bus = .a) ∧
      (desiredMasks placed a).b.getLsbD c = placed.any (fun x => x.module = a ∧ x.channel = c ∧ x.bus = .b) := by
  obtain ⟨ha, hb⟩ := foldl_mark_getLsbD (placed.filter fun x => x.module = a) Masks.clear hc
  refine ⟨ha.trans ?_, hb.trans ?_⟩ <;> simp [Masks.clear, List.any_filter]

theorem Masks.conflict_iff (m : Masks) : m.conflict = true ↔ m.a &&& m.b ≠ 0 := by
  simp [Masks.conflict]

/-! ### Lookups (R19) -/

theorem lookup_hit {p i : Nat} {e : CacheEntry} (hf : s.cache.fill = none) (hi : s.cache.find p = some i)
    (he : s.cache.entries[i]? = some e) (who : LookupFor) :
    s.lookup p who = (s.onCache fun c => c.hit i, some e.copy) := by
  simp [State.lookup, hf, hi, he]

theorem lookup_miss {p : Nat} (hf : s.cache.fill = none) (hi : s.cache.find p = none) (who : LookupFor) :
    s.lookup p who = ((s.askRead .points p .fill).onCache fun c => { c with fill := some (p, who) }, none) := by
  simp [State.lookup, hf, hi]

/-- A hit on an entry other than the pointer's leaves the cache. -/
theorem onCache_hit_other {i : Nat} (h : s.cache.pointer ≠ i) : (s.onCache fun c => c.hit i) = s := by
  simp only [State.onCache, Cache.hit, h, if_false]

/-- The cache as a fill of a point that succeeded leaves it, the fill no longer in progress. -/
def Cache.taken (c : Cache) (p : Nat) (r : PointRec) : Cache := { c.filled p r with fill := none }

/-- A fill makes its point a hit on the entry of the pointer, no other entry holding it, and not the one to be filled
next. -/
theorem taken_hit {c : Cache} {p : Nat} {r : PointRec} (hp : c.pointer < c.entries.length)
    (hno : ∀ e ∈ c.entries, ¬(e.valid = true ∧ e.tag = p)) :
    (c.taken p r).find p = some c.pointer ∧
      (c.taken p r).entries[c.pointer]? = some { valid := true, tag := p, copy := r } ∧
      (c.taken p r).pointer ≠ c.pointer := by
  have hset : (c.taken p r).entries = c.entries.set c.pointer { valid := true, tag := p, copy := r } := rfl
  have hentry : (c.taken p r).entries[c.pointer]? = some { valid := true, tag := p, copy := r } := by
    rw [hset, List.getElem?_set_self hp]
  refine ⟨Cache.find_eq_some hentry rfl rfl fun j hj f hf => ?_, hentry, ?_⟩
  · rw [hset, List.getElem?_set_ne (by omega)] at hf
    exact hno f (List.mem_of_getElem? hf)
  · simp only [Cache.taken, Cache.filled]
    omega

/-- A fill makes no other point valid. -/
theorem taken_miss {c : Cache} {p q : Nat} {r : PointRec} (hne : q ≠ p)
    (hno : ∀ e ∈ c.entries, ¬(e.valid = true ∧ e.tag = q)) : (c.taken p r).find q = none := by
  refine Cache.find_eq_none fun e he => ?_
  rcases List.mem_or_eq_of_mem_set he with he | rfl
  · exact hno e he
  · exact fun h => hne h.2.symm

/-! ### The end of a fill (R19, R20) -/

theorem serveWaiting_hit {q i : Nat} {who : LookupFor} {e : CacheEntry} (hw : s.cache.waiting = [(q, who)])
    (hf : s.cache.fill = none) (hi : s.cache.find q = some i) (he : s.cache.entries[i]? = some e) :
    s.serveWaiting 1 = ((s.onCache fun c => { c with waiting := [] }).onCache fun c => c.hit i).deliver who e.copy := by
  simp only [State.serveWaiting, hw, hf, Option.isSome_none, Bool.false_eq_true, if_false,
    lookup_hit (s := s.onCache fun c => { c with waiting := [] }) hf hi he]

theorem serveWaiting_miss {q : Nat} {who : LookupFor} (hw : s.cache.waiting = [(q, who)])
    (hf : s.cache.fill = none) (hi : s.cache.find q = none) :
    s.serveWaiting 1 = ((s.onCache fun c => { c with waiting := [] }).askRead .points q .fill).onCache fun c =>
      { c with fill := some (q, who) } := by
  simp only [State.serveWaiting, hw, hf, Option.isSome_none, Bool.false_eq_true, if_false,
    lookup_miss (s := s.onCache fun c => { c with waiting := [] }) hf hi]

theorem answerInvalidates_none (h : s.cache.invalidates = []) (p : Nat) : s.answerInvalidates p = s := by
  rw [State.answerInvalidates, h]
  change { s with cache := { s.cache with invalidates := [] } } = s
  rw [← h]

theorem answerInvalidates_one {tag : Byte} (h : s.cache.invalidates = [tag]) (p : Nat) :
    s.answerInvalidates p =
      (s.onCache fun c => { c.invalidate (some p) with invalidates := [] }).reply tag 0x15 .ok
        [byte (s.cache.count (some p))] := by
  rw [State.answerInvalidates, h]
  rfl

/-- A fill that succeeds: its point is in the cache, the INVALIDATE MAP that waited are answered, the lookups that
waited are served, and its requester goes on. -/
theorem fillDone_found {p : Nat} {who : LookupFor} (hf : s.cache.fill = some (p, who)) (bs : List Byte)
    (ht : (s.onCache fun c => c.taken p (decodePoint bs)).answerInvalidates p = t) {n : Nat}
    (hn : t.cache.waiting.length = n) :
    s.fillDone (some bs) = (t.serveWaiting n).deliver who (decodePoint bs) := by
  simp only [State.fillDone, hf]
  subst hn ht
  rfl

theorem invalidate_eq (c : Cache) (p : Nat) :
    c.invalidate (some p) =
      { c with entries := c.entries.map fun e => if e.valid = true ∧ e.tag = p then { e with valid := false } else e
        } := by
  simp [Cache.invalidate]

/-! ### The requester of a fill goes on (R50, R86, R104) -/

theorem exec_fill_found {p : Nat} {rest : List Access} {bs : List Byte}
    (h : s.accessing (readFor .points p .fill) rest) (hb : s.mem.record .points p = some bs) (busy : Bool) :
    exec (.tableAccessComplete none busy) s = .next ((s.accessed rest busy).fillDone (some bs)).settled :=
  exec_read_found h hb busy

theorem leadKnown_eq {raw p sum : Nat} {ps : List Nat} {live : Bool}
    (hjob : s.arith.job = some { op := .lowVolt raw (p :: ps) sum, live }) (r : PointRec) :
    s.leadKnown r =
      { s with arith := { s.arith with job := some { op := .lowVolt raw ps (sum + r.lead), live } } } := by
  simp only [State.leadKnown, State.onArith, hjob, Option.map_some, ArithOp.leadKnown]

theorem lookupLeads_none (h : s.arith.nextLead = none) (n : Nat) : s.lookupLeads n = s := by
  cases n <;> simp only [State.lookupLeads, h]

theorem lookupLeads_miss {p : Nat} (h : s.arith.nextLead = some p) (hf : s.cache.fill = none)
    (hp : s.cache.find p = none) (n : Nat) :
    s.lookupLeads (n + 1) = (s.askRead .points p .fill).onCache fun c => { c with fill := some (p, .lead) } := by
  simp only [State.lookupLeads, h, lookup_miss hf hp]

/-- The low-voltage operation with its last lead. -/
theorem deliver_lead_last {raw p sum : Nat} {live : Bool}
    (hjob : s.arith.job = some { op := .lowVolt raw [p] sum, live }) (r : PointRec) :
    s.deliver .lead r =
      { s with arith := { s.arith with job := some { op := .lowVolt raw [] (sum + r.lead), live } } } := by
  rw [State.deliver, leadKnown_eq hjob, lookupLeads_none rfl]

/-- The low-voltage operation with a lead still to be read. -/
theorem deliver_lead_next {raw p q sum : Nat} {live : Bool}
    (hjob : s.arith.job = some { op := .lowVolt raw [p, q] sum, live }) (hf : s.cache.fill = none)
    (hq : s.cache.find q = none) (r : PointRec) :
    s.deliver .lead r =
      { s with
        port := { queue := s.port.queue ++ [readFor .points q .fill] }
        cache := { s.cache with fill := some (q, .lead) }
        arith := { s.arith with job := some { op := .lowVolt raw [q] (sum + r.lead), live } } } := by
  rw [State.deliver, leadKnown_eq hjob]
  refine (lookupLeads_miss (p := q) ?_ ?_ ?_ 1).trans rfl
  · rfl
  · exact hf
  · exact hq

theorem deliver_reference {q : Nat} (hw : s.sweep.state = .measuring) (hq : s.sweep.visitedPoint = some q)
    (r : PointRec) :
    s.deliver .reference r =
      let lead := min 65535 (s.sweep.raw - r.lead)
      { s with
        port :=
          { queue := s.port.queue ++
              [{ kind := .points, index := q, write := some (3, be16 lead), owner := .sweepLead q lead }] }
        sweep := { s.sweep with state := .writing } } := by
  have hpoint : s.sweep.visitedPoint.getD 0 = q := by rw [hq, Option.getD_some]
  simp only [State.deliver, hw, if_true, State.referenceKnown, hpoint]
  rfl

/-- The pair in hand of a translation is known. -/
def State.pairKnown (s : State) (bus : Bus) (more : List (Nat × Bus)) (r : PointRec) : State :=
  s.onSeq fun q => { q with todo := more, placed := q.placed ++ [{ module := r.module, channel := r.channel, bus }] }

theorem translationFound_eq {p : Nat} {bus : Bus} {more : List (Nat × Bus)} (hq : s.seq.state = .translating)
    (ht : s.seq.todo = (p, bus) :: more) (r : PointRec) :
    s.translationFound r = (s.pairKnown bus more r).translate (more.length + 1) := by
  have hknown : (s.onSeq fun q => q.translated r) = s.pairKnown bus more r := by
    simp only [State.pairKnown, State.onSeq, Sequencer.translated, ht]
  rw [State.translationFound, if_neg (not_not.mpr hq), hknown, ht, List.length_cons]

theorem translate_done (h : s.seq.todo = []) (n : Nat) : s.translate n = s.buildMasks := by
  cases n <;> simp only [State.translate, h]

theorem translate_miss {p : Nat × Bus} {more : List (Nat × Bus)} (h : s.seq.todo = p :: more)
    (hf : s.cache.fill = none) (hp : s.cache.find p.1 = none) (n : Nat) :
    s.translate (n + 1) =
      (s.askRead .points p.1 .fill).onCache fun c => { c with fill := some (p.1, .translate) } := by
  simp only [State.translate, h, lookup_miss hf hp]

theorem deliver_translate_next {p q : Nat} {bus bus' : Bus} {others : List (Nat × Bus)}
    (hq : s.seq.state = .translating) (ht : s.seq.todo = (p, bus) :: (q, bus') :: others) (hf : s.cache.fill = none)
    (hfind : s.cache.find q = none) (r : PointRec) :
    s.deliver .translate r =
      ((s.pairKnown bus ((q, bus') :: others) r).askRead .points q .fill).onCache fun c =>
        { c with fill := some (q, .translate) } := by
  rw [State.deliver, translationFound_eq hq ht]
  exact translate_miss (s := s.pairKnown bus ((q, bus') :: others) r) rfl hf hfind _

theorem deliver_translate_last {p : Nat} {bus : Bus} (hq : s.seq.state = .translating) (ht : s.seq.todo = [(p, bus)])
    (r : PointRec) : s.deliver .translate r = (s.pairKnown bus [] r).buildMasks := by
  rw [State.deliver, translationFound_eq hq ht]
  exact translate_done (s := s.pairKnown bus [] r) rfl _

/-! ### The masks are tested and compared (R51, R52) -/

theorem conflict_any (ms : List Nat) (masks : Nat → Masks) :
    (ms.any fun a => (masks a).conflict) = true ↔ ∃ a ∈ ms, (masks a).a &&& (masks a).b ≠ 0 := by
  simp only [List.any_eq_true, Masks.conflict_iff]

theorem buildMasks_conflict
    (h : ∃ a ∈ s.modules, (desiredMasks s.seq.placed a).a &&& (desiredMasks s.seq.placed a).b ≠ 0) :
    s.buildMasks = s.onSeq Sequencer.over := by
  rw [State.buildMasks, if_pos ((conflict_any _ _).mpr h)]

/-- A configuration without conflict: ready at once where no module changes, or with a transaction for each that does.
-/
theorem buildMasks_sound
    (h : ∀ a ∈ s.modules, (desiredMasks s.seq.placed a).a &&& (desiredMasks s.seq.placed a).b = 0) :
    (s.newTransactions = [] → s.buildMasks = s.configReady) ∧
      (s.newTransactions ≠ [] → s.buildMasks =
        (s.onSeq fun q => { q with state := .verifying, transactions := s.newTransactions, placed := [] }).queueAttempts
          s.newTransactions) := by
  have hno : ¬(s.modules.any fun a => (desiredMasks s.seq.placed a).conflict) = true := by
    rw [conflict_any]
    exact fun ⟨a, ha, hne⟩ => hne (h a ha)
  constructor
  · intro hnew
    rw [State.buildMasks, if_neg hno, hnew]
  · intro hnew
    rw [State.buildMasks, if_neg hno]
    cases hts : s.newTransactions with
    | nil => exact absurd hts hnew
    | cons t ts => rfl

theorem newTransactions_pairs (s : State) :
    s.newTransactions.map (fun x => (x.module, x.masks)) =
      (s.modules.map fun a => (a, desiredMasks s.seq.placed a)).filter fun x => s.needsTransaction x.1 x.2 := by
  simp [State.newTransactions, List.filter_map, Function.comp_def, Transaction.fresh]

theorem newTransactions_fresh (s : State) :
    ∀ x ∈ s.newTransactions, x.attempt = 1 ∧ x.timer = none ∧ (x.phase = .waiting ∨ x.phase = .queued) := by
  intro x hx
  obtain ⟨a, -, rfl⟩ := List.mem_map.mp (List.mem_filter.mp hx).1
  exact ⟨rfl, rfl, .inl rfl⟩

theorem needsTransaction_known {a : Nat} {m : Masks} (h : s.believed a = some m) (d : Masks) :
    s.needsTransaction a d = decide (m ≠ d) := by
  simp only [State.needsTransaction, h]

theorem needsTransaction_unknown {a : Nat} (h : s.believed a = none) (d : Masks) :
    s.needsTransaction a d = decide (d ≠ { a := 0, b := 0 } ∨ s.alive a = true) := by
  simp only [State.needsTransaction, h, Masks.clear]
  grind

/-! ### The first attempts of a configuration (R48, R53) -/

/-- The transactions of a configuration on their first attempt, each waiting for room or in the ring transmit queue. -/
def State.attempting (wanted : List (Nat × Masks)) (s : State) : Prop :=
  s.seq.transactions.map (fun x => (x.module, x.masks)) = wanted ∧
    ∀ x ∈ s.seq.transactions, x.attempt = 1 ∧ x.timer = none ∧ (x.phase = .waiting ∨ x.phase = .queued)

theorem attempting_placedAct {wanted : List (Nat × Masks)} (h : s.attempting wanted) (owner : RingOwner) (tag : Nat) :
    (s.placedAct owner tag).attempting wanted := by
  cases owner with
  | switch m =>
    obtain ⟨hpairs, hphase⟩ := h
    refine ⟨?_, fun x hx => ?_⟩
    · refine Eq.trans ?_ hpairs
      simp only [State.placedAct, State.onSeq, List.map_map]
      refine List.map_congr_left fun x _ => ?_
      simp only [Function.comp]
      split <;> rfl
    · obtain ⟨y, hy, rfl⟩ := List.mem_map.mp hx
      obtain ⟨h1, h2, h3⟩ := hphase y hy
      split
      · exact ⟨h1, h2, .inr rfl⟩
      · exact ⟨h1, h2, h3⟩
  | hvc n closing =>
    simp only [State.placedAct]
    split <;> exact h
  | _ => exact h

theorem attempting_handOver {wanted : List (Nat × Masks)} (h : s.attempting wanted) (e : RingEntry) :
    (s.handOver e).attempting wanted := by
  refine pump_keeps (P := State.attempting wanted) (fun t ht => ?_) (fun t x rest _ _ ht => ?_) h
  · unfold State.offerPoll
    repeat' split
    all_goals exact ht
  · have hring : ∀ f g, ((t.onRing f).onRing g).attempting wanted := fun _ _ => ht
    exact attempting_placedAct (hring _ _) _ _

theorem queueAttempts_attempting {wanted : List (Nat × Masks)} (ts : List Transaction) (h : s.attempting wanted) :
    (s.queueAttempts ts).attempting wanted := by
  induction ts generalizing s with
  | nil => exact h
  | cons x rest ih => exact ih (attempting_handOver h _)

theorem ringServed_queueAttempts (ts : List Transaction) (s : State) : s.ringServed (s.queueAttempts ts) := by
  induction ts generalizing s with
  | nil => exact .refl s
  | cons x rest ih => exact (ringServed_handOver s _).trans (ih _)

theorem queueAttempts_frames (ts : List Transaction) (h : s.sup.pollList = []) :
    (s.queueAttempts ts).frames = s.frames ++ ts.map fun x => (switchEntry x.module x.masks).content := by
  induction ts generalizing s with
  | nil => exact (List.append_nil _).symm
  | cons x rest ih =>
    obtain ⟨hf, hp⟩ := handOver_frames h (switchEntry x.module x.masks)
    refine (ih hp).trans ?_
    rw [hf, List.map_cons, List.append_assoc]
    rfl

/-! ### The MSR asked for where an own frame finds room at once (R77, R78) -/

theorem requestMsr_ringFree (hh : s.fault.safeHalt = false) (hm : s.mc.state = .idle) (hv : s.hv.state = .safe)
    (hr : s.ringFree) (range net : Nat) (point : Option Nat) (leads : List Nat) :
    s.requestMsr range net point leads =
      { s with
        mc :=
          { s.mc with
            state := .msrQueued, requester := .sweep, range, ctxNet := some net, ctxPoint := point, attempt := 1
            leads, curTag := some s.ring.ownTag }
        ring := s.ring.placed 72 clsMsr [byte range] .msr } := by
  rw [State.requestMsr, if_neg (by simp [hh, hm, hv])]
  exact handOver_ringFree (s := s.onMc _) hr (msrEntry range)

theorem configReady_sweep (h : s.seq.requester = .sweep) : s.configReady = (s.onSeq Sequencer.over).sweepReady := by
  simp only [State.configReady, h]

/-- A CONT visit asks for its MSR as its configuration is ready (R87). -/
theorem sweepReady_cont {k f q : Nat} (hk : s.sweep.kind = some .cont) (hnet : s.sweep.netCursor = some k)
    (hf : s.sweep.fixedPoint = some f) (hq : s.sweep.visitedPoint = some q) :
    s.sweepReady =
      (s.onSweep fun w => { w with state := .measuring }).requestMsr (s.limits.contSet s.sweep.net.contSet).range k
        (some q) [f, q] := by
  simp only [State.sweepReady, hk, hf, hq, Sweep.cursor, hnet, Option.getD_some]

/-- The configuration of a CONT visit is ready, and its MSR is placed (R51, R58, R87). -/
theorem configReady_cont {k f q : Nat} (hreq : s.seq.requester = .sweep) (hk : s.sweep.kind = some .cont)
    (hh : s.fault.safeHalt = false) (hm : s.mc.state = .idle) (hv : s.hv.state = .safe) (hr : s.ringFree)
    (hnet : s.sweep.netCursor = some k) (hf : s.sweep.fixedPoint = some f) (hq : s.sweep.visitedPoint = some q) :
    s.configReady =
      { s with
        seq := s.seq.over
        sweep := { s.sweep with state := .measuring }
        mc :=
          { s.mc with
            state := .msrQueued, requester := .sweep
            range := (s.limits.contSet s.sweep.net.contSet).range, ctxNet := some k, ctxPoint := some q
            attempt := 1, leads := [f, q], curTag := some s.ring.ownTag }
        ring := s.ring.placed 72 clsMsr [byte (s.limits.contSet s.sweep.net.contSet).range] .msr } := by
  rw [configReady_sweep hreq, sweepReady_cont (s := s.onSeq Sequencer.over) hk hnet hf hq, requestMsr_ringFree
    (s := (s.onSeq Sequencer.over).onSweep fun w => { w with state := .measuring }) hh hm hv hr]
  rfl

end Sys2Proof.Machine
end

section
/-! PROOFS. The response to a fault, and what each requester of a cache fill gets (O33). -/

namespace Sys2Proof.Machine

variable {s t u : State}

/-! ### What a response leaves (R40, R177) -/

/-- What the steps of a response leave of the tables, the cache, the arithmetic unit, the sequencer and the run. -/
structure State.Responds (s t : State) : Prop where
  mem : t.mem = s.mem
  tables : t.tables = s.tables
  defects : t.defects = s.defects
  fault : t.fault = s.fault
  events : t.events = s.events
  entries : t.cache.entries = s.cache.entries
  pointer : t.cache.pointer = s.cache.pointer
  fill : s.cache.fill = none → t.cache.fill = none
  job : s.arith.job = none → t.arith.job = none
  translating : s.seq.state ≠ .translating → t.seq.state ≠ .translating
  runState : t.run.state = s.run.state
  abortCause : t.run.abortCause = s.run.abortCause

theorem State.Responds.refl (s : State) : s.Responds s :=
  ⟨rfl, rfl, rfl, rfl, rfl, rfl, rfl, id, id, id, rfl, rfl⟩

theorem State.Responds.trans (h : s.Responds t) (j : t.Responds u) : s.Responds u where
  mem := j.mem.trans h.mem
  tables := j.tables.trans h.tables
  defects := j.defects.trans h.defects
  fault := j.fault.trans h.fault
  events := j.events.trans h.events
  entries := j.entries.trans h.entries
  pointer := j.pointer.trans h.pointer
  fill := j.fill ∘ h.fill
  job := j.job ∘ h.job
  translating := j.translating ∘ h.translating
  runState := j.runState.trans h.runState
  abortCause := j.abortCause.trans h.abortCause

theorem State.mcServed.responds (h : s.mcServed t) : s.Responds t := by
  rw [State.mcServed] at h
  rw [h]
  exact ⟨rfl, rfl, rfl, rfl, rfl, rfl, rfl, id, id, id, rfl, rfl⟩

theorem State.ringServed.responds (h : s.ringServed t) : s.Responds t := h.mcServed.responds

theorem responds_withdraw (s : State) (gone : RingEntry → Bool) : s.Responds (s.withdraw gone) :=
  (ringServed_withdraw s gone).responds

theorem responds_handOver (s : State) (e : RingEntry) : s.Responds (s.handOver e) :=
  (ringServed_handOver s e).responds

theorem responds_openStream (s : State) (payload : List Byte) : s.Responds (s.openStream payload) :=
  (mcServed_openStream s payload).responds

theorem responds_onHv (s : State) (f : Hv → Hv) : s.Responds (s.onHv f) :=
  ⟨rfl, rfl, rfl, rfl, rfl, rfl, rfl, id, id, id, rfl, rfl⟩

theorem responds_onMc (s : State) (f : Measure → Measure) : s.Responds (s.onMc f) :=
  ⟨rfl, rfl, rfl, rfl, rfl, rfl, rfl, id, id, id, rfl, rfl⟩

theorem responds_onSweep (s : State) (f : Sweep → Sweep) : s.Responds (s.onSweep f) :=
  ⟨rfl, rfl, rfl, rfl, rfl, rfl, rfl, id, id, id, rfl, rfl⟩

theorem responds_onArith (s : State) {f : Arith → Arith} (h : ∀ a : Arith, a.job = none → (f a).job = none) :
    s.Responds (s.onArith f) :=
  ⟨rfl, rfl, rfl, rfl, rfl, rfl, rfl, id, h s.arith, id, rfl, rfl⟩

theorem responds_onSeq (s : State) {f : Sequencer → Sequencer} (h : ∀ q, (f q).state ≠ .translating) :
    s.Responds (s.onSeq f) :=
  ⟨rfl, rfl, rfl, rfl, rfl, rfl, rfl, id, id, fun _ => h s.seq, rfl, rfl⟩

theorem responds_onRun (s : State) {f : Run → Run} (h : ∀ r, (f r).state = r.state ∧ (f r).abortCause = r.abortCause) :
    s.Responds (s.onRun f) :=
  ⟨rfl, rfl, rfl, rfl, rfl, rfl, rfl, id, id, id, (h s.run).1, (h s.run).2⟩

/-- Lookups given up leave no fill where none is in progress. -/
theorem responds_dropLookups (s : State) (gone : LookupFor → Bool) : s.Responds (s.onCache fun c => c.drop gone) := by
  refine ⟨rfl, rfl, rfl, rfl, rfl, rfl, rfl, fun h => ?_, id, id, rfl, rfl⟩
  simp only [State.onCache, Cache.drop, h, Option.map_none]

theorem responds_retryStream (s : State) : s.Responds s.retryStream := by
  unfold State.retryStream
  split
  · exact (responds_onHv s _).trans (responds_openStream _ _)
  · exact .refl s

theorem responds_mcIdle (s : State) : s.Responds s.mcIdle := (responds_onMc s _).trans (responds_retryStream _)

theorem responds_dropMsr (s : State) : s.Responds s.dropMsr := by
  unfold State.dropMsr
  split
  · exact (responds_withdraw s _).trans (responds_mcIdle _)
  · exact responds_mcIdle s
  · refine State.Responds.trans ?_ (responds_mcIdle _)
    refine (responds_onMc s _).trans (responds_onArith _ fun a ha => ?_)
    simp only [Arith.dropLowVolt, ha, Option.map_none]
  · exact .refl s
  · exact .refl s

theorem responds_abandonConfiguration (s : State) : s.Responds s.abandonConfiguration := by
  have hrest : s.Responds (s.onSeq Sequencer.rest) := responds_onSeq s fun _ => SeqState.noConfusion
  unfold State.abandonConfiguration
  split
  · exact .refl s
  · exact .refl s
  · exact hrest.trans (responds_dropLookups _ _)
  · exact hrest.trans (responds_withdraw _ _)
  · exact hrest

theorem responds_dropReads (s : State) : s.Responds s.dropReads := by
  have hport : s.Responds (s.onPort fun p => p.give Owner.isStepRead) :=
    ⟨rfl, rfl, rfl, rfl, rfl, rfl, rfl, id, id, id, rfl, rfl⟩
  exact hport.trans (responds_dropLookups _ _)

theorem responds_hvAbandon (s : State) : s.Responds s.hvAbandon := by
  have hstream : ∀ x : State, x.Responds (x.onArith Arith.dropStream) := fun x =>
    responds_onArith x fun a ha => by simp only [Arith.dropStream, ha, Option.map_none]
  have heval : ∀ x : State, x.Responds (x.onArith Arith.dropEvaluation) := fun x =>
    responds_onArith x fun a ha => by simp only [Arith.dropEvaluation, ha, Option.map_none]
  have hplace : ∀ x : State, x.Responds (x.placeHvc s.offPayload) := fun x => responds_handOver x _
  unfold State.hvAbandon
  refine State.Responds.trans ?_ ((responds_onHv _ _).trans (heval _))
  split
  · exact responds_onHv s _
  · exact ((responds_onHv s _).trans (hplace _)).trans (hstream _)
  · exact ((responds_onHv s _).trans (hplace _)).trans (hstream _)
  · exact responds_onHv s _
  · exact .refl s

theorem responds_requestHome (s : State) : s.Responds s.requestHome := by
  unfold State.requestHome
  split
  · exact .refl s
  · exact State.Responds.trans (responds_onSeq s fun _ => SeqState.noConfusion) (responds_handOver _ _)

/-- The last step of a response: the run waits for SAFE, or for the HOME asked for. -/
theorem responds_awaits (s : State) :
    s.Responds (if s.hv.state = .safe then (s.onRun fun r => { r with waiting := .home }).requestHome
      else s.onRun fun r => { r with waiting := .safe }) := by
  have hwaits : ∀ w : RunWait, s.Responds (s.onRun fun r => { r with waiting := w }) := fun _ =>
    responds_onRun s fun _ => ⟨rfl, rfl⟩
  split
  · exact (hwaits .home).trans (responds_requestHome _)
  · exact hwaits .safe

theorem responds_response (s : State) : s.Responds s.response := by
  have hlow : ∀ x : State, x.Responds (x.onArith Arith.dropLowVolt) := fun x =>
    responds_onArith x fun a ha => by simp only [Arith.dropLowVolt, ha, Option.map_none]
  have hslot : ∀ x : State, x.Responds (x.onRun fun r => { r with slot := none }) := fun x =>
    responds_onRun x fun _ => ⟨rfl, rfl⟩
  have hdropped := (responds_dropMsr s).trans (responds_abandonConfiguration _)
  have hrested := hdropped.trans ((responds_dropReads _).trans (responds_onSweep _ fun _ => Sweep.reset))
  have hbase := hrested.trans ((hlow _).trans ((hslot _).trans (responds_hvAbandon _)))
  exact hbase.trans (responds_awaits _)

/-! ### A fault is reported (R177) -/

/-- A fault is recorded, and FAULT raised. -/
def State.faultRecorded (s : State) (r : FaultReport) : State :=
  (s.onFault fun f => f.report (if s.run.active then s.run.step else none) r).raise .fault

theorem faultRecorded_eq {r : FaultReport} (hv : s.fault.valid = false) :
    s.faultRecorded r =
      { s with
        fault := s.firstFault r.code r.hv r.net r.point r.table
        events := { s.events with pending := s.events.pending ||| Event.fault.bit }
        trunk := (s.faultRecorded r).trunk } := by
  have hrecord : ∀ step, s.fault.report step r =
      { s.fault with valid := true, code := some r.code, step, net := r.net, point := r.point, hv := some r.hv
                     table := r.table, second := false } := fun step => if_neg (by simp [hv])
  rw [State.faultRecorded, raise_eq]
  simp only [State.onFault, hrecord]
  rfl

theorem faultRecorded_pending (s : State) (r : FaultReport) : (s.faultRecorded r).events.isPending .fault = true :=
  raise_isPending _ _

theorem reportFault_inactive (h : s.run.active = false) (r : FaultReport) : s.reportFault r = s.faultRecorded r := by
  simp [State.reportFault, State.faultRecorded, h]

theorem reportFault_running {r : FaultReport} (h : s.run.state = .running) (hcode : r.code ≠ .dischargeTimeout) :
    s.reportFault r = (s.faultRecorded r).beginAbort .fault := by
  simp [State.reportFault, State.faultRecorded, Run.active, Run.inFaultResponse, h, hcode]

/-- A fault with no run active, or with the run RUNNING, which is then ABORTING, and the response of R40 has begun. -/
theorem reportFault_spec {r : FaultReport} (hv : s.fault.valid = false) (hcode : r.code ≠ .dischargeTimeout)
    (hrun : s.run.active = false ∨ s.run.state = .running) :
    ∃ x : State, x.Responds (s.reportFault r) ∧
      x = { s.faultRecorded r with run := x.run } ∧
      (s.run.active = false → (s.reportFault r).run = s.run) ∧
      (s.run.state = .running →
        (s.reportFault r).run.state = .aborting ∧ (s.reportFault r).run.abortCause = .fault) := by
  have hkept : (s.faultRecorded r).run = s.run := by rw [faultRecorded_eq hv]
  rcases hrun with h | h
  · refine ⟨s.faultRecorded r, reportFault_inactive h r ▸ .refl _, rfl, fun _ => ?_, fun hr => ?_⟩
    · rw [reportFault_inactive h r, hkept]
    · simp [Run.active, hr] at h
  · have habort : s.reportFault r = ((s.faultRecorded r).onRun fun x =>
        { x with state := .aborting, abortCause := .fault, pauseCause := .none }).response := by
      rw [reportFault_running h hcode, State.beginAbort, if_pos (by simp [Run.active, hkept, h])]
    have hresponds := responds_response ((s.faultRecorded r).onRun fun x =>
      { x with state := .aborting, abortCause := .fault, pauseCause := .none })
    rw [← habort] at hresponds
    refine ⟨_, hresponds, rfl, fun hr => ?_, fun _ => ⟨hresponds.runState, hresponds.abortCause⟩⟩
    simp [Run.active, h] at hr

/-! ### A fill that fails (R3, R50, R86) -/

/-- What a requester does on its failed fill: the operation ends, or the translation stops. -/
theorem fillFailed_eq (s : State) (who : LookupFor) :
    s.fillFailed who =
        { s with
          seq := (s.fillFailed who).seq
          arith := { s.arith with job := (s.fillFailed who).arith.job } } ∧
      (who = .lead → (s.fillFailed who).arith.job = none) ∧
      (who = .translate → (s.fillFailed who).seq.state ≠ .translating) := by
  cases who with
  | lead => exact ⟨rfl, fun _ => rfl, LookupFor.noConfusion⟩
  | translate =>
    refine ⟨?_, LookupFor.noConfusion, fun _ => ?_⟩
    · simp only [State.fillFailed]
      split <;> rfl
    · simp only [State.fillFailed]
      split
      · exact SeqState.noConfusion
      · assumption
  | reference => exact ⟨rfl, LookupFor.noConfusion, LookupFor.noConfusion⟩
  | dropped => exact ⟨rfl, LookupFor.noConfusion, LookupFor.noConfusion⟩

/-- A failed fill with no lookup and no INVALIDATE MAP waiting: its requester stops, and TABLE-PARITY is reported. -/
theorem fillDone_failed {p : Nat} {who : LookupFor} (hf : s.cache.fill = some (p, who)) (hw : s.cache.waiting = [])
    (hi : s.cache.invalidates = []) :
    s.fillDone none =
      ((s.onCache fun c => { c with fill := none }).fillFailed who).tableParity .points p (some p) := by
  have hwaiting : ((s.onCache fun c => { c with fill := none }).fillFailed who).cache.waiting = [] := by
    rw [(fillFailed_eq _ who).1]
    exact hw
  simp only [State.fillDone, hf]
  rw [answerInvalidates_none (s := s.onCache fun c => { c with fill := none }) hi, hwaiting]
  rfl

end Sys2Proof.Machine
end

section
/-! PROOFS. A record read completes (O33): READ TABLE, and a cache fill with its requester. -/

namespace Sys2Proof.Machine

variable {s : State} {p : Nat} {who : LookupFor} {rest : List Access} {bs : List Byte}

/-! ### READ TABLE (R11) -/

theorem record_of_sound {m : TableMem} {kind : TableKind} {index : Nat}
    (h : ∀ i < kind.size, m.parityBad (recordAddress kind index + i) = false) :
    m.record kind index = some ((List.range kind.size).map fun i => m.read (recordAddress kind index + i)) := by
  rw [TableMem.record, if_neg]
  simpa using h

theorem record_of_bad {m : TableMem} {kind : TableKind} {index : Nat}
    (h : ∃ i < kind.size, m.parityBad (recordAddress kind index + i) = true) : m.record kind index = none := by
  rw [TableMem.record, if_pos]
  simpa using h

theorem sent_eq (kind : TableKind) (bs : List Byte) : kind.sent bs = if kind = .names then 16#8 :: bs else bs := by
  cases kind <;> rfl

/-! ### A fill that succeeds (R19) -/

/-- A fill succeeds with nothing waiting for it: its requester goes on. -/
theorem exec_fill_plain (h : s.accessing (readFor .points p .fill) rest) (hf : s.cache.fill = some (p, who))
    (hb : s.mem.record .points p = some bs) (hw : s.cache.waiting = []) (hi : s.cache.invalidates = []) (busy : Bool) :
    exec (.tableAccessComplete none busy) s =
      .next (((s.accessed rest busy).onCache fun c => c.taken p (decodePoint bs)).deliver who
        (decodePoint bs)).settled := by
  rw [exec_fill_found h hb, fillDone_found (s := s.accessed rest busy) (n := 0) hf bs
    (answerInvalidates_none (s := (s.accessed rest busy).onCache fun c => c.taken p (decodePoint bs)) hi p)
    (congrArg List.length hw)]
  rfl

/-- The cache after a fill of a point that an INVALIDATE MAP waited for. -/
def Cache.cleared (c : Cache) (p : Nat) (r : PointRec) : Cache :=
  { c.taken p r with
    entries := (c.taken p r).entries.map fun e => if e.valid = true ∧ e.tag = p then { e with valid := false } else e
    invalidates := [] }

/-- A fill succeeds with an INVALIDATE MAP of its point waiting: it is carried out and answered before the requester
goes on (log 28). -/
theorem exec_fill_invalidates {tag : Byte} (h : s.accessing (readFor .points p .fill) rest)
    (hf : s.cache.fill = some (p, who)) (hb : s.mem.record .points p = some bs) (hw : s.cache.waiting = [])
    (hi : s.cache.invalidates = [tag]) (busy : Bool) :
    exec (.tableAccessComplete none busy) s =
      .next ((((s.accessed rest busy).onCache fun c => c.cleared p (decodePoint bs)).reply tag 0x15 .ok
          [byte ((s.cache.taken p (decodePoint bs)).count (some p))]).deliver who (decodePoint bs)).settled := by
  have hanswered := answerInvalidates_one
    (s := (s.accessed rest busy).onCache fun c => c.taken p (decodePoint bs)) hi p
  simp only [invalidate_eq] at hanswered
  rw [exec_fill_found h hb, fillDone_found (s := s.accessed rest busy) (n := 0)
    hf bs hanswered (congrArg List.length hw)]
  rfl

/-- A lookup of a low-voltage operation that waited for the fill is served by it, or by a fill of its own (log 28). -/
theorem exec_fill_waiting {raw sum q : Nat} (h : s.accessing (readFor .points p .fill) rest)
    (hf : s.cache.fill = some (p, .dropped)) (hb : s.mem.record .points p = some bs) (hi : s.cache.invalidates = [])
    (hw : s.cache.waiting = [(q, .lead)]) (hjob : s.arith.job = some { op := .lowVolt raw [q] sum, live := true })
    (hp : s.cache.pointer < s.cache.entries.length) (hno : ∀ e ∈ s.cache.entries, ¬(e.valid = true ∧ e.tag = q))
    (busy : Bool) :
    exec (.tableAccessComplete none busy) s = .next (State.settled
      (if q = p then
        { s.accessed rest busy with
          cache := { s.cache.taken p (decodePoint bs) with waiting := [] }
          arith := { s.arith with job := some { op := .lowVolt raw [] (sum + (decodePoint bs).lead), live := true } } }
      else
        { s.accessed (rest ++ [readFor .points q .fill]) busy with
          cache := { s.cache.taken p (decodePoint bs) with waiting := [], fill := some (q, .lead) } })) := by
  rw [exec_fill_found h hb, fillDone_found (s := s.accessed rest busy) (n := 1) hf bs
    (answerInvalidates_none (s := (s.accessed rest busy).onCache fun c => c.taken p (decodePoint bs)) hi p)
    (congrArg List.length hw)]
  split
  · obtain rfl : q = p := by assumption
    obtain ⟨hfind, hentry, hpointer⟩ := taken_hit (r := decodePoint bs) hp hno
    rw [serveWaiting_hit (s := (s.accessed rest busy).onCache fun c => c.taken q (decodePoint bs)) hw rfl hfind hentry]
    have hkept := onCache_hit_other (s := ((s.accessed rest busy).onCache fun c =>
      c.taken q (decodePoint bs)).onCache fun c => { c with waiting := [] }) hpointer
    rw [hkept]
    exact congrArg (fun x : State => Host.Outcome.next x.settled)
      (deliver_lead_last (s := State.onCache (State.onCache (s.accessed rest busy) _) _) (p := q) hjob _)
  · rename_i hne
    rw [serveWaiting_miss (s := (s.accessed rest busy).onCache fun c => c.taken p (decodePoint bs)) hw rfl
      (taken_miss hne hno)]
    rfl

/-- Where the masks are sound and a module is to change, the transactions of the wanted masks begin, with a frame for
each (R52, R53). -/
theorem buildMasks_verifies {wanted : List (Nat × Masks)}
    (hsound : ∀ a ∈ s.modules, (desiredMasks s.seq.placed a).a &&& (desiredMasks s.seq.placed a).b = 0)
    (hpairs : s.newTransactions.map (fun x => (x.module, x.masks)) = wanted) (hwanted : wanted ≠ [])
    (hpoll : s.sup.pollList = []) :
    (s.onSeq fun q => { q with state := .verifying, placed := [] }).ringServed s.buildMasks ∧
      s.buildMasks.attempting wanted ∧
      (s.buildMasks.ring.queue ++ s.buildMasks.ring.wait).map
          (fun e => (e.owner, e.frame.dst, e.frame.cls, e.frame.payload)) =
        (s.ring.queue ++ s.ring.wait).map (fun e => (e.owner, e.frame.dst, e.frame.cls, e.frame.payload)) ++
          wanted.map fun x => (.switch x.1, byte x.1, clsSw, maskBytes x.2.a ++ maskBytes x.2.b) := by
  have hnew : s.newTransactions ≠ [] := fun hnil => hwanted (hpairs.symm.trans (by rw [hnil]; rfl))
  have hfresh := newTransactions_fresh s
  rw [(buildMasks_sound hsound).2 hnew]
  generalize s.newTransactions = ts at *
  have hserved := ringServed_queueAttempts ts
    (s.onSeq fun q => { q with state := .verifying, transactions := ts, placed := [] })
  have hframes := queueAttempts_frames
    (s := s.onSeq fun q => { q with state := .verifying, transactions := ts, placed := [] }) ts hpoll
  refine ⟨hserved, queueAttempts_attempting ts ⟨hpairs, hfresh⟩, ?_⟩
  have hcontent := congrArg (List.map fun c : RingOwner × Byte × Byte × Byte × List Byte =>
    (c.1, c.2.1, c.2.2.2.1, c.2.2.2.2)) hframes
  rw [← hpairs]
  simp only [State.frames, List.map_append, List.map_map, List.append_assoc] at hcontent ⊢
  exact hcontent

/-- The state as a translation has the point of the fill. -/
def State.translated (s : State) (rest : List Access) (busy : Bool) (p : Nat) (r : PointRec) (bus : Bus)
    (more : List (Nat × Bus)) : State :=
  ((s.accessed rest busy).onCache fun c => c.taken p r).pairKnown bus more r

/-- A fill of the last pair of a translation succeeds: the masks are built. -/
theorem exec_fill_translated {bus : Bus} (h : s.accessing (readFor .points p .fill) rest)
    (hf : s.cache.fill = some (p, .translate)) (hb : s.mem.record .points p = some bs) (hw : s.cache.waiting = [])
    (hi : s.cache.invalidates = []) (hs : s.seq.state = .translating) (ht : s.seq.todo = [(p, bus)]) (busy : Bool) :
    exec (.tableAccessComplete none busy) s =
      .next (s.translated rest busy p (decodePoint bs) bus []).buildMasks.settled := by
  rw [exec_fill_plain h hf hb hw hi, deliver_translate_last
    (s := (s.accessed rest busy).onCache fun c => c.taken p (decodePoint bs)) hs ht]
  rfl

/-- A fill fails with nothing waiting for it: its requester stops, the failure is counted, TABLE-PARITY reported. -/
theorem exec_fill_failed (h : s.accessing (readFor .points p .fill) rest) (hf : s.cache.fill = some (p, who))
    (hb : s.mem.record .points p = none) (hw : s.cache.waiting = []) (hi : s.cache.invalidates = []) (busy : Bool) :
    exec (.tableAccessComplete none busy) s =
      .next (((((s.accessed rest busy).onTables fun t => t.parityFailed .points p).onCache fun c =>
        { c with fill := none }).fillFailed who).tableParity .points p (some p)).settled := by
  rw [exec_read_failed h hb]
  exact congrArg (fun x : State => Host.Outcome.next x.settled)
    (fillDone_failed (s := (s.accessed rest busy).onTables fun t => t.parityFailed .points p) hf hw hi)

/-- What a failed fill leaves, no run active or the run RUNNING. -/
theorem fill_failed_spec (h : s.accessing (readFor .points p .fill) rest) (hf : s.cache.fill = some (p, who))
    (hb : s.mem.record .points p = none) (hw : s.cache.waiting = []) (hv : s.fault.valid = false)
    (hi : s.cache.invalidates = []) (hrun : s.run.active = false ∨ s.run.state = .running) (busy : Bool) :
    ∃ t, exec (.tableAccessComplete none busy) s = .next t ∧ t.cache.entries = s.cache.entries ∧
      t.cache.pointer = s.cache.pointer ∧ t.cache.fill = none ∧
      t.tables =
        { s.tables with
          parityCount := min 255 (s.tables.parityCount + 1), parityLast := some (.points, p) } ∧
      t.fault = s.firstFault .tableParity s.hv.state s.currentNet (some p) (some (.points, p)) ∧
      t.events.isPending .fault = true ∧
      (who = .lead → t.arith.job = none) ∧ (who = .translate → t.seq.state ≠ .translating) ∧
      (s.run.active = false → t.run = s.run) ∧
      (s.run.state = .running → t.run.state = .aborting ∧ t.run.abortCause = .fault) ∧
      t.defects = s.defects ∧ t.mem = s.mem := by
  refine ⟨_, exec_fill_failed h hf hb hw hi busy, ?_⟩
  obtain ⟨hstop, hlead, htranslate⟩ := fillFailed_eq
    (((s.accessed rest busy).onTables fun t => t.parityFailed .points p).onCache fun c => { c with fill := none }) who
  generalize State.fillFailed _ who = y at *
  have hyv : y.fault.valid = false := by rw [hstop]; exact hv
  have hyrun : y.run = s.run := by rw [hstop]; rfl
  obtain ⟨x, hx, hrecord, hidle, hrunning⟩ := reportFault_spec
    (r := { code := .tableParity, hv := y.hv.state, net := y.currentNet, point := some p, table := some (.points, p) })
    hyv FaultCode.noConfusion (hyrun ▸ hrun)
  change State.Responds x (y.tableParity .points p (some p)) at hx
  change y.run.active = false → (y.tableParity .points p (some p)).run = y.run at hidle
  change y.run.state = .running → (y.tableParity .points p (some p)).run.state = .aborting ∧
    (y.tableParity .points p (some p)).run.abortCause = .fault at hrunning
  generalize y.tableParity .points p (some p) = t at *
  have hkept : x.mem = s.mem ∧ x.tables = (s.onTables fun t => t.parityFailed .points p).tables ∧
      x.defects = s.defects ∧ x.cache = { s.cache with fill := none } ∧ x.arith = y.arith ∧ x.seq = y.seq ∧
      x.fault = s.firstFault .tableParity s.hv.state s.currentNet (some p) (some (.points, p)) ∧
      x.events.isPending .fault = true := by
    have hpending := faultRecorded_pending y
      { code := .tableParity, hv := y.hv.state, net := y.currentNet, point := some p, table := some (.points, p) }
    refine ⟨?_, ?_, ?_, ?_, ?_, ?_, ?_, by rw [hrecord]; exact hpending⟩
    all_goals rw [hrecord, faultRecorded_eq hyv]
    all_goals rw [hstop]
    all_goals rfl
  obtain ⟨hmem, htables, hdefects, hcache, harith, hseq, hfault, hpending⟩ := hkept
  refine ⟨hx.entries.trans (by rw [hcache]), hx.pointer.trans (by rw [hcache]),
    hx.fill (by rw [hcache]), hx.tables.trans htables, hx.fault.trans hfault,
    (congrArg (Events.isPending · .fault) hx.events).trans hpending, fun hwho => hx.job ?_,
    fun hwho => hx.translating ?_, fun hr => (hidle (hyrun ▸ hr)).trans hyrun, fun hr => hrunning (hyrun ▸ hr),
    hx.defects.trans hdefects, hx.mem.trans hmem⟩
  · rw [harith]
    exact hlead hwho
  · rw [hseq]
    exact htranslate hwho

/-- Settles O33: a fill with the lookup or the INVALIDATE MAP that waited for it, a fill by its requester, a fill that
fails, and a read for READ TABLE. -/
theorem recordReadCompletes : Obligations.RecordReadCompletes := by
  unfold Obligations.RecordReadCompletes
  refine ⟨fun placed a c hc => desiredMasks_getLsbD placed a hc, fun s p who rest busy h hf => ⟨?_, ?_, ?_⟩, ?_⟩
  · rintro bs raw sum q hb rfl hi hw hjob hp - hno
    have hserved := exec_fill_waiting h hf hb hi hw hjob hp hno busy
    refine ⟨fun heq => ?_, fun hne => ?_⟩
    · rw [hserved, if_pos heq]
      rfl
    · rw [hserved, if_neg hne]
      rfl
  · intro bs hw hb
    refine ⟨fun tag hi => ⟨?_, ?_⟩, fun hi => ⟨?_, ?_, ?_, ?_⟩⟩
    · rintro rfl
      exact (exec_fill_invalidates h hf hb hw hi busy).trans (congrArg Host.Outcome.next (reply_settled _ _ _ _ _))
    · rintro raw sum live rfl
      refine ⟨fun hjob => ?_, fun q hjob hno => ?_⟩
      · rw [exec_fill_invalidates h hf hb hw hi, deliver_lead_last
          (s := State.reply (State.onCache (s.accessed rest busy) fun c => c.cleared p (decodePoint bs)) _ _ _ _) hjob]
        exact congrArg Host.Outcome.next (reply_settled
          { s.accessed rest busy with
            cache := s.cache.cleared p (decodePoint bs)
            arith := { s.arith with job := some { op := .lowVolt raw [] (sum + (decodePoint bs).lead), live } } } _ _
              _ _)
      · have hmiss : (s.cache.cleared p (decodePoint bs)).find q = none := Cache.find_eq_none hno
        rw [exec_fill_invalidates h hf hb hw hi, deliver_lead_next
          (s := State.reply (State.onCache (s.accessed rest busy) fun c => c.cleared p (decodePoint bs)) _ _ _ _)
          hjob rfl hmiss]
        exact congrArg Host.Outcome.next (reply_settled
          { s.accessed (rest ++ [readFor .points q .fill]) busy with
            cache := { s.cache.cleared p (decodePoint bs) with fill := some (q, .lead) }
            arith := { s.arith with job := some { op := .lowVolt raw [q] (sum + (decodePoint bs).lead), live } } } _
              _ _ _)
    · rintro rfl
      exact exec_fill_plain h hf hb hw hi busy
    · rintro raw sum live rfl hjob
      rw [exec_fill_plain h hf hb hw hi, deliver_lead_last (s := State.onCache (s.accessed rest busy) _) hjob]
      rfl
    · rintro q rfl hs hq
      rw [exec_fill_plain h hf hb hw hi, deliver_reference (s := State.onCache (s.accessed rest busy) _) hs hq]
      rfl
    · intro bus more hwho hs ht placed masks wanted
      subst hwho
      have hpairs : ((s.translated rest busy p (decodePoint bs) bus more).newTransactions.map
          fun x => (x.module, x.masks)) = wanted := by
        refine (newTransactions_pairs _).trans (List.filter_congr fun x _ => ?_)
        cases hb : s.believed x.1 with
        | none => exact needsTransaction_unknown (s := s.translated rest busy p (decodePoint bs) bus more) hb x.2
        | some m => exact needsTransaction_known (s := s.translated rest busy p (decodePoint bs) bus more) hb x.2
      refine ⟨fun q bus' others hmore hno => ?_, fun hmore hconf => ?_, ?_, ?_⟩
      · subst hmore
        have hmiss : (s.cache.taken p (decodePoint bs)).find q = none := Cache.find_eq_none hno
        rw [exec_fill_plain h hf hb hw hi, deliver_translate_next
          (s := (s.accessed rest busy).onCache fun c => c.taken p (decodePoint bs)) hs ht rfl hmiss]
        rfl
      · subst hmore
        rw [exec_fill_translated h hf hb hw hi hs ht, buildMasks_conflict hconf]
        rfl
      · intro k f q hmore hnone hwanted hreq hkind hhalt hmc hhv hring hk hfixed hq
        subst hmore
        have hnew := List.map_eq_nil_iff.mp (hpairs.trans hwanted)
        rw [exec_fill_translated h hf hb hw hi hs ht, (buildMasks_sound hnone).1 hnew, configReady_cont
          (s := s.translated rest busy p (decodePoint bs) bus []) hreq hkind hhalt hmc hhv hring hk hfixed hq]
        rfl
      · intro hmore hnone hwanted hpoll
        subst hmore
        obtain ⟨hserved, ⟨hmodules, hphases⟩, hframes⟩ :=
          buildMasks_verifies (s := s.translated rest busy p (decodePoint bs) bus []) hnone hpairs hwanted hpoll
        refine ⟨_, exec_fill_translated h hf hb hw hi hs ht busy, ?_⟩
        generalize State.buildMasks _ = t at *
        rw [State.ringServed] at hserved
        refine ⟨?_, ?_, ?_, ?_, ?_, ?_, ?_, ?_, hmodules, hphases, hframes⟩
        all_goals
          rw [State.settled, hserved]
          rfl
  · intro hw hb hv hi hrun
    exact fill_failed_spec h hf hb hw hv hi hrun busy
  · intro s kind index rest busy tag hheld hphase hindex hq
    have h : s.accessing (readFor kind index (.readTable tag)) rest := ⟨hheld, hphase, hindex, hq⟩
    refine ⟨fun hsound => ?_, fun hbad => ?_⟩
    · rw [exec_read_found h (record_of_sound hsound), ← sent_eq]
      exact congrArg Host.Outcome.next (reply_settled (s.accessed rest busy) _ _ _ _)
    · rw [exec_read_failed h (record_of_bad hbad)]
      exact congrArg Host.Outcome.next
        (reply_settled ((s.accessed rest busy).onTables fun t => t.parityFailed kind index) _ _ _ _)

end Sys2Proof.Machine
end

section
/-! PROOFS. What a look for work and an insert into the defect list change (R144, R154), for the ends of operations
(O60). -/

namespace Sys2Proof.Machine

variable {s t u : State}

/-! ### A look for work (R154) -/

/-- A state differs from another only as a look for work makes it differ: in the port, the operations that wait, the
Print Engine and the defect list. -/
def State.printServed (s t : State) : Prop :=
  t = { s with
    port := t.port, arith := { s.arith with waiting := t.arith.waiting }, print := t.print, defects := t.defects }

theorem State.printServed.trans (h : s.printServed t) (j : t.printServed u) : s.printServed u := by
  unfold State.printServed at h j ⊢
  refine j.trans ?_
  rw [h]

theorem printServed_recordStarted (s : State) (second : Bool) (d : Defect) :
    s.printServed (s.recordStarted second d) ∧ (s.recordStarted second d).defects = s.defects := by
  unfold State.recordStarted
  dsimp only
  split
  · exact ⟨rfl, rfl⟩
  · cases d.key.netB with
    | none => exact ⟨rfl, rfl⟩
    | some n =>
      dsimp only
      split <;> exact ⟨rfl, rfl⟩

theorem printServed_beginLine {start : State → State} (h : s.printServed (start s))
    (hd : (start s).defects = s.defects) :
    s.printServed (s.beginLine start) ∧ (s.beginLine start).defects = s.defects := by
  rw [beginLine_eq]
  split
  · exact ⟨h, hd⟩
  · exact ⟨rfl, rfl⟩

/-- What looks for work change; where no SHORT is EXPLAINED, not the defect list. -/
theorem look_spec (n : Nat) (s : State) :
    s.printServed (s.look n) ∧ ((∀ d ∈ s.defects, d.explained = false) → (s.look n).defects = s.defects) := by
  induction n generalizing s with
  | zero => exact ⟨rfl, fun _ => rfl⟩
  | succ n ih =>
    by_cases hl : s.print.state = .idle ∨ s.print.state = .format ∨ s.print.state = .send
    swap
    · rw [look_of_nothing s n (.inl hl)]
      exact ⟨rfl, fun _ => rfl⟩
    cases he : s.print.bufferIn .empty with
    | none =>
      rw [look_of_nothing s n (.inr (.inl he))]
      exact ⟨rfl, fun _ => rfl⟩
    | some second =>
      obtain ⟨hsum, hrest⟩ := look_of_free s n second hl he
      by_cases hnext : s.summaryNext
      · rw [hsum hnext]
        have hline : s.printServed (s.startSummaryLine second) := rfl
        exact (printServed_beginLine (start := fun s => s.startSummaryLine second) hline rfl).imp id fun h _ => h
      · obtain ⟨hheader, hrecord⟩ := hrest hnext
        cases hh : s.print.header with
        | some step =>
          rw [hheader step hh]
          have hline : s.printServed (s.startHeaderLine second step) := rfl
          exact (printServed_beginLine (start := fun s => s.startHeaderLine second step) hline rfl).imp id fun h _ => h
        | none =>
          rw [hrecord hh]
          clear hrecord hheader
          cases ho : s.defects.find? _ with
          | none => exact ⟨rfl, fun _ => rfl⟩
          | some d =>
            dsimp only
            split
            · rename_i hexplained
              obtain ⟨hserved, -⟩ := ih (s.passOver d)
              have hpassed : s.printServed (s.passOver d) := rfl
              refine ⟨hpassed.trans hserved, fun hno => ?_⟩
              have := hno d (List.mem_of_find?_eq_some ho)
              simp [this] at hexplained
            · obtain ⟨hline, hkept⟩ := printServed_recordStarted s second d
              rw [← startRecordLine_eq] at hline hkept
              exact (printServed_beginLine (start := fun s => s.startRecordLine second d) hline hkept).imp
                id fun h _ => h

theorem printLook_off (h : s.print.state = .off) : s.printLook = s :=
  look_of_nothing s _ (.inl (by simp [h]))

/-- A look for work leaves the defect list where printing leaves it. -/
theorem printLook_spec (h : s.printKeepsList) : s.printServed s.printLook ∧ s.printLook.defects = s.defects := by
  refine ⟨(look_spec _ s).1, ?_⟩
  rcases h with h | h
  · rw [printLook_off h]
  · exact (look_spec _ s).2 h

/-! ### An insert that is appended (R144) -/

/-- The state with a record appended, and DEFECT raised. -/
def State.appendedBy (s : State) (r : Insert) : State :=
  ((s.onDefects fun ds => ds ++ [s.newRecord r.key r.value r.lowv]).onRun fun x => x.inserted.appended).raise .defect

theorem appendedBy_eq (s : State) (r : Insert) :
    s.appendedBy r =
      { s with
        defects := s.defects ++ [s.newRecord r.key r.value r.lowv]
        run := s.run.inserted.appended
        events := { s.events with pending := s.events.pending ||| Event.defect.bit }
        trunk := (s.appendedBy r).trunk } := by
  rw [State.appendedBy, raise_eq]
  rfl

theorem appendedBy_pending (s : State) (r : Insert) : (s.appendedBy r).events.isPending .defect = true :=
  raise_isPending _ _

theorem findKey_eq_none {ds : List Defect} {key : DefectKey} (h : ∀ d ∈ ds, d.key ≠ key) : findKey ds key = none := by
  rw [findKey, List.find?_eq_none]
  simpa using h

/-- The insert of an appended record: a PROVISIONAL record is not looked for yet. -/
theorem insert_appended {r : Insert} (h : s.appends r.key) :
    s.insert r =
      (if (s.newRecord r.key r.value r.lowv).provisional then s.appendedBy r else (s.appendedBy r).printLook,
        false) := by
  obtain ⟨hkey, hlimit, hroom⟩ := h
  rw [State.insert, findKey_eq_none hkey]
  simp only [Option.isSome_none, Bool.false_eq_true, if_false, Nat.not_le.mpr hlimit, defectCapacity,
    Nat.not_le.mpr hroom]
  rfl

theorem insert_appended_off {r : Insert} (h : s.appends r.key) (hp : s.print.state = .off) :
    s.insert r = (s.appendedBy r, false) := by
  have hoff : (s.appendedBy r).print.state = .off := by rw [appendedBy_eq]; exact hp
  rw [insert_appended h, printLook_off hoff, ite_self]

/-- What an appended record changes beside the Print Engine, its requests and the notices (R144). -/
theorem insert_appended_spec {r : Insert} (h : s.appends r.key) (hp : s.printKeepsList) :
    (s.appendedBy r).printServed (s.insert r).1 ∧
      (s.insert r).1.defects = s.defects ++ [s.newRecord r.key r.value r.lowv] ∧ (s.insert r).2 = false := by
  have hdefects : (s.appendedBy r).defects = s.defects ++ [s.newRecord r.key r.value r.lowv] := by rw [appendedBy_eq]
  rw [insert_appended h]
  split
  · exact ⟨rfl, hdefects, rfl⟩
  · have hkeeps : (s.appendedBy r).printKeepsList := by
      rw [appendedBy_eq]
      refine hp.imp id fun hno d hd => ?_
      rcases List.mem_append.mp hd with hd | hd
      · exact hno d hd
      · rw [List.mem_singleton.mp hd]
        rfl
    obtain ⟨hserved, hkept⟩ := printLook_spec hkeeps
    exact ⟨hserved, hkept.trans hdefects, rfl⟩

end Sys2Proof.Machine
end

section
/-! PROOFS. The Arithmetic Unit takes the operation asked for earliest (O60). -/

namespace Sys2Proof.Machine

variable {s : State}

/-! ### Lookups of leads that hit (R19, R86) -/

theorem hit_eq (c : Cache) (i : Nat) : c.hit i = { c with pointer := (c.hit i).pointer } := by
  unfold Cache.hit
  split <;> rfl

theorem hit_find (c : Cache) (i p : Nat) : (c.hit i).find p = c.find p := by
  rw [hit_eq]
  rfl

theorem hit_entries (c : Cache) (i : Nat) : (c.hit i).entries = c.entries := by rw [hit_eq]

theorem hit_fill (c : Cache) (i : Nat) : (c.hit i).fill = c.fill := by rw [hit_eq]

theorem lookupLeads_hit {p i : Nat} {e : CacheEntry} (h : s.arith.nextLead = some p) (hf : s.cache.fill = none)
    (hi : s.cache.find p = some i) (he : s.cache.entries[i]? = some e) (n : Nat) :
    s.lookupLeads (n + 1) = ((s.onCache fun c => c.hit i).leadKnown e.copy).lookupLeads n := by
  simp only [State.lookupLeads, h, lookup_hit hf hi he]

/-! ### The start of an operation (R80, R84) -/

theorem execArithmeticOperationStart_eq (h : s.rst.held = false) :
    exec .arithmeticOperationStart s = .next s.arithStart.settled := by
  simp only [exec, execArithmeticOperationStart, State.event, h]
  rfl

/-- The oldest sample is taken out of its queue, and the request that it be out of the waiting operations. -/
def State.sampleTaken (s : State) (rest : List ArithReq) (q : List Sample) : State :=
  { s with mc := { s.mc with queue := q }, arith := { s.arith with waiting := rest } }

theorem arithStart_evaluate {ramp : Bool} {rest : List ArithReq} (hjob : s.arith.job = none)
    (hw : s.arith.waiting = .evaluate ramp :: rest) :
    s.arithStart = { s with arith := { job := some { op := .evaluate ramp, live := true }, waiting := rest } } := by
  simp only [State.arithStart, hjob, Option.isSome_none, Bool.false_eq_true, if_false, hw]
  rfl

theorem arithStart_takeSample {rest : List ArithReq} (hjob : s.arith.job = none)
    (hw : s.arith.waiting = .sample :: rest) :
    s.arithStart = (s.onArith fun a => { a with waiting := rest }).takeSample := by
  rw [State.arithStart, if_neg (by simp [hjob]), hw]

theorem takeSample_eq {x : Sample} {q : List Sample} (hq : s.mc.queue = x :: q) :
    (s.mc.state = .msrAnswered → s.takeSample = (s.onMc Measure.taken).takeAnswer x) ∧
      (s.mc.state = .stream → s.takeSample = (s.onMc Measure.taken).takeStream x) :=
  ⟨fun hm => by simp only [State.takeSample, hq, hm], fun hm => by simp only [State.takeSample, hq, hm]⟩

theorem arithStart_sample {rest : List ArithReq} {x : Sample} {q : List Sample} (hjob : s.arith.job = none)
    (hw : s.arith.waiting = .sample :: rest) (hq : s.mc.queue = x :: q) :
    (s.mc.state = .msrAnswered → s.arithStart = (s.sampleTaken rest q).takeAnswer x) ∧
      (s.mc.state = .stream → s.arithStart = (s.sampleTaken rest q).takeStream x) := by
  obtain ⟨hanswer, hstream⟩ := takeSample_eq (s := s.onArith fun a => { a with waiting := rest }) hq
  have htaken : (s.onArith fun a => { a with waiting := rest }).onMc Measure.taken = s.sampleTaken rest q := by
    simp only [State.onArith, State.onMc, Measure.taken, hq, List.drop_one, List.tail_cons]
    rfl
  rw [htaken] at hanswer hstream
  rw [arithStart_takeSample hjob hw]
  exact ⟨hanswer, hstream⟩

theorem retryStream_none (h : s.hv.streamWanted = false) : s.retryStream = s := by
  simp [State.retryStream, h]

/-- An answer with HV ends the request without an operation (R80). -/
theorem takeAnswer_hv {x : Sample} (hx : x.hv = true) (h : s.hv.streamWanted = false) :
    s.takeAnswer x =
      { s with
        mc := { s.mc with state := .idle, requester := .none, timer := none, curTag := none, prevTag := none } } := by
  rw [State.takeAnswer, if_pos hx, State.mcIdle, retryStream_none (s := s.onMc _) h]
  rfl

theorem takeAnswer_lowVolt {x : Sample} (hx : x.hv = false) {leads : List Nat}
    (hl : (if rawResistance s.limits.calib x = rmax then [] else s.mc.leads) = leads) :
    s.takeAnswer x = (s.serve (.lowVolt (rawResistance s.limits.calib x) leads 0)).lookupLeads 2 := by
  simp only [State.takeAnswer, hx, Bool.false_eq_true, if_false, hl]

/-- A stream sample by its seq (R80): the first one, a repeat, and one with a number of samples lost before it. -/
theorem takeStream_eq (x : Sample) :
    (s.mc.lastSeq = none → s.takeStream x =
      (s.onMc fun m => { m with lastSeq := some x.seq }).serve (.stream (convert s.limits.calib x))) ∧
    ∀ last, s.mc.lastSeq = some last →
      ((x.seq + 256 - last) % 256 = 0 →
        s.takeStream x = s.onMc fun m => { m with discards := min 65535 (m.discards + 1) }) ∧
      ((x.seq + 256 - last) % 256 ≠ 0 →
        s.takeStream x =
          (s.onMc fun m =>
            { m with lost := min 65535 (m.lost + ((x.seq + 256 - last) % 256 - 1)), lastSeq := some x.seq }).serve
            (.stream (convert s.limits.calib x))) := by
  refine ⟨fun h => ?_, fun last h => ⟨fun hd => ?_, fun hd => ?_⟩⟩
  · simp only [State.takeStream, Measure.seqStep, h, Option.map_none]
  · simp only [State.takeStream, Measure.seqStep, h, Option.map_some, hd]
  · obtain ⟨d, hd⟩ := Nat.exists_eq_succ_of_ne_zero hd
    simp only [State.takeStream, Measure.seqStep, h, Option.map_some, hd]

/-- The leads of an answer, both in the cache or the earlier of those that are not being read. -/
theorem takeAnswer_leads {x : Sample} {p1 p2 : Nat} (hx : x.hv = false) (hl : s.mc.leads = [p1, p2])
    (hraw : rawResistance s.limits.calib x ≠ rmax) (hf : s.cache.fill = none) :
    let raw := rawResistance s.limits.calib x
    (s.cache.find p1 = none →
      s.takeAnswer x = ((s.serve (.lowVolt raw [p1, p2] 0)).askRead .points p1 .fill).onCache fun c =>
        { c with fill := some (p1, .lead) }) ∧
    ∀ (i1 : Nat) (e1 : CacheEntry), s.cache.find p1 = some i1 → s.cache.entries[i1]? = some e1 →
      (s.cache.find p2 = none →
        s.takeAnswer x = ((s.serve (.lowVolt raw [p2] e1.copy.lead)).askRead .points p2 .fill).onCache fun c =>
          { c.hit i1 with fill := some (p2, .lead) }) ∧
      ∀ (i2 : Nat) (e2 : CacheEntry), s.cache.find p2 = some i2 → s.cache.entries[i2]? = some e2 →
        s.takeAnswer x = (s.serve (.lowVolt raw [] (e1.copy.lead + e2.copy.lead))).onCache fun c =>
          (c.hit i1).hit i2 := by
  intro raw
  rw [takeAnswer_lowVolt hx (by rw [if_neg hraw, hl])]
  refine ⟨fun h1 => lookupLeads_miss (s := s.serve _) rfl hf h1 1, fun i1 e1 h1 he1 => ?_⟩
  have hfirst : (s.serve (.lowVolt raw [p1, p2] 0)).lookupLeads 2 =
      ((s.serve (.lowVolt raw [p2] e1.copy.lead)).onCache fun c => c.hit i1).lookupLeads 1 := by
    rw [lookupLeads_hit (s := s.serve (.lowVolt raw [p1, p2] 0)) rfl hf h1 he1, leadKnown_eq (s := State.onCache _ _)
      rfl,
      Nat.zero_add]
    rfl
  rw [hfirst]
  refine ⟨fun h2 => ?_, fun i2 e2 h2 he2 => ?_⟩
  · refine (lookupLeads_miss (p := p2) ?_ ?_ ?_ 0).trans rfl
    · rfl
    · exact (hit_fill _ _).trans hf
    · exact (hit_find _ _ _).trans h2
  · rw [lookupLeads_hit (p := p2) (i := i2) (e := e2) rfl ((hit_fill _ _).trans hf) ((hit_find _ _ _).trans h2)
      ((congrArg (·[i2]?) (hit_entries _ _)).trans he2), leadKnown_eq (s := State.onCache _ _) rfl,
        lookupLeads_none rfl]
    rfl

end Sys2Proof.Machine
end

section
/-! PROOFS. The end of a low-voltage operation (O60): the answer leaves the Measurement Controller, the measurement is
counted, and the Sweep Engine goes on with its result. -/

namespace Sys2Proof.Machine

variable {s t z : State}

/-! ### The end of an operation (R30, R80, R84) -/

theorem execArithmeticOperationEnd_eq (h : s.rst.held = false) (busy : Bool) :
    exec (.arithmeticOperationEnd busy) s =
      .next (s.onPins fun p => { p with prnBusy := busy }).arithEnd.settled := by
  simp only [exec, execArithmeticOperationEnd, State.event, State.onPins_rst, h]
  rfl

/-- A low-voltage answer has been taken and counted: a state differs from another in that, and as the Ring Interface and
the streams of the HV Controller make it differ. -/
def State.measured (s z : State) : Prop :=
  z = { s with
    ring := z.ring
    sup := { s.sup with pollList := z.sup.pollList }
    seq := { s.seq with
      transactions := z.seq.transactions, home := { s.seq.home with tag := z.seq.home.tag } }
    mc := z.mc
    hv := z.hv
    arith := { s.arith with job := none }
    pins := z.pins
    run := { s.run with
      summary := { s.run.summary with measurements := min 4294967295 (s.run.summary.measurements + 1) } } }

theorem measured_mcIdle (s : State) (busy : Bool) : s.measured (s.operated busy).mcIdle.countMeasurement := by
  have hmc : ∀ x : State, x.mcServed x.mcIdle ∨ ∃ h, (x.onHv h).mcServed x.mcIdle := by
    intro x
    unfold State.mcIdle State.retryStream
    split
    · exact .inr ⟨_, State.mcServed.trans (t := (x.onMc _).onHv _) rfl (mcServed_openStream _ _)⟩
    · exact .inl rfl
  rcases hmc (s.operated busy) with h | ⟨f, h⟩
  · rw [State.mcServed] at h
    rw [State.measured, State.countMeasurement, h]
    rfl
  · rw [State.mcServed] at h
    rw [State.measured, State.countMeasurement, h]
    rfl

theorem exec_lowVolt_end {raw leads : Nat} (hheld : s.rst.held = false)
    (hjob : s.arith.job = some { op := .lowVolt raw [] leads, live := true }) (hw : s.sweep.state = .measuring)
    (busy : Bool) :
    ∃ z, s.measured z ∧
      (s.sweep.kind = some .cont →
        exec (.arithmeticOperationEnd busy) s = .next (z.contResult (compensate raw leads)).settled) ∧
      (s.sweep.kind = some .leadcal →
        exec (.arithmeticOperationEnd busy) s = .next (z.leadcalResult raw).settled) ∧
      (s.sweep.kind = some .iso →
        (∀ e, s.sweep.work[s.sweep.workCursor]? = some e →
          exec (.arithmeticOperationEnd busy) s = .next (z.correlationResult e (compensate raw leads)).settled) ∧
        (s.sweep.work[s.sweep.workCursor]? = none →
          exec (.arithmeticOperationEnd busy) s = .next (z.groupResult raw).settled)) := by
  have hz := measured_mcIdle s busy
  have hend : (s.onPins fun p => { p with prnBusy := busy }).arithEnd =
      (s.operated busy).mcIdle.sweepResult raw (compensate raw leads) := by
    simp only [State.arithEnd, State.onPins_arith, hjob]
    rfl
  refine ⟨_, hz, ?_⟩
  rw [execArithmeticOperationEnd_eq hheld, hend]
  have hsweep : (s.operated busy).mcIdle.sweep = s.sweep := by
    have h : (s.operated busy).mcIdle.countMeasurement.sweep = s.sweep := by rw [hz]
    exact h
  generalize (s.operated busy).mcIdle = y at *
  have hmeasuring : y.sweep.state = .measuring := by rw [hsweep, hw]
  refine ⟨fun hk => ?_, fun hk => ?_, fun hk => ⟨fun e he => ?_, fun he => ?_⟩⟩
  all_goals
    rw [← hsweep] at hk
    simp only [State.sweepResult, hmeasuring, ne_eq, not_true_eq_false, if_false, hk]
  · rw [← hsweep] at he
    simp only [Sweep.entry, he]
  · rw [← hsweep] at he
    simp only [Sweep.entry, he]

/-! ### LEADCAL results (R104, R105) -/

/-- A LEADCAL result looks up its reference: it is in the cache, and the lead is written, or it is read first. -/
theorem leadcalResult_lookup {raw p reference : Nat} (hraw : raw ≠ rmax) (hp : s.sweep.visitedPoint = some p)
    (hr : s.sweep.fixedPoint = some reference) (hf : s.cache.fill = none) :
    (s.cache.find reference = none →
      s.leadcalResult raw =
        { s with
          sweep := { s.sweep with raw }
          cache := { s.cache with fill := some (reference, .reference) }
          port := { queue := s.port.queue ++ [readFor .points reference .fill] } }) ∧
    ∀ (i : Nat) (e : CacheEntry), s.cache.find reference = some i → s.cache.entries[i]? = some e →
      s.leadcalResult raw =
        let lead := min 65535 (raw - e.copy.lead)
        { s with
          sweep := { s.sweep with raw, state := .writing }
          cache := s.cache.hit i
          port :=
            { queue := s.port.queue ++
                [{ kind := .points, index := p, write := some (3, be16 lead), owner := .sweepLead p lead }] } } := by
  have hpoint : s.sweep.visitedPoint.getD 0 = p := by rw [hp, Option.getD_some]
  have href : s.sweep.fixedPoint.getD 0 = reference := by rw [hr, Option.getD_some]
  rw [State.leadcalResult, if_neg hraw, href]
  refine ⟨fun h => ?_, fun i e hi he => ?_⟩
  · rw [lookup_miss (s := s.onSweep _) hf h]
    rfl
  · rw [lookup_hit (s := s.onSweep _) hf hi he]
    simp only [State.referenceKnown, State.onCache, State.onSweep, hpoint]
    rfl

/-! ### Groups (R111, R112, R116) -/

/-- The boundary of a group with a group left on the stack: the run goes on, and that group is taken in hand. -/
theorem atBoundary_group {h : Group} {stack : List Group} (hk : s.sweep.kind = some .iso)
    (hs : s.sweep.stack = h :: stack) (hgo : s.runGoesOn) :
    s.atBoundary =
      { s with
        sweep := s.sweep.inHandOf h stack
        port := { queue := s.port.queue ++ [readFor .nets s.sweep.cursor .sweepRead] } } := by
  have hover : s.sweep.netOver = false := by simp [Sweep.netOver, hk, hs]
  have hover' : (s.onSweep fun w => { w with state := .idle, inHand := none }).sweep.netOver = false := by
    simp [State.onSweep, Sweep.netOver, hk, hs]
  rw [State.atBoundary, hover, Bool.false_and, runBoundary_goesOn (s := s.onSweep _) hgo, State.sweepGoOn, hover']
  simp only [Bool.false_eq_true, if_false, State.onSweep_sweep, hk, State.popGroup, hs]
  rfl

/-- The boundary of a group whose net has none left, and which is not the step's last: the next net is begun. -/
theorem atBoundary_nextNet {k : Nat} (hk : s.sweep.kind = some .iso) (hs : s.sweep.stack = [])
    (hc : s.sweep.netCursor = some k) (hl : k ≠ s.sweep.lastNet) (hgo : s.runGoesOn) :
    s.atBoundary =
      { s with
        sweep := s.sweep.isoNet (k + 1)
        port := { queue := s.port.queue ++ [readFor .nets (k + 1) .sweepRead] } } := by
  have hcursor : s.sweep.cursor = k := by rw [Sweep.cursor, hc, Option.getD_some]
  have hlast : s.sweep.onLastNet = false := by simpa [Sweep.onLastNet, hcursor] using hl
  have hover : (s.onSweep fun w => { w with state := .idle, inHand := none }).sweep.netOver = true := by
    simp [State.onSweep, Sweep.netOver, hk, hs]
  rw [State.atBoundary, hlast, Bool.and_false, runBoundary_goesOn (s := s.onSweep _) hgo, State.sweepGoOn, hover,
    if_pos rfl,
    State.sweepNextNet, if_neg (by exact hcursor ▸ hl)]
  simp [State.sweepNet, State.onSweep, hk, hc, Sweep.cursor, State.startScan, State.sweepRead, Sweep.isoNet,
    Sweep.scanOf,
    State.askRead, State.ask, State.onPort, readFor]

/-- A group result at or above the limit, and one below it of a group that is split (R111, R114). -/
theorem groupResult_high {raw : Nat} (h : s.limits.iso.limit ≤ raw) : s.groupResult raw = s.atBoundary := by
  simp [State.groupResult, groupIsLow, h]

theorem groupResult_split {raw : Nat} {g : Group} (h : raw < s.limits.iso.limit) (hg : s.sweep.inHand = some g)
    (hlen : 1 < g.length) :
    s.groupResult raw =
      (s.onSweep fun w => { w with stack :=
        { start := g.start, length := (g.length + 1) / 2 } ::
          { start := g.start + (g.length + 1) / 2, length := g.length / 2 } :: w.stack }).atBoundary := by
  simp only [State.groupResult, groupIsLow, h, decide_true, Bool.not_true, Bool.false_eq_true, if_false, hg,
    Option.getD_some, Nat.not_le.mpr hlen]
  rfl

/-! ### Records of the Sweep Engine (R102, R116) -/

/-- The Sweep Engine after a record that was appended, the record being no result record any more. -/
def Sweep.recorded (w : Sweep) (after : SweepAfter) : Sweep := { w with state := .inserting, results := [], after }

/-- The state after a record of the Sweep Engine that was appended. -/
def State.sweepRecorded (s : State) (r : Insert) (after : SweepAfter) : State :=
  ((s.onSweep fun w => { w with state := .inserting, results := [r], after }).appendedBy r).resultTaken

theorem sweepRecorded_eq (s : State) (r : Insert) (after : SweepAfter) :
    s.sweepRecorded r after =
      { s with
        sweep := s.sweep.recorded after
        defects := s.defects ++ [s.newRecord r.key r.value r.lowv]
        run := s.run.inserted.appended
        events := { s.events with pending := s.events.pending ||| Event.defect.bit }
        trunk := (s.sweepRecorded r after).trunk } := by
  rw [State.sweepRecorded, appendedBy_eq]
  rfl

theorem sweepRecorded_pending (s : State) (r : Insert) (after : SweepAfter) :
    (s.sweepRecorded r after).events.isPending .defect = true :=
  appendedBy_pending _ _

theorem sweepInsert_appended {r : Insert} (h : s.appends r.key) (hp : s.print.state = .off) (after : SweepAfter) :
    s.sweepInsert r after = (s.sweepRecorded r after, false) := by
  rw [State.sweepInsert, insert_appended_off (s := s.onSweep _) h hp]
  rfl

/-- A record appended without STOP-ON-DEFECT and below the limit lets the run go on. -/
theorem sweepRecorded_goesOn {r : Insert} (hgo : s.runGoesOn) (hstop : s.run.stopsOnDefect = false)
    (hlimit : s.run.summary.defects + 1 < s.limits.timing.defectLimit) (after : SweepAfter) :
    (s.sweepRecorded r after).runGoesOn := by
  obtain ⟨-, hstopped, hpause⟩ := hgo
  rw [sweepRecorded_eq]
  refine ⟨hlimit, ?_, hpause⟩
  simp [Run.inserted, Run.appended, hstopped, hstop]

theorem appends_of_sweepRecorded {r : Insert} {key : DefectKey} (hne : r.key ≠ key)
    (hkey : ∀ d ∈ s.defects, d.key ≠ key)
    (hlimit : s.run.summary.defects + 1 < s.limits.timing.defectLimit) (hlen : s.defects.length + 1 < 512)
    (after : SweepAfter) : (s.sweepRecorded r after).appends key := by
  rw [sweepRecorded_eq]
  refine ⟨fun d hd => ?_, hlimit, by simpa using hlen⟩
  rcases List.mem_append.mp hd with hd | hd
  · exact hkey d hd
  · rw [List.mem_singleton.mp hd]
    exact hne

/-! ### A SHORT (R114, R115, R117) -/

/-- The state after the SHORT of a group was appended. -/
def State.shortRecorded (s : State) (raw other : Nat) : State :=
  (s.onSweep fun w => { w with shortCount := w.shortCount + 1 }).sweepRecorded
    { key := shortKey s.sweep.cursor other, value := some raw, lowv := false } (.short other)

theorem shortRecorded_eq (s : State) (raw other : Nat) :
    s.shortRecorded raw other =
      { s with
        sweep :=
          { s.sweep with
            state := .inserting, shortCount := s.sweep.shortCount + 1, results := [], after := .short other }
        defects := s.defects ++ [s.newRecord (shortKey s.sweep.cursor other) (some raw) false]
        run := s.run.inserted.appended
        events := { s.events with pending := s.events.pending ||| Event.defect.bit }
        trunk := (s.shortRecorded raw other).trunk } := by
  rw [State.shortRecorded, sweepRecorded_eq]
  rfl

/-- A group of one net below the limit: its SHORT is appended, and the correlation or the cap test follows. -/
theorem groupResult_short {raw other : Nat} {g : Group} (h : raw < s.limits.iso.limit) (hg : s.sweep.inHand = some g)
    (hlen : g.length = 1) (hother : s.sweep.candidates[g.start]? = some other)
    (happ : s.appends (shortKey s.sweep.cursor other)) (hp : s.print.state = .off) :
    s.groupResult raw = (s.shortRecorded raw other).afterShort other := by
  have hone : g.length ≤ 1 := hlen.le
  have hinsert := sweepInsert_appended (s := s.onSweep fun w => { w with shortCount := w.shortCount + 1 })
    (r := { key := shortKey s.sweep.cursor other, value := some raw, lowv := false }) happ hp (.short other)
  simp only [State.groupResult, groupIsLow, h, decide_true, Bool.not_true, Bool.false_eq_true, if_false, hg,
    Option.getD_some, hone, if_true, hother]
  rw [hinsert]
  simp [State.shortRecorded]

theorem afterShort_correlate {g : Nat} (hc : s.sweep.correlate = true)
    (hkey : ∃ d ∈ s.defects, d.key = shortKey s.sweep.cursor g) :
    s.afterShort g =
      { s with
        sweep := Sweep.scanOf { s.sweep with work := [], workCursor := 0, shortOther := some g } .workK s.sweep.cursor
        port := { queue := s.port.queue ++ [readFor .nets s.sweep.cursor .sweepRead] } } := by
  have hfound : (findKey s.defects (shortKey s.sweep.cursor g)).isSome = true := by
    simpa [findKey] using hkey
  rw [State.afterShort, hc, hfound]
  rfl

theorem afterShort_cap {g : Nat} (hc : s.sweep.correlate = false) : s.afterShort g = s.capTest := by
  simp [State.afterShort, hc]

theorem capTest_below (h : s.sweep.shortCount < s.limits.iso.shortCap) : s.capTest = s.atBoundary := by
  rw [State.capTest, if_neg (Nat.not_le.mpr h)]

/-- The cap is reached with nets unexamined: SHORT-OVERFLOW is appended, and the search of the net stops (R115). -/
theorem capTest_overflow {u : Nat} (h : s.limits.iso.shortCap ≤ s.sweep.shortCount) (hu : s.sweep.unexamined = u)
    (hpos : 0 < u)
    (happ : s.appends { kind := .shortOverflow, netA := s.sweep.cursor, point := none, netB := none })
    (hp : s.print.state = .off) :
    s.capTest =
      ((s.sweepRecorded
        { key := { kind := .shortOverflow, netA := s.sweep.cursor, point := none, netB := none }
          value := some u, lowv := false } .overflow).onSweep fun w =>
            { w with stack := [], skipped := 0 }).atBoundary := by
  subst hu
  have hinsert := sweepInsert_appended (r :=
    { key := { kind := .shortOverflow, netA := s.sweep.cursor, point := none, netB := none }
      value := some s.sweep.unexamined, lowv := false }) happ hp .overflow
  simp only [State.capTest, h, if_true, hpos]
  rw [hinsert]
  simp [State.searchStopped]

/-! ### What a result leaves where a read follows it -/

/-- A result of the Sweep Engine after which a record is read: no operation is begun, no measurement is counted and
table memory is as it was. -/
def State.readsOn (s t : State) (read : Access) (sweep : Sweep) : Prop :=
  (t.arith.job = s.arith.job ∧ t.mem = s.mem ∧ t.run.summary.measurements = s.run.summary.measurements) ∧
    t.sweep = sweep ∧ t.port.queue = s.port.queue ++ [read]

/-- A SHORT whose correlation follows. -/
theorem groupResult_correlates {raw other : Nat} {g : Group} (h : raw < s.limits.iso.limit)
    (hg : s.sweep.inHand = some g) (hlen : g.length = 1) (hother : s.sweep.candidates[g.start]? = some other)
    (happ : s.appends (shortKey s.sweep.cursor other)) (hp : s.print.state = .off) (hc : s.sweep.correlate = true) :
    let t := s.groupResult raw
    s.readsOn t (readFor .nets s.sweep.cursor .sweepRead)
        (Sweep.scanOf
          { s.sweep with
            shortCount := s.sweep.shortCount + 1, results := [], after := .short other, work := [], workCursor := 0
            shortOther := some other } .workK s.sweep.cursor) ∧
      t.defects = s.defects ++ [s.newRecord (shortKey s.sweep.cursor other) (some raw) false] ∧
      t.events.isPending .defect = true := by
  intro t
  have hx := shortRecorded_eq s raw other
  have hpending := sweepRecorded_pending (s.onSweep fun w => { w with shortCount := w.shortCount + 1 })
    { key := shortKey s.sweep.cursor other, value := some raw, lowv := false } (.short other)
  have ht : t = (s.shortRecorded raw other).afterShort other := groupResult_short h hg hlen hother happ hp
  change (s.shortRecorded raw other).events.isPending .defect = true at hpending
  generalize s.shortRecorded raw other = x at *
  have hcursor : x.sweep.cursor = s.sweep.cursor := by rw [hx]; rfl
  have hlisted : ∃ d ∈ x.defects, d.key = shortKey x.sweep.cursor other := by
    rw [hcursor, hx]
    exact ⟨_, List.mem_append_right _ (List.mem_singleton_self _), rfl⟩
  rw [ht, afterShort_correlate (by rw [hx]; exact hc) hlisted, hcursor]
  refine ⟨?_, ?_, hpending⟩
  · rw [hx]
    exact ⟨⟨rfl, rfl, rfl⟩, rfl, rfl⟩
  · rw [hx]

/-- A SHORT below the cap, with a group left on the stack. -/
theorem groupResult_nextGroup {raw other : Nat} {g h : Group} {stack : List Group} (hlow : raw < s.limits.iso.limit)
    (hk : s.sweep.kind = some .iso) (hg : s.sweep.inHand = some g) (hlen : g.length = 1)
    (hother : s.sweep.candidates[g.start]? = some other)
    (happ : s.appends (shortKey s.sweep.cursor other)) (hp : s.print.state = .off) (hc : s.sweep.correlate = false)
    (hcap : s.sweep.shortCount + 1 < s.limits.iso.shortCap) (hs : s.sweep.stack = h :: stack) (hgo : s.runGoesOn)
    (hstop : s.run.stopsOnDefect = false) (hlimit : s.run.summary.defects + 1 < s.limits.timing.defectLimit) :
    let t := s.groupResult raw
    s.readsOn t (readFor .nets s.sweep.cursor .sweepRead)
        (Sweep.inHandOf
          { s.sweep with shortCount := s.sweep.shortCount + 1, results := [], after := .short other } h stack) ∧
      t.defects = s.defects ++ [s.newRecord (shortKey s.sweep.cursor other) (some raw) false] ∧
      t.events.isPending .defect = true := by
  intro t
  have hx := shortRecorded_eq s raw other
  have hpending := sweepRecorded_pending (s.onSweep fun w => { w with shortCount := w.shortCount + 1 })
    { key := shortKey s.sweep.cursor other, value := some raw, lowv := false } (.short other)
  have hgoes := sweepRecorded_goesOn (s := s.onSweep fun w => { w with shortCount := w.shortCount + 1 })
    (r := { key := shortKey s.sweep.cursor other, value := some raw, lowv := false }) hgo hstop hlimit (.short other)
  have ht : t = (s.shortRecorded raw other).afterShort other := groupResult_short hlow hg hlen hother happ hp
  change (s.shortRecorded raw other).events.isPending .defect = true at hpending
  change (s.shortRecorded raw other).runGoesOn at hgoes
  generalize s.shortRecorded raw other = x at *
  rw [ht, afterShort_cap (by rw [hx]; exact hc), capTest_below (by rw [hx]; exact hcap),
    atBoundary_group (by rw [hx]; exact hk) (by rw [hx]; exact hs) hgoes]
  refine ⟨?_, ?_, hpending⟩
  · rw [hx]
    exact ⟨⟨rfl, rfl, rfl⟩, rfl, rfl⟩
  · rw [hx]

/-- A SHORT that reaches the cap with nets unexamined, on a net that is not the step's last. -/
theorem groupResult_overflows {raw other k u : Nat} {g : Group} (hlow : raw < s.limits.iso.limit)
    (hk : s.sweep.kind = some .iso) (hnet : s.sweep.netCursor = some k) (hg : s.sweep.inHand = some g)
    (hlen : g.length = 1) (hother : s.sweep.candidates[g.start]? = some other)
    (happ : s.appends (shortKey s.sweep.cursor other)) (hp : s.print.state = .off) (hc : s.sweep.correlate = false)
    (hcap : s.limits.iso.shortCap ≤ s.sweep.shortCount + 1) (hu : u = s.sweep.unexamined) (hpos : 0 < u)
    (hlast : k ≠ s.sweep.lastNet) (hgo : s.runGoesOn) (hstop : s.run.stopsOnDefect = false)
    (hlimit : s.run.summary.defects + 2 < s.limits.timing.defectLimit)
    (hkey : ∀ d ∈ s.defects, d.key ≠ { kind := .shortOverflow, netA := k, point := none, netB := none })
    (hroom : s.defects.length + 1 < 512) :
    let t := s.groupResult raw
    s.readsOn t (readFor .nets (k + 1) .sweepRead)
        (Sweep.isoNet { s.sweep with results := [], after := .overflow } (k + 1)) ∧
      t.defects = s.defects ++
        [s.newRecord (shortKey s.sweep.cursor other) (some raw) false,
          { s.newRecord { kind := .shortOverflow, netA := k, point := none, netB := none } (some u) false with
            seq := s.run.summary.defects + 2 }] := by
  intro t
  have hcursor : s.sweep.cursor = k := by rw [Sweep.cursor, hnet, Option.getD_some]
  have hx := shortRecorded_eq s raw other
  have hgoes := sweepRecorded_goesOn (s := s.onSweep fun w => { w with shortCount := w.shortCount + 1 })
    (r := { key := shortKey s.sweep.cursor other, value := some raw, lowv := false }) hgo hstop (by exact (by omega :
      s.run.summary.defects + 1 < s.limits.timing.defectLimit)) (.short other)
  have hbeyond := appends_of_sweepRecorded (s := s.onSweep fun w => { w with shortCount := w.shortCount + 1 })
    (r := { key := shortKey s.sweep.cursor other, value := some raw, lowv := false })
    (key := { kind := .shortOverflow, netA := k, point := none, netB := none }) (by simp [shortKey]) hkey
    (by exact (by omega : s.run.summary.defects + 1 < s.limits.timing.defectLimit)) hroom (.short other)
  have ht : t = (s.shortRecorded raw other).afterShort other := groupResult_short hlow hg hlen hother happ hp
  change (s.shortRecorded raw other).runGoesOn at hgoes
  change (s.shortRecorded raw other).appends _ at hbeyond
  generalize s.shortRecorded raw other = x at *
  have hxcursor : x.sweep.cursor = k := by rw [hx]; exact hcursor
  rw [ht, afterShort_cap (by rw [hx]; exact hc), capTest_overflow (u := u) (by rw [hx]; exact hcap)
    (by rw [hx, hu]; rfl)
    hpos (hxcursor.symm ▸ hbeyond) (by rw [hx]; exact hp), hxcursor]
  have hy := sweepRecorded_eq x
    { key := { kind := .shortOverflow, netA := k, point := none, netB := none }, value := some u, lowv := false }
    .overflow
  have hygoes := sweepRecorded_goesOn
    (r := { key := { kind := .shortOverflow, netA := k, point := none, netB := none }, value := some u, lowv := false })
    hgoes (by rw [hx]; exact hstop) (by rw [hx]; exact hlimit) .overflow
  generalize x.sweepRecorded _ _ = y at *
  rw [atBoundary_nextNet (s := y.onSweep fun w => { w with stack := [], skipped := 0 }) (k := k)
    (by rw [hy, hx]; exact hk) rfl (by rw [hy, hx]; exact hnet) (by rw [hy, hx]; exact hlast) hygoes]
  refine ⟨?_, ?_⟩
  · rw [hy, hx]
    exact ⟨⟨rfl, rfl, rfl⟩, rfl, rfl⟩
  · rw [hy, hx]
    simp [State.newRecord, State.onSweep, Run.appended, Run.inserted]

/-- A measurement that is counted leaves what a new record would be, and where the run goes on. -/
theorem measured_newRecord (h : s.measured z) (key : DefectKey) (value : Option Nat) (lowv : Bool) :
    z.newRecord key value lowv = s.newRecord key value lowv := by
  rw [State.measured] at h
  rw [h]
  rfl

/-- The end of a low-voltage operation after which a record is read. -/
theorem measured_readsOn {read : Access} {sweep : Sweep} (h : s.measured z) (j : z.readsOn t read sweep) :
    (t.settled.arith.job = none ∧ t.settled.mem = s.mem ∧
      t.settled.run.summary.measurements = min 4294967295 (s.run.summary.measurements + 1)) ∧
      t.settled.sweep = sweep ∧ t.settled.port.queue = s.port.queue ++ [read] := by
  obtain ⟨⟨hjob, hmem, hmeasurements⟩, hsweep, hport⟩ := j
  rw [State.measured] at h
  refine ⟨⟨hjob.trans ?_, hmem.trans ?_, hmeasurements.trans ?_⟩, hsweep, hport.trans ?_⟩
  all_goals rw [h]

end Sys2Proof.Machine
end

section
/-! PROOFS. Correlation results (R119, R120, R146) and continuity results (R101) at the end of a low-voltage operation
(O60). -/

namespace Sys2Proof.Machine

variable {s t : State}

/-! ### The rewrite of an OPEN record (R146) -/

/-- The keys that a match of a correlation is about: the OPEN record, the MISWIRE it becomes. -/
def openKey (own point : Nat) : DefectKey := { kind := .opn, netA := own, point := some point, netB := none }
def miswireKey (own point other : Nat) : DefectKey :=
  { kind := .miswire, netA := own, point := some point, netB := some other }

/-- An OPEN record without a MISWIRE of its key is rewritten in place, and the SHORT is marked. -/
theorem explain_rewrite_inPlace {ds : List Defect} {own point other : Nat} (v step k g : Nat)
    (hopen : ∃ d ∈ ds, d.key = openKey own point) (hno : ∀ d ∈ ds, d.key ≠ miswireKey own point other) :
    explain (rewrite ds own point other v step) k g =
      ds.map fun d =>
        if d.key = openKey own point then { d with key := miswireKey own point other, value := some v, step }
        else if d.key = shortKey k g then { d with explained := true }
        else d := by
  obtain ⟨d, hd⟩ : ∃ d, findKey ds (openKey own point) = some d := by
    rw [← Option.isSome_iff_exists]
    simpa [findKey] using hopen
  have hrewrite : rewrite ds own point other v step = changeKey ds (openKey own point) fun d =>
      { d with key := miswireKey own point other, value := some v, step } := by
    have hm := findKey_eq_none hno
    rw [openKey] at hd
    rw [miswireKey] at hm
    simp only [rewrite, hd, hm]
    rfl
  rw [hrewrite, explain, changeKey, changeKey, List.map_map]
  refine List.map_congr_left fun x _ => ?_
  simp only [Function.comp]
  split
  · rw [if_neg (by simp [miswireKey, shortKey])]
  · rfl

/-- With a MISWIRE of its key in the list the OPEN record is merged into it and leaves, and the SHORT is marked. -/
theorem explain_rewrite_merged {ds : List Defect} {own point other : Nat} (v step k g : Nat)
    (hkeys : ds.Pairwise fun d e => d.key ≠ e.key) (hseqs : ds.Pairwise fun d e => d.seq < e.seq)
    (hopen : ∃ d ∈ ds, d.key = openKey own point) (hmis : ∃ d ∈ ds, d.key = miswireKey own point other) :
    explain (rewrite ds own point other v step) k g =
      (ds.filter fun d => d.key ≠ openKey own point).map fun d =>
        if d.key = miswireKey own point other then { d with value := some v, step, rep := min 255 (d.rep + 1) }
        else if d.key = shortKey k g then { d with explained := true }
        else d := by
  obtain ⟨d, hd⟩ : ∃ d, findKey ds (openKey own point) = some d := by
    rw [← Option.isSome_iff_exists]
    simpa [findKey] using hopen
  obtain ⟨m, hm⟩ : ∃ m, findKey ds (miswireKey own point other) = some m := by
    rw [← Option.isSome_iff_exists]
    simpa [findKey] using hmis
  have hrewrite : rewrite ds own point other v step =
      (changeKey ds (miswireKey own point other) fun x => { x.again with value := some v, step }).filter fun x =>
        x.seq ≠ d.seq := by
    rw [openKey] at hd
    rw [miswireKey] at hm
    simp only [rewrite, hd, hm]
    rfl
  have hdmem : d ∈ ds := List.mem_of_find?_eq_some hd
  have hdkey : d.key = openKey own point := by simpa using List.find?_some hd
  have hsame : ∀ x ∈ ds, (x.seq ≠ d.seq ↔ x.key ≠ openKey own point) := by
    intro x hx
    rw [← hdkey, not_iff_not]
    constructor
    · intro h
      rw [List.inj_on_of_nodup_map (List.pairwise_map.2 (hseqs.imp fun h => Nat.ne_of_lt h)) hx hdmem h]
    · intro h
      rw [List.inj_on_of_nodup_map (List.pairwise_map.2 hkeys) hx hdmem h]
  rw [hrewrite, explain, changeKey, changeKey, List.filter_map, List.map_map]
  have hfilter : ds.filter ((fun x : Defect => decide (x.seq ≠ d.seq)) ∘ fun x =>
      if x.key = miswireKey own point other then { x.again with value := some v, step } else x) =
      ds.filter fun d => d.key ≠ openKey own point := by
    refine List.filter_congr fun x hx => ?_
    rw [← decide_eq_decide.mpr (hsame x hx)]
    simp only [Function.comp]
    split <;> rfl
  rw [hfilter]
  refine List.map_congr_left fun x _ => ?_
  simp only [Function.comp]
  split
  · rename_i hkey
    rw [if_neg (by simp [Defect.again, hkey, miswireKey, shortKey])]
    rfl
  · rfl

/-! ### The entries of a work list (R119) -/

theorem nextEntry_some {f : WorkEntry} (hf : s.sweep.work[s.sweep.workCursor + 1]? = some f) :
    s.nextEntry =
      { s with
        sweep := Sweep.scanOf { s.sweep with workCursor := s.sweep.workCursor + 1 } .entryOther f.other
        port := { queue := s.port.queue ++ [readFor .nets f.other .sweepRead] } } := by
  have hentry : (s.onSweep fun w => { w with workCursor := w.workCursor + 1 }).sweep.entry = some f := hf
  rw [State.nextEntry, State.takeEntry, hentry]
  rfl

theorem nextEntry_none (hf : s.sweep.work[s.sweep.workCursor + 1]? = none) :
    s.nextEntry =
      (s.onSweep fun w => { w with work := [], workCursor := w.workCursor + 1, shortOther := none }).capTest := by
  have hentry : (s.onSweep fun w => { w with workCursor := w.workCursor + 1 }).sweep.entry = none := hf
  rw [State.nextEntry, State.takeEntry, hentry]
  rfl

/-- The defect list after a correlation result. -/
def State.correlated (s : State) (e : WorkEntry) (r : Nat) : List Defect :=
  if r ≤ (s.limits.contSet e.contSet).good then
    explain (rewrite s.defects e.own e.point e.other r (s.run.step.getD 0)) s.sweep.cursor (s.sweep.shortOther.getD 0)
  else s.defects

theorem correlationResult_eq (s : State) (e : WorkEntry) (r : Nat) :
    s.correlationResult e r = State.nextEntry { s with defects := s.correlated e r } := by
  unfold State.correlationResult State.correlated
  simp only [isMatch, decide_eq_true_eq]
  split <;> rfl

end Sys2Proof.Machine
end

section
/-! PROOFS. What a boundary of the Sweep Engine keeps whatever follows it, with printing OFF (R31, R45, R98, R102): the
continuity results and failed calibrations of O60. -/

namespace Sys2Proof.Machine

variable {s t : State} {P : List Defect → Prop} {m : TableMem} {n : Nat}

/-- No operation in service, printing OFF, table memory and the number of measurements given, and the defect list of a
property. -/
structure State.Quiet (P : List Defect → Prop) (m : TableMem) (n : Nat) (s : State) : Prop where
  job : s.arith.job = none
  off : s.print.state = .off
  mem : s.mem = m
  measurements : s.run.summary.measurements = n
  list : P s.defects

/-- What `State.Quiet` looks at. -/
def State.quietView (s : State) : Option ArithJob × PrintState × TableMem × Nat × List Defect :=
  (s.arith.job, s.print.state, s.mem, s.run.summary.measurements, s.defects)

theorem State.Quiet.congr (h : s.Quiet P m n) (e : t.quietView = s.quietView) : t.Quiet P m n := by
  simp only [State.quietView, Prod.mk.injEq] at e
  obtain ⟨hjob, hoff, hmem, hmeasurements, hlist⟩ := e
  exact ⟨hjob.trans h.job, hoff.trans h.off, hmem.trans h.mem, hmeasurements.trans h.measurements, hlist ▸ h.list⟩

/-- A property of the defect list that the end of a run keeps (R147). -/
def KeptAtEnd (P : List Defect → Prop) : Prop := ∀ ds, P ds → P (finalise ds)

/-- A property of the defect list that the insert of an UNTESTED record keeps (R144). -/
def KeptByUntested (P : List Defect → Prop) : Prop :=
  (∀ ds d, P ds → P (ds ++ [d])) ∧
    ∀ ds (r : Insert) step, r.key.kind = .untested → P ds → P (changeKey ds r.key fun d => d.merge r step)

/-! ### The run (R31, R32, R36, R45) -/

theorem quiet_raise (h : s.Quiet P m n) (e : Event) : (s.raise e).Quiet P m n := by
  rw [raise_eq]
  exact h.congr rfl

theorem quiet_stepEnd (h : s.Quiet P m n) (term : Option Termination) : (s.stepEnd term).Quiet P m n := by
  unfold State.stepEnd
  split
  · exact h
  · exact quiet_raise (s := State.onRun _ _) (h.congr rfl) _

theorem quiet_enterDone (hend : KeptAtEnd P) (h : s.Quiet P m n) (t : Termination) : (s.enterDone t).Quiet P m n := by
  have hstep : (if s.run.inProgress then s.stepEnd (some t) else s).Quiet P m n := by
    split
    · exact quiet_stepEnd h _
    · exact h
  unfold State.enterDone
  generalize (if s.run.inProgress then s.stepEnd (some t) else s) = x at *
  dsimp only
  have hdone : ∀ y : State, y.Quiet P m n → ((y.raise .runEnd).printRunEnds t).Quiet P m n := by
    intro y hy
    have hr := quiet_raise hy .runEnd
    have hoff : (y.raise .runEnd).print.state = .off := hr.off
    simp only [State.printRunEnds, hoff, ne_eq, not_true_eq_false, decide_false, Bool.false_and, Bool.false_eq_true,
      if_false]
    rwa [printLook_off hoff]
  refine hdone _ ⟨?_, hstep.off, hstep.mem, hstep.measurements, hend _ hstep.list⟩
  simp [State.onArith, State.onHv, State.sweepRest, State.onSweep, State.dropReads, State.onCache, State.onPort,
    State.onRun,
    State.onDefects, Arith.dropEvaluation, hstep.job]

theorem quiet_enterPaused (h : s.Quiet P m n) (cause : PauseCause) (wait : RunWait) :
    (s.enterPaused cause wait).Quiet P m n := by
  unfold State.enterPaused
  split
  · exact quiet_raise (s := State.onRun _ _) (h.congr rfl) _
  · exact h

theorem quiet_stepBoundary (hend : KeptAtEnd P) (h : s.Quiet P m n) : s.stepBoundary.Quiet P m n := by
  unfold State.stepBoundary
  split
  · exact h
  · split
    · exact quiet_enterDone hend h _
    · split
      · exact quiet_enterPaused h _ _
      · exact h.congr rfl

theorem quiet_stepFinished (hend : KeptAtEnd P) (h : s.Quiet P m n) : s.stepFinished.Quiet P m n :=
  quiet_stepBoundary hend (quiet_stepEnd (s := s.sweepRest.onHv fun h => { h with net := none, work := .idle })
    (h.congr rfl) _)

theorem quiet_runBoundary (hend : KeptAtEnd P) (h : s.Quiet P m n) (last : Bool) {goOn : State → State}
    (hgo : (goOn s).Quiet P m n) : (s.runBoundary last goOn).Quiet P m n := by
  unfold State.runBoundary
  split
  · exact quiet_enterDone hend h _
  · split
    · exact quiet_enterDone hend h _
    · split
      · exact quiet_stepFinished hend h
      · split
        · exact quiet_enterPaused h _ _
        · exact hgo

/-! ### The insert of a record (R144) -/

theorem quiet_insert (h : s.Quiet P m n) {r : Insert}
    (hmerge : ∀ step, P (changeKey s.defects r.key fun d => d.merge r step)) (happend : ∀ d, P (s.defects ++ [d])) :
    (s.insert r).1.Quiet P m n := by
  unfold State.insert
  dsimp only
  split
  · exact ⟨h.job, h.off, h.mem, h.measurements, hmerge _⟩
  · split
    · exact h
    · split
      · split
        · unfold State.enterStalled
          split
          · exact quiet_raise (s := State.onRun _ _) (h.congr rfl) _
          · exact h.congr rfl
        · exact h.congr rfl
      · have happended : ∀ d, (((s.onDefects fun ds => ds ++ [d]).onRun fun x => x.inserted.appended).raise
            .defect).Quiet P m n := fun d =>
          have hrecord : ((s.onDefects fun ds => ds ++ [d]).onRun fun x => x.inserted.appended).Quiet P m n :=
            ⟨h.job, h.off, h.mem, h.measurements, happend d⟩
          quiet_raise hrecord _
        split
        · exact happended _
        · rw [printLook_off (happended _).off]
          exact happended _

/-! ### The Sweep Engine (R98, R102) -/

theorem quiet_sweepNet (h : s.Quiet P m n) : s.sweepNet.Quiet P m n := by
  unfold State.sweepNet
  split <;> exact h.congr rfl

theorem quiet_sweepNextNet (hend : KeptAtEnd P) (h : s.Quiet P m n) : s.sweepNextNet.Quiet P m n := by
  unfold State.sweepNextNet
  split
  · exact quiet_stepFinished hend h
  · exact quiet_sweepNet (h.congr rfl)

theorem quiet_popGroup (hend : KeptAtEnd P) (h : s.Quiet P m n) : s.popGroup.Quiet P m n := by
  unfold State.popGroup
  split
  · exact quiet_sweepNextNet hend h
  · exact h.congr rfl

theorem quiet_netEndBoundary (hend : KeptAtEnd P) (h : s.Quiet P m n) : s.netEndBoundary.Quiet P m n := by
  have hended : (s.onSweep fun w =>
      { w with state := .idle, netDone := true, stack := [], inHand := none }).Quiet P m n := h.congr rfl
  exact quiet_runBoundary hend hended _ (quiet_sweepNextNet hend hended)

theorem quiet_netEndRecord (hend : KeptAtEnd P) (hun : KeptByUntested P) (h : s.Quiet P m n) {r : Insert}
    (hr : r.key.kind = .untested) : (s.netEndRecord r).Quiet P m n := by
  have hinsert : ((s.onSweep fun w => { w with state := .inserting, results := [r], after := .netEnd }).insert
      r).1.Quiet P m n :=
    quiet_insert (s := State.onSweep _ _) (h.congr rfl)
      (fun step => hun.2 _ _ _ hr h.list) fun d => hun.1 _ _ h.list
  unfold State.netEndRecord State.sweepInsert
  dsimp only
  generalize State.insert _ r = x at *
  split
  · exact hinsert
  · exact quiet_netEndBoundary hend (hinsert.congr rfl)

/-- A member visit reads its member, or ends the net with an UNTESTED record where the fixed module is lost. -/
theorem quiet_sweepVisit (hend : KeptAtEnd P)
    (hfixed : s.alive (s.sweep.fixedModule.getD 0) = true ∨ KeptByUntested P) (h : s.Quiet P m n) (pos : Nat) :
    (s.sweepVisit pos).Quiet P m n := by
  unfold State.sweepVisit
  dsimp only
  split
  · exact h.congr rfl
  · rename_i hlost
    exact quiet_netEndRecord (s := State.onSweep s _) hend (hfixed.resolve_left hlost) (h.congr rfl) rfl

theorem quiet_sweepGoOn (hend : KeptAtEnd P)
    (hfixed : s.alive (s.sweep.fixedModule.getD 0) = true ∨ KeptByUntested P) (h : s.Quiet P m n) :
    s.sweepGoOn.Quiet P m n := by
  unfold State.sweepGoOn
  split
  · exact quiet_sweepNextNet hend h
  · split
    · exact quiet_popGroup hend h
    · unfold State.sweepNextMember
      split
      · exact quiet_sweepVisit hend hfixed h _
      · exact quiet_sweepNextNet hend h

theorem quiet_atBoundary (hend : KeptAtEnd P)
    (hfixed : s.alive (s.sweep.fixedModule.getD 0) = true ∨ KeptByUntested P) (h : s.Quiet P m n) :
    s.atBoundary.Quiet P m n := by
  have hended : (s.onSweep fun w => { w with state := .idle, inHand := none }).Quiet P m n := h.congr rfl
  exact quiet_runBoundary hend hended _ (quiet_sweepGoOn hend hfixed hended)

/-! ### Records that a result makes (R101, R104) -/

/-- The defect list holds a record with the key, the value and the LOWV flag of an insert. -/
def Insert.listed (r : Insert) (ds : List Defect) : Prop :=
  ∃ d ∈ ds, d.key = r.key ∧ d.value = r.value ∧ d.lowv = r.lowv

theorem listed_keptAtEnd (r : Insert) : KeptAtEnd r.listed := by
  rintro ds ⟨d, hd, h⟩
  exact ⟨_, List.mem_map_of_mem hd, h⟩

theorem listed_keptByUntested {r : Insert} (hr : r.key.kind ≠ .untested) : KeptByUntested r.listed := by
  refine ⟨fun ds d ⟨x, hx, h⟩ => ⟨x, List.mem_append_left _ hx, h⟩, fun ds r' step hr' ⟨x, hx, h⟩ => ?_⟩
  have hne : x.key ≠ r'.key := fun he => hr (h.1 ▸ he ▸ hr')
  exact ⟨x, List.mem_map.mpr ⟨x, hx, if_neg hne⟩, h⟩

theorem mem_keptAtEnd {d : Defect} (hd : d.provisional = false) : KeptAtEnd (d ∈ ·) := by
  intro ds h
  refine List.mem_map.mpr ⟨d, h, ?_⟩
  rw [← hd]

theorem mem_keptByUntested {d : Defect} (hd : d.key.kind ≠ .untested) : KeptByUntested (d ∈ ·) := by
  refine ⟨fun ds x h => List.mem_append_left _ h, fun ds r step hr h => ?_⟩
  have hne : d.key ≠ r.key := fun he => hd (he ▸ hr)
  exact List.mem_map.mpr ⟨d, h, if_neg hne⟩

theorem keys_keptAtEnd (keys : List DefectKey) : KeptAtEnd fun ds => ds.map (·.key) = keys := by
  intro ds h
  rw [finalise, List.map_map]
  exact h

/-- An insert below the run defect limit into a list with room is merged or appended. -/
theorem quiet_insert_listed (h : s.Quiet P m n) (hlimit : s.run.summary.defects < s.limits.timing.defectLimit)
    (hroom : s.defects.length < 512) (r : Insert) :
    (s.insert r).2 = false ∧ (s.insert r).1.Quiet r.listed m n := by
  by_cases hkey : ∃ d ∈ s.defects, d.key = r.key
  · have hfound : (findKey s.defects r.key).isSome = true := by simpa [findKey] using hkey
    obtain ⟨d, hd, hdkey⟩ := hkey
    rw [State.insert, if_pos hfound]
    refine ⟨rfl, h.job, h.off, h.mem, h.measurements, d.merge r (s.run.step.getD 0), ?_, hdkey, rfl, rfl⟩
    exact List.mem_map.mpr ⟨d, hd, if_pos hdkey⟩
  · rw [insert_appended_off ⟨fun d hd he => hkey ⟨d, hd, he⟩, hlimit, hroom⟩ h.off, appendedBy_eq]
    exact ⟨rfl, h.job, h.off, h.mem, h.measurements, _, List.mem_append_right _ (List.mem_singleton_self _), rfl,
      rfl, rfl⟩

/-- A record of the Sweep Engine that is not held, and the boundary that follows it. -/
theorem quiet_insertThenBoundary (hend : KeptAtEnd P) (hun : KeptByUntested P) {r : Insert}
    (h : ((s.onSweep fun w => { w with state := .inserting, results := [r], after := .boundary }).insert r).2 = false ∧
      ((s.onSweep fun w => { w with state := .inserting, results := [r], after := .boundary }).insert r).1.Quiet P m
        n) :
    (s.insertThenBoundary r).Quiet P m n := by
  obtain ⟨hheld, hquiet⟩ := h
  simp only [State.insertThenBoundary, State.sweepInsert, hheld, Bool.false_eq_true, if_false]
  exact quiet_atBoundary hend (.inr hun) (hquiet.congr rfl)

/-- A continuity result that is not a pass has its record in the list, and what follows the boundary keeps it. -/
theorem quiet_insertThenBoundary_listed (h : s.Quiet P m n)
    (hlimit : s.run.summary.defects < s.limits.timing.defectLimit) (hroom : s.defects.length < 512) {r : Insert}
    (hr : r.key.kind ≠ .untested) : (s.insertThenBoundary r).Quiet r.listed m n :=
  quiet_insertThenBoundary (listed_keptAtEnd r) (listed_keptByUntested hr)
    (quiet_insert_listed (s := s.onSweep fun w => { w with state := .inserting, results := [r], after := .boundary })
      (h.congr rfl) hlimit hroom r)

/-- A record that is appended and not PROVISIONAL stays as it was appended. -/
theorem quiet_insertThenBoundary_mem (h : s.Quiet P m n) {r : Insert} (happ : s.appends r.key)
    (hr : r.key.kind = .calFail) :
    (s.insertThenBoundary r).Quiet (s.newRecord r.key r.value r.lowv ∈ ·) m n := by
  refine quiet_insertThenBoundary (mem_keptAtEnd (by simp [State.newRecord, hr]))
    (mem_keptByUntested (by simp [State.newRecord, hr])) ?_
  rw [insert_appended_off (s := s.onSweep _) happ h.off, appendedBy_eq]
  exact ⟨rfl, h.job, h.off, h.mem, h.measurements, List.mem_append_right _ (List.mem_singleton_self _)⟩

/-! ### Continuity results (R87, R101) -/

theorem quiet_contResult_pass {r : Nat} {keys : List DefectKey} (h : s.Quiet (fun ds => ds.map (·.key) = keys) m n)
    (hr : r ≤ (s.limits.contSet s.sweep.net.contSet).good) (hfixed : s.alive (s.sweep.fixedModule.getD 0) = true) :
    (s.contResult r).Quiet (fun ds => ds.map (·.key) = keys) m n := by
  simp only [State.contResult, classify, hr, if_true]
  exact quiet_atBoundary (keys_keptAtEnd keys) (.inl hfixed) h

/-- The kind of the record of a continuity result above the good limit. -/
def contKind (set : ContSet) (r : Nat) : DefectKind := if r ≤ set.opn then .highR else .opn

theorem quiet_contResult_record {r : Nat} (h : s.Quiet P m n)
    (hlimit : s.run.summary.defects < s.limits.timing.defectLimit) (hroom : s.defects.length < 512)
    (hr : (s.limits.contSet s.sweep.net.contSet).good < r) :
    (s.contResult r).Quiet
      (Insert.listed
        { key :=
            { kind := contKind (s.limits.contSet s.sweep.net.contSet) r, netA := s.sweep.cursor
              point := s.sweep.visitedPoint, netB := none }
          value := some r, lowv := false }) m n := by
  unfold contKind
  by_cases hopn : r ≤ (s.limits.contSet s.sweep.net.contSet).opn
  · simp only [State.contResult, classify, Nat.not_le.mpr hr, if_false, hopn, if_true]
    exact quiet_insertThenBoundary_listed h hlimit hroom DefectKind.noConfusion
  · simp only [State.contResult, classify, Nat.not_le.mpr hr, if_false, hopn]
    exact quiet_insertThenBoundary_listed h hlimit hroom DefectKind.noConfusion

/-- Whatever a continuity result is, the operation is over and the measurement counted. -/
theorem quiet_contResult (h : s.Quiet P m n) (hlimit : s.run.summary.defects < s.limits.timing.defectLimit)
    (hroom : s.defects.length < 512) (r : Nat) : (s.contResult r).Quiet (fun _ => True) m n := by
  by_cases hr : r ≤ (s.limits.contSet s.sweep.net.contSet).good
  · simp only [State.contResult, classify, hr, if_true]
    exact quiet_atBoundary (fun _ _ => trivial) (.inr ⟨fun _ _ _ => trivial, fun _ _ _ _ _ => trivial⟩)
      ⟨h.job, h.off, h.mem, h.measurements, trivial⟩
  · have hrecord := quiet_contResult_record h hlimit hroom (Nat.not_le.mp hr)
    exact ⟨hrecord.job, hrecord.off, hrecord.mem, hrecord.measurements, trivial⟩

end Sys2Proof.Machine
end

section
/-! PROOFS. The results of a low-voltage operation, in the terms of the state before its end (O60). -/

namespace Sys2Proof.Machine

variable {s z : State}

/-- The measurements of a run with one more, saturating (R30). -/
def State.measuredOnce (s : State) : Nat := min 4294967295 (s.run.summary.measurements + 1)

theorem measured_quiet (h : s.measured z) (hoff : s.print.state = .off) {P : List Defect → Prop} (hp : P s.defects) :
    z.Quiet P s.mem s.measuredOnce := by
  rw [State.measured] at h
  rw [h]
  exact ⟨rfl, hoff, rfl, rfl, hp⟩

/-- A continuity result (R87, R101): a pass makes no record, any other result has its record in the list. -/
theorem cont_end (h : s.measured z) (hoff : s.print.state = .off)
    (hlimit : s.run.summary.defects < s.limits.timing.defectLimit) (hroom : s.defects.length < 512) (r : Nat) :
    (z.contResult r).Quiet (fun _ => True) s.mem s.measuredOnce ∧
      (r ≤ (s.limits.contSet s.sweep.net.contSet).good → s.alive (s.sweep.fixedModule.getD 0) = true →
        (z.contResult r).defects.map (·.key) = s.defects.map (·.key)) ∧
      ((s.limits.contSet s.sweep.net.contSet).good < r →
        Insert.listed
          { key :=
              { kind := contKind (s.limits.contSet s.sweep.net.contSet) r, netA := s.sweep.cursor
                point := s.sweep.visitedPoint, netB := none }
            value := some r, lowv := false } (z.contResult r).defects) := by
  have hquiet := fun {P : List Defect → Prop} => measured_quiet h hoff (P := P)
  rw [State.measured] at h
  have hlimits : z.limits = s.limits := by rw [h]
  have hsweep : z.sweep = s.sweep := by rw [h]
  have hlimit' : z.run.summary.defects < z.limits.timing.defectLimit := by rw [h]; exact hlimit
  have hroom' : z.defects.length < 512 := by rw [h]; exact hroom
  refine ⟨quiet_contResult (hquiet (P := fun _ => True) trivial) hlimit' hroom' r, fun hgood hfixed => ?_,
    fun hgood => ?_⟩
  · refine (quiet_contResult_pass (hquiet rfl) (by rw [hlimits, hsweep]; exact hgood) ?_).list
    rw [h]
    exact hfixed
  · have hrecord := (quiet_contResult_record (r := r) (hquiet (P := fun _ => True) trivial) hlimit' hroom'
      (by rw [hlimits, hsweep]; exact hgood)).list
    rw [hlimits, hsweep] at hrecord
    exact hrecord

/-- A LEADCAL result without a resistance: the failed calibration is in the list (R104). -/
theorem calFail_end (h : s.measured z) (hoff : s.print.state = .off) {key : DefectKey}
    (hkey : key = { kind := .calFail, netA := s.sweep.cursor, point := s.sweep.visitedPoint, netB := none })
    (happ : s.appends key) :
    (z.leadcalResult rmax).Quiet (s.newRecord key (some rmax) false ∈ ·) s.mem s.measuredOnce := by
  have hquiet := measured_quiet h hoff (P := fun _ => True) trivial
  have hnew := measured_newRecord h
  rw [State.measured] at h
  have hsweep : z.sweep = s.sweep := by rw [h]
  subst hkey
  rw [← hnew, State.leadcalResult, if_pos rfl, hsweep]
  refine quiet_insertThenBoundary_mem hquiet (r := { key := _, value := _, lowv := _ }) ?_ rfl
  rw [h]
  exact happ

/-- A LEADCAL result looks up its reference, which is read first or in the cache (R104, R105). -/
theorem leadcal_end (h : s.measured z) {raw p reference : Nat} (hraw : raw ≠ rmax) (hp : s.sweep.visitedPoint = some p)
    (hr : s.sweep.fixedPoint = some reference) (hf : s.cache.fill = none) :
    (s.cache.find reference = none →
      z.readsOn (z.leadcalResult raw) (readFor .points reference .fill) { s.sweep with raw } ∧
        (z.leadcalResult raw).cache = { s.cache with fill := some (reference, .reference) } ∧
        (z.leadcalResult raw).defects = s.defects) ∧
    ∀ (i : Nat) (e : CacheEntry), s.cache.find reference = some i → s.cache.entries[i]? = some e →
      let lead := min 65535 (raw - e.copy.lead)
      z.readsOn (z.leadcalResult raw)
          { kind := .points, index := p, write := some (3, be16 lead), owner := .sweepLead p lead }
          { s.sweep with raw, state := .writing } ∧
        (z.leadcalResult raw).cache = s.cache.hit i ∧ (z.leadcalResult raw).defects = s.defects := by
  rw [State.measured] at h
  have hsweep : z.sweep = s.sweep := by rw [h]
  have hcache : z.cache = s.cache := by rw [h]
  have hdefects : z.defects = s.defects := by rw [h]
  obtain ⟨hmiss, hhit⟩ := leadcalResult_lookup (s := z) hraw (hsweep ▸ hp) (hsweep ▸ hr) (hcache ▸ hf)
  rw [hcache] at hmiss hhit
  refine ⟨fun hi => ?_, fun i e hi he => ?_⟩
  · rw [hmiss hi]
    exact ⟨⟨⟨rfl, rfl, rfl⟩, congrArg (fun w : Sweep => { w with raw }) hsweep, rfl⟩, rfl, hdefects⟩
  · rw [hhit i e hi he]
    exact ⟨⟨⟨rfl, rfl, rfl⟩, congrArg (fun w : Sweep => { w with raw, state := .writing }) hsweep, rfl⟩, rfl, hdefects⟩

/-- What a counted measurement leaves for the boundary of a group. -/
theorem measured_keeps (h : s.measured z) :
    z.sweep = s.sweep ∧ z.limits = s.limits ∧ z.defects = s.defects ∧ z.print = s.print ∧
      z.run.stopsOnDefect = s.run.stopsOnDefect ∧ z.run.summary.defects = s.run.summary.defects ∧
      (s.runGoesOn → z.runGoesOn) ∧ ∀ key, s.appends key → z.appends key := by
  rw [State.measured] at h
  rw [h]
  exact ⟨rfl, rfl, rfl, rfl, rfl, rfl, id, fun _ => id⟩

/-- A group result that makes no record: the group on top of the stack, or the first half of the group in hand, comes
next (R111, R114). -/
theorem group_end (h : s.measured z) {raw k : Nat} {g : Group} (hk : s.sweep.kind = some .iso)
    (hg : s.sweep.inHand = some g) (hc : s.sweep.netCursor = some k) (hgo : s.runGoesOn) :
    (∀ (top : Group) (stack : List Group), s.limits.iso.limit ≤ raw → s.sweep.stack = top :: stack →
      z.readsOn (z.groupResult raw) (readFor .nets k .sweepRead) (s.sweep.inHandOf top stack) ∧
        (z.groupResult raw).defects = s.defects) ∧
    (raw < s.limits.iso.limit → 1 < g.length →
      z.readsOn (z.groupResult raw) (readFor .nets k .sweepRead)
          (s.sweep.inHandOf { start := g.start, length := (g.length + 1) / 2 }
            ({ start := g.start + (g.length + 1) / 2, length := g.length / 2 } :: s.sweep.stack)) ∧
        (z.groupResult raw).defects = s.defects) := by
  obtain ⟨hsweep, hlimits, hdefects, -, -, -, hgoes, -⟩ := measured_keeps h
  have hcursor : s.sweep.cursor = k := by rw [Sweep.cursor, hc, Option.getD_some]
  rw [← hsweep] at hk hg hcursor ⊢
  rw [← hlimits, ← hdefects]
  subst hcursor
  refine ⟨fun top stack hhigh hs => ?_, fun hlow hlen => ?_⟩
  · rw [groupResult_high hhigh, atBoundary_group hk hs (hgoes hgo)]
    exact ⟨⟨⟨rfl, rfl, rfl⟩, rfl, rfl⟩, rfl⟩
  · rw [groupResult_split hlow hg hlen, atBoundary_group (s := z.onSweep fun w => { w with stack :=
      { start := g.start, length := (g.length + 1) / 2 } ::
        { start := g.start + (g.length + 1) / 2, length := g.length / 2 } :: w.stack }) hk rfl (hgoes hgo)]
    exact ⟨⟨⟨rfl, rfl, rfl⟩, rfl, rfl⟩, rfl⟩

/-- A group of one net is a SHORT (R114): its correlation, the next group, or the end of the search at the cap follows
(R115, R117). -/
theorem short_end (h : s.measured z) {raw other k : Nat} {g : Group} (hk : s.sweep.kind = some .iso)
    (hg : s.sweep.inHand = some g) (hc : s.sweep.netCursor = some k) (hgo : s.runGoesOn)
    (hlow : raw < s.limits.iso.limit) (hlen : g.length = 1) (hother : s.sweep.candidates[g.start]? = some other)
    {key : DefectKey} (hkey : key = { kind := .short, netA := k, point := none, netB := some other })
    (hoff : s.print.state = .off) (happ : s.appends key) (hstop : s.run.stopsOnDefect = false)
    (hlimit : s.run.summary.defects + 2 < s.limits.timing.defectLimit) :
    let counted : Sweep :=
      { s.sweep with shortCount := s.sweep.shortCount + 1, results := [], after := .short other }
    let t := z.groupResult raw
    (s.sweep.correlate = true →
      z.readsOn t (readFor .nets k .sweepRead)
          (Sweep.scanOf { counted with work := [], workCursor := 0, shortOther := some other } .workK k) ∧
        t.defects = s.defects ++ [s.newRecord key (some raw) false] ∧ t.events.isPending .defect = true) ∧
    (∀ (top : Group) (stack : List Group), s.sweep.correlate = false →
      s.sweep.shortCount + 1 < s.limits.iso.shortCap → s.sweep.stack = top :: stack →
      z.readsOn t (readFor .nets k .sweepRead) (counted.inHandOf top stack) ∧
        t.defects = s.defects ++ [s.newRecord key (some raw) false] ∧ t.events.isPending .defect = true) ∧
    ∀ (u : Nat) (beyond : DefectKey), s.sweep.correlate = false →
      s.limits.iso.shortCap ≤ s.sweep.shortCount + 1 → u = (s.sweep.stack.map (·.length)).sum + s.sweep.skipped →
      0 < u → k ≠ s.sweep.lastNet →
      beyond = { kind := .shortOverflow, netA := k, point := none, netB := none } →
      (∀ d ∈ s.defects, d.key ≠ beyond) → s.defects.length + 1 < 512 →
      z.readsOn t (readFor .nets (k + 1) .sweepRead)
          (Sweep.isoNet { s.sweep with results := [], after := .overflow } (k + 1)) ∧
        t.defects = s.defects ++
          [s.newRecord key (some raw) false,
            { s.newRecord beyond (some u) false with seq := s.run.summary.defects + 2 }] := by
  obtain ⟨hsweep, hlimits, hdefects, hprint, hstops, hcount, hgoes, happends⟩ := measured_keeps h
  have hnew := measured_newRecord h
  have hcursor : s.sweep.cursor = k := by rw [Sweep.cursor, hc, Option.getD_some]
  replace happ := happends key happ
  replace hgo := hgoes hgo
  subst hkey
  simp only [← hnew]
  rw [← hsweep] at hk hg hc hcursor hother ⊢
  rw [← hlimits] at hlow hlimit ⊢
  rw [← hprint] at hoff
  rw [← hstops] at hstop
  rw [← hcount] at hlimit ⊢
  rw [← hdefects]
  subst hcursor
  refine ⟨fun hcor => ?_, fun top stack hcor hcap hs => ?_, ?_⟩
  · exact groupResult_correlates hlow hg hlen hother happ hoff hcor
  · exact groupResult_nextGroup hlow hk hg hlen hother happ hoff hcor hcap hs hgo hstop (by omega)
  · rintro u beyond hcor hcap hu hpos hlast rfl hno hroom
    exact groupResult_overflows hlow hk hc hg hlen hother happ hoff hcor hcap hu hpos hlast hgo hstop hlimit hno hroom

/-! ### Correlation (R119, R120, R146) -/

theorem measured_correlated (h : s.measured z) (e : WorkEntry) (r : Nat) : z.correlated e r = s.correlated e r := by
  rw [State.measured] at h
  rw [h]
  rfl

/-- The list after a correlation result, by what it was: no match, or an OPEN record rewritten in place or merged. -/
theorem correlated_spec {e : WorkEntry} {r g k : Nat} (hg : s.sweep.shortOther = some g)
    (hk : s.sweep.netCursor = some k) :
    ((s.limits.contSet e.contSet).good < r → s.correlated e r = s.defects) ∧
      (r ≤ (s.limits.contSet e.contSet).good → s.listSound → (∃ d ∈ s.defects, d.key = openKey e.own e.point) →
        ((∀ d ∈ s.defects, d.key ≠ miswireKey e.own e.point e.other) →
          s.correlated e r = s.defects.map fun d =>
            if d.key = openKey e.own e.point then
              { d with key := miswireKey e.own e.point e.other, value := some r, step := s.run.step.getD 0 }
            else if d.key = shortKey k g then { d with explained := true }
            else d) ∧
        ((∃ d ∈ s.defects, d.key = miswireKey e.own e.point e.other) →
          s.correlated e r = (s.defects.filter fun d => d.key ≠ openKey e.own e.point).map fun d =>
            if d.key = miswireKey e.own e.point e.other then
              { d with value := some r, step := s.run.step.getD 0, rep := min 255 (d.rep + 1) }
            else if d.key = shortKey k g then { d with explained := true }
            else d)) := by
  have hcursor : s.sweep.cursor = k := by rw [Sweep.cursor, hk, Option.getD_some]
  have hother : s.sweep.shortOther.getD 0 = g := by rw [hg, Option.getD_some]
  rw [State.correlated, hcursor, hother]
  refine ⟨fun hr => if_neg (Nat.not_le.mpr hr), fun hr hsound hopen => ?_⟩
  obtain ⟨-, hkeys, hseqs, -, -⟩ := hsound
  rw [if_pos hr]
  exact ⟨explain_rewrite_inPlace _ _ _ _ hopen, explain_rewrite_merged _ _ _ _ hkeys hseqs hopen⟩

/-- A correlation result with another entry behind it (R119, R120). -/
theorem correlation_end (h : s.measured z) {e f : WorkEntry} {r : Nat}
    (hf : s.sweep.work[s.sweep.workCursor + 1]? = some f) :
    let t := z.correlationResult e r
    z.readsOn t (readFor .nets f.other .sweepRead)
        (Sweep.scanOf { s.sweep with workCursor := s.sweep.workCursor + 1 } .entryOther f.other) ∧
      t.events = s.events ∧ t.run.summary.defects = s.run.summary.defects ∧ t.run.insertFlag = s.run.insertFlag ∧
      t.defects = s.correlated e r := by
  have hcor := measured_correlated h e r
  obtain ⟨hsweep, -⟩ := measured_keeps h
  rw [State.measured] at h
  intro t
  have ht : t = _ := (correlationResult_eq z e r).trans
    (nextEntry_some (s := { z with defects := z.correlated e r }) (f := f) (by rw [hsweep]; exact hf))
  rw [ht, ← hsweep]
  refine ⟨⟨⟨rfl, rfl, rfl⟩, rfl, rfl⟩, ?_, ?_, ?_, hcor⟩
  all_goals rw [h]

/-- The last entry is finished below the cap, with a group left: it is taken in hand (R115, R119). -/
theorem nextEntry_nextGroup {top : Group} {stack : List Group} (hk : s.sweep.kind = some .iso)
    (hf : s.sweep.work[s.sweep.workCursor + 1]? = none) (hcap : s.sweep.shortCount < s.limits.iso.shortCap)
    (hs : s.sweep.stack = top :: stack) (hgo : s.runGoesOn) :
    s.nextEntry =
      { s with
        sweep := Sweep.inHandOf { s.sweep with work := [], workCursor := s.sweep.workCursor + 1 } top stack
        port := { queue := s.port.queue ++ [readFor .nets s.sweep.cursor .sweepRead] } } := by
  rw [nextEntry_none hf, capTest_below
    (s := s.onSweep fun w => { w with work := [], workCursor := w.workCursor + 1, shortOther := none }) hcap,
    atBoundary_group (s := s.onSweep fun w => { w with work := [], workCursor := w.workCursor + 1, shortOther := none })
      hk hs hgo]
  rfl

/-- A correlation result of the last entry: the correlation ends, and the next group is taken in hand (R119). -/
theorem correlation_last (h : s.measured z) {e : WorkEntry} {r : Nat} {top : Group} {stack : List Group}
    (hk : s.sweep.kind = some .iso) (hf : s.sweep.work[s.sweep.workCursor + 1]? = none)
    (hcap : s.sweep.shortCount < s.limits.iso.shortCap) (hs : s.sweep.stack = top :: stack) (hgo : s.runGoesOn) :
    z.readsOn (z.correlationResult e r) (readFor .nets s.sweep.cursor .sweepRead)
      (Sweep.inHandOf { s.sweep with work := [], workCursor := s.sweep.workCursor + 1 } top stack) := by
  obtain ⟨hsweep, hlimits, -, -, -, -, hgoes, -⟩ := measured_keeps h
  rw [← hsweep] at hk hf hcap hs ⊢
  rw [← hlimits] at hcap
  rw [correlationResult_eq, nextEntry_nextGroup (s := { z with defects := z.correlated e r }) hk hf hcap hs (hgoes hgo)]
  exact ⟨⟨rfl, rfl, rfl⟩, rfl, rfl⟩

end Sys2Proof.Machine
end

section
/-! PROOFS. The end of an evaluation and of a stream sample (O60): the HV Controller's part. -/

namespace Sys2Proof.Machine

variable {s t u : State}

/-! ### The end of an operation of the HV Controller (R84, R129, R131, R133) -/

theorem exec_evaluate_end {ramp : Bool} (hheld : s.rst.held = false)
    (hjob : s.arith.job = some { op := .evaluate ramp, live := true }) (busy : Bool) :
    exec (.arithmeticOperationEnd busy) s = .next ((s.operated busy).evaluationDone ramp).settled := by
  rw [execArithmeticOperationEnd_eq hheld]
  simp only [State.arithEnd, State.onPins_arith, hjob]
  rfl

theorem exec_stream_end {c : Conv} (hheld : s.rst.held = false)
    (hjob : s.arith.job = some { op := .stream c, live := true }) (busy : Bool) :
    exec (.arithmeticOperationEnd busy) s = .next ((s.operated busy).hvSample c).settled := by
  rw [execArithmeticOperationEnd_eq hheld]
  simp only [State.arithEnd, State.onPins_arith, hjob]
  rfl

/-! ### The boundary of an insulation net (R124, R133) -/

/-- The boundary of a net that is not the step's last, where the run goes on: the next net record is read. -/
theorem hvBoundary_next {k : Nat} (hnet : s.hv.net = some k) (hlast : k ≠ s.hv.lastNet) (hgo : s.runGoesOn) :
    s.hvBoundary =
      { s with
        hv := { s.hv with work := .readingNet, net := some (k + 1), pairs := [] }
        port := { queue := s.port.queue ++ [readFor .nets (k + 1) .hvRead] } } := by
  have hcursor : s.hv.cursor = k := by rw [Hv.cursor, hnet, Option.getD_some]
  have hcursor' : (s.onHv fun h => { h with work := .idle }).hv.cursor = k := hcursor
  have hnext : decide (s.hv.cursor = s.hv.lastNet) = false := by simpa [hcursor] using hlast
  rw [State.hvBoundary, hnext, runBoundary_goesOn (s := s.onHv _) hgo, State.hvNextNet, hcursor',
    if_neg (by exact hlast)]
  simp [State.hvTakeNet, State.onHv, Hv.cursor, hnet, State.askRead, State.ask, State.onPort, readFor]

/-! ### Evaluations (R90, R130 to R132) -/

theorem evaluated_leak {h : Hv} {ir : Nat} {lowv : Bool}
    (he : evaluate h.cls h.window = if lowv then .leakLow ir else .leak ir) :
    h.evaluated false = (some (h.record .leak (some ir) lowv), true) := by
  cases lowv <;> simp_all [Hv.evaluated]

theorem evaluated_pass {h : Hv} (he : evaluate h.cls h.window = .pass) : h.evaluated false = (none, true) := by
  simp [Hv.evaluated, he]

/-- An evaluation of a LEAK that waited its turn: the record is appended and the result counted. -/
theorem evaluationDone_leak {ir : Nat} {lowv : Bool} (hv : s.hv.state = .discharge)
    (he : evaluate s.hv.cls s.hv.window = if lowv then .leakLow ir else .leak ir) {key : DefectKey}
    (hkey : key = { kind := .leak, netA := s.hv.cursor, point := none, netB := none }) (happ : s.appends key)
    (hp : s.printKeepsList) :
    let t := s.evaluationDone false
    t.arith.job = s.arith.job ∧ t.hv = { s.hv with work := .ended } ∧
      t.defects = s.defects ++ [s.newRecord key (some ir) lowv] ∧
      t.run.summary =
        { s.run.summary with
          defects := s.run.summary.defects + 1, measurements := min 4294967295 (s.run.summary.measurements + 1) } ∧
      t.events.isPending .defect = true ∧ t.mem = s.mem := by
  subst hkey
  intro t
  have hev := evaluated_leak (h := (s.onHv fun h => { h with work := .ended }).hv) he
  have ht : t = ((s.onHv fun h => { h with work := .ended }).insert
      (s.hv.record .leak (some ir) lowv)).1.countMeasurement := by
    simp only [t, State.evaluationDone, State.hvEvaluate, hev, hv]
    rfl
  obtain ⟨hserved, hdefects, -⟩ := insert_appended_spec (s := s.onHv fun h => { h with work := .ended })
    (r := s.hv.record .leak (some ir) lowv) happ hp
  have hpending := appendedBy_pending (s.onHv fun h => { h with work := .ended }) (s.hv.record .leak (some ir) lowv)
  have happended := appendedBy_eq (s.onHv fun h => { h with work := .ended }) (s.hv.record .leak (some ir) lowv)
  generalize State.appendedBy _ _ = y at *
  generalize State.insert _ _ = x at *
  rw [State.printServed] at hserved
  rw [ht]
  refine ⟨?_, ?_, hdefects, ?_, ?_, ?_⟩
  all_goals rw [State.countMeasurement, hserved]
  · rw [happended]
    rfl
  · rw [happended]
    rfl
  · rw [happended]
    rfl
  · exact hpending
  · rw [happended]
    rfl

/-- An evaluation without a record, made at SAFE: the net's measurement is complete, and the next net is taken. -/
theorem evaluationDone_pass {k : Nat} (hv : s.hv.state = .safe) (he : evaluate s.hv.cls s.hv.window = .pass)
    (hnet : s.hv.net = some k) (hlast : k ≠ s.hv.lastNet) (hslot : s.run.slot = none) (hgo : s.runGoesOn) :
    s.evaluationDone false =
      { s with
        hv := { s.hv with work := .readingNet, net := some (k + 1), pairs := [] }
        run :=
          { s.run with summary :=
              { s.run.summary with measurements := min 4294967295 (s.run.summary.measurements + 1) } }
        port := { queue := s.port.queue ++ [readFor .nets (k + 1) .hvRead] } } := by
  have hev := evaluated_pass (h := (s.onHv fun h => { h with work := .ended }).hv) he
  have hdone : s.evaluationDone false = (s.onHv fun h => { h with work := .ended }).countMeasurement.hvBoundary := by
    simp only [State.evaluationDone, State.hvEvaluate, hev, hv, if_true, State.hvRecord, State.testComplete]
    simp [State.countMeasurement, State.onRun, State.onHv, hslot]
  rw [hdone, hvBoundary_next (s := (s.onHv fun h => { h with work := .ended }).countMeasurement) hnet hlast hgo]
  rfl

/-! ### Samples in RAMP and DWELL (R92, R129, R130) -/

theorem arcTest_clean {step : Nat} {predecessor : Option Int} {c : Conv} (ho : c.ovl = false)
    (h : ∀ p, predecessor = some p → step ≠ 0 → c.ih - p ≤ step) : arcTest step predecessor c = none := by
  cases predecessor with
  | none => simp [arcTest, ho]
  | some p =>
    have hp := h p rfl
    by_cases hs : step = 0
    · simp [arcTest, ho, hs]
    · simp [arcTest, ho, hs, hp hs]

theorem arcTest_arc {step : Nat} {predecessor : Option Int} {c : Conv} {v : Nat}
    (h : (c.ovl = true ∧ v = rmax) ∨
      (c.ovl = false ∧ ∃ p, predecessor = some p ∧ step ≠ 0 ∧ step < c.ih - p ∧ v = min rmax (c.ih - p).toNat)) :
    arcTest step predecessor c = some v := by
  rcases h with ⟨ho, rfl⟩ | ⟨ho, p, rfl, hs, hlt, rfl⟩
  · simp [arcTest, ho]
  · simp [arcTest, ho, hs, hlt]

theorem hvSample_live (h : s.hv.state = .ramp ∨ s.hv.state = .dwell) (c : Conv) : s.hvSample c = s.liveSample c := by
  rcases h with h | h <;> simp only [State.hvSample, h]

/-- The state with a clean sample taken: the keepalive counter, the window and the predecessor of the arc test. -/
def State.sampled (s : State) (c : Conv) : State :=
  { s with hv :=
      { s.hv with
        keepalive := s.hv.keepalive - 1
        window := (s.hv.window ++ [c]).drop ((s.hv.window ++ [c]).length - 64)
        arcPred := some c.ih } }

theorem liveSample_clean {c : Conv} (h : arcTest s.hv.cls.arcStep s.hv.arcPred c = none) :
    s.liveSample c =
      if s.hv.keepalive - 1 = 0 then (s.sampled c).hvAbort
      else if s.hv.state = .ramp ∧ ((s.hv.cls.volt * 950 : Nat) : Int) ≤ c.vh then (s.sampled c).dwellStart
      else s.sampled c := by
  simp only [State.liveSample, h]
  change (if s.hv.keepalive - 1 = 0 then _ else
    if (decide (s.hv.state = .ramp) && decide (((s.hv.cls.volt * 950 : Nat) : Int) ≤ c.vh)) = true then _ else _) = _
  simp only [Bool.and_eq_true, decide_eq_true_eq]
  rfl

theorem liveSample_arc {c : Conv} {v : Nat} (h : arcTest s.hv.cls.arcStep s.hv.arcPred c = some v) :
    s.liveSample c =
      (((s.onHv fun h => { h with keepalive := h.keepalive - 1 }).hvEnd.insert
        (s.hv.record .arc (some v) false)).1).countMeasurement := by
  simp only [State.liveSample, h]
  rfl

/-! ### Safe samples (R133) -/

theorem hvSample_discharging (h : s.hv.state = .discharge ∨ s.hv.state = .stuck) (c : Conv) :
    s.hvSample c = if isSafeSample s.limits.timing.safeLevel c then s.safeSample else s := by
  rcases h with h | h <;> simp only [State.hvSample, h]

theorem isSafeSample_iff (level : Nat) (c : Conv) :
    isSafeSample level c = true ↔ c.ovl = false ∧ c.vh.natAbs ≤ level * 1000 := by
  simp [isSafeSample]

/-- The state with the stream closed by a safe sample, and the HV state SAFE. -/
def State.madeSafe (s : State) : State :=
  ((s.onHv fun h => { h with dischargeTimer := none }).closeStream).onHv fun h =>
    { h with state := .safe, cause := .none }

theorem safeSample_eq (s : State) :
    (s.hv.safeWait = true → s.safeSample = (s.madeSafe.onHv fun h => { h with safeWait := false }).runToldSafe) ∧
      (s.hv.safeWait = false → s.hv.cause = .test → s.safeSample = s.madeSafe.testComplete) ∧
      (s.hv.safeWait = false → s.hv.cause ≠ .test → s.safeSample = s.madeSafe) := by
  refine ⟨fun hw => ?_, fun hw hc => ?_, fun hw hc => ?_⟩
  · simp only [State.safeSample, hw, if_true, State.madeSafe]
  · simp only [State.safeSample, hw, Bool.false_eq_true, if_false, hc, if_true, State.madeSafe]
  · simp only [State.safeSample, hw, Bool.false_eq_true, if_false, hc, State.madeSafe]

/-- The stream is closed: what differs but for the ring, the poll list, the transactions, the HOME's tag and the tags.
-/
def State.streamClosed (s : State) : State :=
  { s with
    hv := { s.hv with state := .safe, cause := .none, dischargeTimer := none }
    mc := { s.mc with state := .idle, requester := .none, curTag := none, prevTag := none, queue := [] }
    arith := { s.arith with waiting := s.arith.waiting.filter fun r => r ≠ .sample } }

theorem ringServed_madeSafe (s : State) : s.streamClosed.ringServed s.madeSafe := by
  have h := ringServed_handOver (((s.onHv fun h => { h with dischargeTimer := none }).onMc fun m =>
    { m with state := .idle, requester := .none, curTag := none, prevTag := none, queue := [] }).onArith fun a =>
      { a with waiting := a.waiting.filter fun r => r ≠ .sample }) (hvcEntry s.mc.stream true [2])
  rw [State.ringServed] at h ⊢
  rw [State.madeSafe, State.closeStream]
  change State.onHv (State.handOver _ (hvcEntry s.mc.stream true [2])) _ = _
  rw [h]
  rfl

/-- The closing HVC IDLE shifts no tags (R82). -/
theorem placedAct_closing (s : State) (n tag : Nat) : s.placedAct (.hvc n true) tag = s := by
  simp [State.placedAct]

/-- Where an own frame finds room at once, the HVC IDLE is placed. -/
theorem madeSafe_ringFree (h : s.ringFree) :
    s.madeSafe = { s.streamClosed with ring := s.ring.placed 72 clsHvc [2] (.hvc s.mc.stream true) } := by
  have hplaced := handOver_ringFree (s := ((s.onHv fun h => { h with dischargeTimer := none }).onMc fun m =>
    { m with state := .idle, requester := .none, curTag := none, prevTag := none, queue := [] }).onArith fun a =>
      { a with waiting := a.waiting.filter fun r => r ≠ .sample }) h (hvcEntry s.mc.stream true [2])
  rw [State.madeSafe, State.closeStream]
  change State.onHv (State.handOver _ (hvcEntry s.mc.stream true [2])) _ = _
  rw [hplaced, show (hvcEntry s.mc.stream true [2]).owner = .hvc s.mc.stream true from rfl, placedAct_closing]
  rfl

end Sys2Proof.Machine
end

section
/-! PROOFS. A test that ends by an arc or by HV-ABORT (O60): the OFF-DISCHARGE is on its way whatever the response of
the run drops (R40, R41, R92, R132, R136). -/

namespace Sys2Proof.Machine

variable {s t u : State}

/-! ### What an insert leaves (R144) -/

theorem enterStalled_keeps (s : State) :
    s.enterStalled = { s with run := s.enterStalled.run, events := s.enterStalled.events, trunk :=
      s.enterStalled.trunk } ∧
      s.enterStalled.run.summary = s.run.summary := by
  unfold State.enterStalled
  split
  · rw [raise_eq]
    exact ⟨rfl, rfl⟩
  · exact ⟨rfl, rfl⟩

/-- What an insert leaves whatever it does: the HV Controller, the Measurement Controller, the ring, the limits, table
memory and the measurements, and out of SAFE the state of the run. -/
structure State.Inserts (s t : State) : Prop where
  hv : t.hv = s.hv
  mc : t.mc = s.mc
  ring : t.ring = s.ring
  limits : t.limits = s.limits
  mem : t.mem = s.mem
  measurements : t.run.summary.measurements = s.run.summary.measurements
  runState : s.hv.state ≠ .safe → t.run.state = s.run.state

theorem inserts_printLook (h : s.Inserts t) : s.Inserts t.printLook := by
  have hserved : t.printServed t.printLook := (look_spec _ t).1
  rw [State.printServed] at hserved
  rw [hserved]
  exact ⟨h.hv, h.mc, h.ring, h.limits, h.mem, h.measurements, h.runState⟩

theorem insert_inserts (s : State) (r : Insert) : s.Inserts (s.insert r).1 := by
  unfold State.insert
  dsimp only
  split
  · exact ⟨rfl, rfl, rfl, rfl, rfl, rfl, fun _ => rfl⟩
  · split
    · exact ⟨rfl, rfl, rfl, rfl, rfl, rfl, fun _ => rfl⟩
    · split
      · split
        · rename_i hsafe
          obtain ⟨hstalled, hsummary⟩ := enterStalled_keeps (s.onRun fun x => { x with slot := some r })
          rw [hstalled]
          exact ⟨rfl, rfl, rfl, rfl, rfl, congrArg Summary.measurements hsummary, fun h => absurd hsafe h⟩
        · exact ⟨rfl, rfl, rfl, rfl, rfl, rfl, fun _ => rfl⟩
      · have happended : ∀ d, s.Inserts
            (((s.onDefects fun ds => ds ++ [d]).onRun fun x => x.inserted.appended).raise .defect) := by
          intro d
          rw [raise_eq]
          exact ⟨rfl, rfl, rfl, rfl, rfl, rfl, fun _ => rfl⟩
        split
        · exact happended _
        · exact inserts_printLook (happended _)

/-! ### An HVC frame on its way (R82, R123) -/

/-- The OFF-DISCHARGE with its stream, as it stands among the frames still to be sent. -/
theorem hvcSent_iff (s : State) (payload : List Byte) :
    s.hvcSent payload ↔ (hvcEntry s.mc.stream false payload).content ∈ s.frames := by
  simp only [State.hvcSent, State.frames, List.mem_map, RingEntry.content, hvcEntry, ownFrame, Prod.mk.injEq]
  rfl

/-- A withdrawal of other frames leaves the frame on its way. -/
theorem withdraw_hvcSent {payload : List Byte} {gone : RingEntry → Bool} (h : s.hvcSent payload)
    (hgone : ∀ e, e.owner = .hvc s.mc.stream false → gone e = false) : (s.withdraw gone).hvcSent payload := by
  obtain ⟨e, he, howner, hframe⟩ := h
  have hkept : ((s.onRing fun r =>
      { r with queue := r.queue.filter fun e => !gone e, wait := r.wait.filter fun e => !gone e })).hvcSent
        payload := by
    refine ⟨e, ?_, howner, hframe⟩
    simp only [State.onRing_ring, List.mem_append, List.mem_filter, hgone e howner, Bool.not_false, and_true]
    exact List.mem_append.mp he
  rw [hvcSent_iff] at hkept ⊢
  have hserved := ringServed_withdraw s gone
  rw [State.ringServed] at hserved
  have hstream : (s.withdraw gone).mc.stream = s.mc.stream := by rw [hserved]
  rw [hstream]
  exact pump_frames_mem hkept

/-- A frame placed on the open stream is on its way. -/
theorem placeHvc_hvcSent (s : State) (payload : List Byte) : (s.placeHvc payload).hvcSent payload := by
  rw [hvcSent_iff]
  have hserved := ringServed_handOver s (hvcEntry s.mc.stream false payload)
  rw [State.ringServed] at hserved
  have hstream : (s.placeHvc payload).mc.stream = s.mc.stream := by
    rw [State.placeHvc, hserved]
  rw [hstream]
  exact handOver_frames_mem s _

/-! ### What the response drops (R40, R83, R135) -/

/-- What the first steps of a response leave of the HV Controller and the run: a wanted stream may open, with its
discharge timer and an OFF-DISCHARGE of its own (R138). -/
structure State.Drops (s t : State) : Prop where
  limits : t.limits = s.limits
  run : t.run = s.run
  hv : t.hv = { s.hv with streamWanted := t.hv.streamWanted, dischargeTimer := t.hv.dischargeTimer }
  timer : t.hv.dischargeTimer = s.hv.dischargeTimer ∨ t.hv.dischargeTimer = some s.limits.timing.discharge
  sent : s.hvcSent s.offPayload → t.hvcSent s.offPayload

theorem State.Drops.trans (h : s.Drops t) (j : t.Drops u) : s.Drops u := by
  have hpayload : t.offPayload = s.offPayload := by rw [State.offPayload, h.limits]; rfl
  refine ⟨j.limits.trans h.limits, j.run.trans h.run, j.hv.trans (by rw [h.hv]), ?_, fun hs => ?_⟩
  · rcases j.timer with e | e
    · exact e ▸ h.timer
    · exact .inr (h.limits ▸ e)
  · have := j.sent (hpayload.symm ▸ h.sent hs)
    rwa [hpayload] at this

/-- A change of the other blocks. -/
theorem drops_of_eq (hl : t.limits = s.limits) (hr : t.run = s.run) (hh : t.hv = s.hv) (hring : t.ring = s.ring)
    (hmc : t.mc.stream = s.mc.stream) : s.Drops t := by
  refine ⟨hl, hr, by rw [hh], .inl (by rw [hh]), fun h => ?_⟩
  rw [State.hvcSent, hring, hmc]
  exact h

theorem drops_withdraw {gone : RingEntry → Bool} (h : ∀ e n, e.owner = .hvc n false → gone e = false) :
    s.Drops (s.withdraw gone) := by
  have hserved := ringServed_withdraw s gone
  have hhv := hserved.hv
  rw [State.ringServed] at hserved
  refine ⟨by rw [hserved], by rw [hserved], by rw [hhv], .inl (by rw [hhv]), fun hs => ?_⟩
  exact withdraw_hvcSent hs fun e he => h e _ he

theorem drops_retryStream (s : State) : s.Drops s.retryStream := by
  unfold State.retryStream
  split
  · rename_i hwanted
    have hidle : s.mc.state = .idle := by simpa using (Bool.and_eq_true_iff.mp hwanted).2
    have hserved := mcServed_openStream (s.onHv fun h =>
      { h with streamWanted := false, dischargeTimer := some s.limits.timing.discharge }) s.offPayload
    have hopened : ((s.onHv fun h => { h with
        streamWanted := false, dischargeTimer := some s.limits.timing.discharge }).openStream
          s.offPayload).hvcSent s.offPayload := by
      rw [State.openStream, if_neg (by simp [hidle])]
      exact placeHvc_hvcSent _ _
    generalize State.openStream _ _ = x at *
    rw [State.mcServed] at hserved
    refine ⟨?_, ?_, ?_, .inr ?_, fun _ => hopened⟩
    all_goals
      rw [hserved]
      rfl
  · exact drops_of_eq rfl rfl rfl rfl rfl

theorem drops_onMc (s : State) {f : Measure → Measure} (h : (f s.mc).stream = s.mc.stream) : s.Drops (s.onMc f) :=
  drops_of_eq rfl rfl rfl rfl h

theorem drops_onArith (s : State) (f : Arith → Arith) : s.Drops (s.onArith f) := drops_of_eq rfl rfl rfl rfl rfl

theorem drops_onSeq (s : State) (f : Sequencer → Sequencer) : s.Drops (s.onSeq f) := drops_of_eq rfl rfl rfl rfl rfl

theorem drops_mcIdle (s : State) : s.Drops s.mcIdle := (drops_onMc s (by rfl)).trans (drops_retryStream _)

theorem drops_dropMsr (s : State) : s.Drops s.dropMsr := by
  unfold State.dropMsr
  split
  · exact (drops_withdraw fun e n he => by simp [he]).trans (drops_mcIdle _)
  · exact drops_mcIdle s
  · exact ((drops_onMc s (by rfl)).trans (drops_onArith _ _)).trans (drops_mcIdle _)
  · exact drops_of_eq rfl rfl rfl rfl rfl
  · exact drops_of_eq rfl rfl rfl rfl rfl

theorem drops_abandonConfiguration (s : State) : s.Drops s.abandonConfiguration := by
  unfold State.abandonConfiguration
  split
  · exact drops_of_eq rfl rfl rfl rfl rfl
  · exact drops_of_eq rfl rfl rfl rfl rfl
  · exact drops_of_eq rfl rfl rfl rfl rfl
  · exact (drops_onSeq s _).trans (drops_withdraw fun e n he => by simp only [RingEntry.isSwitch, he])
  · exact drops_of_eq rfl rfl rfl rfl rfl

theorem hvAbandon_discharging (h : s.hv.state = .discharge) :
    s.hvAbandon =
      (s.onHv fun h => { h with ending := none, safeWait := true, net := none, work := .idle }).onArith
        Arith.dropEvaluation := by
  simp only [State.hvAbandon, h]
  rfl

/-- A response in DISCHARGE: the run waits for SAFE, and the OFF-DISCHARGE stays on its way. -/
theorem response_discharging (h : s.hv.state = .discharge)
    (ht : s.hv.dischargeTimer = some s.limits.timing.discharge) :
    let t := s.response
    (t.hv.state = .discharge ∧ t.hv.cause = s.hv.cause ∧ t.hv.safeWait = true ∧ t.hv.net = none ∧
      t.hv.keepalive = s.hv.keepalive ∧ t.hv.dischargeTimer = some s.limits.timing.discharge) ∧
      t.run = { s.run with slot := none, waiting := .safe } ∧
      (s.hvcSent s.offPayload → t.hvcSent s.offPayload) := by
  have hx := (drops_dropMsr s).trans (drops_abandonConfiguration _)
  unfold State.response
  generalize s.dropMsr.abandonConfiguration = x at *
  dsimp only
  have hstate : ((x.dropReads.sweepRest.onArith Arith.dropLowVolt).onRun fun r => { r with slot := none }).hv.state =
      .discharge := by
    change x.hv.state = _
    rw [hx.hv]
    exact h
  rw [hvAbandon_discharging hstate, if_neg (by rw [State.onArith_hv, State.onHv_hv]; exact hstate ▸
    HvState.noConfusion)]
  refine ⟨⟨hstate, ?_, rfl, rfl, ?_, ?_⟩, ?_, hx.sent⟩
  · change x.hv.cause = _
    rw [hx.hv]
  · change x.hv.keepalive = _
    rw [hx.hv]
  · change x.hv.dischargeTimer = _
    rcases hx.timer with e | e
    · rw [e, ht]
    · exact e
  · rw [← hx.run]
    rfl

/-! ### A test ends (R41, R92, R132, R136) -/

/-- The HV Controller as a test ends. -/
def Hv.testEnded (h : Hv) (discharge : Nat) : Hv :=
  { h with
    state := .discharge, cause := .test, rampTimer := none, dwellTimer := none, work := .ended
    dischargeTimer := some discharge }

theorem hvEnd_spec (s : State) :
    let t := s.hvEnd
    t.hv = s.hv.testEnded s.limits.timing.discharge ∧ t.limits = s.limits ∧ t.run = s.run ∧ t.mem = s.mem ∧
      t.defects = s.defects ∧ t.print = s.print ∧ t.arith = s.arith ∧ t.hvcSent s.offPayload := by
  intro t
  have hserved := ringServed_handOver (s.onHv fun h => h.testEnded s.limits.timing.discharge)
    (hvcEntry s.mc.stream false s.offPayload)
  have hsent : t.hvcSent s.offPayload :=
    placeHvc_hvcSent (s.onHv fun h => h.testEnded s.limits.timing.discharge) s.offPayload
  change State.ringServed _ t at hserved
  rw [State.ringServed] at hserved
  refine ⟨?_, ?_, ?_, ?_, ?_, ?_, ?_, hsent⟩
  all_goals
    rw [hserved]
    rfl

/-- The record of a test that ends, if it is appended. -/
theorem hvEnd_insert {r : Insert} (happ : s.appends r.key) (hp : s.printKeepsList) :
    (s.hvEnd.insert r).1.defects = s.defects ++ [s.newRecord r.key r.value r.lowv] ∧
      (s.hvEnd.insert r).1.events.isPending .defect = true := by
  obtain ⟨-, hlimits, hrun, -, hdefects, hprint, -, -⟩ := hvEnd_spec s
  have happ' : s.hvEnd.appends r.key := by
    rw [State.appends, hdefects, hrun, hlimits]
    exact happ
  have hp' : s.hvEnd.printKeepsList := by
    rw [State.printKeepsList, hdefects, hprint]
    exact hp
  have hnew : s.hvEnd.newRecord r.key r.value r.lowv = s.newRecord r.key r.value r.lowv := by
    simp only [State.newRecord, hrun]
  obtain ⟨hserved, hlist, -⟩ := insert_appended_spec happ' hp'
  have hpending := appendedBy_pending s.hvEnd r
  rw [State.printServed] at hserved
  refine ⟨by rw [hlist, hdefects, hnew], ?_⟩
  rw [hserved]
  exact hpending

theorem hvcSent_of_inserts {payload : List Byte} (h : s.Inserts t) (hs : s.hvcSent payload) : t.hvcSent payload := by
  rw [State.hvcSent, h.ring, h.mc]
  exact hs

/-- An arc ends the test: the OFF-DISCHARGE is on its way, and the ARC is a measurement. -/
theorem arc_end (s : State) (r : Insert) :
    let t := ((s.onHv fun h => { h with keepalive := h.keepalive - 1 }).hvEnd.insert r).1.countMeasurement
    t.hv =
        { s.hv with
          state := .discharge, cause := .test, keepalive := s.hv.keepalive - 1, rampTimer := none
          dwellTimer := none, dischargeTimer := some s.limits.timing.discharge, work := .ended } ∧
      t.hvcSent s.offPayload ∧ t.run.state = s.run.state ∧
      t.run.summary.measurements = min 4294967295 (s.run.summary.measurements + 1) ∧
      (s.appends r.key → s.printKeepsList →
        t.defects = s.defects ++ [s.newRecord r.key r.value r.lowv] ∧ t.events.isPending .defect = true) ∧
      t.mem = s.mem := by
  intro t
  obtain ⟨hhv, -, hrun, hmem, -, -, -, hsent⟩ := hvEnd_spec (s.onHv fun h => { h with keepalive := h.keepalive - 1 })
  have hrecord := hvEnd_insert (s := s.onHv fun h => { h with keepalive := h.keepalive - 1 }) (r := r)
  have hkept := insert_inserts (s.onHv fun h => { h with keepalive := h.keepalive - 1 }).hvEnd r
  have hstate : (s.onHv fun h => { h with keepalive := h.keepalive - 1 }).hvEnd.hv.state ≠ .safe := by
    rw [hhv]
    exact HvState.noConfusion
  have hsent' := hvcSent_of_inserts hkept hsent
  refine ⟨hkept.hv.trans hhv, hsent', (hkept.runState hstate).trans (congrArg Run.state hrun), ?_,
    hrecord, hkept.mem.trans hmem⟩
  have hmeasured := hkept.measurements
  rw [hrun] at hmeasured
  exact congrArg (fun n => min 4294967295 (n + 1)) hmeasured

/-- HV-ABORT: the test ends, the run is ABORTING and waits for SAFE, and the OFF-DISCHARGE is on its way (R41). -/
theorem hvAbort_spec (hactive : s.run.active = true) :
    let t := s.hvAbort
    (t.hv.state = .discharge ∧ t.hv.cause = .test ∧ t.hv.safeWait = true ∧ t.hv.net = none ∧
      t.hv.keepalive = s.hv.keepalive ∧ t.hv.dischargeTimer = some s.limits.timing.discharge) ∧
      (t.run.state = .aborting ∧ t.run.abortCause = .hvAbort ∧ t.run.waiting = .safe ∧
        t.run.summary.measurements = s.run.summary.measurements) ∧
      t.events.isPending .hvAbort = true ∧ t.hvcSent s.offPayload ∧
      (s.appends (s.hv.record .untested none false).key → s.printKeepsList →
        s.newRecord (s.hv.record .untested none false).key none false ∈ t.defects) ∧
      t.mem = s.mem := by
  intro t
  obtain ⟨hhv, hlimits, hrun, hmem, -, -, -, hsent⟩ := hvEnd_spec s
  have hrecord := hvEnd_insert (s := s) (r := s.hv.record .untested none false)
  have hkept := insert_inserts s.hvEnd (s.hv.record .untested none false)
  have ht : t = ((s.hvEnd.insert (s.hv.record .untested none false)).1.raise .hvAbort).beginAbort .hvAbort := rfl
  generalize s.hvEnd = e at *
  generalize (e.insert (s.hv.record .untested none false)).1 = x at *
  have hstate : e.hv.state ≠ .safe := by
    rw [hhv]
    exact HvState.noConfusion
  have hxrun : x.run.state = s.run.state := by rw [hkept.runState hstate, hrun]
  have hraise := raise_eq x .hvAbort
  have hpending := raise_isPending x .hvAbort
  generalize x.raise .hvAbort = y at *
  have hyactive : y.run.active = true := by
    rw [hraise]
    simpa only [Run.active, hxrun] using hactive
  rw [State.beginAbort, if_pos hyactive] at ht
  have hyhv : y.hv = s.hv.testEnded s.limits.timing.discharge := by
    rw [hraise, ← hhv, ← hkept.hv]
  have hylimits : y.limits = s.limits := by rw [hraise, ← hlimits, ← hkept.limits]
  obtain ⟨⟨h1, h2, h3, h4, h5, h6⟩, hresponse, hsends⟩ := response_discharging (s := y.onRun fun r =>
    { r with state := .aborting, abortCause := .hvAbort, pauseCause := .none }) (by rw [State.onRun_hv, hyhv]; rfl)
    (by rw [State.onRun_hv, hyhv, State.onRun_limits, hylimits]; rfl)
  have hresponds := responds_response (y.onRun fun r =>
    { r with state := .aborting, abortCause := .hvAbort, pauseCause := .none })
  rw [← ht] at h1 h2 h3 h4 h5 h6 hresponse hsends hresponds
  have hpayload : y.offPayload = s.offPayload := by rw [State.offPayload, hylimits]; rfl
  have hxsent := hvcSent_of_inserts hkept hsent
  have hysent : y.hvcSent y.offPayload := by
    rw [hpayload, hraise]
    exact hxsent
  have hcause : y.hv.cause = .test := by
    rw [hyhv]
    rfl
  have hkeepalive : y.hv.keepalive = s.hv.keepalive := by
    rw [hyhv]
    rfl
  refine ⟨⟨h1, h2.trans hcause, h3, h4, h5.trans hkeepalive, ?_⟩,
    ⟨hresponds.runState, hresponds.abortCause, by rw [hresponse], ?_⟩, ?_, ?_, fun happ hp => ?_, ?_⟩
  · exact h6.trans (congrArg (fun l : Limits => some l.timing.discharge) hylimits)
  · rw [hresponse]
    change y.run.summary.measurements = _
    rw [hraise]
    exact hkept.measurements.trans (by rw [hrun])
  · rw [hresponds.events]
    exact hpending
  · exact hpayload ▸ hsends hysent
  · have hlist : t.defects = x.defects := hresponds.defects.trans (by rw [State.onRun_defects, hraise])
    rw [hlist, (hrecord happ hp).1]
    exact List.mem_append_right _ (List.mem_singleton_self _)
  · exact (hresponds.mem.trans (by rw [State.onRun_mem, hraise])).trans (hkept.mem.trans hmem)

end Sys2Proof.Machine
end

section
/-! PROOFS. A converted stream sample at the HV Controller (O60): in RAMP and DWELL, and the safe sample of DISCHARGE
and STUCK. -/

namespace Sys2Proof.Machine

variable {s : State} {c : Conv}

/-- A clean sample in RAMP or DWELL (R129). -/
theorem hvSample_clean (h : s.hv.state = .ramp ∨ s.hv.state = .dwell) (ho : c.ovl = false)
    (hstep : ∀ p, s.hv.arcPred = some p → s.hv.cls.arcStep ≠ 0 → c.ih - p ≤ s.hv.cls.arcStep) :
    s.hvSample c =
      if s.hv.keepalive - 1 = 0 then (s.sampled c).hvAbort
      else if s.hv.state = .ramp ∧ ((s.hv.cls.volt * 950 : Nat) : Int) ≤ c.vh then (s.sampled c).dwellStart
      else s.sampled c := by
  rw [hvSample_live h, liveSample_clean (arcTest_clean ho hstep)]

/-- A sample of DISCHARGE or STUCK that is not safe changes nothing (R133). -/
theorem hvSample_unsafe (h : s.hv.state = .discharge ∨ s.hv.state = .stuck)
    (hc : c.ovl = true ∨ s.limits.timing.safeLevel * 1000 < c.vh.natAbs) : s.hvSample c = s := by
  rw [hvSample_discharging h, if_neg]
  rw [isSafeSample_iff]
  rintro ⟨ho, hle⟩
  rcases hc with hovl | hlt
  · exact Bool.false_ne_true (ho.symm.trans hovl)
  · exact absurd hle (Nat.not_le.mpr hlt)

theorem hvSample_safe (h : s.hv.state = .discharge ∨ s.hv.state = .stuck) (ho : c.ovl = false)
    (hle : c.vh.natAbs ≤ s.limits.timing.safeLevel * 1000) : s.hvSample c = s.safeSample := by
  rw [hvSample_discharging h, if_pos ((isSafeSample_iff _ _).mpr ⟨ho, hle⟩)]

/-- The state with the stream closed by a safe sample, where the HVC IDLE found room at once. -/
def State.closedFree (s : State) : State :=
  { s.streamClosed with ring := s.ring.placed 72 clsHvc [2] (.hvc s.mc.stream true) }

/-- A safe sample that ends no test (R133). -/
theorem safeSample_plain (hwait : s.hv.safeWait = false) (h : s.hv.cause ≠ .test ∨ s.hv.work ≠ .ended)
    (hfree : s.ringFree) : s.safeSample = s.closedFree := by
  obtain ⟨-, htest, hother⟩ := safeSample_eq s
  have hclosed := madeSafe_ringFree hfree
  by_cases hcause : s.hv.cause = .test
  · have hwork : s.closedFree.hv.work ≠ .ended := h.resolve_left fun hne => hne hcause
    rw [htest hwait hcause, hclosed]
    exact if_pos hwork
  · rw [hother hwait hcause, hclosed]
    rfl

/-- A safe sample completes the test's net, and the next net is taken (R124, R133). -/
theorem safeSample_nextNet {k : Nat} (hwait : s.hv.safeWait = false) (hcause : s.hv.cause = .test)
    (hwork : s.hv.work = .ended) (hslot : s.run.slot = none) (hgo : s.runGoesOn) (hnet : s.hv.net = some k)
    (hlast : k ≠ s.hv.lastNet) (hfree : s.ringFree) :
    s.safeSample =
      { s.closedFree with
        hv := { s.closedFree.hv with work := .readingNet, net := some (k + 1), pairs := [] }
        port := { queue := s.port.queue ++ [readFor .nets (k + 1) .hvRead] } } := by
  have hended : ¬ s.closedFree.hv.work ≠ .ended := not_not.mpr hwork
  have hfreeSlot : ¬ s.closedFree.run.slot.isSome = true := by
    change ¬ s.run.slot.isSome = true
    simp [hslot]
  rw [(safeSample_eq s).2.1 hwait hcause, madeSafe_ringFree hfree]
  change s.closedFree.testComplete = _
  rw [State.testComplete, if_neg hended, if_neg hfreeSlot]
  exact hvBoundary_next (s := s.closedFree) hnet hlast hgo

/-- A safe sample while the record of the test waits: the run stalls (R38, R133). -/
theorem safeSample_stalls (hwait : s.hv.safeWait = false) (hcause : s.hv.cause = .test) (hwork : s.hv.work = .ended)
    (hslot : s.run.slot.isSome = true) (hrun : s.run.state = .running) (hfree : s.ringFree) :
    s.safeSample =
      { s.closedFree with
        run := { s.run with state := .stalled }
        events := { s.events with pending := s.events.pending ||| Event.stall.bit }
        trunk := s.safeSample.trunk } := by
  have hended : ¬ s.closedFree.hv.work ≠ .ended := not_not.mpr hwork
  have hsafe : s.safeSample = (s.closedFree.onRun fun r => { r with state := .stalled }).raise .stall := by
    rw [(safeSample_eq s).2.1 hwait hcause, madeSafe_ringFree hfree]
    change s.closedFree.testComplete = _
    rw [State.testComplete, if_neg hended, if_pos (by exact hslot), State.enterStalled, if_pos (by exact hrun)]
  rw [hsafe]
  exact raise_eq _ _

/-- The state with a HOME of the Run Engine begun over the modules that are alive, its frame still to be placed (R61).
-/
def State.homing (s : State) : State :=
  s.onSeq fun q =>
    { q with
      state := .homing, requester := .run
      home := { tag := none, expected := s.modules.filter fun a => s.alive a, answered := [], timer := none } }

/-- The Run Engine's HOME is started: its broadcast is still to be sent (R61). -/
theorem requestHome_starts (hhalt : s.fault.safeHalt = false) (hidle : s.seq.state = .idle)
    (hsafe : s.hv.state = .safe) :
    s.homing.ringServed s.requestHome ∧
      ∃ e ∈ s.requestHome.ring.queue ++ s.requestHome.ring.wait, e.owner = .home ∧ e.frame.dst = 127 ∧
        e.frame.cls = clsSw ∧ e.frame.payload = [] := by
  have hstart : s.requestHome = s.homing.handOver homeEntry := if_neg (by simp [hhalt, hidle, hsafe])
  rw [hstart]
  refine ⟨ringServed_handOver _ _, ?_⟩
  obtain ⟨e, he, hcontent⟩ := List.mem_map.mp (handOver_frames_mem s.homing homeEntry)
  obtain ⟨howner, hdst, -, hcls, hpayload⟩ := by simpa only [RingEntry.content, Prod.mk.injEq] using hcontent
  exact ⟨e, he, howner, hdst, hcls, hpayload⟩

/-- A safe sample that the run waits for: HOME is asked for (R40, R61, R133). -/
theorem safeSample_homes (hwait : s.hv.safeWait = true) (hrun : s.run.waiting = .safe) (hidle : s.seq.state = .idle)
    (hhalt : s.fault.safeHalt = false) :
    let t := s.safeSample
    t.hv = { s.hv with state := .safe, cause := .none, dischargeTimer := none, safeWait := false } ∧
      t.run = { s.run with waiting := .home } ∧ t.mc.state = .idle ∧ t.seq.state = .homing ∧
      t.seq.requester = .run ∧ t.seq.home.expected = s.modules.filter (fun a => s.alive a) ∧
      (∃ e ∈ t.ring.queue ++ t.ring.wait, e.owner = .home ∧ e.frame.dst = 127 ∧ e.frame.cls = clsSw ∧
        e.frame.payload = []) ∧
      t.defects = s.defects ∧ t.mem = s.mem := by
  intro t
  have hclosed := ringServed_madeSafe s
  have ht : t = (s.madeSafe.onHv fun h => { h with safeWait := false }).runToldSafe := (safeSample_eq s).1 hwait
  generalize s.madeSafe = y at *
  rw [State.ringServed] at hclosed
  have hwaiting : y.run.waiting = .safe := by
    rw [hclosed]
    exact hrun
  have hyhalt : y.fault.safeHalt = false := by
    rw [hclosed]
    exact hhalt
  have hyidle : y.seq.state = .idle := by
    rw [hclosed]
    exact hidle
  have hysafe : y.hv.state = .safe := by
    rw [hclosed]
    rfl
  rw [State.runToldSafe, if_pos (by exact hwaiting)] at ht
  obtain ⟨hserved, hframe⟩ := requestHome_starts (s := (y.onHv fun h => { h with safeWait := false }).onRun fun r =>
    { r with waiting := .home }) hyhalt hyidle hysafe
  rw [← ht] at hserved hframe
  rw [State.ringServed] at hserved
  refine ⟨?_, ?_, ?_, ?_, ?_, ?_, hframe, ?_, ?_⟩
  all_goals
    rw [hserved, hclosed]
    rfl

end Sys2Proof.Machine
end

section
/-! PROOFS. The Arithmetic Unit serves (O60). -/

namespace Sys2Proof.Machine

/-- Settles O60. At the start the earliest operation is taken; at the end the consequence of a low-voltage operation
goes by the kind of the sweep, that of an evaluation and of a stream sample by the HV state. What the
sequels may still do to run, defect list and sweep is bounded by `State.Quiet`, `State.readsOn` and `State.Inserts`. -/
theorem arithmeticServes : Obligations.ArithmeticServes := by
  unfold Obligations.ArithmeticServes
  intro s hheld
  refine ⟨fun rest hjob => ?_, ?_, ?_, ?_, ?_⟩
  · intro serve
    rw [execArithmeticOperationStart_eq hheld]
    refine ⟨fun ramp hw => by rw [arithStart_evaluate hjob hw], fun x q hw hq => ?_⟩
    obtain ⟨hanswer, hstream⟩ := arithStart_sample hjob hw hq
    refine ⟨fun hm hx hs => ?_, fun hm hx hl => ?_, fun p1 p2 hm hx hl hraw hf => ?_, fun hm => ?_⟩
    · rw [hanswer hm, takeAnswer_hv (s := s.sampleTaken rest q) hx hs]
      rfl
    · have hleads : (if rawResistance s.limits.calib x = rmax then [] else s.mc.leads) = [] := by
        rcases hl with hl | hl
        · rw [hl, ite_self]
        · exact if_pos hl
      rw [hanswer hm, takeAnswer_lowVolt (s := s.sampleTaken rest q) hx hleads, lookupLeads_none rfl]
      rfl
    · obtain ⟨hmiss, hhit⟩ := takeAnswer_leads (s := s.sampleTaken rest q) hx hl hraw hf
      rw [hanswer hm]
      refine ⟨fun h1 => ?_, fun i1 e1 h1 he1 => ⟨fun h2 => ?_, fun i2 e2 h2 he2 => ?_⟩⟩
      · rw [hmiss h1]
        rfl
      · rw [(hhit i1 e1 h1 he1).1 h2]
        rfl
      · rw [(hhit i1 e1 h1 he1).2 i2 e2 h2 he2]
        rfl
    · obtain ⟨hfirst, hnext⟩ := takeStream_eq (s := s.sampleTaken rest q) x
      rw [hstream hm]
      refine ⟨fun hn => ?_, fun last hn hl hx => ⟨fun heq => ?_, fun hne => ?_⟩⟩
      · rw [hfirst hn]
        rfl
      · rw [(hnext last hn).1 (by omega)]
        rfl
      · rw [(hnext last hn).2 (by omega)]
        rfl
  · intro raw leads busy hjob hw answer w r ended goes
    obtain ⟨z, hz, hcont, hleadcal, hiso⟩ := exec_lowVolt_end hheld hjob hw busy
    have hended : ∀ {t : State} {P : List Defect → Prop}, answer = .next t.settled →
        t.Quiet P s.mem s.measuredOnce → ended t.settled :=
      fun ht h => ⟨ht, h.job, h.mem, h.measurements⟩
    have hreads : ∀ {t : State} {read : Access} {sweep : Sweep}, answer = .next t.settled →
        z.readsOn t read sweep → goes t.settled read sweep := by
      intro t read sweep ht h
      obtain ⟨⟨hjob, hmem, hmeasurements⟩, hsweep, hport⟩ := measured_readsOn hz h
      exact ⟨⟨ht, hjob, hmem, hmeasurements⟩, hsweep, hport⟩
    refine ⟨fun hk hoff hlimit hroom => ?_, fun hk => ⟨?_, ?_⟩, ?_, ?_⟩
    · obtain ⟨hquiet, hpass, hrecord⟩ := cont_end hz hoff hlimit hroom r
      refine ⟨_, hended (hcont hk) hquiet, hpass, fun hgood hopn => ?_, fun hgood hopn => ?_⟩
      · have hkind : contKind (s.limits.contSet s.sweep.net.contSet) r = .highR := if_pos hopn
        exact hkind ▸ hrecord hgood
      · have hkind : contKind (s.limits.contSet s.sweep.net.contSet) r = .opn := if_neg (Nat.not_le.mpr hopn)
        exact hkind ▸ hrecord hgood
    · intro key hraw hkey hoff happ
      have hquiet := calFail_end hz hoff hkey happ
      have hanswer := hleadcal hk
      rw [show raw = rmax from hraw] at hanswer
      exact ⟨_, hended hanswer hquiet, hquiet.list⟩
    · intro p reference hraw hp hr hf
      obtain ⟨hmiss, hhit⟩ := leadcal_end hz hraw hp hr hf
      refine ⟨fun hi => ?_, fun i e hi he => ?_⟩
      · obtain ⟨hgoes, hcache, hdefects⟩ := hmiss hi
        exact ⟨_, hreads (hleadcal hk) hgoes, hcache, hdefects⟩
      · obtain ⟨hgoes, hcache, hdefects⟩ := hhit i e hi he
        exact ⟨_, _, rfl, hreads (hleadcal hk) hgoes, hcache, hdefects⟩
    · intro g k hk hwork hg hc hgo
      have hresult := (hiso hk).2 (by rw [show s.sweep.work = [] from hwork]; rfl)
      obtain ⟨hhigh, hsplit⟩ := group_end (raw := raw) hz hk hg hc hgo
      refine ⟨fun top stack hraw hs => ?_, fun hraw hlen => ?_, ?_⟩
      · obtain ⟨hgoes, hdefects⟩ := hhigh top stack hraw hs
        exact ⟨_, hreads hresult hgoes, hdefects⟩
      · obtain ⟨hgoes, hdefects⟩ := hsplit hraw hlen
        exact ⟨_, hreads hresult hgoes, hdefects⟩
      · intro other key hraw hlen hother hkey hoff happ hstop hlimit short counted
        obtain ⟨hcorrelates, hnext, hoverflow⟩ :=
          short_end hz hk hg hc hgo hraw hlen hother hkey hoff happ hstop hlimit
        refine ⟨fun hcor => ?_, fun top stack hcor hcap hs => ?_, ?_⟩
        · obtain ⟨hgoes, hdefects, hpending⟩ := hcorrelates hcor
          exact ⟨_, hreads hresult hgoes, hdefects, hpending⟩
        · obtain ⟨hgoes, hdefects, hpending⟩ := hnext top stack hcor hcap hs
          exact ⟨_, hreads hresult hgoes, hdefects, hpending⟩
        · intro u beyond hcor hcap hu hpos hlast hbeyond hno hroom
          obtain ⟨hgoes, hdefects⟩ := hoverflow u beyond hcor hcap hu hpos hlast hbeyond hno hroom
          exact ⟨_, hreads hresult hgoes, hdefects⟩
    · intro e f g k hk he hf hg hc next good opn miswire short
      obtain ⟨hgoes, hevents, hcount, hflag, hdefects⟩ := correlation_end (e := e) (r := r) hz hf
      obtain ⟨hno, hmatch⟩ := correlated_spec (e := e) (r := r) hg hc
      refine ⟨_, hreads ((hiso hk).1 e he) hgoes, hevents, hcount, hflag, fun hr => ?_, fun hr hs ho hm => ?_,
        fun hr hs ho hm => ?_⟩
      · exact hdefects.trans (hno hr)
      · exact hdefects.trans ((hmatch hr hs ho).1 hm)
      · exact hdefects.trans ((hmatch hr hs ho).2 hm)
  · intro raw leads busy e top stack hjob hw hk he hf hcap hs hgo
    obtain ⟨z, hz, -, -, hiso⟩ := exec_lowVolt_end hheld hjob hw busy
    obtain ⟨⟨-, hmem, hmeasurements⟩, hsweep, hport⟩ :=
      measured_readsOn hz (correlation_last hz (e := e) (r := compensate raw leads) hk hf hcap hs hgo)
    exact ⟨_, (hiso hk).1 e he, hport, hsweep, hmeasurements, hmem⟩
  · intro ramp busy hjob measured
    have hanswer := exec_evaluate_end hheld hjob busy
    refine ⟨fun ir lowv key hv hramp he hkey happ hp => ?_, fun k hv hramp he hnet hlast hslot hgo => ?_⟩
    · subst hramp
      exact ⟨_, hanswer, evaluationDone_leak (s := s.operated busy) hv he hkey happ hp⟩
    · subst hramp
      rw [hanswer, evaluationDone_pass (s := s.operated busy) hv he hnet hlast hslot hgo]
      rfl
  · intro c busy hjob answer served window measured clean
    have hanswer : answer = .next (served.hvSample c).settled := exec_stream_end hheld hjob busy
    refine ⟨fun hlive => ⟨fun hclean hkeep => ?_, fun hclean hkeep hactive => ?_, fun v harc => ?_⟩,
      fun hdis => ⟨fun hunsafe => ?_, ?_⟩⟩
    · have hsample := hvSample_clean (s := served) hlive hclean.1 hclean.2
      rw [if_neg (by exact Nat.sub_ne_zero_of_lt hkeep)] at hsample
      refine ⟨fun hramp hvolt => ?_, fun hramp => ?_⟩
      · rw [hanswer, hsample, if_pos ⟨hramp, hvolt⟩]
        rfl
      · rw [hanswer, hsample, if_neg]
        · rfl
        · rintro ⟨hr, hvolt⟩
          rcases hramp with hd | hlt
          · exact HvState.noConfusion (hd.symm.trans hr)
          · exact absurd hvolt (Int.not_le.mpr hlt)
    · have hzero : served.hv.keepalive - 1 = 0 := Nat.sub_eq_zero_of_le hkeep
      have hsample := hvSample_clean (s := served) hlive hclean.1 hclean.2
      rw [if_pos hzero] at hsample
      obtain ⟨⟨h1, h2, h3, h4, h5, h6⟩, ⟨r1, r2, r3, r4⟩, hevent, hsent, hrecord, hmem⟩ :=
        hvAbort_spec (s := served.sampled c) hactive
      rw [← hsample] at *
      refine ⟨_, hanswer, h1, h2, h3, h4, h5.trans hzero, h6, r1, r2, r3, r4, hevent, hsent, ?_, hmem⟩
      rintro key rfl happ hp
      exact hrecord happ hp
    · have hsample := (hvSample_live (s := served) hlive c).trans (liveSample_arc (s := served) (arcTest_arc harc))
      obtain ⟨hhv, hsent, hrun, hmeasured, hrecord, hmem⟩ := arc_end served (served.hv.record .arc (some v) false)
      rw [← hsample] at *
      refine ⟨_, hanswer, hhv, hsent, hrun, hmeasured, ?_, hmem⟩
      rintro key rfl happ hp
      exact hrecord happ hp
    · rw [hanswer, hvSample_unsafe (s := served) hdis hunsafe]
    · intro ho hle hv closed
      have hsafe : served.hvSample c = served.safeSample := hvSample_safe (s := served) hdis ho hle
      rw [hsafe] at hanswer
      refine ⟨fun hwait hother hfree => ?_, fun k hwait hcause hwork hslot hgo hnet hlast hfree => ?_,
        fun hwait hcause hwork hslot hrun hfree => ?_, fun hwait hrun hidle hhalt => ?_⟩
      · rw [hanswer, safeSample_plain (s := served) hwait hother hfree]
        rfl
      · rw [hanswer, safeSample_nextNet (s := served) hwait hcause hwork hslot hgo hnet hlast hfree]
        rfl
      · exact ⟨_, hanswer, congrArg State.settled (safeSample_stalls (s := served) hwait hcause hwork hslot hrun hfree)⟩
      · exact ⟨_, hanswer, safeSample_homes (s := served) hwait hrun hidle hhalt⟩

end Sys2Proof.Machine
end

section
/-! PROOFS. START RUN refused and accepted (O35, O36). -/

namespace Sys2Proof.Machine

variable {s t : State}

/-! ### A command that is heard (R167, R172) -/

/-- A command that is heard is answered HALTED in SAFE-HALT, and runs its body otherwise. -/
theorem command_heard (h : s.hearsTrunk) {args : List Byte} (ha : args.length ≤ 63) (tag code : Byte)
    (body : State → State) :
    s.command tag code false args body =
      .next (if s.fault.safeHalt = true then s.replied tag code .halted [] else (body s).settled) := by
  by_cases hhalt : s.fault.safeHalt = true
  · obtain ⟨hheld, hphase, hroom⟩ := h
    have hdeaf : s.trunkDeaf = false := by
      simp only [State.trunkDeaf, State.trunkFull, hheld, hphase]
      simpa using hroom
    have hargs : argsFit args = true := by simpa [argsFit] using ha
    rw [if_pos hhalt, ← reply_settled]
    simp only [State.command, hdeaf, hargs, hhalt]
    rfl
  · rw [if_neg hhalt]
    exact command_taken ⟨h, Bool.eq_false_iff.mpr hhalt⟩ ha tag code false body

/-! ### START RUN (R24) -/

/-- The payload of START RUN with a run option that R174 names. -/
def startArgs (first : Nat) (correlate : Bool) (copies : Byte) : List Byte :=
  be16 first ++ [if correlate then 1 else 0, copies]

theorem exec_startRun_heard (h : s.hearsTrunk) (tag copies : Byte) (correlate : Bool) {first : Nat}
    (hfirst : first < 65536) :
    exec (.startRun tag (startArgs first correlate copies)) s =
      .next
        (if s.fault.safeHalt = true then s.replied tag 0x0E .halted []
         else
          match s.startRefusal first copies.toNat with
          | some r => s.replied tag 0x0E r []
          | none => ((s.reply tag 0x0E .ok).runStarts correlate first copies.toNat).settled) := by
  have hword : wordAt (startArgs first correlate copies) 0 = first := wordAt_be16 hfirst _
  have hargs : startArgs first correlate copies =
      [byte (first / 256), byte first, if correlate then 1 else 0, copies] := rfl
  have hoption : ¬1 < (if correlate then 1 else 0 : Byte).toNat := by cases correlate <;> decide
  have hbit : (if correlate then 1 else 0 : Byte).getLsbD 0 = correlate := by cases correlate <;> decide
  rw [exec, execStartRun, command_heard (args := startArgs first correlate copies) h (by simp [startArgs])]
  simp only [hargs] at hword ⊢
  rw [if_neg hoption, hword, hbit]
  cases s.startRefusal first copies.toNat with
  | none => rfl
  | some r => simp only [reply_settled]

/-- The tests of START RUN in the order of R24, as propositions. -/
theorem startRefusal_eq (s : State) (first copies : Nat) :
    s.startRefusal first copies =
      if s.run.state ≠ .idle then some .busy
      else if s.tables.state ≠ .ready then some .notReady
      else if s.hv.state ≠ .safe then some .hvLive
      else if s.alive 72 = false then some .headDown
      else if s.defects ≠ [] then some .defectsPending
      else if s.bound .steps ≤ first ∨ 4 < copies then some .badArg
      else none := by
  have hhead : (!s.alive headAddress) = true ↔ s.alive 72 = false := by rw [Bool.not_eq_true']; rfl
  have hlist : (!s.defects.isEmpty) = true ↔ s.defects ≠ [] := by simp
  have hargs : (decide (s.bound .steps ≤ first) || decide (4 < copies)) = true ↔
      s.bound .steps ≤ first ∨ 4 < copies := by simp
  simp only [State.startRefusal, hhead, hlist, hargs]

/-- Settles O35: the tests of START RUN refuse it in the order of R24. -/
theorem startRefused : Obligations.StartRefused := by
  intro s tag copies correlate first hs hfirst r hr
  refine (exec_startRun_heard hs tag copies correlate hfirst).trans (congrArg Host.Outcome.next ?_)
  by_cases hhalt : s.fault.safeHalt = true
  · rw [if_pos hhalt] at hr ⊢
    rw [← Option.some.inj hr]
  · rw [if_neg hhalt] at hr ⊢
    rw [startRefusal_eq, hr]

/-! ### What an accepted START RUN does (R25, R154, R158) -/

/-- A look for work over an empty defect list depends on the Print Engine alone (R154). -/
theorem look_print_of_empty (hs : s.defects = []) (ht : t.defects = []) (hp : t.print = s.print) (n : Nat) :
    (t.look n).print = (s.look n).print := by
  cases n with
  | zero => exact hp
  | succ n =>
    by_cases hl : s.print.state = .idle ∨ s.print.state = .format ∨ s.print.state = .send
    swap
    · rw [look_of_nothing s n (.inl hl), look_of_nothing t n (.inl (by rwa [hp])), hp]
    cases he : s.print.bufferIn .empty with
    | none =>
      rw [look_of_nothing s n (.inr (.inl he)), look_of_nothing t n (.inr (.inl (by rwa [hp]))), hp]
    | some second =>
      obtain ⟨hsum, hrest⟩ := look_of_free s n second hl he
      obtain ⟨hsum', hrest'⟩ := look_of_free t n second (by rwa [hp]) (by rwa [hp])
      have hnext : t.summaryNext ↔ s.summaryNext := by rw [State.summaryNext, State.summaryNext, hp, hs, ht]
      by_cases hn : s.summaryNext
      · rw [hsum hn, hsum' (hnext.mpr hn)]
        simp only [beginLine_eq, hp, startSummaryLine_eq, State.lineStarted, apply_ite State.print]
      · obtain ⟨hheader, hrecord⟩ := hrest hn
        obtain ⟨hheader', hrecord'⟩ := hrest' fun h => hn (hnext.mp h)
        cases hh : s.print.header with
        | some step =>
          rw [hheader step hh, hheader' step (by rwa [hp])]
          simp only [beginLine_eq, hp, startHeaderLine_eq, State.lineStarted, apply_ite State.print]
        | none =>
          rw [hrecord hh, hrecord' (by rwa [hp]), hs, ht]
          exact hp

/-- A look for work over an empty defect list keeps the copies count (R158). -/
theorem look_copies_of_empty (hs : s.defects = []) (n : Nat) : (s.look n).print.copies = s.print.copies := by
  cases n with
  | zero => rfl
  | succ n =>
    by_cases hl : s.print.state = .idle ∨ s.print.state = .format ∨ s.print.state = .send
    swap
    · rw [look_of_nothing s n (.inl hl)]
    cases he : s.print.bufferIn .empty with
    | none => rw [look_of_nothing s n (.inr (.inl he))]
    | some second =>
      obtain ⟨hsum, hrest⟩ := look_of_free s n second hl he
      by_cases hn : s.summaryNext
      · rw [hsum hn, beginLine_eq]
        split <;> cases second <;> rfl
      · obtain ⟨hheader, hrecord⟩ := hrest hn
        cases hh : s.print.header with
        | some step =>
          rw [hheader step hh, beginLine_eq]
          split <;> cases second <;> rfl
        | none =>
          rw [hrecord hh, hs]
          rfl

theorem printLook_print_of_empty (hs : s.defects = []) (ht : t.defects = []) (hp : t.print = s.print) :
    t.printLook.print = s.printLook.print := by
  rw [State.printLook, State.printLook, hs, ht]
  exact look_print_of_empty hs ht hp _

/-- The Print Engine is handed the first step and the copies count of a run that starts over an empty list (R158). -/
theorem printRunStarts_spec (hd : s.defects = []) (first copies : Nat) :
    s.printServed (s.printRunStarts first copies) ∧ (s.printRunStarts first copies).defects = [] ∧
      (s.printRunStarts first copies).print.copies = copies ∧
      (s.print.state = .off → (s.printRunStarts first copies).print = { s.print with copies }) ∧
      (s.print.state ≠ .off →
        (s.printRunStarts first copies).print =
          (State.printLook { s with print := { s.print with copies, header := some first } }).print) := by
  dsimp only [State.printRunStarts, State.onPrint]
  by_cases hoff : s.print.state = .off
  · rw [if_pos hoff, if_pos hoff]
    exact ⟨rfl, hd, rfl, fun _ => rfl, fun h => absurd hoff h⟩
  · rw [if_neg hoff, if_neg hoff]
    obtain ⟨hserved, hkept⟩ := printLook_spec
      (s := { s with print := { s.print with copies, header := some first } }) (.inr (by simp [hd]))
    have hcopied := look_copies_of_empty (s := { s with print := { s.print with copies, header := some first } }) hd
      (s.defects.length + 1)
    exact ⟨hserved, hkept.trans hd, hcopied, fun h => absurd h hoff, fun _ => rfl⟩

/-- A frame handed over is still to be sent, in the queue or in the wait list. -/
theorem handOver_sends (s : State) (e : RingEntry) :
    ∃ x ∈ (s.handOver e).ring.queue ++ (s.handOver e).ring.wait, x.owner = e.owner ∧ x.frame.dst = e.frame.dst ∧
      x.frame.src = e.frame.src ∧ x.frame.cls = e.frame.cls ∧ x.frame.payload = e.frame.payload := by
  obtain ⟨x, hx, hcontent⟩ := List.mem_map.mp (handOver_frames_mem s e)
  exact ⟨x, hx, by simpa only [RingEntry.content, Prod.mk.injEq] using hcontent⟩

/-- The broadcast of a HOME is still to be sent (R61). -/
def State.homeToSend (s : State) : Prop :=
  ∃ e ∈ s.ring.queue ++ s.ring.wait, e.owner = .home ∧ e.frame.dst = 127 ∧ e.frame.src = 0 ∧ e.frame.cls = 0x10 ∧
    e.frame.payload = []

/-- The Run Engine's HOME is started, in SAFE and with the Switch Sequencer IDLE (R61). -/
theorem requestHome_homes (hhalt : s.fault.safeHalt = false) (hidle : s.seq.state = .idle)
    (hsafe : s.hv.state = .safe) : s.homing.ringServed s.requestHome ∧ s.requestHome.homeToSend := by
  have hstart : s.requestHome = s.homing.handOver homeEntry := if_neg (by simp [hhalt, hidle, hsafe])
  rw [hstart]
  exact ⟨ringServed_handOver _ _, handOver_sends _ _⟩

/-- Settles O36: the run record, the Print Engine and the HOME of an accepted START RUN. -/
theorem runStarts : Obligations.RunStarts := by
  intro s tag first copies correlate hs hidle hready hsafe hhead hdefects hstep hfirst hcopies hseq
  have hcount : (byte copies).toNat = copies := byte_toNat (by omega)
  have haccepted : s.startRefusal first (byte copies).toNat = none := by
    rw [startRefusal_eq, hcount]
    simp [hidle, hready, hsafe, hhead, hdefects]
    omega
  have hexec := exec_startRun_heard hs.1 tag (byte copies) correlate hfirst
  rw [if_neg (by simp [hs.2]), haccepted, hcount] at hexec
  refine ⟨_, hexec, ?_⟩
  obtain ⟨hserved, hlist, hcopied, hoff, hlook⟩ := printRunStarts_spec
    (s := (s.reply tag 0x0E .ok).onRun fun r => r.started correlate first) hdefects first copies
  have hlook' := fun h => (hlook h).trans
    (printLook_print_of_empty (s := { s with print := { s.print with copies, header := some first } })
      hdefects hdefects rfl)
  unfold State.runStarts
  generalize State.printRunStarts _ _ _ = x at *
  rw [State.printServed] at hserved
  obtain ⟨hhomes, hsent⟩ := requestHome_homes (s := x) (by rw [hserved]; exact hs.2) (by rw [hserved]; exact hseq)
    (by rw [hserved]; exact hsafe)
  have hprint : x.requestHome.print = x.print := by rw [hhomes]; rfl
  have hempty : x.requestHome.defects = [] := by rw [hhomes]; exact hlist
  generalize x.requestHome = t at *
  rw [State.ringServed, hserved] at hhomes
  refine ⟨?_, ?_, ?_, ?_, ?_, hsent, ?_, (congrArg Print.copies hprint).trans hcopied, fun h => hprint.trans (hoff h),
    fun h => ⟨_, printLook_looked _, hprint.trans (hlook' h)⟩, ?_, ?_, ?_, hempty, ?_, ?_⟩
  all_goals
    rw [hhomes]
    rfl

end Sys2Proof.Machine
end

section
/-! PROOFS. PAUSE, RELEASE and RESUME of a pause by request (O37), over how the owner of a step goes on with its next
member, net or group. -/

namespace Sys2Proof.Machine

variable {s : State}

/-! ### How a step goes on (R95, R108, R111, R124) -/

/-- The net of an INSUL step after the one under test is taken (R124). -/
theorem hvNextNet_next {k : Nat} (hnet : s.hv.net = some k) (hlast : k ≠ s.hv.lastNet) :
    s.hvNextNet =
      { s with
        hv := { s.hv with net := some (k + 1), work := .readingNet, pairs := [] }
        port := { queue := s.port.queue ++ [readFor .nets (k + 1) .hvRead] } } := by
  have hcursor : s.hv.cursor = k := by rw [Hv.cursor, hnet, Option.getD_some]
  rw [State.hvNextNet, hcursor, if_neg hlast]
  simp [State.hvTakeNet, State.onHv, Hv.cursor, hnet, State.askRead, State.ask, State.onPort, readFor]

/-- The net of a CONT or LEADCAL step after the one under the cursor is begun: its net record is read. A CONT net leaves
its anchor behind (R95, R103). -/
theorem sweepNextNet_member {k : Nat} (hk : s.sweep.kind = some .cont ∨ s.sweep.kind = some .leadcal)
    (hnet : s.sweep.netCursor = some k) (hlast : k ≠ s.sweep.lastNet) :
    s.sweepNextNet =
      { s with
        sweep :=
          { s.sweep with
            state := .reading, reading := .net, netCursor := some (k + 1), memberCursor := none, visitedPoint := none
            visitedModule := none, netDone := false
            fixedPoint := if s.sweep.kind = some .cont then none else s.sweep.fixedPoint
            fixedModule := if s.sweep.kind = some .cont then none else s.sweep.fixedModule }
        port := { queue := s.port.queue ++ [readFor .nets (k + 1) .sweepRead] } } := by
  have hcursor : s.sweep.cursor = k := by rw [Sweep.cursor, hnet, Option.getD_some]
  rw [State.sweepNextNet, hcursor, if_neg hlast]
  rcases hk with hk | hk <;>
    simp [State.sweepNet, State.onSweep, hk, hnet, Sweep.cursor, State.sweepRead, State.askRead, State.ask,
      State.onPort, readFor]

/-- The net of an ISO step after the one under the cursor is begun (R108, R109). -/
theorem sweepNextNet_iso {k : Nat} (hk : s.sweep.kind = some .iso) (hnet : s.sweep.netCursor = some k)
    (hlast : k ≠ s.sweep.lastNet) :
    s.sweepNextNet =
      { s with
        sweep := s.sweep.isoNet (k + 1)
        port := { queue := s.port.queue ++ [readFor .nets (k + 1) .sweepRead] } } := by
  have hcursor : s.sweep.cursor = k := by rw [Sweep.cursor, hnet, Option.getD_some]
  rw [State.sweepNextNet, hcursor, if_neg hlast]
  simp [State.sweepNet, State.onSweep, hk, hnet, Sweep.cursor, State.startScan, State.sweepRead, Sweep.isoNet,
    Sweep.scanOf, State.askRead, State.ask, State.onPort, readFor]

/-- The group on top of the stack is taken in hand (R111, R112). -/
theorem popGroup_some {g : Group} {stack : List Group} (hs : s.sweep.stack = g :: stack) :
    s.popGroup =
      { s with
        sweep := s.sweep.inHandOf g stack
        port := { queue := s.port.queue ++ [readFor .nets s.sweep.cursor .sweepRead] } } := by
  simp only [State.popGroup, hs]
  rfl

/-- A CONT or LEADCAL net with a member position left goes on with it (R95, R102). -/
theorem sweepGoOn_member {pos : Nat} (hk : s.sweep.kind = some .cont ∨ s.sweep.kind = some .leadcal)
    (hdone : s.sweep.netDone = false) (hpos : s.sweep.nextPosition = some pos) :
    s.sweepGoOn = s.sweepVisit pos := by
  have hover : s.sweep.netOver = false := by rcases hk with hk | hk <;> simp [Sweep.netOver, hk, hdone, hpos]
  rw [State.sweepGoOn, hover]
  rcases hk with hk | hk <;> simp [hk, State.sweepNextMember, hpos]

/-- A CONT or LEADCAL net that is over goes on with the next net (R95, R102). -/
theorem sweepGoOn_over (hk : s.sweep.kind = some .cont ∨ s.sweep.kind = some .leadcal)
    (hover : s.sweep.netDone = true ∨ s.sweep.nextPosition = none) : s.sweepGoOn = s.sweepNextNet := by
  have hover' : s.sweep.netOver = true := by rcases hk with hk | hk <;> simpa [Sweep.netOver, hk] using hover
  rw [State.sweepGoOn, if_pos hover']

/-- An ISO net with a group left goes on with the group on top of the stack (R111). -/
theorem sweepGoOn_group {g : Group} {stack : List Group} (hk : s.sweep.kind = some .iso)
    (hs : s.sweep.stack = g :: stack) : s.sweepGoOn = s.popGroup := by
  have hover : s.sweep.netOver = false := by simp [Sweep.netOver, hk, hs]
  simp [State.sweepGoOn, hover, hk]

/-! ### PAUSE, RELEASE, RESUME (R35, R37, R46) -/

/-- A run that is PAUSED by request goes on with what the pause held back, beside its reply (R37). -/
theorem exec_resume_request (hs : s.takesCommands) (tag : Byte) (hp : s.run.state = .paused)
    (hcause : s.run.pauseCause ≠ .interlock) :
    exec (.resume tag []) s =
      .next (State.runContinues ((s.reply tag 0x10 .ok).onRun Run.resumed)).settled := by
  rw [exec, execResume, bareCommand_taken hs, if_neg (by simp [hp]), if_neg hcause]

/-- What a RESUME leaves, where its going on is a reply beside other changes. -/
theorem exec_resume_replied {t : State} (hs : s.takesCommands) {tag : Byte} (hp : s.run.state = .paused)
    (hcause : s.run.pauseCause ≠ .interlock)
    (h : State.runContinues ((s.reply tag 0x10 .ok).onRun Run.resumed) = t.reply tag 0x10 .ok) :
    exec (.resume tag []) s = .next (t.replied tag 0x10 .ok []) := by
  rw [exec_resume_request hs tag hp hcause, h, reply_settled]

/-- The owner of a step goes on as the sweep does, or as the HV Controller does in an INSUL step (R37). -/
theorem runContinues_owner (hw : s.run.waiting = .owner) :
    s.runContinues = if s.run.isInsul then s.hvNextNet else s.sweepGoOn := by
  simp only [State.runContinues, hw]

/-- Settles O37: PAUSE, RELEASE and RESUME in each run state, and the owner that goes on. -/
theorem pauseReleaseResume : Obligations.PauseReleaseResume := by
  intro s tag hs
  refine ⟨fun h => ?_, fun h => ?_, fun h => ?_, fun h => ?_, fun h => ?_, fun i hp hcause hw => ?_,
    fun hp hcause hw => ?_⟩
  · rw [exec, execPause, bareCommand_taken hs, if_pos h, reply_settled]
    rfl
  · rw [exec, execPause, bareCommand_taken hs, if_neg h, reply_settled]
  · rw [exec, execRelease, bareCommand_taken hs, if_pos h, reply_settled]
    rfl
  · rw [exec, execRelease, bareCommand_taken hs, if_neg h, reply_settled]
  · rw [exec, execResume, bareCommand_taken hs, if_pos h, reply_settled]
  · refine exec_resume_replied hs hp hcause ?_
    have hheld : ((s.reply tag 0x10 .ok).onRun Run.resumed).run.waiting = .heldStep i := hw
    simp only [State.runContinues, hheld]
    rfl
  · have hown := runContinues_owner (s := (s.reply tag 0x10 .ok).onRun Run.resumed) hw
    intro w goesOn
    refine ⟨fun k hinsul hnet hlast => ?_, fun pos hinsul hk hdone hpos halive => ?_,
      fun k hinsul hk hover hnet hlast => ?_, fun g stack hinsul hk hstack => ?_⟩
    · refine exec_resume_replied hs hp hcause ?_
      rw [hown, if_pos (by exact hinsul), hvNextNet_next (by exact hnet) (by exact hlast)]
      rfl
    · refine exec_resume_replied hs hp hcause ?_
      rw [hown, if_neg (by exact Bool.eq_false_iff.mp hinsul), sweepGoOn_member (by exact hk) (by exact hdone)
        (by exact hpos), sweepVisit_alive (by exact halive)]
      rfl
    · have hafter : w.kind = some .cont ∨ w.kind = some .leadcal := .inl hk
      refine exec_resume_replied hs hp hcause ?_
      rw [hown, if_neg (by exact Bool.eq_false_iff.mp hinsul), sweepGoOn_over (by exact hafter) (by exact hover),
        sweepNextNet_member (by exact hafter) (by exact hnet) (by exact hlast)]
      have hkind : ((s.reply tag 0x10 .ok).onRun Run.resumed).sweep.kind = some .cont := hk
      rw [if_pos hkind, if_pos hkind]
      rfl
    · refine exec_resume_replied hs hp hcause ?_
      rw [hown, if_neg (by exact Bool.eq_false_iff.mp hinsul), sweepGoOn_group (by exact hk) (by exact hstack),
        popGroup_some (by exact hstack)]
      rfl

end Sys2Proof.Machine
end

section
/-! PROOFS. What the response of R40 leaves and does, as an equation of states (`response_eq`) with the HV Controller, the
Switch Sequencer, the Measurement Controller and the frames it leaves: for O39, O50, O52 to O55 and O58. -/

namespace Sys2Proof.Machine

variable {s t u : State}

/-! ### The frames still to be sent (R59, R83, R171) -/

/-- Every frame of the ring transmit queue and the wait list has an owner and a class of a kind. -/
def State.framesAll (Q : RingOwner → Byte → Prop) (s : State) : Prop :=
  ∀ e ∈ s.ring.queue ++ s.ring.wait, Q e.owner e.frame.cls

/-- A POL is of the kind, so that a poll round leaves frames of the kind. -/
def PollsAllowed (Q : RingOwner → Byte → Prop) : Prop := ∀ a, Q (.poll a) clsPol

theorem framesAll_pump {Q : RingOwner → Byte → Prop} (hpoll : PollsAllowed Q) (h : s.framesAll Q) :
    s.pump.framesAll Q := by
  refine pump_keeps (P := State.framesAll Q) ?_ ?_ h
  · intro x hx
    unfold State.offerPoll
    split
    · exact hx
    · split
      · exact hx
      · intro e he
        simp only [State.onRing_ring, ← List.append_assoc, List.mem_append, List.mem_singleton] at he
        rcases he with he | rfl
        · exact hx e (List.mem_append.mpr he)
        · exact hpoll _
  · intro x e rest hw _ hx y hy
    simp only [placeOwn_ring, List.mem_append, List.mem_singleton] at hy
    rcases hy with (hy | rfl) | hy
    · exact hx y (List.mem_append_left _ hy)
    · exact hx e (List.mem_append_right _ (hw ▸ List.mem_cons_self))
    · exact hx y (List.mem_append_right _ (hw ▸ List.mem_cons_of_mem _ hy))

theorem framesAll_handOver {Q : RingOwner → Byte → Prop} (hpoll : PollsAllowed Q) (h : s.framesAll Q) {e : RingEntry}
    (he : Q e.owner e.frame.cls) : (s.handOver e).framesAll Q := by
  refine framesAll_pump hpoll fun x hx => ?_
  simp only [State.onRing_ring, ← List.append_assoc, List.mem_append, List.mem_singleton] at hx
  rcases hx with hx | rfl
  · exact h x (List.mem_append.mpr hx)
  · exact he

/-- A withdrawal leaves frames that were there and are not withdrawn. -/
theorem framesAll_withdraw {Q : RingOwner → Byte → Prop} (hpoll : PollsAllowed Q) {gone : RingEntry → Bool}
    (h : ∀ e ∈ s.ring.queue ++ s.ring.wait, gone e = false → Q e.owner e.frame.cls) : (s.withdraw gone).framesAll Q := by
  refine framesAll_pump hpoll fun x hx => ?_
  simp only [State.onRing_ring, List.mem_append, List.mem_filter, Bool.not_eq_true'] at hx
  rcases hx with hx | hx
  · exact h x (List.mem_append_left _ hx.1) hx.2
  · exact h x (List.mem_append_right _ hx.1) hx.2

/-- The HVC frames still to be sent stay among the frames still to be sent (R82). -/
def State.keepsHvc (s t : State) : Prop := ∀ c ∈ s.frames, (∃ n closing, c.1 = .hvc n closing) → c ∈ t.frames

theorem State.keepsHvc.trans (h : s.keepsHvc t) (j : t.keepsHvc u) : s.keepsHvc u :=
  fun c hc hn => j c (h c hc hn) hn

theorem keepsHvc_of_ring (h : t.ring = s.ring) : s.keepsHvc t := fun c hc _ => by
  rw [State.frames, h]
  exact hc

theorem State.keepsHvc.of_ring (h : t.keepsHvc u) (e : t.ring = s.ring) : s.keepsHvc u :=
  (keepsHvc_of_ring e).trans h

theorem keepsHvc_handOver (s : State) (e : RingEntry) : s.keepsHvc (s.handOver e) := fun c hc _ =>
  pump_frames_mem (by
    simp only [State.frames, State.onRing_ring, ← List.append_assoc, List.map_append] at hc ⊢
    exact List.mem_append_left _ hc)

theorem keepsHvc_withdraw {gone : RingEntry → Bool} (h : ∀ e n closing, e.owner = .hvc n closing → gone e = false) :
    s.keepsHvc (s.withdraw gone) := by
  rintro c hc ⟨n, closing, hn⟩
  obtain ⟨e, he, rfl⟩ := List.mem_map.mp hc
  have hkept : gone e = false := h e n closing hn
  refine pump_frames_mem (List.mem_map_of_mem ?_)
  simp only [State.onRing_ring, List.mem_append, List.mem_filter, hkept, Bool.not_false, and_true]
  exact List.mem_append.mp he

/-! ### The outstanding request is dropped (R83) -/

/-- What the drop of the outstanding request may change: the frames and their owners' tags, the Measurement Controller,
the Arithmetic Unit, and, where a wanted discharge stream opens, the discharge timer (R83, R138). -/
def State.msrDropped (s t : State) : Prop :=
  t = { s with
    ring := t.ring
    sup := { s.sup with pollList := t.sup.pollList }
    seq := { s.seq with
      transactions := t.seq.transactions, home := { s.seq.home with tag := t.seq.home.tag } }
    mc := t.mc
    arith := t.arith
    hv := { s.hv with streamWanted := t.hv.streamWanted, dischargeTimer := t.hv.dischargeTimer } }

theorem State.msrDropped.trans (h : s.msrDropped t) (j : t.msrDropped u) : s.msrDropped u := by
  unfold State.msrDropped at h j ⊢
  refine j.trans ?_
  rw [h]

theorem State.mcServed.msrDropped (h : s.mcServed t) : s.msrDropped t := by
  unfold State.mcServed State.msrDropped at *
  exact h.trans (by rw [h])

theorem msrDropped_retryStream (s : State) : s.msrDropped s.retryStream := by
  unfold State.retryStream
  split
  · exact State.msrDropped.trans
      (t := s.onHv fun h => { h with streamWanted := false, dischargeTimer := some s.limits.timing.discharge }) rfl
      (mcServed_openStream _ _).msrDropped
  · rfl

theorem msrDropped_mcIdle (s : State) : s.msrDropped s.mcIdle :=
  State.msrDropped.trans (t := s.onMc _) rfl (msrDropped_retryStream _)

theorem msrDropped_dropMsr (s : State) : s.msrDropped s.dropMsr := by
  unfold State.dropMsr
  split
  · exact (ringServed_withdraw s _).mcServed.msrDropped.trans (msrDropped_mcIdle _)
  · exact msrDropped_mcIdle s
  · exact State.msrDropped.trans (t := (s.onMc _).onArith _) rfl (msrDropped_mcIdle _)
  · rfl
  · rfl

/-- A stream that is opened is open; one that is not leaves the controller as it was. -/
theorem openStream_mcState (s : State) (payload : List Byte) :
    (s.openStream payload).mc.state = if s.mc.state = .idle then .stream else s.mc.state := by
  by_cases h : s.mc.state = .idle
  · have hserved := ringServed_handOver
      (s.onMc fun m =>
        { m with state := .stream, requester := .hv, lastSeq := none, lost := 0, curTag := none
                 prevTag := none, timer := none, stream := m.stream + 1 })
      (hvcEntry (s.mc.stream + 1) false payload)
    rw [State.ringServed] at hserved
    rw [if_pos h, State.openStream, if_neg (by simp [h])]
    exact (congrArg (·.mc.state) hserved).trans rfl
  · rw [if_neg h, State.openStream, if_pos h]

theorem retryStream_mcState (h : s.mc.state = .idle) : s.retryStream.mc.state = .idle ∨ s.retryStream.mc.state = .stream := by
  unfold State.retryStream
  split
  · exact .inr ((openStream_mcState _ _).trans (if_pos h))
  · exact .inl h

theorem mcIdle_mcState (s : State) : s.mcIdle.mc.state = .idle ∨ s.mcIdle.mc.state = .stream :=
  retryStream_mcState rfl

/-- With the request dropped the Measurement Controller is IDLE or its stream is open (R83). -/
theorem dropMsr_mcState (s : State) : s.dropMsr.mc.state = .idle ∨ s.dropMsr.mc.state = .stream := by
  unfold State.dropMsr
  split
  · exact mcIdle_mcState _
  · exact mcIdle_mcState _
  · exact mcIdle_mcState _
  · exact .inl ‹_›
  · exact .inr ‹_›

/-- With no discharge stream wanted the drop leaves the HV Controller as it is, and a request leaves the Measurement
Controller IDLE (R83). -/
theorem dropMsr_unwanted (h : s.hv.streamWanted = false) :
    s.dropMsr.hv = s.hv ∧ (s.mc.state ≠ .stream → s.dropMsr.mc.state = .idle) := by
  have hidle : ∀ x : State, x.hv = s.hv → x.mcIdle.hv = s.hv ∧ (s.mc.state ≠ .stream → x.mcIdle.mc.state = .idle) := by
    intro x hx
    rw [State.mcIdle, retryStream_none (by rw [State.onMc_hv, hx, h])]
    exact ⟨hx, fun _ => rfl⟩
  unfold State.dropMsr
  split
  · exact hidle _ (ringServed_withdraw s _).hv
  · exact hidle _ rfl
  · exact hidle _ rfl
  · exact ⟨rfl, fun _ => ‹_›⟩
  · exact ⟨rfl, fun hne => absurd ‹_› hne⟩

theorem keepsHvc_openStream (s : State) (payload : List Byte) : s.keepsHvc (s.openStream payload) := by
  unfold State.openStream
  split
  · exact keepsHvc_of_ring rfl
  · exact (keepsHvc_handOver (s.onMc _) _).of_ring rfl

theorem keepsHvc_mcIdle (s : State) : s.keepsHvc s.mcIdle := by
  unfold State.mcIdle State.retryStream
  split
  · exact (keepsHvc_openStream (State.onHv _ _) _).of_ring rfl
  · exact keepsHvc_of_ring rfl

theorem keepsHvc_dropMsr (s : State) : s.keepsHvc s.dropMsr := by
  unfold State.dropMsr
  split
  · exact (keepsHvc_withdraw fun e n closing he => by simp [he]).trans (keepsHvc_mcIdle _)
  · exact keepsHvc_mcIdle s
  · exact (keepsHvc_mcIdle (State.onArith _ _)).of_ring rfl
  · exact keepsHvc_of_ring rfl
  · exact keepsHvc_of_ring rfl

/-- The kind of a frame allows an HVC frame. -/
def HvcAllowed (Q : RingOwner → Byte → Prop) : Prop := ∀ n closing, Q (.hvc n closing) clsHvc

theorem framesAll_openStream {Q : RingOwner → Byte → Prop} (hpoll : PollsAllowed Q) (hhvc : HvcAllowed Q)
    (h : s.framesAll Q) (payload : List Byte) : (s.openStream payload).framesAll Q := by
  unfold State.openStream
  split
  · exact h
  · exact framesAll_handOver (s := s.onMc _) hpoll h (hhvc _ _)

theorem framesAll_retryStream {Q : RingOwner → Byte → Prop} (hpoll : PollsAllowed Q) (hhvc : HvcAllowed Q)
    (h : s.framesAll Q) : s.retryStream.framesAll Q := by
  unfold State.retryStream
  split
  · exact framesAll_openStream (s := s.onHv _) hpoll hhvc h _
  · exact h

theorem framesAll_dropMsr {Q : RingOwner → Byte → Prop} (hpoll : PollsAllowed Q) (hhvc : HvcAllowed Q)
    (h : s.framesAll Q) : s.dropMsr.framesAll Q := by
  unfold State.dropMsr
  split
  · exact framesAll_retryStream (s := State.onMc _ _) hpoll hhvc (framesAll_withdraw hpoll fun e he _ => h e he)
  · exact framesAll_retryStream (s := State.onMc _ _) hpoll hhvc h
  · exact framesAll_retryStream (s := State.onMc _ _) hpoll hhvc h
  · exact h
  · exact h

/-- An MSR that waits to be sent is gone with its request (R83). -/
theorem dropMsr_noMsr (h : s.mc.state = .msrQueued) : s.dropMsr.framesAll fun owner _ => owner ≠ .msr := by
  simp only [State.dropMsr, h]
  have hpoll : PollsAllowed fun owner _ => owner ≠ .msr := fun _ => RingOwner.noConfusion
  refine framesAll_retryStream (s := State.onMc _ _) hpoll (fun _ _ => RingOwner.noConfusion) ?_
  refine framesAll_withdraw hpoll fun e _ he => ?_
  simpa using he

/-! ### The configuration is abandoned (R59) -/

/-- What an abandoned configuration may change: the sequencer, the lookups, and the frames and their owners' tags. -/
def State.abandoned (s t : State) : Prop :=
  t = { s with
    cache := t.cache
    ring := t.ring
    sup := { s.sup with pollList := t.sup.pollList }
    seq := t.seq
    mc := { s.mc with curTag := t.mc.curTag, prevTag := t.mc.prevTag } }

theorem abandoned_abandonConfiguration (s : State) : s.abandoned s.abandonConfiguration := by
  unfold State.abandonConfiguration
  split
  · rfl
  · rfl
  · rfl
  · have hserved := ringServed_withdraw (s.onSeq Sequencer.rest) RingEntry.isSwitch
    rw [State.ringServed] at hserved
    rw [State.abandoned]
    refine hserved.trans ?_
    generalize State.withdraw _ _ = x at *
    rw [hserved]
    rfl
  · rfl

theorem abandonConfiguration_homing (h : s.seq.state = .homing) : s.abandonConfiguration = s := by
  simp only [State.abandonConfiguration, h]

theorem abandonConfiguration_idle (h : s.seq.state ≠ .homing) : s.abandonConfiguration.seq.state = .idle := by
  unfold State.abandonConfiguration
  split
  · assumption
  · exact absurd ‹_› h
  · rfl
  · have hserved := ringServed_withdraw (s.onSeq Sequencer.rest) RingEntry.isSwitch
    rw [State.ringServed] at hserved
    exact (congrArg (·.seq.state) hserved).trans rfl
  · rfl

theorem keepsHvc_abandonConfiguration (s : State) : s.keepsHvc s.abandonConfiguration := by
  unfold State.abandonConfiguration
  split
  · exact keepsHvc_of_ring rfl
  · exact keepsHvc_of_ring rfl
  · exact keepsHvc_of_ring rfl
  · exact (keepsHvc_withdraw (s := s.onSeq _) fun e n closing he => by simp only [RingEntry.isSwitch, he]).of_ring rfl
  · exact keepsHvc_of_ring rfl

theorem framesAll_abandonConfiguration {Q : RingOwner → Byte → Prop} (hpoll : PollsAllowed Q) (h : s.framesAll Q) :
    s.abandonConfiguration.framesAll Q := by
  unfold State.abandonConfiguration
  split
  · exact h
  · exact h
  · exact h
  · exact framesAll_withdraw (s := s.onSeq _) hpoll fun e he _ => h e he
  · exact h

/-! ### The HV Controller abandons the net under test (R135) -/

/-- The HV Controller with the net under test abandoned. -/
def Hv.abandoned (h : Hv) (discharge : Nat) : Hv :=
  match h.state with
  | .safe => { h with hold := false, net := none, work := .idle }
  | .ramp | .dwell =>
    { h with
      state := .discharge, cause := .test, rampTimer := none, dwellTimer := none, ending := none, safeWait := true
      dischargeTimer := some discharge, net := none, work := .idle }
  | .discharge => { h with ending := none, safeWait := true, net := none, work := .idle }
  | .stuck => { h with net := none, work := .idle }

theorem Hv.abandoned_safe {h : Hv} (hs : h.state = .safe) (discharge : Nat) :
    h.abandoned discharge = { h with hold := false, net := none, work := .idle } := by
  simp only [Hv.abandoned, hs]

theorem Hv.abandoned_live {h : Hv} (hs : h.state = .ramp ∨ h.state = .dwell) (discharge : Nat) :
    h.abandoned discharge =
      { h with
        state := .discharge, cause := .test, rampTimer := none, dwellTimer := none, ending := none, safeWait := true
        dischargeTimer := some discharge, net := none, work := .idle } := by
  rcases hs with hs | hs <;> simp only [Hv.abandoned, hs]

theorem Hv.abandoned_discharge {h : Hv} (hs : h.state = .discharge) (discharge : Nat) :
    h.abandoned discharge = { h with ending := none, safeWait := true, net := none, work := .idle } := by
  simp only [Hv.abandoned, hs]

theorem Hv.abandoned_stuck {h : Hv} (hs : h.state = .stuck) (discharge : Nat) :
    h.abandoned discharge = { h with net := none, work := .idle } := by
  simp only [Hv.abandoned, hs]

theorem Hv.abandoned_isSafe (h : Hv) (discharge : Nat) : (h.abandoned discharge).state = .safe ↔ h.state = .safe := by
  unfold Hv.abandoned
  cases h.state <;> simp

theorem Hv.abandoned_idle (h : Hv) (discharge : Nat) :
    (h.abandoned discharge).net = none ∧ (h.abandoned discharge).work = .idle := by
  unfold Hv.abandoned
  split <;> exact ⟨rfl, rfl⟩

/-- The HV Controller before the net under test is put down: in RAMP and DWELL the discharge has begun (R135). -/
def State.hvStopped (s : State) : State :=
  match s.hv.state with
  | .safe => s.onHv fun h => { h with hold := false }
  | .ramp | .dwell =>
    ((s.onHv fun h =>
      { h with state := .discharge, cause := .test, rampTimer := none, dwellTimer := none, ending := none
               safeWait := true, dischargeTimer := some s.limits.timing.discharge }).placeHvc
      s.offPayload).onArith Arith.dropStream
  | .discharge => s.onHv fun h => { h with ending := none, safeWait := true }
  | .stuck => s

theorem hvAbandon_eq_stopped (s : State) :
    s.hvAbandon = (s.hvStopped.onHv fun h => { h with net := none, work := .idle }).onArith Arith.dropEvaluation := rfl

theorem hvStopped_safe (h : s.hv.state = .safe) : s.hvStopped = s.onHv fun h => { h with hold := false } := by
  simp only [State.hvStopped, h]

theorem hvStopped_discharge (h : s.hv.state = .discharge) :
    s.hvStopped = s.onHv fun h => { h with ending := none, safeWait := true } := by
  simp only [State.hvStopped, h]

theorem hvStopped_stuck (h : s.hv.state = .stuck) : s.hvStopped = s := by
  simp only [State.hvStopped, h]

theorem hvStopped_live (h : s.hv.state = .ramp ∨ s.hv.state = .dwell) :
    s.hvStopped = ((s.onHv fun h =>
      { h with state := .discharge, cause := .test, rampTimer := none, dwellTimer := none, ending := none
               safeWait := true, dischargeTimer := some s.limits.timing.discharge }).handOver
      (hvcEntry s.mc.stream false s.offPayload)).onArith Arith.dropStream := by
  rcases h with h | h <;> simp only [State.hvStopped, h] <;> rfl

/-- What an abandoned net under test may change: the HV Controller as given, the Arithmetic Unit, and the frames and
their owners' tags (R135). -/
def State.netAbandoned (s t : State) (h : Hv) : Prop :=
  t = { s with
    ring := t.ring
    sup := { s.sup with pollList := t.sup.pollList }
    seq := { s.seq with
      transactions := t.seq.transactions, home := { s.seq.home with tag := t.seq.home.tag } }
    mc := { s.mc with curTag := t.mc.curTag, prevTag := t.mc.prevTag }
    arith := t.arith
    hv := h }

theorem netAbandoned_hvAbandon (s : State) : s.netAbandoned s.hvAbandon (s.hv.abandoned s.limits.timing.discharge) := by
  rw [hvAbandon_eq_stopped]
  cases hs : s.hv.state with
  | safe =>
    rw [Hv.abandoned_safe hs, hvStopped_safe hs]
    rfl
  | discharge =>
    rw [Hv.abandoned_discharge hs, hvStopped_discharge hs]
    rfl
  | stuck =>
    rw [Hv.abandoned_stuck hs, hvStopped_stuck hs]
    rfl
  | ramp | dwell =>
    have hlive : s.hv.state = .ramp ∨ s.hv.state = .dwell := by simp [hs]
    rw [Hv.abandoned_live hlive, hvStopped_live hlive]
    have hserved := ringServed_handOver (s.onHv fun h =>
      { h with state := .discharge, cause := .test, rampTimer := none, dwellTimer := none, ending := none
               safeWait := true, dischargeTimer := some s.limits.timing.discharge })
      (hvcEntry s.mc.stream false s.offPayload)
    generalize State.handOver _ _ = x at *
    rw [State.ringServed] at hserved
    rw [State.netAbandoned, hserved]
    rfl

theorem keepsHvc_hvAbandon (s : State) : s.keepsHvc s.hvAbandon := by
  have hstopped : s.keepsHvc s.hvStopped := by
    unfold State.hvStopped
    split
    · exact keepsHvc_of_ring rfl
    · exact ((keepsHvc_handOver (s.onHv _) _).trans (keepsHvc_of_ring rfl)).of_ring rfl
    · exact ((keepsHvc_handOver (s.onHv _) _).trans (keepsHvc_of_ring rfl)).of_ring rfl
    · exact keepsHvc_of_ring rfl
    · exact keepsHvc_of_ring rfl
  exact hstopped.trans (keepsHvc_of_ring rfl)

theorem framesAll_hvAbandon {Q : RingOwner → Byte → Prop} (hpoll : PollsAllowed Q) (hhvc : HvcAllowed Q)
    (h : s.framesAll Q) : s.hvAbandon.framesAll Q := by
  change s.hvStopped.framesAll Q
  unfold State.hvStopped
  split
  · exact h
  · exact framesAll_handOver (s := s.onHv _) hpoll h (hhvc _ _)
  · exact framesAll_handOver (s := s.onHv _) hpoll h (hhvc _ _)
  · exact h
  · exact h

/-! ### The response (R40) -/

/-- What a response may change: the sweep and isolation records return to their reset values, the slot is emptied and the
run waits for HOME or for SAFE; the port, the lookups, the sequencer, the Measurement Controller, the Arithmetic Unit, the
HV Controller and the frames follow what is dropped. -/
def State.responded (s t : State) : Prop :=
  t = { s with
    port := t.port
    cache := t.cache
    ring := t.ring
    sup := { s.sup with pollList := t.sup.pollList }
    seq := t.seq
    mc := t.mc
    arith := t.arith
    sweep := Sweep.reset
    hv := t.hv
    run := { s.run with slot := none, waiting := if s.hv.state = .safe then .home else .safe } }

/-- The response up to its last step, which asks for HOME or waits for SAFE. -/
def State.stopped (s : State) : State :=
  ((s.dropMsr.abandonConfiguration.dropReads.sweepRest.onArith Arith.dropLowVolt).onRun fun r =>
    { r with slot := none }).hvAbandon

theorem response_eq_stopped (s : State) :
    s.response =
      if s.stopped.hv.state = .safe then (s.stopped.onRun fun r => { r with waiting := .home }).requestHome
      else s.stopped.onRun fun r => { r with waiting := .safe } := rfl

/-- The response up to its last step. -/
theorem stopped_eq (s : State) :
    s.stopped =
      { s with
        port := s.stopped.port
        cache := s.stopped.cache
        ring := s.stopped.ring
        sup := { s.sup with pollList := s.stopped.sup.pollList }
        seq := { s.dropMsr.abandonConfiguration.seq with
          transactions := s.stopped.seq.transactions
          home := { s.dropMsr.abandonConfiguration.seq.home with tag := s.stopped.seq.home.tag } }
        mc := { s.dropMsr.mc with curTag := s.stopped.mc.curTag, prevTag := s.stopped.mc.prevTag }
        arith := s.stopped.arith
        sweep := Sweep.reset
        hv := s.dropMsr.hv.abandoned s.limits.timing.discharge
        run := { s.run with slot := none } } := by
  have hdropped := msrDropped_dropMsr s
  have habandoned := abandoned_abandonConfiguration s.dropMsr
  have hnet := netAbandoned_hvAbandon
    ((s.dropMsr.abandonConfiguration.dropReads.sweepRest.onArith Arith.dropLowVolt).onRun fun r => { r with slot := none })
  change State.netAbandoned _ s.stopped _ at hnet
  generalize s.stopped = z at *
  generalize s.dropMsr.abandonConfiguration = y at *
  generalize s.dropMsr = x at *
  rw [State.netAbandoned] at hnet
  rw [State.abandoned] at habandoned
  rw [State.msrDropped] at hdropped
  rw [hnet, habandoned, hdropped]
  rfl

theorem stopped_isSafe (s : State) : s.stopped.hv.state = .safe ↔ s.hv.state = .safe := by
  rw [stopped_eq]
  change (s.dropMsr.hv.abandoned _).state = .safe ↔ _
  rw [Hv.abandoned_isSafe, dropMsr_hvState]

/-- A HOME that is asked for is refused, and nothing changes, or it is started (R61). -/
theorem requestHome_cases (s : State) :
    s.requestHome = s ∨ s.seq.state = .idle ∧ s.homing.ringServed s.requestHome := by
  unfold State.requestHome
  split
  · exact .inl rfl
  · rename_i h
    refine .inr ⟨by simp_all, ?_⟩
    exact ringServed_handOver s.homing homeEntry

theorem responded_response (s : State) : s.responded s.response := by
  have hstopped := stopped_eq s
  rw [response_eq_stopped, State.responded]
  by_cases hsafe : s.hv.state = .safe
  · rw [if_pos ((stopped_isSafe s).mpr hsafe), if_pos hsafe]
    generalize s.stopped = z at *
    rcases requestHome_cases (z.onRun fun r => { r with waiting := .home }) with h | ⟨-, h⟩
    · rw [h, hstopped]
      rfl
    · rw [State.ringServed] at h
      rw [h, hstopped]
      rfl
  · rw [if_neg (mt (stopped_isSafe s).mp hsafe), if_neg hsafe]
    generalize s.stopped = z at *
    rw [hstopped]
    rfl

/-- With a HOME in progress the response joins it (R59, R61). -/
theorem response_joins (h : s.seq.state = .homing) :
    s.response.seq =
      { s.seq with
        transactions := s.response.seq.transactions
        home := { s.seq.home with tag := s.response.seq.home.tag } } := by
  have hdropped := msrDropped_dropMsr s
  have hkept : s.dropMsr.abandonConfiguration = s.dropMsr := by
    rw [State.msrDropped] at hdropped
    exact abandonConfiguration_homing (by rw [hdropped]; exact h)
  have hstopped := stopped_eq s
  rw [hkept] at hstopped
  rw [response_eq_stopped]
  generalize s.stopped = z at *
  generalize s.dropMsr = x at *
  rw [State.msrDropped] at hdropped
  have hhoming : z.seq.state = .homing := by
    rw [hstopped, hdropped]
    exact h
  have hplain : (z.onRun fun r => { r with waiting := .home }).requestHome = z.onRun fun r => { r with waiting := .home } := by
    rcases requestHome_cases (z.onRun fun r => { r with waiting := .home }) with e | ⟨hidle, -⟩
    · exact e
    · exact SeqState.noConfusion (hhoming.symm.trans hidle)
  have hseq : ∀ w : RunWait, (z.onRun fun r => { r with waiting := w }).seq =
      { s.seq with transactions := z.seq.transactions, home := { s.seq.home with tag := z.seq.home.tag } } := fun w => by
    rw [State.onRun_seq, hstopped, hdropped]
  rw [hplain]
  split
  · exact hseq .home
  · exact hseq .safe

theorem stopped_idle (h : s.seq.state ≠ .homing) : s.stopped.seq.state = .idle := by
  have hdropped := msrDropped_dropMsr s
  rw [State.msrDropped] at hdropped
  rw [stopped_eq]
  exact abandonConfiguration_idle (by rw [hdropped]; exact h)

/-- With no HOME in progress and the HV state SAFE the response starts one (R40, R61). -/
theorem response_homes (h : s.seq.state ≠ .homing) (hsafe : s.hv.state = .safe) (hhalt : s.fault.safeHalt = false) :
    let t := s.response
    t.seq.state = .homing ∧ t.seq.requester = .run ∧ t.seq.home.expected = s.modules.filter (fun a => s.alive a) ∧
      t.seq.home.answered = [] ∧ t.seq.home.timer = none ∧ t.homeToSend := by
  intro t
  have hidle := stopped_idle h
  have hstopped := stopped_eq s
  have hz := (stopped_isSafe s).mpr hsafe
  have ht : t = (s.stopped.onRun fun r => { r with waiting := .home }).requestHome :=
    (response_eq_stopped s).trans (if_pos hz)
  generalize s.stopped = z at *
  obtain ⟨hserved, hsent⟩ := requestHome_homes (s := z.onRun fun r => { r with waiting := .home })
    (by rw [hstopped]; exact hhalt) hidle hz
  rw [← ht] at hserved hsent
  rw [State.ringServed, hstopped] at hserved
  refine ⟨?_, ?_, ?_, ?_, ?_, hsent⟩
  all_goals
    rw [hserved]
    rfl

/-- The response leaves the HV Controller with its net abandoned, and the Measurement Controller with its request
dropped (R83, R135). -/
theorem response_hv_mc (s : State) :
    s.response.hv = s.dropMsr.hv.abandoned s.limits.timing.discharge ∧ s.response.mc.state = s.dropMsr.mc.state := by
  have hstopped := stopped_eq s
  have hkept : s.stopped.hv = s.dropMsr.hv.abandoned s.limits.timing.discharge ∧
      s.stopped.mc.state = s.dropMsr.mc.state := by
    generalize s.stopped = z at *
    rw [hstopped]
    exact ⟨rfl, rfl⟩
  rw [response_eq_stopped]
  split
  · rcases requestHome_cases (s.stopped.onRun fun r => { r with waiting := .home }) with h | ⟨-, h⟩
    · rw [h]
      exact hkept
    · rw [State.ringServed] at h
      rw [h]
      exact hkept
  · exact hkept

/-- The sequencer is IDLE or HOMING after a response (R40). -/
theorem response_seqState (s : State) : s.response.seq.state = .idle ∨ s.response.seq.state = .homing := by
  by_cases h : s.seq.state = .homing
  · rw [response_joins h]
    exact .inr h
  · have hidle := stopped_idle h
    rw [response_eq_stopped]
    split
    · rcases requestHome_cases (s.stopped.onRun fun r => { r with waiting := .home }) with e | ⟨-, e⟩
      · rw [e]
        exact .inl hidle
      · rw [State.ringServed] at e
        rw [e]
        exact .inr rfl
    · exact .inl hidle

/-! ### The frames that a response leaves (R59, R83, R135) -/

theorem keepsHvc_response (s : State) : s.keepsHvc s.response := by
  have hstopped : s.keepsHvc s.stopped :=
    ((keepsHvc_dropMsr s).trans (keepsHvc_abandonConfiguration _)).trans ((keepsHvc_hvAbandon _).of_ring rfl)
  rw [response_eq_stopped]
  split
  · unfold State.requestHome
    split
    · exact hstopped.trans (keepsHvc_of_ring rfl)
    · exact hstopped.trans ((keepsHvc_handOver (State.onSeq _ _) _).of_ring rfl)
  · exact hstopped.trans (keepsHvc_of_ring rfl)

/-- Out of SAFE the response adds POL and HVC frames alone. -/
theorem framesAll_response {Q : RingOwner → Byte → Prop} (hpoll : PollsAllowed Q) (hhvc : HvcAllowed Q)
    (hsafe : s.hv.state ≠ .safe) (h : s.dropMsr.framesAll Q) : s.response.framesAll Q := by
  rw [response_eq_stopped, if_neg (mt (stopped_isSafe s).mp hsafe)]
  exact framesAll_hvAbandon (s := State.onRun _ _) hpoll hhvc (framesAll_abandonConfiguration hpoll h)

end Sys2Proof.Machine
end

section
/-! PROOFS. What an insert into the defect list does, by case (R144, R145): for O41, O57 and O58. -/

namespace Sys2Proof.Machine

variable {s t u : State}

/-! ### An insert that is merged, discarded or held (R144, R145) -/

/-- An insert whose key is in the list is merged into the record with that key (R145). -/
theorem insert_merged {r : Insert} (h : ∃ d ∈ s.defects, d.key = r.key) :
    s.insert r =
      ({ s with
        defects := s.defects.map fun d => if d.key = r.key then s.merged d r.value r.lowv else d
        run := s.run.inserted }, false) := by
  have hfound : (findKey s.defects r.key).isSome = true := by simpa [findKey] using h
  rw [State.insert, if_pos hfound]
  rfl

/-- An insert of a new key at the run defect limit is discarded (R144). -/
theorem insert_discarded {r : Insert} (h : ∀ d ∈ s.defects, d.key ≠ r.key)
    (hlimit : s.limits.timing.defectLimit ≤ s.run.summary.defects) : s.insert r = (s, false) := by
  rw [State.insert, findKey_eq_none h, if_neg (by simp), if_pos hlimit]

/-- An insert of a new key into a full list is held in the pending-insert slot, and in SAFE the run stalls (R38, R144). -/
theorem insert_held {r : Insert} (h : ∀ d ∈ s.defects, d.key ≠ r.key)
    (hlimit : s.run.summary.defects < s.limits.timing.defectLimit) (hfull : 512 ≤ s.defects.length) :
    s.insert r =
      (if s.hv.state = .safe then (s.onRun fun x => { x with slot := some r }).enterStalled
        else s.onRun fun x => { x with slot := some r }, true) := by
  rw [State.insert, findKey_eq_none h, if_neg (by simp), if_neg (Nat.not_le.mpr hlimit), defectCapacity, if_pos hfull]

/-- With printing OFF an insert that finds room leaves a record with its key and its value in the list (R144, R145). -/
theorem insert_lists (hoff : s.print.state = .off) (hlimit : s.run.summary.defects < s.limits.timing.defectLimit)
    (hroom : s.defects.length < 512) (r : Insert) :
    ∃ d ∈ (s.insert r).1.defects, d.key = r.key ∧ d.value = r.value := by
  by_cases hkey : ∃ d ∈ s.defects, d.key = r.key
  · rw [insert_merged hkey]
    obtain ⟨d, hd, hdkey⟩ := hkey
    exact ⟨_, List.mem_map_of_mem hd, by rw [if_pos hdkey]; exact ⟨hdkey, rfl⟩⟩
  · rw [insert_appended_off ⟨fun d hd he => hkey ⟨d, hd, he⟩, hlimit, hroom⟩ hoff, appendedBy_eq]
    exact ⟨_, List.mem_append_right _ (List.mem_singleton_self _), rfl, rfl⟩

/-! ### What an insert may change (R144, R154) -/

/-- What an insert may change: the run, the list, the events with their notices, and what a look for work changes. -/
def State.recorded (s t : State) : Prop :=
  t = { s with
    port := t.port, trunk := t.trunk, arith := { s.arith with waiting := t.arith.waiting }, run := t.run
    defects := t.defects, print := t.print, events := t.events }

theorem State.recorded.trans (h : s.recorded t) (j : t.recorded u) : s.recorded u := by
  unfold State.recorded at h j ⊢
  refine j.trans ?_
  rw [h]

theorem State.printServed.recorded (h : s.printServed t) : s.recorded t := by
  unfold State.printServed State.recorded at *
  exact h.trans (by rw [h])

theorem recorded_raise (s : State) (e : Event) : s.recorded (s.raise e) := by
  rw [raise_eq]
  rfl

theorem recorded_enterStalled (s : State) : s.recorded s.enterStalled := by
  rw [(enterStalled_keeps s).1]
  rfl

theorem recorded_printLook (s : State) : s.recorded s.printLook := (look_spec _ s).1.recorded

theorem recorded_insert (s : State) (r : Insert) : s.recorded (s.insert r).1 := by
  by_cases hkey : ∃ d ∈ s.defects, d.key = r.key
  · rw [insert_merged hkey]
    rfl
  have hno : ∀ d ∈ s.defects, d.key ≠ r.key := fun d hd he => hkey ⟨d, hd, he⟩
  rcases Nat.lt_or_ge s.run.summary.defects s.limits.timing.defectLimit with hlimit | hlimit
  swap
  · rw [insert_discarded hno hlimit]
    rfl
  rcases Nat.lt_or_ge s.defects.length 512 with hroom | hfull
  swap
  · rw [insert_held hno hlimit hfull]
    dsimp only
    split
    · exact State.recorded.trans (t := s.onRun fun x => { x with slot := some r }) rfl (recorded_enterStalled _)
    · rfl
  have happended : s.recorded (s.appendedBy r) := by
    rw [appendedBy_eq]
    rfl
  rw [insert_appended ⟨hno, hlimit, hroom⟩]
  dsimp only
  split
  · exact happended
  · exact happended.trans (recorded_printLook _)

end Sys2Proof.Machine
end

section
/-! PROOFS. ABORT (O39), and KEEP, the keepalive counter at 0 and the interlock (O58). -/

namespace Sys2Proof.Machine

variable {s t : State}

/-! ### An active run enters ABORTING (R40, R41, R43) -/

/-- The run as it enters ABORTING, before its response. -/
def State.abortedBy (s : State) (cause : AbortCause) : State :=
  s.onRun fun r => { r with state := .aborting, abortCause := cause, pauseCause := .none }

theorem beginAbort_active (h : s.run.active = true) (cause : AbortCause) :
    s.beginAbort cause = (s.abortedBy cause).response := by
  rw [State.beginAbort, if_pos h]
  rfl

/-- The drop of the outstanding request changes of the HV Controller what a wanted discharge stream does (R138). -/
theorem dropMsr_hv (s : State) :
    s.dropMsr.hv =
      { s.hv with streamWanted := s.dropMsr.hv.streamWanted, dischargeTimer := s.dropMsr.hv.dischargeTimer } := by
  have h := msrDropped_dropMsr s
  generalize s.dropMsr = x at *
  rw [State.msrDropped] at h
  rw [h]

/-- In SAFE the response leaves the HV Controller there, the hold cleared and no net under test (R135). -/
theorem response_hv_safe (h : s.hv.state = .safe) :
    s.response.hv.state = .safe ∧ s.response.hv.hold = false ∧ s.response.hv.net = none ∧
      s.response.hv.work = .idle := by
  have hsafe : s.dropMsr.hv.state = .safe := by rw [dropMsr_hvState, h]
  rw [(response_hv_mc s).1, Hv.abandoned_safe hsafe]
  exact ⟨hsafe, rfl, rfl, rfl⟩

/-- In RAMP and DWELL the response begins the discharge (R135). -/
theorem response_hv_live (h : s.hv.state = .ramp ∨ s.hv.state = .dwell) :
    let hv := s.response.hv
    hv.state = .discharge ∧ hv.cause = .test ∧ hv.rampTimer = none ∧ hv.dwellTimer = none ∧
      hv.dischargeTimer = some s.limits.timing.discharge ∧ hv.safeWait = true := by
  have hlive : s.dropMsr.hv.state = .ramp ∨ s.dropMsr.hv.state = .dwell := by rwa [dropMsr_hvState]
  rw [(response_hv_mc s).1, Hv.abandoned_live hlive]
  exact ⟨rfl, rfl, rfl, rfl, rfl, rfl⟩

/-- The OFF-DISCHARGE of a net abandoned in RAMP or DWELL is on its way (R123, R135). -/
theorem hvAbandon_discharges (h : s.hv.state = .ramp ∨ s.hv.state = .dwell) : s.hvAbandon.hvcSent s.offPayload := by
  have hplaced := placeHvc_hvcSent (s.onHv fun h =>
    { h with state := .discharge, cause := .test, rampTimer := none, dwellTimer := none, ending := none
             safeWait := true, dischargeTimer := some s.limits.timing.discharge }) s.offPayload
  rw [hvAbandon_eq_stopped, hvStopped_live h]
  rw [State.placeHvc, State.onHv_mc] at hplaced
  generalize State.handOver _ _ = x at *
  exact hplaced

/-- The OFF-DISCHARGE of a response in RAMP or DWELL is on its way on the open stream (R123, R135). -/
theorem response_discharges (h : s.hv.state = .ramp ∨ s.hv.state = .dwell) : s.response.hvcSent s.offPayload := by
  have hdropped := msrDropped_dropMsr s
  have habandoned := abandoned_abandonConfiguration s.dropMsr
  have hstopped : s.stopped.hvcSent s.offPayload := by
    unfold State.stopped
    generalize s.dropMsr.abandonConfiguration = y at *
    generalize s.dropMsr = x at *
    rw [State.abandoned] at habandoned
    rw [State.msrDropped] at hdropped
    have hlive : y.hv.state = .ramp ∨ y.hv.state = .dwell := by rwa [habandoned, hdropped]
    have hlimits : y.limits = s.limits := by rw [habandoned, hdropped]
    have hpayload : y.offPayload = s.offPayload := by
      rw [State.offPayload, hlimits]
      rfl
    rw [← hpayload]
    exact hvAbandon_discharges hlive
  have hsafe : s.hv.state ≠ .safe := by rcases h with h | h <;> simp [h]
  rw [response_eq_stopped, if_neg (mt (stopped_isSafe s).mp hsafe)]
  exact hstopped

/-- Settles O39: the response that ABORT begins, by HV state. -/
theorem abortBegins : Obligations.AbortBegins := by
  intro s tag hs
  refine ⟨fun h => ?_, fun h => ?_, fun h => ?_⟩
  · rw [exec, execAbort, bareCommand_taken hs, h, reply_settled]
  · rw [exec, execAbort, bareCommand_taken hs]
    rcases h with h | h <;> rw [h, reply_settled]
  · have hactive : (s.reply tag 0x11 .ok).run.active = true := by
      rcases h with h | h | h <;> exact congrArg (fun x : RunState => decide (x = .running) || decide (x = .paused) ||
        decide (x = .stalled) || decide (x = .aborting)) h
    have hexec : exec (.abort tag []) s =
        .next (((s.reply tag 0x11 .ok).abortedBy .abort).response).settled := by
      rw [exec, execAbort, bareCommand_taken hs, ← beginAbort_active hactive]
      rcases h with h | h | h <;> rw [h]
    refine ⟨_, hexec, ?_⟩
    have hresponded := responded_response ((s.reply tag 0x11 .ok).abortedBy .abort)
    have hmc := dropMsr_mcState ((s.reply tag 0x11 .ok).abortedBy .abort)
    rw [← (response_hv_mc _).2] at hmc
    have hseq := response_seqState ((s.reply tag 0x11 .ok).abortedBy .abort)
    have hidle := Hv.abandoned_idle ((s.reply tag 0x11 .ok).abortedBy .abort).dropMsr.hv s.limits.timing.discharge
    have hhv := (response_hv_mc ((s.reply tag 0x11 .ok).abortedBy .abort)).1
    rw [State.responded] at hresponded
    refine ⟨?_, ?_, ?_, ?_, fun hsafe => ?_, fun hlive => ?_, hmc, hseq, ?_, ?_, ?_, ?_, ?_⟩
    case refine_3 => exact (congrArg Hv.net hhv).trans hidle.1
    case refine_4 => exact (congrArg Hv.work hhv).trans hidle.2
    case refine_5 =>
      obtain ⟨hstate, hhold, -, -⟩ := response_hv_safe (s := (s.reply tag 0x11 .ok).abortedBy .abort) hsafe
      have hjoins := response_joins (s := (s.reply tag 0x11 .ok).abortedBy .abort)
      have hhomes := response_homes (s := (s.reply tag 0x11 .ok).abortedBy .abort)
      refine ⟨hstate, hhold, ?_, fun hhoming => ?_, fun hno => ?_⟩
      · by_cases hhoming : s.seq.state = .homing
        · exact (congrArg Sequencer.state (hjoins hhoming)).trans hhoming
        · exact (hhomes hhoming hsafe hs.2).1
      · have hseq := hjoins hhoming
        refine ⟨?_, ?_, ?_, ?_⟩
        · exact (congrArg Sequencer.requester hseq).trans rfl
        · exact (congrArg (·.home.expected) hseq).trans rfl
        · exact (congrArg (·.home.answered) hseq).trans rfl
        · exact (congrArg (·.home.timer) hseq).trans rfl
      · obtain ⟨-, h2, h3, h4, h5, h6⟩ := hhomes hno hsafe hs.2
        exact ⟨h2, h3, h4, h5, h6⟩
    case refine_6 =>
      obtain ⟨h1, h2, h3, h4, h5, h6⟩ := response_hv_live (s := (s.reply tag 0x11 .ok).abortedBy .abort) hlive
      obtain ⟨e, he, howner, hdst, -, hcls, hpayload⟩ :=
        response_discharges (s := (s.reply tag 0x11 .ok).abortedBy .abort) hlive
      exact ⟨h1, h2, h3, h4, h5, h6, e, he, howner, hdst, hcls, hpayload⟩
    all_goals
      generalize State.response _ = t at *
      rw [hresponded]
      rfl

/-! ### HV-ABORT (R41, R136) -/

/-- An event of a chip that is out of reset. -/
theorem event_taken (h : s.rst.held = false) (f : State → State) : s.event f = .next (f s).settled := by
  rw [State.event, h]
  rfl

/-- A test that ends changes the HV Controller, the frames and their owners' tags (R132). -/
theorem hvEnd_served (s : State) :
    (s.onHv fun h => h.testEnded s.limits.timing.discharge).ringServed s.hvEnd :=
  ringServed_handOver (s.onHv fun h => h.testEnded s.limits.timing.discharge)
    (hvcEntry s.mc.stream false s.offPayload)

/-- The OFF-DISCHARGE of a test that ends is among the frames still to be sent (R132). -/
theorem hvEnd_frame (s : State) : (hvcEntry s.mc.stream false s.offPayload).content ∈ s.hvEnd.frames :=
  handOver_frames_mem (s.onHv fun h => h.testEnded s.limits.timing.discharge)
    (hvcEntry s.mc.stream false s.offPayload)

/-- HV-ABORT up to its response: the test has ended, its record is inserted and HV-ABORT raised (R41, R136). -/
def State.abortRaised (s : State) : State := (s.hvEnd.insert (s.hv.record .untested none false)).1.raise .hvAbort

theorem recorded_abortRaised (s : State) : s.hvEnd.recorded s.abortRaised :=
  (recorded_insert _ _).trans (recorded_raise _ _)

theorem hvAbort_eq (h : s.run.active = true) : s.hvAbort = (s.abortRaised.abortedBy .hvAbort).response := by
  refine beginAbort_active ?_ .hvAbort
  have hended := hvEnd_spec s
  have hstate : s.hvEnd.hv.state ≠ .safe := by
    rw [hended.1]
    exact HvState.noConfusion
  have hrun := (insert_inserts s.hvEnd (s.hv.record .untested none false)).runState hstate
  rw [hended.2.2.1] at hrun
  change (State.raise (s.hvEnd.insert _).1 .hvAbort).run.active = true
  rw [raise_eq]
  simpa only [Run.active, hrun] using h

/-- What HV-ABORT leaves beside what `hvAbort_spec` says: the timers, the pins, the OFF-DISCHARGE on the stream that was
open, and with printing OFF and room in the list the UNTESTED record of the net (R41, R132, R136). -/
theorem hvAbort_leaves (h : s.run.active = true) :
    let t := s.hvAbort
    t.hv.rampTimer = none ∧ t.hv.dwellTimer = none ∧ t.pins = s.pins ∧
      (hvcEntry s.mc.stream false s.offPayload).content ∈ t.frames ∧
      (s.print.state = .off → s.run.summary.defects < s.limits.timing.defectLimit → s.defects.length < 512 →
        ∃ d ∈ t.defects, d.key = (s.hv.record .untested none false).key ∧ d.value = none) := by
  intro t
  have ht : t = (s.abortRaised.abortedBy .hvAbort).response := hvAbort_eq h
  have hserved := hvEnd_served s
  have hframe := hvEnd_frame s
  have hlists := insert_lists (s := s.hvEnd) (r := s.hv.record .untested none false)
  have hdefects : s.abortRaised.defects = (s.hvEnd.insert (s.hv.record .untested none false)).1.defects := by
    rw [State.abortRaised, raise_eq]
  have hrecorded := recorded_abortRaised s
  generalize s.abortRaised = y at *
  rw [State.recorded] at hrecorded
  rw [State.ringServed] at hserved
  have hyhv : y.hv = s.hv.testEnded s.limits.timing.discharge := by
    rw [hrecorded, hserved]
    rfl
  have hhv : t.hv = _ := (congrArg State.hv ht).trans (response_hv_mc (y.abortedBy .hvAbort)).1
  have hdropped := dropMsr_hv (y.abortedBy .hvAbort)
  have hdischarge : (y.abortedBy .hvAbort).dropMsr.hv.state = .discharge := by
    rw [hdropped]
    exact congrArg Hv.state hyhv
  rw [Hv.abandoned_discharge hdischarge, hdropped] at hhv
  have hresponded := responded_response (y.abortedBy .hvAbort)
  rw [← ht, State.responded] at hresponded
  have hlist : t.defects = y.defects := by
    rw [hresponded]
    rfl
  refine ⟨?_, ?_, ?_, ?_, fun hoff hlimit hroom => ?_⟩
  · rw [hhv]
    exact congrArg Hv.rampTimer hyhv
  · rw [hhv]
    exact congrArg Hv.dwellTimer hyhv
  · rw [hresponded]
    change y.pins = _
    rw [hrecorded, hserved]
    rfl
  · rw [ht]
    refine keepsHvc_response _ _ ?_ ⟨_, _, rfl⟩
    change _ ∈ y.frames
    rw [State.frames, hrecorded]
    exact hframe
  · rw [hlist, hdefects]
    refine hlists ?_ ?_ ?_ <;> rw [hserved] <;> assumption

/-- The state in which the keepalive counter at 0, or the interlock that opens, finds the test (R127, R136). -/
def State.abortStart (s : State) (i : Instr) : State :=
  if i = .interlockOpens then s.onPins fun p => { p with interlockClosed := false }
  else s.onHv fun h => { h with keepalive := 0 }

theorem abortStart_keeps (s : State) {i : Instr} (h : i = .keepaliveExpiry ∨ i = .interlockOpens) :
    let x := s.abortStart i
    x.run = s.run ∧ x.limits = s.limits ∧ x.hv.cursor = s.hv.cursor ∧ x.mc = s.mc ∧ x.print = s.print ∧
      x.defects = s.defects ∧ x.mem = s.mem ∧
      x.pins.interlockClosed = (if i = .interlockOpens then false else s.pins.interlockClosed) := by
  rcases h with rfl | rfl <;> exact ⟨rfl, rfl, rfl, rfl, rfl, rfl, rfl, rfl⟩

/-- Settles O58: KEEP, and HV-ABORT on the keepalive counter at 0 and on the interlock. -/
theorem keepaliveAndInterlock : Obligations.KeepaliveAndInterlock := by
  refine ⟨fun s tag hs => ⟨fun h => ?_, fun hramp hdwell => ?_⟩, fun s hheld => ⟨?_, fun hramp hdwell => ?_, ?_⟩⟩
  · rw [exec, execKeep, bareCommand_taken hs, if_pos (by simpa using h), reply_settled]
    rfl
  · rw [exec, execKeep, bareCommand_taken hs, if_neg (by simp [hramp, hdwell]), reply_settled]
  · exact event_taken (s := s.onPins fun p => { p with interlockClosed := true }) hheld fun s => s
  · have hlive : ¬s.hv.live = true := by simp [Hv.live, hramp, hdwell]
    rw [exec, execInterlockOpens, event_taken (by exact hheld), if_neg (by exact hlive)]
    rfl
  · intro i hi hlive hactive
    have hup : s.hv.live = true := (Hv.live_iff _).mpr hlive
    have hstart : exec i s = .next (s.abortStart i).hvAbort.settled := by
      rcases hi with rfl | rfl
      · rw [exec, execKeepaliveExpiry, event_taken hheld, if_pos hup]
        rfl
      · rw [exec, execInterlockOpens, event_taken (by exact hheld), if_pos (by exact hup)]
        rfl
    obtain ⟨hrun, hlimits, hcursor, hmc, hprint, hdefects, hmem, hpins⟩ := abortStart_keeps s hi
    have hactive' : (s.abortStart i).run.active = true := by rwa [hrun]
    obtain ⟨⟨h1, h2, h3, h4, -, h6⟩, ⟨r1, r2, r3, -⟩, hpending, -, -, hm⟩ := hvAbort_spec hactive'
    obtain ⟨t1, t2, t3, hsent, hrecord⟩ := hvAbort_leaves hactive'
    refine ⟨_, hstart, h1, h2, h3, h4, t1, t2, by rw [← hlimits]; exact h6, r1, r2, r3, hpending, ?_, ?_, ?_, ?_⟩
    · exact (congrArg Pins.interlockClosed t3).trans hpins
    · obtain ⟨e, he, hcontent⟩ := List.mem_map.mp hsent
      rw [State.offPayload, hlimits, hmc] at hcontent
      exact ⟨e, he, congrArg Prod.fst hcontent, congrArg (fun c => c.2.2.2.2) hcontent⟩
    · intro hoff hlimit hroom
      rw [← hcursor]
      rw [← hprint] at hoff
      rw [← hrun, ← hlimits] at hlimit
      rw [← hdefects] at hroom
      exact hrecord hoff hlimit hroom
    · exact hm.trans hmem

end Sys2Proof.Machine
end

section
/-! PROOFS. The HV state leaves SAFE (R54, R60, R170), the start of a ramp (R127, R128), and RESUME of a pause at the
interlock (O38). -/

namespace Sys2Proof.Machine

variable {s t : State}

/-! ### The HV state leaves SAFE (R54, R60, R170) -/

/-- A frame that may stay while the HV state is not SAFE: it sets no relays and is no pass-through MSR. -/
def StaysOutOfSafe (owner : RingOwner) (cls : Byte) : Prop := cls ≠ clsSw ∧ ¬(owner = .passThrough ∧ cls = clsMsr)

theorem pollsAllowed_staysOutOfSafe : PollsAllowed StaysOutOfSafe := fun _ => ⟨by decide, fun h => by cases h.1⟩

theorem hvcAllowed_staysOutOfSafe : HvcAllowed StaysOutOfSafe := fun _ _ => ⟨by decide, fun h => by cases h.1⟩

theorem goesWithSafe_eq_false {e : RingEntry} (h : e.goesWithSafe = false) : StaysOutOfSafe e.owner e.frame.cls := by
  simpa [RingEntry.goesWithSafe, StaysOutOfSafe] using h

/-- A ring with no frame left that may not stay while the HV state is not SAFE. -/
def Ring.withoutRelays (r : Ring) : Ring :=
  { r with
    queue := r.queue.filter fun e => !e.goesWithSafe
    wait := r.wait.filter fun e => !e.goesWithSafe }

/-- The state whose waiting frames are placed when the HV state leaves SAFE. -/
def State.leaving (s : State) (f : Hv → Hv) : State := (s.abandonConfiguration.onRing Ring.withoutRelays).onHv f

theorem leaveSafe_eq (s : State) (f : Hv → Hv) : s.leaveSafe f = (s.leaving f).pump := rfl

/-- What a HV state that leaves SAFE may change: the HV Controller as given, the sequencer and its lookups, and the frames
and their owners' tags. -/
def State.leftSafe (s t : State) (h : Hv) : Prop :=
  t = { s with
    cache := t.cache
    ring := t.ring
    sup := { s.sup with pollList := t.sup.pollList }
    seq := t.seq
    mc := { s.mc with curTag := t.mc.curTag, prevTag := t.mc.prevTag }
    hv := h }

theorem leftSafe_leaveSafe (s : State) (f : Hv → Hv) : s.leftSafe (s.leaveSafe f) (f s.hv) := by
  have hserved := ringServed_pump (s.leaving f)
  have habandoned := abandoned_abandonConfiguration s
  rw [← leaveSafe_eq] at hserved
  unfold State.leaving at hserved
  generalize s.leaveSafe f = x at *
  generalize s.abandonConfiguration = y at *
  rw [State.abandoned] at habandoned
  rw [State.ringServed] at hserved
  rw [State.leftSafe, hserved, habandoned]
  rfl

/-- The sequencer is as the abandoned configuration leaves it, but for what its waiting frames bring. -/
theorem leaveSafe_seq (s : State) (f : Hv → Hv) :
    (s.leaveSafe f).seq =
      { s.abandonConfiguration.seq with
        transactions := (s.leaveSafe f).seq.transactions
        home := { s.abandonConfiguration.seq.home with tag := (s.leaveSafe f).seq.home.tag } } := by
  have hserved := ringServed_pump (s.leaving f)
  rw [← leaveSafe_eq] at hserved
  exact (congrArg State.seq hserved).trans rfl

theorem abandonConfiguration_of_idle (h : s.seq.state = .idle) : s.abandonConfiguration = s := by
  simp only [State.abandonConfiguration, h]

theorem leaveSafe_noRelays (s : State) (f : Hv → Hv) : (s.leaveSafe f).framesAll StaysOutOfSafe := by
  rw [leaveSafe_eq]
  refine framesAll_pump pollsAllowed_staysOutOfSafe fun e he => ?_
  simp only [State.leaving, State.onHv_ring, State.onRing_ring, Ring.withoutRelays, List.mem_append, List.mem_filter,
    Bool.not_eq_true'] at he
  rcases he with ⟨-, he⟩ | ⟨-, he⟩ <;> exact goesWithSafe_eq_false he

/-- An HVC frame still to be sent stays among the frames still to be sent. -/
theorem leaveSafe_hvcEntry {n : Nat} {closing : Bool} {payload : List Byte}
    (h : (hvcEntry n closing payload).content ∈ s.frames) (f : Hv → Hv) :
    (hvcEntry n closing payload).content ∈ (s.leaveSafe f).frames := by
  have hkept := keepsHvc_abandonConfiguration s _ h ⟨n, closing, rfl⟩
  obtain ⟨e, he, hcontent⟩ := List.mem_map.mp hkept
  have howner : e.owner = .hvc n closing := congrArg Prod.fst hcontent
  have hcls : e.frame.cls = clsHvc := congrArg (fun c => c.2.2.2.1) hcontent
  have hstays : e.goesWithSafe = false := by
    rw [RingEntry.goesWithSafe, howner, hcls]
    rfl
  rw [leaveSafe_eq, ← hcontent]
  refine pump_frames_mem (List.mem_map_of_mem ?_)
  simp only [State.leaving, State.onHv_ring, State.onRing_ring, Ring.withoutRelays, List.mem_append, List.mem_filter, hstays,
    Bool.not_false, and_true]
  exact List.mem_append.mp he

/-- The placing of frames makes no transactions. -/
theorem pump_noTransactions (h : s.seq.transactions = []) : s.pump.seq.transactions = [] := by
  refine pump_keeps (P := fun x => x.seq.transactions = []) ?_ ?_ h
  · intro x hx
    have hserved : x.offerPoll.seq = x.seq := by
      unfold State.offerPoll
      split
      · rfl
      · split <;> rfl
    rw [hserved, hx]
  · intro x e rest _ _ hx
    unfold State.placeOwn State.placedAct
    cases e.owner with
    | switch m =>
      change List.map _ x.seq.transactions = []
      rw [hx, List.map_nil]
    | hvc n closing =>
      dsimp only
      split <;> exact hx
    | home | poll a | msr | passThrough => exact hx

/-! ### The start of a ramp (R128) -/

/-- With the Measurement Controller not IDLE the stream of the ramp is refused, and no ramp begins (R82, log 43). -/
theorem rampStart_busy (h : s.mc.state ≠ .idle) :
    s.rampStart = s.onHv fun h =>
      { h with
        cls := s.limits.insulClass s.hv.classIndex, keepalive := s.limits.timing.keepalive, window := []
        arcPred := none } := by
  rw [State.rampStart, if_pos h]

/-- The HV Controller as a ramp begins (R128). -/
def Hv.ramping (h : Hv) (c : InsulClass) (keepalive : Nat) : Hv :=
  { h with
    state := .ramp, cls := c, keepalive, window := [], arcPred := none
    rampTimer := some (2 * (c.volt * 1000 / c.ramp) + 100) }

/-- What the start of a ramp may change: the HV Controller and the ramp flag as R128 gives, a stream opened, and the frames
and their owners' tags. -/
def State.ramps (s t : State) (c : InsulClass) : Prop :=
  t = { s with
    ring := t.ring
    sup := { s.sup with pollList := t.sup.pollList }
    seq := { s.seq with
      transactions := t.seq.transactions, home := { s.seq.home with tag := t.seq.home.tag } }
    mc := { s.mc with
      state := .stream, requester := .hv, lastSeq := none, lost := 0, curTag := t.mc.curTag
      prevTag := t.mc.prevTag, timer := none, stream := s.mc.stream + 1 }
    hv := s.hv.ramping c s.limits.timing.keepalive
    run := { s.run with rampFlag := true }
    cache := t.cache }

/-- The state that hands over HVC RAMP: the class is copied, the keepalive counter is loaded, and the stream is open
(R128). -/
def State.rampOpening (s : State) (c : InsulClass) : State :=
  (s.onHv fun h => { h with cls := c, keepalive := s.limits.timing.keepalive, window := [], arcPred := none }).onMc fun m =>
    { m with state := .stream, requester := .hv, lastSeq := none, lost := 0, curTag := none, prevTag := none, timer := none
             stream := m.stream + 1 }

theorem rampStart_opens (h : s.mc.state = .idle) :
    let c := s.limits.insulClass s.hv.classIndex
    s.rampStart =
      ((((s.rampOpening c).handOver (hvcEntry (s.mc.stream + 1) false (s.rampPayload c))).leaveSafe fun h =>
        { h with state := .ramp, rampTimer := some (rampTime c) }).onRun fun r => { r with rampFlag := true }).homeCut := by
  rw [State.rampStart, if_neg (by simp [h]), State.openStream, if_neg (by simp [h])]
  rfl

/-- A ramp that starts opens its stream with HVC RAMP, and no frame that sets relays is left (R54, R82, R128). -/
theorem rampStart_ramps (hidle : s.seq.state = .idle) (hmc : s.mc.state = .idle) :
    let t := s.rampStart
    let c := s.limits.insulClass s.hv.classIndex
    s.ramps t c ∧ t.hvcSent (s.rampPayload c) ∧ t.framesAll StaysOutOfSafe ∧
      (s.seq.transactions = [] → t.seq.transactions = []) := by
  intro t c
  have hserved := ringServed_handOver (s.rampOpening c) (hvcEntry (s.mc.stream + 1) false (s.rampPayload c))
  have hplaced := handOver_frames_mem (s.rampOpening c) (hvcEntry (s.mc.stream + 1) false (s.rampPayload c))
  have htrans : s.seq.transactions = [] → ((s.rampOpening c).handOver
      (hvcEntry (s.mc.stream + 1) false (s.rampPayload c))).seq.transactions = [] := fun h =>
    pump_noTransactions (s := State.onRing _ _) h
  have ht : t = _ := rampStart_opens hmc
  generalize State.handOver _ _ = y at *
  rw [State.ringServed] at hserved
  have hyidle : y.seq.state = .idle := by
    rw [hserved]
    exact hidle
  have hleft := leftSafe_leaveSafe y fun h => { h with state := .ramp, rampTimer := some (rampTime c) }
  have hseq := leaveSafe_seq y fun h => { h with state := .ramp, rampTimer := some (rampTime c) }
  have hnone := leaveSafe_noRelays y fun h => { h with state := .ramp, rampTimer := some (rampTime c) }
  have hframe := leaveSafe_hvcEntry hplaced fun h => { h with state := .ramp, rampTimer := some (rampTime c) }
  have hleaves : y.seq.transactions = [] →
      (y.leaveSafe fun h => { h with state := .ramp, rampTimer := some (rampTime c) }).seq.transactions = [] := fun h => by
    rw [leaveSafe_eq, State.leaving, abandonConfiguration_of_idle hyidle]
    exact pump_noTransactions (s := State.onHv _ _) h
  rw [abandonConfiguration_of_idle hyidle] at hseq
  generalize y.leaveSafe _ = z at *
  rw [State.leftSafe] at hleft
  have hzidle : z.seq.state = .idle := by
    rw [hseq]
    exact hyidle
  rw [State.homeCut, if_neg (by rw [State.onRun_seq, hzidle]; simp)] at ht
  refine ⟨?_, ?_, ?_, fun h => ?_⟩
  · rw [State.ramps, ht]
    have hzseq : z.seq = { s.seq with
        transactions := z.seq.transactions, home := { s.seq.home with tag := z.seq.home.tag } } := by
      rw [hseq, hserved]
      rfl
    generalize z.seq = q at *
    rw [hleft, hserved, hzseq]
    rfl
  · rw [hvcSent_iff, ht]
    change (hvcEntry z.mc.stream false (s.rampPayload c)).content ∈ z.frames
    have hstream : z.mc.stream = s.mc.stream + 1 := by rw [hleft, hserved]; rfl
    rw [hstream]
    exact hframe
  · rw [ht]
    exact hnone
  · rw [ht]
    exact hleaves (htrans h)

/-! ### RESUME at the interlock (O38) -/

/-- RESUME of a pause at the interlock with the interlock closed clears the hold and starts the ramp (R37, R127). -/
theorem exec_resume_interlock (hs : s.takesCommands) (hpaused : s.run.state = .paused)
    (hcause : s.run.pauseCause = .interlock) (hclosed : s.pins.interlockClosed = true) (tag : Byte) :
    exec (.resume tag []) s =
      .next ((((s.reply tag 0x10 .ok).onRun Run.resumed).onHv fun h => { h with hold := false }).rampStart).settled := by
  rw [exec, execResume, bareCommand_taken hs, if_neg (by simp [hpaused]), if_pos hcause, if_pos hclosed,
    State.interlockTest, if_pos (by exact hclosed)]

/-- Settles O38: RESUME of a pause at the interlock, by the interlock and the Measurement Controller. -/
theorem resumeStartsRamp : Obligations.ResumeStartsRamp := by
  intro s tag hs hpaused hcause
  refine ⟨fun hopen => ?_, fun hclosed hmc => ?_, fun hclosed hsafe hidle hmc c hc => ?_⟩
  · rw [exec, execResume, bareCommand_taken hs, if_neg (by simp [hpaused]), if_pos hcause, if_neg (by simp [hopen]),
      reply_settled]
  · rw [exec_resume_interlock hs hpaused hcause hclosed, rampStart_busy (by exact hmc)]
    exact congrArg Host.Outcome.next (reply_settled
      { s with
        run := { s.run with state := .running, pauseCause := .none }
        hv :=
          { s.hv with
            cls := s.limits.insulClass s.hv.classIndex, hold := false, keepalive := s.limits.timing.keepalive
            window := [], arcPred := none } } tag 0x10 .ok [])
  · obtain ⟨hramps, hsent, hnone, -⟩ := rampStart_ramps
      (s := ((s.reply tag 0x10 .ok).onRun Run.resumed).onHv fun h => { h with hold := false }) hidle hmc
    have hexec := exec_resume_interlock hs hpaused hcause hclosed tag
    generalize State.rampStart _ = t at *
    rw [State.ramps] at hramps
    subst hc
    obtain ⟨e, he, howner, hdst, -, hcls, hpayload⟩ := hsent
    refine ⟨_, hexec, ?_, ?_, ?_, ?_, ?_, ?_, ⟨e, he, howner, hdst, hcls, hpayload⟩, fun e he => (hnone e he).1, ?_, ?_, ?_, ?_⟩
    all_goals
      rw [hramps]
      rfl

end Sys2Proof.Machine
end

section
/-! PROOFS. High voltage reported in SAFE (R138): a STA (O52) and an SMP (O53) of the head. -/

namespace Sys2Proof.Machine

variable {s t : State}

/-! ### A discharge stream is opened where one is wanted (R138) -/

theorem openStream_hvcSent (h : s.mc.state = .idle) (payload : List Byte) : (s.openStream payload).hvcSent payload := by
  rw [State.openStream, if_neg (by simp [h])]
  exact placeHvc_hvcSent _ _

theorem retryStream_busy (h : s.mc.state ≠ .idle) : s.retryStream = s := by
  simp [State.retryStream, h]

/-- A wanted discharge stream that can be opened is open, with its OFF-DISCHARGE on its way and the discharge timer
running (R138). -/
theorem retryStream_opens (hwanted : s.hv.streamWanted = true) (hmc : s.mc.state = .idle) :
    let t := s.retryStream
    t.hv = { s.hv with streamWanted := false, dischargeTimer := some s.limits.timing.discharge } ∧
      t.mc.state = .stream ∧ t.hvcSent s.offPayload := by
  intro t
  have ht : t = State.openStream (s.onHv fun h =>
      { h with streamWanted := false, dischargeTimer := some s.limits.timing.discharge }) s.offPayload := by
    change s.retryStream = _
    rw [State.retryStream, if_pos (by simp [hwanted, hmc])]
  have hserved := mcServed_openStream (s.onHv fun h =>
      { h with streamWanted := false, dischargeTimer := some s.limits.timing.discharge }) s.offPayload
  have hstate := openStream_mcState (s.onHv fun h =>
      { h with streamWanted := false, dischargeTimer := some s.limits.timing.discharge }) s.offPayload
  have hsent := openStream_hvcSent (s := s.onHv fun h =>
      { h with streamWanted := false, dischargeTimer := some s.limits.timing.discharge }) hmc s.offPayload
  rw [← ht] at hserved hstate hsent
  rw [State.mcServed] at hserved
  exact ⟨by rw [hserved]; rfl, hstate.trans (if_pos hmc), hsent⟩

/-! ### A fault in an active run (R43) -/

/-- Reported in an active run that is in no fault response, a fault other than DISCHARGE-TIMEOUT makes it ABORTING. -/
theorem reportFault_aborts {r : FaultReport} (hactive : s.run.active = true) (hno : s.run.inFaultResponse = false)
    (hcode : r.code ≠ .dischargeTimeout) :
    s.reportFault r = ((s.faultRecorded r).abortedBy .fault).response := by
  have hrecorded : (s.faultRecorded r).run.active = true := by
    rw [State.faultRecorded, raise_eq]
    exact hactive
  rw [← beginAbort_active hrecorded]
  simp [State.reportFault, State.faultRecorded, hactive, hno, hcode]

/-! ### High voltage in SAFE (R138) -/

/-- The HV Controller as a report of high voltage in SAFE leaves it. -/
def Hv.unexpected (h : Hv) : Hv := { h with state := .discharge, cause := .unexpected, hold := false }

/-- The fault of high voltage in SAFE. -/
def State.unexpectedReport (s : State) : FaultReport :=
  { code := .hvUnexpected, hv := .safe, net := s.hv.net, point := none, table := none }

/-- The state with high voltage in SAFE reported. -/
def State.unexpectedReported (s : State) : State := (s.leaveSafe Hv.unexpected).reportFault s.unexpectedReport

/-- The state with the fault of high voltage in SAFE recorded. -/
def State.unexpectedRecorded (s : State) : State := (s.leaveSafe Hv.unexpected).faultRecorded s.unexpectedReport

/-- The HOME in progress, if there is one, is over. -/
def Sequencer.cut (q : Sequencer) : Sequencer := if q.state = .homing then q.homeOver else q

/-- A HOME that is cut short lets no run go on that waits for SAFE. -/
theorem homeCut_eq (h : s.seq.state ≠ .homing ∨ s.run.waiting = .safe) : s.homeCut = s.onSeq Sequencer.cut := by
  by_cases hhoming : s.seq.state = .homing
  · have hcut : Sequencer.cut s.seq = s.seq.homeOver := if_pos hhoming
    have hwaits : (s.onSeq Sequencer.homeOver).run.waiting = .safe := h.resolve_left (not_not_intro hhoming)
    rw [State.homeCut, if_pos hhoming, State.homeEnd, State.runHomeEnded, hwaits]
    exact congrArg (fun q => { s with seq := q }) hcut.symm
  · have hcut : Sequencer.cut s.seq = s.seq := if_neg hhoming
    rw [State.homeCut, if_neg hhoming]
    exact (congrArg (fun q => { s with seq := q }) hcut).symm

/-- What the record of the fault leaves of the state that has left SAFE. -/
theorem unexpectedRecorded_eq (h : s.fault.valid = false) :
    s.unexpectedRecorded =
      { s with
        cache := s.unexpectedRecorded.cache
        ring := (s.leaveSafe Hv.unexpected).ring
        sup := { s.sup with pollList := s.unexpectedRecorded.sup.pollList }
        seq := (s.leaveSafe Hv.unexpected).seq
        mc := { s.mc with curTag := s.unexpectedRecorded.mc.curTag, prevTag := s.unexpectedRecorded.mc.prevTag }
        hv := s.hv.unexpected
        fault := s.firstFault .hvUnexpected .safe s.hv.net none none
        events := { s.events with pending := s.events.pending ||| Event.fault.bit }
        trunk := s.unexpectedRecorded.trunk } := by
  have hleft := leftSafe_leaveSafe s Hv.unexpected
  unfold State.unexpectedRecorded
  generalize s.leaveSafe Hv.unexpected = x at *
  rw [State.leftSafe] at hleft
  have hrecorded := faultRecorded_eq (s := x) (r := s.unexpectedReport) (by rw [hleft]; exact h)
  have hfirst : x.firstFault .hvUnexpected .safe s.hv.net none none =
      s.firstFault .hvUnexpected .safe s.hv.net none none := by
    rw [hleft]
    rfl
  generalize x.faultRecorded _ = y at *
  rw [hrecorded]
  change { x with fault := x.firstFault .hvUnexpected .safe s.hv.net none none, events := _, trunk := _ } = _
  rw [hfirst, hleft]

/-- What a report of high voltage in SAFE is in an inactive run, and in an active one that is in no fault response. -/
theorem unexpectedReported_eq (hfault : s.run.inFaultResponse = false) :
    s.unexpectedReported =
      if s.run.active then (s.unexpectedRecorded.abortedBy .fault).response else s.unexpectedRecorded := by
  have hrun : (s.leaveSafe Hv.unexpected).run = s.run := by
    have hleft := leftSafe_leaveSafe s Hv.unexpected
    generalize s.leaveSafe Hv.unexpected = x at *
    rw [State.leftSafe] at hleft
    rw [hleft]
  by_cases hactive : s.run.active = true
  · rw [if_pos hactive]
    exact reportFault_aborts (by rwa [hrun]) (by rwa [hrun]) FaultCode.noConfusion
  · rw [if_neg hactive]
    exact reportFault_inactive (by rw [hrun]; simpa using hactive) _

/-- The state of a reported high voltage whose stream is asked for. -/
def State.unexpectedWanted (s : State) : State :=
  (s.unexpectedReported.onSeq Sequencer.cut).onHv fun h => { h with streamWanted := true }

/-- What a report of high voltage in SAFE may leave of the state whose stream is asked for. -/
theorem unexpectedWanted_eq (hsafe : s.hv.state = .safe) (hvalid : s.fault.valid = false)
    (hfault : s.run.inFaultResponse = false) (hhome : s.run.active = true ∨ s.seq.state ≠ .homing) :
    s.hvEvidence = s.unexpectedWanted.retryStream := by
  have hnot : s.seq.state ≠ .homing → (s.leaveSafe Hv.unexpected).seq.state ≠ .homing := fun h => by
    rw [leaveSafe_seq]
    change s.abandonConfiguration.seq.state ≠ .homing
    rw [abandonConfiguration_idle h]
    exact SeqState.noConfusion
  have hcut : s.unexpectedReported.seq.state ≠ .homing ∨ s.unexpectedReported.run.waiting = .safe := by
    rw [unexpectedReported_eq hfault]
    by_cases hactive : s.run.active = true
    · rw [if_pos hactive]
      have hresponded := responded_response (s.unexpectedRecorded.abortedBy .fault)
      have hrecorded := unexpectedRecorded_eq hvalid
      generalize State.response _ = x at *
      rw [State.responded] at hresponded
      refine .inr ?_
      rw [hresponded]
      exact if_neg (by rw [State.abortedBy, State.onRun_hv, hrecorded]; exact HvState.noConfusion)
    · rw [if_neg hactive, unexpectedRecorded_eq hvalid]
      exact .inl (hnot (hhome.resolve_left hactive))
  rw [State.hvEvidence, if_neg (not_not_intro hsafe)]
  change (s.unexpectedReported.homeCut.onHv _).retryStream = _
  rw [homeCut_eq hcut]
  rfl

/-- The fields of the state whose stream is asked for that no run changes. -/
theorem unexpectedWanted_reports (hvalid : s.fault.valid = false) (hfault : s.run.inFaultResponse = false) :
    let x := s.unexpectedWanted
    x.fault = s.firstFault .hvUnexpected .safe s.hv.net none none ∧
      x.events = { s.events with pending := s.events.pending ||| Event.fault.bit } ∧ x.defects = s.defects ∧
      x.mem = s.mem ∧ x.limits = s.limits ∧ x.hv.streamWanted = true ∧ x.sup.nodes = s.sup.nodes ∧
      x.framesAll StaysOutOfSafe := by
  have hrecorded := unexpectedRecorded_eq hvalid
  have hframes : s.unexpectedRecorded.framesAll StaysOutOfSafe := by
    rw [hrecorded]
    exact leaveSafe_noRelays s _
  unfold State.unexpectedWanted
  rw [unexpectedReported_eq hfault]
  generalize s.unexpectedRecorded = y at *
  split
  · have hresponded := responded_response (y.abortedBy .fault)
    have hstays : (y.abortedBy .fault).response.framesAll StaysOutOfSafe :=
      framesAll_response pollsAllowed_staysOutOfSafe hvcAllowed_staysOutOfSafe
        (by rw [State.abortedBy, State.onRun_hv, hrecorded]; exact HvState.noConfusion)
        (framesAll_dropMsr pollsAllowed_staysOutOfSafe hvcAllowed_staysOutOfSafe hframes)
    generalize State.response _ = x at *
    rw [State.responded] at hresponded
    refine ⟨?_, ?_, ?_, ?_, ?_, rfl, ?_, hstays⟩
    all_goals
      rw [hresponded, hrecorded]
      rfl
  · refine ⟨?_, ?_, ?_, ?_, ?_, rfl, ?_, hframes⟩
    all_goals
      rw [hrecorded]
      rfl

/-- High voltage in SAFE is the fault HV-UNEXPECTED, and no frame that sets relays is left (R54, R138, R177). -/
theorem hvEvidence_unexpected (hsafe : s.hv.state = .safe) (hvalid : s.fault.valid = false)
    (hfault : s.run.inFaultResponse = false) (hhome : s.run.active = true ∨ s.seq.state ≠ .homing) :
    s.hvUnexpected s.hvEvidence ∧ s.hvEvidence.sup.nodes = s.sup.nodes := by
  rw [unexpectedWanted_eq hsafe hvalid hfault hhome]
  obtain ⟨h1, h2, h3, h4, -, -, h7, h8⟩ := unexpectedWanted_reports hvalid hfault
  generalize s.unexpectedWanted = x at *
  have hdropped := msrDropped_retryStream x
  have hframes := framesAll_retryStream pollsAllowed_staysOutOfSafe hvcAllowed_staysOutOfSafe h8
  generalize x.retryStream = t at *
  rw [State.msrDropped] at hdropped
  refine ⟨⟨?_, ?_, hframes, ?_, ?_⟩, ?_⟩
  · rw [hdropped, ← h1]
  · have hevents : t.events = x.events := by rw [hdropped]
    rw [hevents, h2]
    exact isPending_or _ _ _
  · rw [hdropped, ← h3]
  · rw [hdropped, ← h4]
  · rw [hdropped, ← h7]

/-- With no run active a report of high voltage in SAFE opens the discharge stream, or asks for it (R138). -/
theorem hvEvidence_inactive (hsafe : s.hv.state = .safe) (hvalid : s.fault.valid = false)
    (hfault : s.run.inFaultResponse = false) (hhome : s.run.active = true ∨ s.seq.state ≠ .homing)
    (hrun : s.run.active = false) :
    let t := s.hvEvidence
    t.run = s.run ∧
      (s.mc.state = .idle →
        t.hv = { s.hv.unexpected with dischargeTimer := some s.limits.timing.discharge, streamWanted := false } ∧
          t.mc.state = .stream ∧ t.hvcSent s.offPayload) ∧
      (s.mc.state ≠ .idle → t.hv = { s.hv.unexpected with streamWanted := true } ∧ t.mc.state = s.mc.state) := by
  intro t
  have ht : t = s.unexpectedWanted.retryStream := unexpectedWanted_eq hsafe hvalid hfault hhome
  have hrecorded := unexpectedRecorded_eq hvalid
  have hwanted : s.unexpectedWanted =
      (s.unexpectedRecorded.onSeq Sequencer.cut).onHv fun h => { h with streamWanted := true } := by
    rw [State.unexpectedWanted, unexpectedReported_eq hfault, if_neg (by simp [hrun])]
  generalize s.unexpectedWanted = x at *
  have hdropped := msrDropped_retryStream x
  rw [← ht, State.msrDropped] at hdropped
  generalize s.unexpectedRecorded = y at *
  have hmc : x.mc.state = s.mc.state := by rw [hwanted, hrecorded]; rfl
  have hhv : x.hv = { s.hv.unexpected with streamWanted := true } := by rw [hwanted, hrecorded]; rfl
  have hlimits : x.limits = s.limits := by rw [hwanted, hrecorded]; rfl
  refine ⟨by rw [hdropped, hwanted, hrecorded]; rfl, fun hidle => ?_, fun hbusy => ?_⟩
  · obtain ⟨h1, h2, h3⟩ := retryStream_opens (s := x) (by rw [hhv]) (hmc.trans hidle)
    rw [← ht] at h1 h2 h3
    rw [hhv, hlimits] at h1
    rw [State.offPayload, hlimits] at h3
    exact ⟨h1, h2, h3⟩
  · rw [ht, retryStream_busy (by rwa [hmc])]
    exact ⟨hhv, hmc⟩

/-- In a run that is not ABORTING a report of high voltage in SAFE begins the response, its request dropped, and opens the
discharge stream (R43, R83, R135, R138). -/
theorem hvEvidence_running (hsafe : s.hv.state = .safe) (hvalid : s.fault.valid = false)
    (hfault : s.run.inFaultResponse = false) (hrun : s.run.active = true) (hmc : s.mc.state ≠ .stream)
    (hno : s.hv.streamWanted = false) :
    let t := s.hvEvidence
    t.run =
        { s.run with state := .aborting, abortCause := .fault, pauseCause := .none, slot := none, waiting := .safe } ∧
      t.hv =
        { s.hv.unexpected with
          ending := none, safeWait := true, net := none, work := .idle
          dischargeTimer := some s.limits.timing.discharge, streamWanted := false } ∧
      t.sweep = Sweep.reset ∧ t.mc.state = .stream ∧ t.hvcSent s.offPayload ∧
      (s.mc.state = .msrQueued → t.framesAll fun owner _ => owner ≠ .msr) := by
  intro t
  have ht : t = s.unexpectedWanted.retryStream := unexpectedWanted_eq hsafe hvalid hfault (.inl hrun)
  have hrecorded := unexpectedRecorded_eq hvalid
  have hwanted : s.unexpectedWanted =
      ((s.unexpectedRecorded.abortedBy .fault).response.onSeq Sequencer.cut).onHv fun h =>
        { h with streamWanted := true } := by
    rw [State.unexpectedWanted, unexpectedReported_eq hfault, if_pos hrun]
  generalize s.unexpectedWanted = x at *
  have hdropped := msrDropped_retryStream x
  rw [← ht, State.msrDropped] at hdropped
  generalize s.unexpectedRecorded = y at *
  have hymc : (y.abortedBy .fault).mc.state = s.mc.state := by
    change y.mc.state = _
    rw [hrecorded]
  have hyhv : (y.abortedBy .fault).hv = s.hv.unexpected := by
    change y.hv = _
    rw [hrecorded]
  have hylimits : (y.abortedBy .fault).limits = s.limits := by
    change y.limits = _
    rw [hrecorded]
  have hyrun : (y.abortedBy .fault).run =
      { s.run with state := .aborting, abortCause := .fault, pauseCause := .none } := by
    change ({ y.run with state := _, abortCause := _, pauseCause := _ } : Run) = _
    rw [hrecorded]
  obtain ⟨hkept, hidle⟩ := dropMsr_unwanted (s := y.abortedBy .fault) (by rw [hyhv]; exact hno)
  obtain ⟨hhv, hstate⟩ := response_hv_mc (y.abortedBy .fault)
  rw [hkept, hyhv, hylimits, Hv.abandoned_discharge rfl] at hhv
  have hyidle := hstate.trans (hidle (by rwa [hymc]))
  have hresponded := responded_response (y.abortedBy .fault)
  have hpolls : PollsAllowed fun owner _ => owner ≠ .msr := fun _ => RingOwner.noConfusion
  have hhvcs : HvcAllowed fun owner _ => owner ≠ .msr := fun _ _ => RingOwner.noConfusion
  have hmsr : s.mc.state = .msrQueued →
      (y.abortedBy .fault).response.framesAll fun owner _ => owner ≠ .msr := fun h =>
    framesAll_response hpolls hhvcs (by rw [hyhv]; exact HvState.noConfusion) (dropMsr_noMsr (hymc.trans h))
  generalize State.response _ = z at *
  rw [State.responded] at hresponded
  have hzlimits : x.limits = s.limits := by
    rw [hwanted, ← hylimits]
    change z.limits = _
    rw [hresponded]
  have hxhv : x.hv = { z.hv with streamWanted := true } := by
    rw [hwanted]
    rfl
  obtain ⟨h1, h2, h3⟩ := retryStream_opens (s := x) (by rw [hxhv]) (by rw [hwanted]; exact hyidle)
  rw [← ht] at h1 h2 h3
  refine ⟨?_, ?_, ?_, h2, ?_, fun h => ?_⟩
  · have hzrun : z.run = { (y.abortedBy .fault).run with slot := none, waiting := .safe } := by
      rw [hresponded, hyhv]
      rfl
    rw [hdropped, hwanted]
    change z.run = _
    rw [hzrun, hyrun]
  · rw [h1, hxhv, hhv, hzlimits]
  · rw [hdropped, hwanted]
    change z.sweep = _
    rw [hresponded]
  · rw [State.offPayload, hzlimits] at h3
    exact h3
  · rw [ht]
    refine framesAll_retryStream hpolls hhvcs ?_
    rw [hwanted]
    exact hmsr h

end Sys2Proof.Machine
end

section
/-! PROOFS. The supervision entries (R65), a STA (O52) and an SMP (O53). -/

namespace Sys2Proof.Machine

variable {s t x y : State} {a : Nat} {f g : Node → Node}

/-! ### The supervision entries (R65, R69, R70) -/

theorem mem_modules : a ∈ s.modules ↔ 1 ≤ a ∧ a ≤ 64 ∧ s.channels a ≠ 0 := by
  simp only [State.modules, List.mem_filter, List.mem_range'_1, decide_eq_true_eq]
  omega

theorem configured_iff : s.configured a = true ↔ a = 72 ∨ 1 ≤ a ∧ a ≤ 64 ∧ s.channels a ≠ 0 := by
  change _ ↔ a = headAddress ∨ _
  simp only [State.configured, Bool.or_eq_true, Bool.and_eq_true, decide_eq_true_eq, and_assoc, ne_eq]

theorem onNode_unconfigured (h : s.configured a = false) (f : Node → Node) : s.onNode a f = s := by
  rw [State.onNode, if_neg (by simp [h])]

theorem onNode_module (h1 : 1 ≤ a) (h64 : a ≤ 64) (h : s.channels a ≠ 0) (f : Node → Node) :
    s.onNode a f = { s with sup := { s.sup with nodes := s.sup.nodes.modify (a - 1) f } } := by
  rw [State.onNode, if_pos (configured_iff.mpr (.inr ⟨h1, h64, h⟩)), nodeIndex, if_pos (by simp [h1, h64])]
  rfl

theorem onNode_head (s : State) (f : Node → Node) :
    s.onNode 72 f = { s with sup := { s.sup with nodes := s.sup.nodes.modify 64 f } } := rfl

theorem onNode_eq (s : State) (a : Nat) (f : Node → Node) :
    s.onNode a f = { s with sup := { s.sup with nodes := (s.onNode a f).sup.nodes } } := by
  unfold State.onNode
  split
  · split <;> rfl
  · rfl

/-- A change of an entry that keeps its channel count keeps the channel counts. -/
theorem channels_modify (hf : ∀ n, (f n).channels = n.channels) (i b : Nat) :
    State.channels { s with sup := { s.sup with nodes := s.sup.nodes.modify i f } } b = s.channels b :=
  channels_of_map (map_modify_of_same hf i s.sup.nodes) b

/-- Two changes of the entry of a module are one. -/
theorem onNode_onNode_module (h1 : 1 ≤ a) (h64 : a ≤ 64) (h : s.channels a ≠ 0) (hf : ∀ n, (f n).channels = n.channels) :
    (s.onNode a f).onNode a g = { s with sup := { s.sup with nodes := s.sup.nodes.modify (a - 1) (g ∘ f) } } := by
  rw [onNode_module h1 h64 h f, onNode_module h1 h64 (by rwa [channels_modify hf])]
  simp only [List.modify_modify_eq]

/-! ### A copy goes up the trunk (R169) -/

/-- A frame with a pass-through tag goes up the trunk. -/
def State.copiedUp (s : State) (tag : Byte) (f : Frame) : State := if tag.toNat < 128 then s else s.copyUp f

theorem copiedUp_eq (s : State) (tag : Byte) (f : Frame) :
    s.copiedUp tag f =
      if tag.toNat < 128 ∨ 8 ≤ s.trunk.queue.length + s.repliesOwed then s
      else { s with trunk := { s.trunk with queue := s.trunk.queue ++ [{ frame := f, kind := .copy }] } } := by
  unfold State.copiedUp State.copyUp State.trunkFull
  by_cases htag : tag.toNat < 128
  · simp [htag]
  · by_cases hfull : 8 ≤ s.trunk.queue.length + s.repliesOwed <;> simp [htag, hfull, State.trunkPut, State.onTrunk]

/-- A copy that goes up changes the trunk transmit queue alone. -/
theorem copiedUp_trunk (s : State) (tag : Byte) (f : Frame) :
    s.copiedUp tag f = { s with trunk := (s.copiedUp tag f).trunk } := by
  rw [copiedUp_eq]
  split <;> rfl

/-! ### A STA (R68) -/

theorem toNat_eq_head {b : Byte} : b.toNat = 72 ↔ b = 72 := by
  refine ⟨fun h => BitVec.eq_of_toNat_eq (h.trans rfl), fun h => ?_⟩
  rw [h]
  rfl

/-- The closed counts of a module that differ from its believed state make it UNKNOWN (R68). -/
theorem checkBelief_module (h : a ∈ s.modules) (countA countB : Nat) :
    s.checkBelief a countA countB =
      { s with seq :=
          match s.believed a with
          | some m =>
            if maskCount m.a = countA ∧ maskCount m.b = countB then s.seq
            else { s.seq with believed := s.seq.believed.set (a - 1) none }
          | none => s.seq } := by
  rw [State.checkBelief, if_pos (by simpa using h)]
  cases s.believed a with
  | none => rfl
  | some m =>
    dsimp only
    by_cases hcounts : maskCount m.a = countA ∧ maskCount m.b = countB
    · rw [if_pos (by simpa using hcounts), if_pos hcounts]
    · rw [if_neg (by simpa using hcounts), if_neg hcounts, State.believe, if_pos (mem_modules.mp h).1]
      rfl

theorem checkBelief_other (h : a ∉ s.modules) (countA countB : Nat) : s.checkBelief a countA countB = s := by
  rw [State.checkBelief, if_neg (by simpa using h)]

/-- The report of high voltage in a STA (R68, R138). -/
def State.staEvidence (s : State) (src flags : Byte) : State :=
  if src.toNat = 72 && flags.getLsbD 0 then s.hvEvidence else s

theorem staEvidence_none (h : src = (72 : Byte) → flags.getLsbD 0 = false ∨ s.hv.state ≠ .safe) :
    s.staEvidence src flags = s := by
  unfold State.staEvidence
  split
  · rename_i hboth
    simp only [Bool.and_eq_true, decide_eq_true_eq] at hboth
    have hnotSafe := (h (toNat_eq_head.mp hboth.1)).resolve_left (by simp [hboth.2])
    rw [State.hvEvidence, if_pos hnotSafe]
  · rfl

/-- The entry of a node that reports by a STA (R68). -/
def Node.reporting (kind channels : Byte) (n : Node) : Node :=
  { n with heard := true, kind := reportedKind kind, reported := channels.toNat }

/-- A STA recorded in the entry of its node and tested against the believed state of its module (R65, R68). -/
def State.staRecorded (s : State) (src kind channels countA countB : Byte) : State :=
  ((s.heardFrom src.toNat).onNode src.toNat fun n =>
    { n with kind := reportedKind kind, reported := channels.toNat }).checkBelief src.toNat countA.toNat countB.toNat

theorem staRecorded_unconfigured {src : Byte} (h : s.configured src.toNat = false) (kind channels countA countB : Byte) :
    s.staRecorded src kind channels countA countB = s := by
  have hout : src.toNat ∉ s.modules := fun hin =>
    Bool.noConfusion ((configured_iff.mpr (.inr (mem_modules.mp hin))).symm.trans h)
  rw [State.staRecorded, State.heardFrom, onNode_unconfigured h, onNode_unconfigured h, checkBelief_other hout]

theorem staRecorded_module {src : Byte} (h1 : 1 ≤ src.toNat) (h64 : src.toNat ≤ 64) (h : s.channels src.toNat ≠ 0)
    (kind channels countA countB : Byte) :
    s.staRecorded src kind channels countA countB =
      { s with
        sup := { s.sup with nodes := s.sup.nodes.modify (src.toNat - 1) (Node.reporting kind channels) }
        seq :=
          match s.believed src.toNat with
          | some m =>
            if maskCount m.a = countA.toNat ∧ maskCount m.b = countB.toNat then s.seq
            else { s.seq with believed := s.seq.believed.set (src.toNat - 1) none }
          | none => s.seq } := by
  have hmem : src.toNat ∈ State.modules { s with
      sup := { s.sup with nodes := s.sup.nodes.modify (src.toNat - 1) (Node.reporting kind channels) } } := by
    rw [modules_congr fun b => channels_modify (by intro n; rfl) _ b]
    exact mem_modules.mpr ⟨h1, h64, h⟩
  rw [State.staRecorded, State.heardFrom, onNode_onNode_module h1 h64 h (by intro n; rfl)]
  exact checkBelief_module hmem _ _

theorem staRecorded_head (s : State) (kind channels countA countB : Byte) :
    s.staRecorded 72 kind channels countA countB =
      { s with sup := { s.sup with nodes := s.sup.nodes.modify 64 (Node.reporting kind channels) } } := by
  change State.checkBelief (State.onNode (State.onNode s 72 _) 72 _) 72 _ _ = _
  rw [checkBelief_other (by simp [mem_modules]), onNode_head, onNode_head]
  simp only [List.modify_modify_eq]
  rfl

/-- The STA as a frame. -/
def staFrame (src tag kind channels countA countB flags : Byte) : Frame :=
  { dst := 0, src, cls := clsSta, tag, payload := [kind, channels, countA, countB, flags] }

theorem exec_sta (hheld : s.rst.held = false) {src : Byte} (hwf : isNodeAddress src = true)
    (tag kind channels countA countB flags : Byte) :
    exec (.staReceived src tag kind channels countA countB flags) s =
      .next (((s.staRecorded src kind channels countA countB).staEvidence src flags).copiedUp tag
        (staFrame src tag kind channels countA countB flags)).settled := by
  rw [exec, execStaReceived, event_taken hheld, if_pos hwf]
  rfl

/-- What a report of high voltage leaves stays with the end of an event that changes the trunk transmit queue alone. -/
theorem hvUnexpected_trunk (h : s.hvUnexpected x) (ht : t = { x with trunk := t.trunk }) : s.hvUnexpected t := by
  rw [ht]
  exact h

/-- Settles O52: a STA of a node that is not configured, of a module, and of the head without and with high voltage in
SAFE. -/
theorem statusRecorded : Obligations.StatusRecorded := by
  intro s src tag kind channels countA countB flags hheld hwf up reported
  have hexec := exec_sta hheld hwf tag kind channels countA countB flags
  have hup : ∀ x : State, x.copiedUp tag (staFrame src tag kind channels countA countB flags) = up x := fun x =>
    copiedUp_eq x tag _
  refine ⟨fun hno => ?_, fun h1 h64 hch => ?_, fun hsrc hquiet => ?_, fun hsrc hflag hsafe hvalid hfault hhome => ?_⟩
  · have hhead : src ≠ 72 := fun h => by
      rw [h] at hno
      exact Bool.noConfusion (hno.symm.trans (configured_iff.mpr (.inl rfl)))
    rw [hexec, staRecorded_unconfigured hno, staEvidence_none fun h => absurd h hhead, hup]
  · have hhead : src ≠ 72 := fun h => absurd (h ▸ h64) (by decide)
    rw [hexec, staRecorded_module h1 h64 hch, staEvidence_none fun h => absurd h hhead, hup]
    rfl
  · subst hsrc
    rw [hexec, staRecorded_head, staEvidence_none fun _ => by exact hquiet, hup]
    rfl
  · subst hsrc
    have hevidence : ∀ x : State, x.staEvidence 72 flags = x.hvEvidence := fun x => by
      rw [State.staEvidence, hflag]
      rfl
    rw [staRecorded_head, hevidence] at hexec
    obtain ⟨hreports, hnodes⟩ := hvEvidence_unexpected (s := { s with
      sup := { s.sup with nodes := s.sup.nodes.modify 64 (Node.reporting kind channels) } }) hsafe hvalid hfault hhome
    have hinactive := hvEvidence_inactive (s := { s with
      sup := { s.sup with nodes := s.sup.nodes.modify 64 (Node.reporting kind channels) } }) hsafe hvalid hfault hhome
    have hrunning := hvEvidence_running (s := { s with
      sup := { s.sup with nodes := s.sup.nodes.modify 64 (Node.reporting kind channels) } }) hsafe hvalid hfault
    generalize State.hvEvidence _ = z at *
    have htrunk := copiedUp_trunk z tag (staFrame 72 tag kind channels countA countB flags)
    generalize z.copiedUp _ _ = t at *
    refine ⟨_, hexec, hvUnexpected_trunk hreports (congrArg State.settled htrunk), ?_, fun hrun => ?_,
      fun hstate hmc hwanted => ?_⟩
    · rw [htrunk]
      exact hnodes
    · rw [htrunk]
      exact hinactive hrun
    · have hactive : s.run.active = true := by
        rcases hstate with h | h | h <;> simp [Run.active, h]
      obtain ⟨r1, r2, r3, r4, r5, r6⟩ := hrunning hactive hmc hwanted
      rw [htrunk]
      exact ⟨r1, r2, r3, r4, r5, r6⟩

end Sys2Proof.Machine
end

section
/-! PROOFS. An SMP of the head (R79): O53. -/

namespace Sys2Proof.Machine

variable {s t x y : State}

/-! ### An own-tag sample (R79) -/

theorem matchesTag_iff (m : Measure) (tag : Nat) :
    m.matchesTag tag = true ↔
      (m.state = .msrWait ∧ m.curTag = some tag) ∨
        (m.state = .stream ∧ (m.curTag = some tag ∨ m.prevTag = some tag)) := by
  unfold Measure.matchesTag
  cases m.state <;> simp

/-- A matched sample that finds room is admitted (R79). -/
theorem ownSample_admitted {tag : Nat} (hmatch : s.mc.matchesTag tag = true) (hroom : s.mc.queue.length < 8)
    (v : Sample) : s.ownSample tag v = s.admitSample v := by
  rw [State.ownSample, if_neg (by simp [hmatch, hroom])]

/-- Any other own-tag sample is counted as discarded (R76, R79). -/
theorem ownSample_discarded {tag : Nat} (h : s.mc.matchesTag tag = false ∨ 8 ≤ s.mc.queue.length) (v : Sample) :
    s.ownSample tag v = s.onMc Measure.discard := by
  rw [State.ownSample, if_pos (by simpa using h)]

/-- What an arriving sample may change: the trunk transmit queue, the sample queue and its counters, and the operations
asked for. An open stream stays open. -/
def State.sampleTakenIn (s t : State) : Prop :=
  t = { s with
    trunk := t.trunk
    arith := t.arith
    mc := { s.mc with
      state := t.mc.state, queue := t.mc.queue, timer := t.mc.timer, discards := t.mc.discards } } ∧
    (s.mc.state = .stream → t.mc.state = .stream)

theorem sampleTakenIn_ownSample (s : State) (tag : Nat) (v : Sample) : s.sampleTakenIn (s.ownSample tag v) := by
  unfold State.ownSample
  split
  · exact ⟨rfl, id⟩
  · refine ⟨rfl, fun h => ?_⟩
    change (if s.mc.state = .msrWait then McState.msrAnswered else s.mc.state) = .stream
    rw [h]
    rfl

theorem sampleTakenIn_copiedUp (s : State) (tag : Byte) (f : Frame) : s.sampleTakenIn (s.copiedUp tag f) := by
  have h := copiedUp_trunk s tag f
  generalize s.copiedUp tag f = x at *
  refine ⟨h.trans (by rw [h]), fun hs => ?_⟩
  rw [h]
  exact hs

/-! ### An SMP (R69, R79, R138) -/

/-- The sample an SMP carries (R78). -/
def smpSample (seq : Byte) (vcode icode : BitVec 16) (range flags : Byte) : Sample :=
  { seq := seq.toNat, vcode, icode, range := range.toNat, ovl := flags.getLsbD 0, cmp := flags.getLsbD 1
    hv := flags.getLsbD 2 }

/-- The SMP of the head as a frame. -/
def smpFrame (tag seq : Byte) (vcode icode : BitVec 16) (range flags : Byte) : Frame :=
  { dst := 0, src := 72, cls := clsSmp, tag
    payload := [seq] ++ be16 vcode.toNat ++ be16 icode.toNat ++ [range, flags] }

/-- The state in which an SMP of the head is taken in. -/
def State.smpHeard (s : State) (flags : Byte) : State :=
  if flags.getLsbD 2 then (s.heardFrom 72).hvEvidence else s.heardFrom 72

theorem smpHeard_quiet {flags : Byte} (h : flags.getLsbD 2 = false ∨ s.hv.state ≠ .safe) :
    s.smpHeard flags = s.heardFrom 72 := by
  unfold State.smpHeard
  split
  · rename_i hflag
    have hnotSafe := h.resolve_left (by simp [hflag])
    rw [State.hvEvidence, if_pos (by exact hnotSafe)]
  · rfl

theorem exec_smp (hheld : s.rst.held = false) (tag seq : Byte) (vcode icode : BitVec 16) (range flags : Byte) :
    exec (.smpReceived 72 tag seq vcode icode range flags) s =
      .next (State.settled
        (if tag.toNat < 128 then (s.smpHeard flags).ownSample tag.toNat (smpSample seq vcode icode range flags)
         else (s.smpHeard flags).copyUp (smpFrame tag seq vcode icode range flags))) := by
  rw [exec, execSmpReceived, event_taken hheld]
  rfl

/-- An SMP of the head with an own tag. -/
theorem exec_smp_own (hheld : s.rst.held = false) {tag : Byte} (htag : tag.toNat < 128) (seq : Byte)
    (vcode icode : BitVec 16) (range flags : Byte) :
    exec (.smpReceived 72 tag seq vcode icode range flags) s =
      .next ((s.smpHeard flags).ownSample tag.toNat (smpSample seq vcode icode range flags)).settled := by
  rw [exec_smp hheld, if_pos htag]

/-- Settles O53: an SMP that is not of the head, a pass-through one, an own-tag one, and one with high voltage in SAFE. -/
theorem samplesAdmitted : Obligations.SamplesAdmitted := by
  intro s src tag seq vcode icode range flags hheld _ answer heard matched
  have hmatched : matched ↔ s.mc.matchesTag tag.toNat = true := (matchesTag_iff s.mc tag.toNat).symm
  refine ⟨fun hsrc => ?_, fun hsrc htag hquiet => ?_, fun hsrc htag hquiet => ⟨fun hmatch hroom => ?_, fun hno => ?_⟩,
    fun hsrc hflag hsafe hvalid hfault hhome => ?_⟩
  · have hne : ¬src.toNat = headAddress := mt toNat_eq_head.mp hsrc
    exact (event_taken hheld _).trans (congrArg (fun x => Host.Outcome.next (State.settled x)) (if_neg hne))
  · subst hsrc
    refine (exec_smp hheld tag seq vcode icode range flags).trans ?_
    have hup := copiedUp_eq heard tag (smpFrame tag seq vcode icode range flags)
    have hown : ¬tag.toNat < 128 := Nat.not_lt.mpr htag
    rw [State.copiedUp, if_neg hown] at hup
    rw [if_neg hown, smpHeard_quiet hquiet, hup]
    simp only [hown, false_or]
    rfl
  · subst hsrc
    refine (exec_smp_own hheld htag seq vcode icode range flags).trans ?_
    rw [smpHeard_quiet hquiet, ownSample_admitted (by exact hmatched.mp hmatch) (by exact hroom)]
    rfl
  · subst hsrc
    have hno' : s.mc.matchesTag tag.toNat = false ∨ 8 ≤ s.mc.queue.length := by
      rcases hno with h | h
      · exact .inl (by simpa using mt hmatched.mpr h)
      · exact .inr h
    refine (exec_smp_own hheld htag seq vcode icode range flags).trans ?_
    rw [smpHeard_quiet hquiet, ownSample_discarded (by exact hno')]
    rfl
  · subst hsrc
    have hexec := exec_smp hheld tag seq vcode icode range flags
    have hheard : s.smpHeard flags = heard.hvEvidence := by
      rw [State.smpHeard, hflag]
      rfl
    rw [hheard] at hexec
    obtain ⟨hreports, hnodes⟩ := hvEvidence_unexpected (s := heard) hsafe hvalid hfault hhome
    have hinactive := hvEvidence_inactive (s := heard) hsafe hvalid hfault hhome
    have hrunning := hvEvidence_running (s := heard) hsafe hvalid hfault
    generalize heard.hvEvidence = z at *
    have htaken : z.sampleTakenIn
        (if tag.toNat < 128 then z.ownSample tag.toNat (smpSample seq vcode icode range flags)
          else z.copyUp (smpFrame tag seq vcode icode range flags)) := by
      have hcopied := sampleTakenIn_copiedUp z tag (smpFrame tag seq vcode icode range flags)
      unfold State.copiedUp at hcopied
      split
      · exact sampleTakenIn_ownSample _ _ _
      · rwa [if_neg ‹_›] at hcopied
    generalize (if tag.toNat < 128 then _ else _) = t at *
    obtain ⟨ht, hstream⟩ := htaken
    refine ⟨_, hexec, ?_, ?_, fun hrun hmc => ?_, fun hstate hmc hwanted => ?_⟩
    · rw [ht]
      exact hreports
    · rw [ht]
      exact hnodes
    · obtain ⟨r1, r2, -⟩ := hinactive hrun
      obtain ⟨h1, h2, h3⟩ := r2 hmc
      refine ⟨?_, ?_, hstream h2, ?_⟩ <;> rw [ht]
      · exact r1
      · exact h1
      · exact h3
    · have hactive : s.run.active = true := by
        rcases hstate with h | h | h <;> simp [Run.active, h]
      obtain ⟨r1, r2, -, r4, r5, -⟩ := hrunning hactive hmc hwanted
      refine ⟨?_, ?_, hstream r4, ?_⟩ <;> rw [ht]
      · exact r1
      · exact r2
      · exact r5

end Sys2Proof.Machine
end

section
/-! PROOFS. What a measurement boundary and the walk that follows it keep (R31, R95, R111, R124): for the configurations
that fail (O50, O54), the ends of a run (O55, O57) and a removal (O41). -/

namespace Sys2Proof.Machine

variable {s t u : State}

/-! ### What a walk keeps -/

/-- What a measurement boundary, and the reads, records and pauses that follow it, keep: every block but those that walk;
the HV state; the count of measurements; the events pending; and with printing OFF every final record that is no
UNTESTED. -/
structure State.Walks (s t : State) : Prop where
  keeps : t = { s with
    port := t.port, cache := t.cache, trunk := t.trunk, arith := t.arith, sweep := t.sweep, hv := t.hv, run := t.run
    defects := t.defects, print := t.print, events := t.events }
  hvState : t.hv.state = s.hv.state
  measurements : t.run.summary.measurements = s.run.summary.measurements
  pending : ∀ e : Event, s.events.isPending e = true → t.events.isPending e = true
  off : s.print.state = .off → t.print.state = .off
  listed : s.print.state = .off → ∀ d ∈ s.defects, d.provisional = false → d.key.kind ≠ .untested → d ∈ t.defects

theorem State.Walks.refl (s : State) : s.Walks s := ⟨rfl, rfl, rfl, fun _ => id, id, fun _ _ h _ _ => h⟩

theorem State.Walks.trans (h : s.Walks t) (j : t.Walks u) : s.Walks u where
  keeps := by
    have hkeeps := h.keeps
    refine j.keeps.trans ?_
    rw [hkeeps]
  hvState := j.hvState.trans h.hvState
  measurements := j.measurements.trans h.measurements
  pending e he := j.pending e (h.pending e he)
  off ho := j.off (h.off ho)
  listed ho d hd hp hk := j.listed (h.off ho) d (h.listed ho d hd hp hk) hp hk

/-- A change of the port, the lookups, the operations, the sweep, the HV Controller in its state, and the run. -/
theorem State.Walks.of_eq
    (h : t = { s with port := t.port, cache := t.cache, arith := t.arith, sweep := t.sweep, hv := t.hv, run := t.run })
    (hv : t.hv.state = s.hv.state) (hm : t.run.summary.measurements = s.run.summary.measurements) : s.Walks t where
  keeps := h.trans (by rw [h])
  hvState := hv
  measurements := hm
  pending e he := by
    rw [h]
    exact he
  off ho := by
    rw [h]
    exact ho
  listed _ d hd _ _ := by
    rw [h]
    exact hd

theorem isPending_mono {pending mask : BitVec 12} {e : Event} (h : ({ pending, mask } : Events).isPending e = true)
    (f : Event) : ({ pending := pending ||| f.bit, mask } : Events).isPending e = true := by
  have hor : ({ pending := (pending ||| f.bit) ||| e.bit, mask } : Events).isPending e = true := isPending_or _ _ _
  rwa [BitVec.or_assoc, BitVec.or_comm f.bit, ← BitVec.or_assoc, or_bit_of_pending h] at hor

theorem walks_raise (s : State) (e : Event) : s.Walks (s.raise e) := by
  have h := raise_eq s e
  generalize s.raise e = x at *
  refine ⟨h.trans (by rw [h]), by rw [h], by rw [h], fun f hf => ?_, fun ho => ?_, fun _ d hd _ _ => ?_⟩
  · rw [h]
    exact isPending_mono hf e
  · rw [h]
    exact ho
  · rw [h]
    exact hd

theorem walks_printLook (s : State) : s.Walks s.printLook := by
  have h : s.printServed s.printLook := (look_spec _ s).1
  have hoff := printLook_off (s := s)
  generalize s.printLook = x at *
  rw [State.printServed] at h
  refine ⟨h.trans (by rw [h]), by rw [h], by rw [h], fun e he => ?_, fun ho => ?_, fun ho d hd _ _ => ?_⟩
  · rw [h]
    exact he
  · rw [hoff ho]
    exact ho
  · rw [hoff ho]
    exact hd

/-! ### The ends of a step and of a run (R31, R32, R36, R45) -/

theorem walks_stepEnd (s : State) (term : Option Termination) : s.Walks (s.stepEnd term) := by
  unfold State.stepEnd
  split
  · exact .refl s
  · refine State.Walks.trans ?_ (walks_raise _ _)
    exact .of_eq rfl rfl rfl

theorem finalise_listed {ds : List Defect} {d : Defect} (h : d ∈ ds) (hp : d.provisional = false) : d ∈ finalise ds := by
  refine List.mem_map.mpr ⟨d, h, ?_⟩
  cases d
  simp only at hp
  rw [hp]

theorem walks_finalise (s : State) : s.Walks (s.onDefects finalise) :=
  ⟨rfl, rfl, rfl, fun _ => id, id, fun _ _ hd hp _ => finalise_listed hd hp⟩

theorem walks_printRunEnds (s : State) (term : Termination) : s.Walks (s.printRunEnds term) := by
  unfold State.printRunEnds
  dsimp only
  split
  · refine State.Walks.trans ?_ (walks_printLook _)
    exact ⟨rfl, rfl, rfl, fun _ => id, id, fun _ _ h _ _ => h⟩
  · exact walks_printLook s

theorem walks_enterDone (s : State) (term : Termination) : s.Walks (s.enterDone term) := by
  have hstep : s.Walks (if s.run.inProgress then s.stepEnd (some term) else s) := by
    split
    · exact walks_stepEnd s _
    · exact .refl s
  unfold State.enterDone
  refine ((hstep.trans (walks_finalise _)).trans ?_).trans
    ((walks_raise _ _).trans (walks_printRunEnds _ _))
  exact State.Walks.of_eq rfl rfl rfl

theorem walks_enterPaused (s : State) (cause : PauseCause) (wait : RunWait) : s.Walks (s.enterPaused cause wait) := by
  unfold State.enterPaused
  split
  · exact (State.Walks.of_eq (t := s.onRun _) rfl rfl rfl).trans (walks_raise _ _)
  · exact .refl s

theorem walks_stepBoundary (s : State) : s.Walks s.stepBoundary := by
  unfold State.stepBoundary
  split
  · exact .refl s
  · split
    · exact walks_enterDone s _
    · split
      · exact walks_enterPaused s _ _
      · exact State.Walks.of_eq rfl rfl rfl

theorem walks_stepFinished (s : State) : s.Walks s.stepFinished := by
  refine State.Walks.trans (State.Walks.trans ?_ (walks_stepEnd _ none)) (walks_stepBoundary _)
  exact .of_eq rfl rfl rfl

theorem walks_runBoundary (s : State) (last : Bool) {goOn : State → State} (h : s.Walks (goOn s)) :
    s.Walks (s.runBoundary last goOn) := by
  unfold State.runBoundary
  split
  · exact walks_enterDone s _
  · split
    · exact walks_enterDone s _
    · split
      · exact walks_stepFinished s
      · split
        · exact walks_enterPaused s _ _
        · exact h

/-! ### The insert of an UNTESTED (R99, R125, R145) -/

theorem walks_enterStalled (s : State) : s.Walks s.enterStalled := by
  unfold State.enterStalled
  split
  · exact (State.Walks.of_eq (t := s.onRun _) rfl rfl rfl).trans (walks_raise _ _)
  · exact .refl s

theorem walks_appendedBy (s : State) (r : Insert) : s.Walks (s.appendedBy r) := by
  have h := appendedBy_eq s r
  generalize s.appendedBy r = x at *
  refine ⟨h.trans (by rw [h]), by rw [h], by rw [h]; rfl, fun e he => ?_, fun ho => ?_, fun _ d hd _ _ => ?_⟩
  · rw [h]
    exact isPending_mono he _
  · rw [h]
    exact ho
  · rw [h]
    exact List.mem_append_left _ hd

theorem walks_insert (s : State) {r : Insert} (hr : r.key.kind = .untested) : s.Walks (s.insert r).1 := by
  by_cases hkey : ∃ d ∈ s.defects, d.key = r.key
  · rw [insert_merged hkey]
    refine ⟨rfl, rfl, rfl, fun _ => id, id, fun _ d hd _ hk => List.mem_map.mpr ⟨d, hd, if_neg fun he => hk ?_⟩⟩
    rw [he, hr]
  have hno : ∀ d ∈ s.defects, d.key ≠ r.key := fun d hd he => hkey ⟨d, hd, he⟩
  rcases Nat.lt_or_ge s.run.summary.defects s.limits.timing.defectLimit with hlimit | hlimit
  swap
  · rw [insert_discarded hno hlimit]
    exact .refl s
  rcases Nat.lt_or_ge s.defects.length 512 with hroom | hfull
  swap
  · rw [insert_held hno hlimit hfull]
    have hslot : s.Walks (s.onRun fun x => { x with slot := some r }) := .of_eq rfl rfl rfl
    dsimp only
    split
    · exact hslot.trans (walks_enterStalled _)
    · exact hslot
  rw [insert_appended ⟨hno, hlimit, hroom⟩]
  dsimp only
  split
  · exact walks_appendedBy s r
  · exact (walks_appendedBy s r).trans (walks_printLook _)

/-! ### The walk of the Sweep Engine (R95, R98, R111) -/

theorem walks_onSweep (s : State) (f : Sweep → Sweep) : s.Walks (s.onSweep f) := .of_eq rfl rfl rfl

theorem walks_sweepInsert (s : State) {r : Insert} (hr : r.key.kind = .untested) (after : SweepAfter) :
    s.Walks (s.sweepInsert r after).1 := by
  have h := (walks_onSweep s fun w => { w with state := .inserting, results := [r], after }).trans (walks_insert _ hr)
  unfold State.sweepInsert
  dsimp only
  split
  · exact h
  · exact h.trans (walks_onSweep _ _)

theorem walks_sweepNet (s : State) : s.Walks s.sweepNet := by
  unfold State.sweepNet
  split <;> exact State.Walks.of_eq rfl rfl rfl

theorem walks_sweepNextNet (s : State) : s.Walks s.sweepNextNet := by
  unfold State.sweepNextNet
  split
  · exact walks_stepFinished s
  · exact (walks_onSweep s _).trans (walks_sweepNet _)

theorem walks_popGroup (s : State) : s.Walks s.popGroup := by
  unfold State.popGroup
  split
  · exact walks_sweepNextNet s
  · exact State.Walks.of_eq rfl rfl rfl

theorem walks_netEndBoundary (s : State) : s.Walks s.netEndBoundary :=
  (walks_onSweep s _).trans (walks_runBoundary _ _ (walks_sweepNextNet _))

theorem walks_netEndRecord (s : State) {r : Insert} (hr : r.key.kind = .untested) : s.Walks (s.netEndRecord r) := by
  have h := walks_sweepInsert s hr .netEnd
  unfold State.netEndRecord
  dsimp only
  split
  · exact h
  · exact h.trans (walks_netEndBoundary _)

theorem walks_sweepVisit (s : State) (pos : Nat) : s.Walks (s.sweepVisit pos) := by
  unfold State.sweepVisit
  dsimp only
  split
  · exact State.Walks.of_eq rfl rfl rfl
  · exact (walks_onSweep s _).trans (walks_netEndRecord _ rfl)

theorem walks_sweepGoOn (s : State) : s.Walks s.sweepGoOn := by
  unfold State.sweepGoOn
  split
  · exact walks_sweepNextNet s
  · split
    · exact walks_popGroup s
    · unfold State.sweepNextMember
      split
      · exact walks_sweepVisit s _
      · exact walks_sweepNextNet s

theorem walks_atBoundary (s : State) : s.Walks s.atBoundary :=
  (walks_onSweep s _).trans (walks_runBoundary _ _ (walks_sweepGoOn _))

/-! ### The walk of the HV Controller (R124, R133) -/

theorem walks_hvNextNet (s : State) : s.Walks s.hvNextNet := by
  unfold State.hvNextNet
  split
  · exact walks_stepFinished s
  · exact State.Walks.of_eq rfl rfl rfl

theorem walks_hvBoundary (s : State) : s.Walks s.hvBoundary :=
  (State.Walks.of_eq (t := s.onHv _) rfl rfl rfl).trans (walks_runBoundary _ _ (walks_hvNextNet _))

end Sys2Proof.Machine
end

section
/-! PROOFS. A transaction's attempt and the MSR's attempt fail (R56, R81): the timeouts (O54). -/

namespace Sys2Proof.Machine

variable {s t : State} {m : Nat} {x : Transaction}

/-! ### A transaction's attempt fails (R56) -/

/-- A fault recorded again against a node changes nothing. -/
theorem faultAgainst_again (s : State) (a : Nat) : (s.faultAgainst a).faultAgainst a = s.faultAgainst a := by
  by_cases h : s.configured a = true
  · rcases configured_iff.mp h with rfl | ⟨h1, h64, hch⟩
    · rw [State.faultAgainst, State.faultAgainst, onNode_head, onNode_head]
      simp only [List.modify_modify_eq]
      rfl
    · rw [State.faultAgainst, State.faultAgainst, onNode_onNode_module h1 h64 hch (by intro n; rfl),
        onNode_module h1 h64 hch]
      rfl
  · have hno : s.faultAgainst a = s := onNode_unconfigured (by simpa using h) _
    rw [hno, hno]

/-- A transaction whose attempt failed, with its next attempt placed (R53, R56). -/
def Transaction.resent (x : Transaction) (tag : Nat) : Transaction :=
  { x with attempt := x.attempt + 1, tag := some tag, timer := none, phase := .queued }

/-- With an attempt left the SW frame is placed again, and the other transactions go on as they were (R56). -/
theorem attemptFails_resends (hfind : s.seq.transactions.find? (fun t => t.module = m) = some x) (h : x.attempt < 4)
    (hfree : s.ringFree) :
    s.attemptFails m =
      { s with
        seq := { s.seq with transactions := s.seq.transactions.map fun u =>
          if u.module = m then u.resent s.ring.ownTag else u }
        ring := s.ring.placed m clsSw (maskBytes x.masks.a ++ maskBytes x.masks.b) (.switch m) } := by
  rw [State.attemptFails, State.transaction, hfind]
  dsimp only
  rw [if_pos h, handOver_ringFree (by exact hfree)]
  change ({ s with seq := { s.seq with transactions := _ }, ring := _ } : State) = _
  refine congrArg (fun ts => ({ s with
    seq := { s.seq with transactions := ts }
    ring := s.ring.placed m clsSw (maskBytes x.masks.a ++ maskBytes x.masks.b) (.switch m) } : State)) ?_
  change List.map _ (List.map _ s.seq.transactions) = _
  rw [List.map_map]
  refine List.map_congr_left fun u _ => ?_
  by_cases hu : u.module = m
  · simp [hu, Transaction.resent, State.onTransaction]
  · simp [hu]

/-- At the fourth attempt the transaction ends as a fault against its module, which joins the failed list (R56, R70). -/
theorem attemptFails_exhausted (hfind : s.seq.transactions.find? (fun t => t.module = m) = some x) (h : 4 ≤ x.attempt) :
    s.attemptFails m =
      { s.faultAgainst m with
        seq := { s.seq with
          transactions := s.seq.transactions.filter fun t => t.module ≠ m, failed := putAddress m s.seq.failed } } := by
  rw [State.attemptFails, State.transaction, hfind]
  dsimp only
  rw [if_neg (Nat.not_lt.mpr h)]
  have hseq : (s.faultAgainst m).seq = s.seq := by
    rw [State.faultAgainst, onNode_eq]
  rw [← hseq]
  rfl

theorem configEnd_goesOn (h : s.seq.transactions ≠ []) : s.configEnd = s := by
  rw [State.configEnd, if_pos (by simp [h])]

theorem configEnd_failed (hstate : s.seq.state = .verifying) (h : s.seq.transactions = []) (hfailed : s.seq.failed ≠ []) :
    s.configEnd = s.configFailed := by
  rw [State.configEnd, if_neg (by simp [hstate, h]), if_neg (by simpa using hfailed)]

/-! ### The configuration fails (R57, R100, R113, R119, R126) -/

/-- What a SWITCH-FAULT that is appended, and the walk that follows it, leave. -/
theorem appended_walks {r : Insert} (hoff : s.print.state = .off) (hkind : r.key.kind = .switchFault)
    (hw : (s.appendedBy r).Walks t) :
    t.seq = s.seq ∧ t.sup = s.sup ∧ s.newRecord r.key r.value r.lowv ∈ t.defects ∧
      t.run.summary.measurements = s.run.summary.measurements ∧ t.events.isPending .defect = true := by
  have happended := appendedBy_eq s r
  have hpending := hw.pending .defect (appendedBy_pending s r)
  have hkeeps := hw.keeps
  have hm := hw.measurements
  have hlisted := hw.listed
  generalize s.appendedBy r = y at *
  refine ⟨by rw [hkeeps, happended], by rw [hkeeps, happended], ?_, ?_, hpending⟩
  · refine hlisted (by rw [happended]; exact hoff) _ ?_ ?_ ?_
    · rw [happended]
      exact List.mem_append_right _ (List.mem_singleton_self _)
    · simp [State.newRecord, hkind]
    · change r.key.kind ≠ .untested
      rw [hkind]
      exact DefectKind.noConfusion
  · rw [hm, happended]
    rfl

/-- A SWITCH-FAULT of the Sweep Engine inserted, with the walk that follows it. -/
theorem sweepInsert_walks {r : Insert} (h : s.appends r.key) (hoff : s.print.state = .off)
    (hkind : r.key.kind = .switchFault) (after : SweepAfter) (hw : (s.sweepInsert r after).1.Walks t) :
    t.seq = s.seq ∧ t.sup = s.sup ∧ s.newRecord r.key r.value r.lowv ∈ t.defects ∧
      t.run.summary.measurements = s.run.summary.measurements ∧ t.events.isPending .defect = true := by
  refine appended_walks (s := s.onSweep fun w => { w with state := .inserting, results := [r], after }) (r := r) hoff
    hkind (State.Walks.trans ?_ hw)
  rw [sweepInsert_appended h hoff]
  exact walks_onSweep ((s.onSweep fun w => { w with state := .inserting, results := [r], after }).appendedBy r)
    fun w => { w with results := [] }

theorem sweepInsert_notHeld {r : Insert} (h : s.appends r.key) (hoff : s.print.state = .off) (after : SweepAfter) :
    (s.sweepInsert r after).2 = false := by
  rw [sweepInsert_appended h hoff]

theorem insertThenBoundary_walks {r : Insert} (h : s.appends r.key) (hoff : s.print.state = .off) :
    (s.sweepInsert r .boundary).1.Walks (s.insertThenBoundary r) := by
  unfold State.insertThenBoundary
  dsimp only
  rw [sweepInsert_notHeld h hoff, if_neg Bool.false_ne_true]
  exact walks_atBoundary _

/-- The SWITCH-FAULT of the Sweep Engine or the HV Controller is appended, and the walk goes on (R100, R113, R119, R126). -/
theorem configFailed_leaves {low : Nat} {more : List Nat} {key : DefectKey} (hfailed : s.seq.failed = low :: more)
    (hoff : s.print.state = .off) (happ : s.appends key) (hkey : s.switchFaultKey key) :
    let t := s.configFailed
    t.seq = s.seq.over ∧ t.sup = s.sup ∧ s.newRecord key (some low) false ∈ t.defects ∧
      t.run.summary.measurements = s.run.summary.measurements ∧ t.events.isPending .defect = true := by
  intro t
  have hlow : s.seq.failed.headD 0 = low := by rw [hfailed]; rfl
  rcases hkey with ⟨hreq, hkind, rfl⟩ | ⟨g, hreq, hkind, hwork, hhand, rfl⟩ | ⟨e, f, hreq, hkind, he, hf, rfl⟩ | ⟨hreq, rfl⟩
  · have ht : t = (s.onSeq Sequencer.over).insertThenBoundary
        (moduleRecord .switchFault s.sweep.cursor s.sweep.visitedPoint none low) := by
      change s.configFailed = _
      rw [State.configFailed, hreq, hlow]
      rcases hkind with hk | hk <;> simp only [State.sweepFailed, State.onSeq_sweep, hk]
    rw [ht]
    exact sweepInsert_walks (s := s.onSeq Sequencer.over)
      (r := moduleRecord .switchFault s.sweep.cursor s.sweep.visitedPoint none low) happ hoff rfl _
      (insertThenBoundary_walks (s := s.onSeq Sequencer.over) happ hoff)
  · have hentry : s.sweep.entry = none := by simp [Sweep.entry, hwork]
    have ht : t = ((s.onSeq Sequencer.over).onSweep fun w =>
        { w with skipped := w.skipped + g.length, inHand := none }).insertThenBoundary
        (moduleRecord .switchFault s.sweep.cursor none (s.sweep.candidates[g.start]?) low) := by
      change s.configFailed = _
      rw [State.configFailed, hreq, hlow]
      simp only [State.sweepFailed, State.onSeq_sweep, hkind, hentry, hhand, Option.getD_some]
    rw [ht]
    exact sweepInsert_walks (s := (s.onSeq Sequencer.over).onSweep _)
      (r := moduleRecord .switchFault s.sweep.cursor none (s.sweep.candidates[g.start]?) low) happ hoff rfl _
      (insertThenBoundary_walks (s := (s.onSeq Sequencer.over).onSweep _) happ hoff)
  · have hentry : s.sweep.entry = some e := he
    have hinserted := sweepInsert_appended (s := s.onSeq Sequencer.over)
      (r := moduleRecord .switchFault e.own (some e.point) (some e.other) low) happ hoff .entry
    have ht : t = ((s.onSeq Sequencer.over).sweepInsert
        (moduleRecord .switchFault e.own (some e.point) (some e.other) low) .entry).1.nextEntry := by
      change s.configFailed = _
      rw [State.configFailed, hreq, hlow]
      simp only [State.sweepFailed, State.onSeq_sweep, hkind, hentry]
      exact if_neg (by rw [hinserted]; exact Bool.false_ne_true)
    rw [ht]
    refine sweepInsert_walks (s := s.onSeq Sequencer.over)
      (r := moduleRecord .switchFault e.own (some e.point) (some e.other) low) happ hoff rfl .entry ?_
    have hsweep := congrArg (fun p : State × Bool => p.1.sweep) hinserted
    rw [sweepRecorded_eq] at hsweep
    generalize (State.sweepInsert _ _ _).1 = y at *
    rw [nextEntry_some (f := f) (by rw [hsweep]; exact hf)]
    exact .of_eq rfl rfl rfl
  · have ht : t = (s.onSeq Sequencer.over).hvInsert (s.hv.record .switchFault (some low) false) := by
      change s.configFailed = _
      rw [State.configFailed, hreq, hlow]
      rfl
    have hinserted := insert_appended_off (s := (s.onSeq Sequencer.over).onHv fun h => { h with work := .inserting })
      (r := s.hv.record .switchFault (some low) false) happ hoff
    rw [State.hvInsert, hinserted] at ht
    rw [ht]
    exact appended_walks (s := (s.onSeq Sequencer.over).onHv fun h => { h with work := .inserting })
      (r := s.hv.record .switchFault (some low) false) hoff rfl (walks_hvBoundary _)

end Sys2Proof.Machine
end

section
/-! PROOFS. The echo and sample timeouts (O54) and the frames that come back unclaimed (O50). -/

namespace Sys2Proof.Machine

variable {s t : State} {m : Nat} {x : Transaction}

/-! ### The last transaction fails (R56, R57) -/

theorem faultAgainst_eq (s : State) (a : Nat) :
    ∃ nodes, s.faultAgainst a = { s with sup := { s.sup with nodes } } := ⟨_, onNode_eq s a _⟩

/-- With no transaction left the configuration has failed, with the SWITCH-FAULT of its requester (R57). -/
theorem attemptFails_ends (hstate : s.seq.state = .verifying)
    (hfind : s.seq.transactions.find? (fun t => t.module = m) = some x) (h : 4 ≤ x.attempt)
    (hlast : (s.seq.transactions.filter fun t => t.module ≠ m) = []) {low : Nat} {more : List Nat} {key : DefectKey}
    (hlow : putAddress m s.seq.failed = low :: more) (hoff : s.print.state = .off) (happ : s.appends key)
    (hkey : s.switchFaultKey key) :
    let t := (s.attemptFails m).configEnd
    s.configFailedTo t { s.seq with failed := putAddress m s.seq.failed } low key ∧
      t.sup.nodes = (s.faultAgainst m).sup.nodes := by
  intro t
  obtain ⟨nodes, hnodes⟩ := faultAgainst_eq s m
  have ht : t = State.configEnd _ := congrArg State.configEnd (attemptFails_exhausted hfind h)
  rw [hnodes] at ht ⊢
  rw [configEnd_failed (by exact hstate) (by exact hlast) (by exact fun he => List.cons_ne_nil _ _ (hlow.symm.trans he))] at ht
  obtain ⟨h1, h2, h3, h4, h5⟩ := configFailed_leaves (low := low) (more := more) (key := key)
    (s := { s with
      sup := { s.sup with nodes }
      seq := { s.seq with
        transactions := s.seq.transactions.filter fun t => t.module ≠ m, failed := putAddress m s.seq.failed } })
    (by exact hlow) (by exact hoff) (by exact happ) (by exact hkey)
  rw [ht]
  exact ⟨⟨h1, h3, h4, h5⟩, congrArg Supervisor.nodes h2⟩

/-- A transaction with the attempts of all others going on as they were leaves the configuration going on. -/
theorem resends_goesOn (hfind : s.seq.transactions.find? (fun t => t.module = m) = some x) (h : x.attempt < 4)
    (hfree : s.ringFree) :
    (s.attemptFails m).configEnd =
      { s with
        seq := { s.seq with transactions := s.seq.transactions.map fun u =>
          if u.module = m then u.resent s.ring.ownTag else u }
        ring := s.ring.placed m clsSw (maskBytes x.masks.a ++ maskBytes x.masks.b) (.switch m) } := by
  rw [attemptFails_resends hfind h hfree]
  refine configEnd_goesOn ?_
  have hne : s.seq.transactions ≠ [] := fun he => by simp [he] at hfind
  simpa using hne

theorem exhausted_goesOn (hfind : s.seq.transactions.find? (fun t => t.module = m) = some x) (h : 4 ≤ x.attempt)
    (hmore : (s.seq.transactions.filter fun t => t.module ≠ m) ≠ []) :
    (s.attemptFails m).configEnd =
      { s.faultAgainst m with
        seq := { s.seq with
          transactions := s.seq.transactions.filter fun t => t.module ≠ m, failed := putAddress m s.seq.failed } } := by
  rw [attemptFails_exhausted hfind h]
  exact configEnd_goesOn hmore

/-! ### The attempt of an MSR fails (R81) -/

theorem msrFails_resends (h : s.mc.attempt < 3) (hfree : s.ringFree) :
    s.msrFails =
      { s with
        mc :=
          { s.mc with
            state := .msrQueued, attempt := s.mc.attempt + 1, timer := none, curTag := some s.ring.ownTag }
        ring := s.ring.placed 72 clsMsr [byte s.mc.range] .msr } := by
  rw [State.msrFails, if_pos h, handOver_ringFree (by exact hfree)]
  rfl

/-- The third failure of an MSR in a run is HEAD-TIMEOUT with the context of the request (R43, R81, R177). -/
theorem msrFails_timesOut (h : 3 ≤ s.mc.attempt) (hvalid : s.fault.valid = false) (hrun : s.run.state = .running) :
    s.headTimedOut s.msrFails ∧ s.msrFails.sup.nodes = s.sup.nodes := by
  have hidle := msrDropped_mcIdle s
  have hfails : s.msrFails = s.mcIdle.reportFault
      { code := .headTimeout, hv := s.hv.state, net := s.mc.ctxNet, point := s.mc.ctxPoint, table := none } := by
    rw [State.msrFails, if_neg (Nat.not_lt.mpr h)]
  generalize s.mcIdle = y at *
  rw [State.msrDropped] at hidle
  have hyrun : y.run = s.run := by rw [hidle]
  have hyfault : y.fault = s.fault := by rw [hidle]
  have hactive : y.run.active = true := by simp [Run.active, hyrun, hrun]
  rw [reportFault_aborts hactive (by simp [Run.inFaultResponse, hyrun, hrun]) FaultCode.noConfusion] at hfails
  have hrecorded := faultRecorded_eq (s := y)
    (r := { code := .headTimeout, hv := s.hv.state, net := s.mc.ctxNet, point := s.mc.ctxPoint, table := none })
    (by rw [hyfault]; exact hvalid)
  generalize State.faultRecorded _ _ = z at *
  have hmc := dropMsr_mcState (z.abortedBy .fault)
  rw [← (response_hv_mc _).2, ← hfails] at hmc
  have hresponded := responded_response (z.abortedBy .fault)
  rw [← hfails] at hresponded
  generalize s.msrFails = t at *
  rw [State.responded] at hresponded
  have hfirst : ∀ r : FaultReport, y.firstFault r.code r.hv r.net r.point r.table =
      { valid := true, code := some r.code, step := s.run.step, net := r.net, point := r.point, hv := some r.hv
        table := r.table, second := false, safeHalt := s.fault.safeHalt } := fun r => by
    rw [State.firstFault, if_pos hactive, hyrun, hyfault]
  refine ⟨⟨hmc, ?_, ?_, ?_, ?_, ?_, ?_, ?_⟩, ?_⟩
  · rw [hresponded]
    change z.fault = _
    rw [hrecorded]
    exact hfirst _
  · rw [hresponded]
    change z.events.isPending .fault = true
    rw [hrecorded]
    exact isPending_or _ _ _
  · rw [hresponded]
    rfl
  · rw [hresponded]
    rfl
  all_goals
    rw [hresponded, State.abortedBy, hrecorded, hidle]
    rfl

/-! ### The timeouts (R56, R81) -/

theorem exec_echoTimeout (hheld : s.rst.held = false)
    (hfind : s.seq.transactions.find? (fun t => t.module = m) = some x) (hsent : x.phase = .sent)
    (htimer : x.timer.isSome = true) :
    exec (.echoTimeout m) s = .next (s.attemptFails m).configEnd.settled := by
  rw [exec, execEchoTimeout, event_taken hheld, State.echoExpired, State.transaction, hfind]
  simp only [hsent, htimer, decide_true, Bool.and_true, if_true]

/-- Settles O54: another attempt while one is left, and what the last failure of a transaction and of an MSR leaves. -/
theorem timeoutsResend : Obligations.TimeoutsResend := by
  refine fun s hheld => ⟨fun m t hfind hsent htimer hstate => ⟨fun hlt hfree => ?_, fun hlast hmore => ?_,
    fun low more key hlast hnone hlow hoff happ hkey => ?_⟩, fun hstate htimer => ?_⟩
  · rw [exec_echoTimeout hheld hfind hsent htimer, resends_goesOn hfind hlt hfree]
    rfl
  · rw [exec_echoTimeout hheld hfind hsent htimer, exhausted_goesOn hfind hlast hmore]
  · obtain ⟨hto, hnodes⟩ := attemptFails_ends hstate hfind hlast hnone hlow hoff happ hkey
    exact ⟨_, exec_echoTimeout hheld hfind hsent htimer, hto, hnodes⟩
  · have hexec : exec .sampleTimeout s = .next s.msrFails.settled := by
      rw [exec, execSampleTimeout, event_taken hheld, if_pos (by simp [hstate, htimer])]
    refine ⟨fun hlt hfree => ?_, fun hlast hvalid hrun => ⟨_, hexec, (msrFails_timesOut hlast hvalid hrun).1⟩⟩
    rw [hexec, msrFails_resends hlt hfree]

/-! ### Returned frames (R169) -/

theorem nodeIndex_eq_some {a i : Nat} :
    nodeIndex a = some i ↔ (1 ≤ a ∧ a ≤ 64 ∧ i = a - 1) ∨ (a = 72 ∧ i = 64) := by
  unfold nodeIndex headAddress
  by_cases h : 1 ≤ a ∧ a ≤ 64
  · rw [if_pos (by simpa using h), Option.some_inj]
    omega
  · rw [if_neg (by simpa using h)]
    by_cases h72 : a = 72
    · rw [if_pos h72, Option.some_inj]
      omega
    · rw [if_neg h72]
      simp only [reduceCtorEq, false_iff]
      omega

/-- A fault recorded against a node sets the fault flag of its entry alone (R65, R70). -/
theorem faultAgainst_node (s : State) (a b : Nat) :
    (s.faultAgainst a).node? b =
      if b = a ∧ s.configured a = true then (s.node? b).map fun n => { n with fault := true } else s.node? b := by
  by_cases hc : s.configured a = true
  swap
  · rw [State.faultAgainst, onNode_unconfigured (by simpa using hc), if_neg (fun h => hc h.2)]
  obtain ⟨i, hi⟩ : ∃ i, nodeIndex a = some i := by
    rcases configured_iff.mp hc with rfl | ⟨h1, h64, -⟩
    · exact ⟨64, rfl⟩
    · exact ⟨a - 1, nodeIndex_eq_some.mpr (.inl ⟨h1, h64, rfl⟩)⟩
  have hnode : (s.faultAgainst a).node? b =
      (nodeIndex b).bind fun j => (s.sup.nodes.modify i fun n => { n with fault := true })[j]? := by
    rw [State.faultAgainst, State.onNode, if_pos hc, hi]
    rfl
  have hinj : ∀ j, nodeIndex b = some j → (i = j ↔ b = a) := fun j hj => by
    have ha' := nodeIndex_eq_some.mp hi
    have hb' := nodeIndex_eq_some.mp hj
    omega
  rw [hnode, State.node?]
  cases hb : nodeIndex b with
  | none =>
    rw [if_neg]
    · rfl
    · rintro ⟨rfl, -⟩
      exact Option.some_ne_none _ (hi.symm.trans hb)
  | some j =>
    simp only [Option.bind_some, List.getElem?_modify]
    by_cases hba : b = a
    · rw [if_pos ⟨hba, hc⟩]
      simp [(hinj j hb).mpr hba]
    · rw [if_neg fun h => hba h.1]
      simp [mt (hinj j hb).mp hba]

theorem exec_returned (hheld : s.rst.held = false) {dst cls tag : Byte} {payload : List Byte}
    (hwf : (Instr.returnedFrame dst cls tag payload).WellFormed = true) :
    exec (.returnedFrame dst cls tag payload) s =
      .next (s.frameReturned { dst, src := 0, cls, tag, payload }).settled ∧ dst.toNat ≤ 127 := by
  obtain ⟨hdst, hreturned⟩ := by simpa [Instr.WellFormed] using hwf
  refine ⟨?_, hdst⟩
  rw [exec, execReturnedFrame, event_taken hheld, if_pos hreturned]

theorem toNat_eq_zero {b : Byte} : b.toNat = 0 ↔ b = 0 :=
  ⟨fun h => BitVec.eq_of_toNat_eq (h.trans rfl), fun h => by rw [h]; rfl⟩

theorem toNat_eq_broadcast {b : Byte} : b.toNat = 127 ↔ b = 127 :=
  ⟨fun h => BitVec.eq_of_toNat_eq (h.trans rfl), fun h => by rw [h]; rfl⟩

/-- A returned frame of a node address. -/
theorem frameReturned_node {f : Frame} (h0 : f.dst ≠ 0) (h127 : f.dst ≠ 127) (hle : f.dst.toNat ≤ 127) :
    s.frameReturned f =
      if f.tag.toNat < 128 then (s.faultAgainst f.dst.toNat).ownUnclaimed f.dst.toNat f.cls f.tag.toNat
      else (s.faultAgainst f.dst.toNat).copyUp f := by
  have h0' := mt toNat_eq_zero.mp h0
  have h127' : ¬f.dst.toNat = broadcastAddress := mt toNat_eq_broadcast.mp h127
  simp only [State.frameReturned]
  rw [if_neg (by simp [h0', hle]), if_neg h127']

/-- The frame of a transaction that is SENT with its tag comes back: its attempt fails (R56). -/
theorem switchUnclaimed_fails {tag : Nat} (hfind : s.seq.transactions.find? (fun t => t.module = m) = some x)
    (htag : x.tag = some tag) (hsent : x.phase = .sent) :
    s.switchUnclaimed m tag = (s.attemptFails m).configEnd := by
  have hmem := List.mem_of_find?_eq_some hfind
  have hmod : x.module = m := by simpa using List.find?_some hfind
  obtain ⟨y, hy⟩ : ∃ y, s.answered m tag = some y := by
    rw [← Option.isSome_iff_exists, State.answered, List.find?_isSome]
    exact ⟨x, hmem, by simp [hmod, htag, hsent]⟩
  rw [State.switchUnclaimed, hy]

theorem switchUnclaimed_none {tag : Nat}
    (h : ∀ t ∈ s.seq.transactions, ¬(t.module = m ∧ t.tag = some tag ∧ t.phase = .sent)) :
    s.switchUnclaimed m tag = s := by
  have hnone : s.answered m tag = none := by
    refine List.find?_eq_none.mpr fun t ht => ?_
    simpa [and_assoc] using h t ht
  rw [State.switchUnclaimed, hnone]

/-- Settles O50: a frame with SRC 0 that comes back, by its address, tag and class. -/
theorem returnedFrames : Obligations.ReturnedFrames := by
  intro s dst cls tag payload hheld hwf copied
  obtain ⟨hexec, hle⟩ := exec_returned hheld hwf
  have hcopied : ∀ x : State, x.copyUp { dst, src := 0, cls, tag, payload } = copied x := fun x => by
    rw [State.copyUp, State.trunkFull]
    by_cases hfull : 8 ≤ x.trunk.queue.length + x.repliesOwed
    · rw [if_pos (by simpa using hfull)]
      exact (if_pos hfull).symm
    · rw [if_neg (by simpa using hfull)]
      exact (if_neg hfull).symm
  have hnode : dst ≠ 0 → dst ≠ 127 → tag.toNat < 128 →
      exec (.returnedFrame dst cls tag payload) s =
        .next ((s.faultAgainst dst.toNat).ownUnclaimed dst.toNat cls tag.toNat).settled := fun h0 h127 htag => by
    rw [hexec, frameReturned_node h0 h127 hle, if_pos htag]
  have hswitch : dst ≠ 0 → dst ≠ 127 → tag.toNat < 128 → cls = clsSw →
      exec (.returnedFrame dst cls tag payload) s =
        .next ((s.faultAgainst dst.toNat).switchUnclaimed dst.toNat tag.toNat).settled := fun h0 h127 htag hcls => by
    rw [hnode h0 h127 htag, State.ownUnclaimed, if_pos hcls]
  have hagain := faultAgainst_again s dst.toNat
  obtain ⟨nodes, hnodes⟩ := faultAgainst_eq s dst.toNat
  have hmsr : dst ≠ 0 → dst ≠ 127 → tag.toNat < 128 → cls = clsMsr → s.mc.state = .msrWait →
      s.mc.curTag = some tag.toNat →
      exec (.returnedFrame dst cls tag payload) s = .next (s.faultAgainst dst.toNat).msrFails.settled :=
    fun h0 h127 htag hcls hwait hcur => by
      rw [hnode h0 h127 htag, State.ownUnclaimed, if_neg (by rw [hcls]; decide), hnodes,
        if_pos (by simp [hcls, hwait, hcur])]
  refine ⟨faultAgainst_node s, fun h => ?_, fun h htag => ?_, fun h0 h127 htag => ?_, fun h0 h127 htag hcls hno => ?_,
    fun h0 h127 htag hcls hwait hcur hlt hfree => ?_, fun h0 h127 htag hcls hwait hcur hlast hvalid hrun => ?_,
    fun h0 h127 htag hcls => ⟨fun hno => ?_, fun t hfind htt hsent hlt hstate hfree => ?_⟩,
    fun t h0 h127 htag hcls hstate hfind htt hsent hlast => ⟨fun hmore => ?_,
      fun low more key hnone hlow hoff happ hkey => ?_⟩⟩
  · rw [hexec]
    rcases h with rfl | ⟨rfl, htag⟩
    · rfl
    · exact congrArg (fun x => Host.Outcome.next (State.settled x)) (if_pos htag)
  · rw [hexec, ← hcopied]
    subst h
    exact congrArg (fun x => Host.Outcome.next (State.settled x)) (if_neg (Nat.not_lt.mpr htag))
  · rw [hexec, frameReturned_node h0 h127 hle, if_neg (Nat.not_lt.mpr htag), ← hcopied]
  · rw [hnode h0 h127 htag, State.ownUnclaimed, if_neg hcls, hnodes, if_neg (by simpa [and_assoc] using hno)]
  · rw [hmsr h0 h127 htag hcls hwait hcur, hnodes, msrFails_resends (by exact hlt) (by exact hfree)]
  · refine ⟨_, hmsr h0 h127 htag hcls hwait hcur, ?_⟩
    rw [hnodes]
    exact msrFails_timesOut (s := { s with sup := { s.sup with nodes } }) hlast hvalid hrun
  · rw [hswitch h0 h127 htag hcls, hnodes, switchUnclaimed_none (by exact hno)]
  · rw [hswitch h0 h127 htag hcls, hnodes, switchUnclaimed_fails (by exact hfind) htt hsent,
      resends_goesOn (by exact hfind) hlt (by exact hfree)]
    rfl
  · rw [hswitch h0 h127 htag hcls, switchUnclaimed_fails (x := t) (by rw [hnodes]; exact hfind) htt hsent,
      exhausted_goesOn (x := t) (by rw [hnodes]; exact hfind) hlast (by rw [hnodes]; exact hmore), hagain, hnodes]
  · obtain ⟨hto, hsup⟩ := attemptFails_ends (s := s.faultAgainst dst.toNat) (x := t) (m := dst.toNat) (low := low)
      (more := more) (key := key) (by rw [hnodes]; exact hstate) (by rw [hnodes]; exact hfind) hlast
      (by rw [hnodes]; exact hnone) (by rw [hnodes]; exact hlow) (by rw [hnodes]; exact hoff) (by rw [hnodes]; exact happ)
      (by rw [hnodes]; exact hkey)
    rw [hagain] at hsup
    refine ⟨_, (hswitch h0 h127 htag hcls).trans (congrArg (fun x => Host.Outcome.next (State.settled x))
      (switchUnclaimed_fails (x := t) (by rw [hnodes]; exact hfind) htt hsent)), ?_, hsup⟩
    rw [hnodes] at hto ⊢
    exact hto

end Sys2Proof.Machine
end

section
/-! PROOFS. The end of a run (R45), and the ends of a HOME and of the settle delay (O55). -/

namespace Sys2Proof.Machine

variable {s t : State}

/-! ### A look for work adds reads alone to the port (R154, R155) -/

theorem recordStarted_access {a : Access} (h : a ∈ s.port.queue) (second : Bool) (d : Defect) :
    a ∈ (s.recordStarted second d).port.queue := by
  unfold State.recordStarted
  dsimp only
  split
  · exact List.mem_append_left _ h
  · cases d.key.netB with
    | none => exact h
    | some n =>
      dsimp only
      split
      · exact List.mem_append_left _ h
      · exact h

theorem beginLine_access {a : Access} {start : State → State} (h : a ∈ s.port.queue)
    (hs : a ∈ (start s).port.queue) : a ∈ (s.beginLine start).port.queue := by
  unfold State.beginLine
  split
  · exact h
  · exact hs

theorem look_access {a : Access} (n : Nat) (h : a ∈ s.port.queue) : a ∈ (s.look n).port.queue := by
  induction n generalizing s with
  | zero => exact h
  | succ n ih =>
    by_cases hl : s.print.state = .idle ∨ s.print.state = .format ∨ s.print.state = .send
    swap
    · rwa [look_of_nothing s n (.inl hl)]
    cases he : s.print.bufferIn .empty with
    | none => rwa [look_of_nothing s n (.inr (.inl he))]
    | some second =>
      obtain ⟨hsum, hrest⟩ := look_of_free s n second hl he
      by_cases hnext : s.summaryNext
      · rw [hsum hnext]
        exact beginLine_access h h
      · obtain ⟨hheader, hrecord⟩ := hrest hnext
        cases hh : s.print.header with
        | some step =>
          rw [hheader step hh]
          exact beginLine_access h h
        | none =>
          rw [hrecord hh]
          cases s.defects.find? _ with
          | none => exact h
          | some d =>
            dsimp only
            split
            · exact ih (s := s.passOver d) h
            · refine beginLine_access h ?_
              rw [startRecordLine_eq]
              exact recordStarted_access h second d

/-! ### The run is DONE (R45) -/

/-- The step in progress has ended, if there is one (R32). -/
def State.stepOver (s : State) (term : Termination) : State :=
  if s.run.inProgress then s.stepEnd (some term) else s

theorem stepOver_eq (s : State) (term : Termination) :
    s.stepOver term =
      { s with
        port := (s.stepOver term).port
        run := { s.run with inProgress := (s.stepOver term).run.inProgress }
        events := (s.stepOver term).events
        trunk := (s.stepOver term).trunk } := by
  unfold State.stepOver State.stepEnd
  split
  · split
    · rfl
    · rw [raise_eq]
      rfl
  · rfl

theorem stepOver_noStep (term : Termination) (h : s.run.inProgress = true → s.run.step ≠ none) :
    (s.stepOver term).run.inProgress = false := by
  unfold State.stepOver State.stepEnd
  split
  · rename_i hp
    obtain ⟨i, hi⟩ := Option.ne_none_iff_exists'.mp (h hp)
    rw [hi]
    dsimp only
    rw [raise_eq]
    rfl
  · simpa using ‹¬s.run.inProgress = true›

/-- The write that the end of a step in progress posts. -/
theorem stepOver_write {i : Nat} (hp : s.run.inProgress = true) (hi : s.run.step = some i) (term : Termination) :
    (⟨.steps, i, some (9, (s.run.stepStatus (some term)).code :: be16 s.run.stepDefects), .runWrite⟩ : Access) ∈
      (s.stepOver term).port.queue := by
  rw [State.stepOver, if_pos hp, State.stepEnd, hi]
  dsimp only
  rw [raise_eq]
  exact List.mem_append_right _ (List.mem_singleton_self _)

/-- A run that is DONE (R45). -/
def Run.done (r : Run) (term : Termination) : Run :=
  { r with
    state := .done, summary := { r.summary with term := some term }, pauseReq := false
    stopArmed := false, pauseCause := .none, abortCause := .none, slot := none, stepRec := none, waiting := .none }

/-- The state as the run is DONE, before the summary is printed (R45). -/
def State.ended (s : State) (term : Termination) : State :=
  ((((((s.stepOver term).onDefects finalise).onRun fun r =>
    { r with state := .done, summary := { r.summary with term := some term }, pauseReq := false
             stopArmed := false, pauseCause := .none, abortCause := .none, slot := none
             stepRec := none, waiting := .none }).dropReads.sweepRest.onHv fun h =>
    { h with net := none, work := .idle, hold := false }).onArith Arith.dropEvaluation).raise .runEnd)

theorem enterDone_eq (s : State) (term : Termination) : s.enterDone term = (s.ended term).printRunEnds term := rfl

theorem ended_eq (s : State) (term : Termination) :
    s.ended term =
      { s with
        port := (s.ended term).port
        cache := s.cache.drop fun w => w = .reference
        trunk := (s.ended term).trunk
        arith := s.arith.dropEvaluation
        sweep := Sweep.reset
        hv := { s.hv with net := none, work := .idle, hold := false }
        run := { s.run.done term with inProgress := (s.stepOver term).run.inProgress }
        defects := finalise s.defects
        events := (s.ended term).events } := by
  have hover := stepOver_eq s term
  unfold State.ended
  generalize s.stepOver term = x at *
  rw [raise_eq, hover]
  rfl

theorem ended_pending (s : State) (term : Termination) : (s.ended term).events.isPending .runEnd = true :=
  raise_isPending _ _

/-- A write that waits at the port is carried out (R106, log 57). -/
theorem give_keeps {p : Port} {gone : Owner → Bool} {a : Access} (h : a ∈ p.queue) (ha : gone a.owner = false) :
    a ∈ (p.give gone).queue := by
  unfold Port.give
  split
  · exact h
  · rename_i b rest hq
    rw [hq] at h
    rcases List.mem_cons.mp h with rfl | hrest
    · rw [ha]
      exact List.mem_cons_self
    · exact List.mem_cons_of_mem _ (List.mem_filter.mpr ⟨hrest, by simp [ha]⟩)

theorem ended_write {i : Nat} (hp : s.run.inProgress = true) (hi : s.run.step = some i) (term : Termination) :
    (⟨.steps, i, some (9, (s.run.stepStatus (some term)).code :: be16 s.run.stepDefects), .runWrite⟩ : Access) ∈
      (s.ended term).port.queue := by
  have hwrite := stepOver_write hp hi term
  unfold State.ended
  generalize s.stepOver term = x at *
  rw [raise_eq]
  exact give_keeps hwrite rfl

/-! ### The summary of the run (R45, R158) -/

/-- The Print Engine with the summary of a run due. -/
def Print.summarised (p : Print) (r : Termination × Nat × Nat) : Print :=
  { p with summary := some r, summaryDue := true, summaryLeft := 4 * p.copies }

theorem printRunEnds_served (s : State) (term : Termination) :
    s.printServed (s.printRunEnds term) ∧
      (s.printKeepsList → (s.printRunEnds term).defects = s.defects) := by
  unfold State.printRunEnds
  dsimp only
  split
  · rename_i hprints
    obtain ⟨hserved, hkept⟩ := look_spec _ (s.onPrint fun p => { p with
      summary := some (term, s.run.summary.defects, s.run.summary.stepsRun), summaryDue := true
      summaryLeft := 4 * p.copies })
    refine ⟨State.printServed.trans (t := s.onPrint _) rfl hserved, fun hlist => hkept ?_⟩
    rcases hlist with hoff | hno
    · simp [hoff] at hprints
    · exact hno
  · exact ⟨(look_spec _ s).1, fun hlist => (printLook_spec hlist).2⟩

theorem printRunEnds_off (h : s.print.state = .off) (term : Termination) : s.printRunEnds term = s := by
  rw [State.printRunEnds, if_neg (by simp [h]), printLook_off h]

theorem printRunEnds_access {a : Access} (h : a ∈ s.port.queue) (term : Termination) :
    a ∈ (s.printRunEnds term).port.queue := by
  unfold State.printRunEnds
  dsimp only
  split
  · exact look_access (s := s.onPrint _) _ h
  · exact look_access _ h

/-- With lines being printed and copies asked for the summary is due. -/
theorem printRunEnds_due (hon : s.print.state ≠ .off) (hcopies : s.print.copies ≠ 0) (term : Termination) :
    s.printRunEnds term =
      (s.onPrint fun p => p.summarised (term, s.run.summary.defects, s.run.summary.stepsRun)).printLook := by
  rw [State.printRunEnds, if_pos (by simp [hon, hcopies])]
  rfl

theorem printRunEnds_held (hheld : s.print.state = .held) (hcopies : s.print.copies ≠ 0) (term : Termination) :
    s.printRunEnds term =
      s.onPrint fun p => p.summarised (term, s.run.summary.defects, s.run.summary.stepsRun) := by
  rw [printRunEnds_due (by simp [hheld]) hcopies]
  exact look_of_nothing _ _ (.inl (by simp [Print.summarised, hheld]))

/-- With nothing else to print the first line of the summary begins (R158). -/
theorem printRunEnds_begins (hidle : s.print.state = .idle) (hcopies : s.print.copies ≠ 0)
    (h0 : s.print.buf0 = Buffer.empty) (h1 : s.print.buf1 = Buffer.empty) (hall : ∀ d ∈ s.defects, d.printed = true)
    (term : Termination) :
    let t := s.printRunEnds term
    t.arith.waiting = s.arith.waiting ++ [.format] ∧
      t.print =
        { s.print with
          state := .format, summary := some (term, s.run.summary.defects, s.run.summary.stepsRun), summaryDue := true
          summaryLeft := 4 * s.print.copies - 1
          buf0 :=
            { state := .formatting, content := some .summary
              text := ascii ['R', 'E', 'S', 'U', 'L', 'T', ' '] ++ ascii term.printName ++ [0x0D, 0x0A] } } := by
  intro t
  have ht : t = _ := printRunEnds_due (by simp [hidle]) hcopies term
  have hlooked := printLook_looked (s.onPrint fun p => p.summarised (term, s.run.summary.defects, s.run.summary.stepsRun))
  rw [← ht] at hlooked
  have hempty : (s.onPrint fun p => p.summarised (term, s.run.summary.defects, s.run.summary.stepsRun)).print.bufferIn
      .empty = some false := by
    simp [Print.bufferIn, Print.summarised, h0, Buffer.empty]
  have hforming : (s.onPrint fun p => p.summarised (term, s.run.summary.defects, s.run.summary.stepsRun)).print.bufferIn
      .formatting = none := by
    simp [Print.bufferIn, Print.summarised, h0, h1, Buffer.empty]
  have hnext : (s.onPrint fun p => p.summarised (term, s.run.summary.defects, s.run.summary.stepsRun)).summaryNext := by
    refine ⟨rfl, fun d hd => by simp [Defect.printable, hall d hd], fun second n => ?_⟩
    cases second <;> simp [Print.buffer, Print.summarised, h0, h1, Buffer.empty]
  have hstarted := ((hlooked.2 false (.inl hidle) hempty).1 hnext).trans (if_pos hforming)
  have hdue : decide (1 < 4 * s.print.copies) = true := decide_eq_true (by omega)
  have hmod : 4 * s.print.copies % 4 = 0 := by omega
  rw [hstarted]
  refine ⟨rfl, ?_⟩
  simp only [State.lineStarted, State.onPrint, Print.summarised, Print.onBuffer, hidle, if_true, hdue,
    Print.summaryText, hmod, Bool.false_eq_true, if_false]

end Sys2Proof.Machine
end

section
/-! PROOFS. The HOME echo timer and the settle timer (O55). -/

namespace Sys2Proof.Machine

variable {s t : State}

/-! ### HOME ends (R25, R62) -/

theorem exec_homeEcho (hheld : s.rst.held = false) (hstate : s.seq.state = .homing)
    (htimer : s.seq.home.timer.isSome = true) : exec .homeEchoTimeout s = .next s.homeEnd.settled := by
  rw [exec, execHomeEchoTimeout, event_taken hheld, if_pos (by simp [hstate, htimer])]

/-- The start-up HOME over, the first step record is read (R25). -/
theorem homeEnd_starts {first : Nat} (hwait : s.run.waiting = .startHome first) (hno : s.run.pauseReq = false) :
    s.homeEnd =
      { s with
        seq := s.seq.homeOver
        run := { s.run with waiting := .stepRead first }
        port := { queue := s.port.queue ++ [readFor .steps first .runRead] } } := by
  have hrun : (s.onSeq Sequencer.homeOver).run = s.run := rfl
  rw [State.homeEnd, State.runHomeEnded, hrun, hwait]
  exact if_neg (by simp [hno])

/-- The HOME of a response over, the run is DONE by its cause (R40). -/
theorem homeEnd_done (hwait : s.run.waiting = .home) :
    s.homeEnd = (s.onSeq Sequencer.homeOver).enterDone s.run.abortCause.termination := by
  have hrun : (s.onSeq Sequencer.homeOver).run = s.run := rfl
  rw [State.homeEnd, State.runHomeEnded, hrun, hwait]

/-! ### The settle delay ends (R58) -/

theorem exec_settle (hheld : s.rst.held = false) (hstate : s.seq.state = .settling)
    (htimer : s.seq.settleTimer.isSome = true) : exec .settleTimeout s = .next s.configReady.settled := by
  rw [exec, execSettleTimeout, event_taken hheld, if_pos (by simp [hstate, htimer])]

theorem configReady_hv (h : s.seq.requester = .hv) :
    s.configReady =
      ((s.onSeq Sequencer.over).onHv fun h => { h with hold := true, work := .testing }).interlockTest := by
  rw [State.configReady, h]
  rfl

/-- At the interlock test an open interlock pauses a RUNNING run (R36, R127). -/
theorem interlockTest_open (hopen : s.pins.interlockClosed = false) (hrun : s.run.state = .running) :
    s.interlockTest =
      { s with
        run := { s.run with state := .paused, pauseCause := .interlock, pauseReq := false, waiting := .owner }
        events := { s.events with pending := s.events.pending ||| Event.paused.bit }
        trunk := s.interlockTest.trunk } := by
  have htest : s.interlockTest = (s.onRun fun r =>
      { r with state := .paused, pauseCause := .interlock, pauseReq := false, waiting := .owner }).raise .paused := by
    rw [State.interlockTest, if_neg (by simp [hopen]), State.enterPaused, if_pos hrun]
  rw [htest]
  exact (raise_eq _ .paused).trans rfl

theorem interlockTest_closed (hclosed : s.pins.interlockClosed = true) :
    s.interlockTest = (s.onHv fun h => { h with hold := false }).rampStart := by
  rw [State.interlockTest, if_pos hclosed]

/-- What the Sweep Engine asks for with its configuration ready: the range, the net and the point of the fault context,
and the leads (R87, R103, R113, R119). -/
def State.sweepAsks (s : State) (range net : Nat) (point : Option Nat) (leads : List Nat) : Prop :=
  s.sweepReady = (s.onSweep fun w => { w with state := .measuring }).requestMsr range net point leads

theorem sweepAsks_leadcal {net : Nat} (hk : s.sweep.kind = some .leadcal) (hc : s.sweep.netCursor = some net) :
    s.sweepAsks (s.limits.contSet s.sweep.net.contSet).range net s.sweep.visitedPoint [] := by
  rw [State.sweepAsks, State.sweepReady]
  simp only [hk, Sweep.cursor, hc, Option.getD_some]

theorem sweepAsks_cont {net p q : Nat} (hk : s.sweep.kind = some .cont) (hc : s.sweep.netCursor = some net)
    (hp : s.sweep.fixedPoint = some p) (hq : s.sweep.visitedPoint = some q) :
    s.sweepAsks (s.limits.contSet s.sweep.net.contSet).range net (some q) [p, q] := by
  rw [State.sweepAsks, State.sweepReady]
  simp only [hk, Sweep.cursor, hc, hp, hq, Option.getD_some]

theorem sweepAsks_group {net : Nat} (hk : s.sweep.kind = some .iso) (hw : s.sweep.work[s.sweep.workCursor]? = none)
    (hc : s.sweep.netCursor = some net) : s.sweepAsks s.limits.iso.range net none [] := by
  have hentry : s.sweep.entry = none := hw
  rw [State.sweepAsks, State.sweepReady]
  simp only [hk, hentry, Sweep.cursor, hc, Option.getD_some]

theorem sweepAsks_entry {e : WorkEntry} (hk : s.sweep.kind = some .iso)
    (hw : s.sweep.work[s.sweep.workCursor]? = some e) :
    s.sweepAsks (s.limits.contSet e.contSet).range e.own (some e.point) [e.point, s.sweep.otherAnchor] := by
  have hentry : s.sweep.entry = some e := hw
  rw [State.sweepAsks, State.sweepReady]
  simp only [hk, hentry]

/-- With the Measurement Controller and the ring free the MSR is placed (R77, R78). -/
theorem configReady_asks (hreq : s.seq.requester = .sweep) (hhalt : s.fault.safeHalt = false) (hmc : s.mc.state = .idle)
    (hsafe : s.hv.state = .safe) (hfree : s.ringFree) {range net : Nat} {point : Option Nat} {leads : List Nat}
    (h : (s.onSeq Sequencer.over).sweepAsks range net point leads) :
    s.configReady =
      { s with
        seq := s.seq.over
        sweep := { s.sweep with state := .measuring }
        mc :=
          { s.mc with
            state := .msrQueued, requester := .sweep, range, ctxNet := some net, ctxPoint := point, attempt := 1
            leads, curTag := some s.ring.ownTag }
        ring := s.ring.placed 72 clsMsr [byte range] .msr } := by
  rw [configReady_sweep hreq, h, requestMsr_ringFree (by exact hhalt) (by exact hmc) (by exact hsafe) (by exact hfree)]
  rfl

/-- The code and the step status of a response by its cause (R32, R40, R41, R43). -/
theorem termination_of_cause {cause : AbortCause} {term : Termination} {status : Byte}
    (h : (cause = .abort ∧ term = .aborted ∧ status = 5) ∨ (cause = .hvAbort ∧ term = .hvAbort ∧ status = 5) ∨
      (cause = .fault ∧ term = .fault ∧ status = 6)) (r : Run) :
    cause.termination = term ∧ (r.stepStatus (some term)).code = status := by
  rcases h with ⟨rfl, rfl, rfl⟩ | ⟨rfl, rfl, rfl⟩ | ⟨rfl, rfl, rfl⟩ <;> exact ⟨rfl, rfl⟩

/-- Settles O55: the HOME echo timer of a start and of a response, and the settle timer for each requester. -/
theorem homeAndSettleEnd : Obligations.HomeAndSettleEnd := by
  intro s hheld
  refine ⟨fun hstate htimer => ⟨fun first hwait hno => ?_, fun term status hwait hcause hstep => ?_⟩,
    fun hstate htimer hreq seq hv hseq hhv => ⟨fun hopen hrun => ?_, fun c hc hclosed hsafe hmc => ?_⟩,
    fun hstate htimer hreq hhalt hmc hsafe hfree range net point leads hcase => ?_⟩
  · rw [exec_homeEcho hheld hstate htimer, homeEnd_starts hwait hno]
    rfl
  · obtain ⟨hterm, hcode⟩ := termination_of_cause hcause s.run
    have hdone : s.homeEnd = ((s.onSeq Sequencer.homeOver).ended term).printRunEnds term := by
      rw [homeEnd_done hwait, hterm, enterDone_eq]
    have hended := ended_eq (s.onSeq Sequencer.homeOver) term
    rw [stepOver_noStep (s := s.onSeq Sequencer.homeOver) term hstep] at hended
    have hpending := ended_pending (s.onSeq Sequencer.homeOver) term
    have hwrite := fun i hp hi => ended_write (s := s.onSeq Sequencer.homeOver) (i := i) hp hi term
    refine ⟨_, exec_homeEcho hheld hstate htimer, ?_⟩
    rw [hdone]
    generalize State.ended _ _ = y at *
    have hprint : y.print = s.print := by rw [hended]; rfl
    have hsummary : y.run.summary = { s.run.summary with term := some term } := by rw [hended]; rfl
    have hwaiting : y.arith.waiting = s.arith.dropEvaluation.waiting := by rw [hended]; rfl
    have hlist : y.defects = finalise s.defects := by rw [hended]; rfl
    obtain ⟨hserved, hkept⟩ := printRunEnds_served y term
    have hoff := printRunEnds_off (s := y) (term := term)
    have hheldPrint := printRunEnds_held (s := y) (term := term)
    have hbegins := printRunEnds_begins (s := y) (term := term)
    have haccess := fun a h => printRunEnds_access (s := y) (a := a) h term
    rw [hprint] at hoff hheldPrint hbegins
    rw [hsummary, hwaiting] at hbegins
    rw [hsummary] at hheldPrint
    generalize y.printRunEnds term = t at *
    rw [State.printServed] at hserved
    refine ⟨?_, ?_, ?_, ?_, fun ho => ?_, fun ho hcopies => ?_, fun ho hcopies _ h0 h1 hall => ?_, ?_, fun hlists => ?_, ?_,
      fun i hp hi => ?_, ?_, ?_⟩
    case refine_5 => exact (congrArg State.print (hoff ho)).trans hprint
    case refine_6 =>
      refine (congrArg State.print (hheldPrint ho hcopies)).trans ?_
      rw [State.onPrint_print, hprint]
      rfl
    case refine_7 =>
      refine hbegins ho hcopies h0 h1 fun d hd => ?_
      rw [hlist] at hd
      obtain ⟨e, he, rfl⟩ := List.mem_map.mp hd
      exact hall e he
    case refine_9 =>
      refine (hkept ?_).trans hlist
      rcases hlists with ho | hno
      · exact .inl (by rw [hprint]; exact ho)
      · refine .inr fun d hd => ?_
        rw [hlist] at hd
        obtain ⟨e, he, rfl⟩ := List.mem_map.mp hd
        exact hno e he
    case refine_10 =>
      rw [hserved]
      exact hpending
    case refine_11 =>
      refine ⟨_, haccess _ (hwrite i hp hi), rfl, rfl, ?_⟩
      exact congrArg (fun b => some (9, b :: be16 s.run.stepDefects)) hcode
    all_goals
      rw [hserved, hended]
      rfl
  · subst hseq hhv
    refine ⟨_, exec_settle hheld hstate htimer, ?_⟩
    rw [configReady_hv hreq]
    have htest := interlockTest_open (s := (s.onSeq Sequencer.over).onHv fun h => { h with hold := true, work := .testing })
      hopen hrun
    generalize State.interlockTest _ = t at *
    rw [htest]
    rfl
  · subst hseq hhv hc
    refine ⟨_, exec_settle hheld hstate htimer, ?_⟩
    rw [configReady_hv hreq, interlockTest_closed (by exact hclosed)]
    obtain ⟨hramps, hsent, hnone, htrans⟩ := rampStart_ramps
      (s := ((s.onSeq Sequencer.over).onHv fun h => { h with hold := true, work := .testing }).onHv fun h =>
        { h with hold := false }) rfl hmc
    have hempty := htrans rfl
    generalize State.rampStart _ = t at *
    rw [State.ramps] at hramps
    have hseq : t.seq = { s.seq.over with
        transactions := t.seq.transactions, home := { s.seq.over.home with tag := t.seq.home.tag } } := by
      rw [hramps]
      rfl
    refine ⟨?_, ?_, ?_, ?_, ?_, ?_, ?_, hsent, fun e he => (hnone e he).1, ?_, ?_⟩
    · rw [hempty] at hseq
      exact hseq
    all_goals
      rw [hramps]
      rfl
  · rw [exec_settle hheld hstate htimer]
    have hasks : (s.onSeq Sequencer.over).sweepAsks range net point leads := by
      rcases hcase with ⟨hk, hc, rfl, p, q, hp, hq, rfl, rfl⟩ | ⟨hk, hc, rfl, rfl, rfl⟩ | ⟨hk, hw, hc, rfl, rfl, rfl⟩ |
        ⟨e, hk, hw, rfl, rfl, rfl, rfl⟩
      · exact sweepAsks_cont (s := s.onSeq Sequencer.over) hk hc hp hq
      · exact sweepAsks_leadcal (s := s.onSeq Sequencer.over) hk hc
      · exact sweepAsks_group (s := s.onSeq Sequencer.over) hk hw hc
      · exact sweepAsks_entry (s := s.onSeq Sequencer.over) hk hw
    rw [configReady_asks hreq hhalt hmc hsafe hfree hasks]
    rfl

end Sys2Proof.Machine
end

section
/-! PROOFS. The ramp, dwell and discharge timers (O57). -/

namespace Sys2Proof.Machine

variable {s t : State}

/-! ### The record of a test that ends (R130, R131, R144, R145) -/

/-- What the record of a test that ends does to the list and the run, by case. -/
theorem hvEnd_inserts (s : State) (r : Insert) :
    let y := (s.hvEnd.insert r).1
    (s.appends r.key → s.printKeepsList →
      y.defects = s.defects ++ [s.newRecord r.key r.value r.lowv] ∧ y.run.insertFlag = true ∧
        y.run.summary.defects = s.run.summary.defects + 1 ∧ y.events.isPending .defect = true) ∧
      ((∃ d ∈ s.defects, d.key = r.key) →
        y.defects = s.defects.map (fun d => if d.key = r.key then s.merged d r.value r.lowv else d) ∧
          y.run.insertFlag = true ∧ y.run.summary.defects = s.run.summary.defects ∧ y.events = s.events) ∧
      ((∀ d ∈ s.defects, d.key ≠ r.key) → s.limits.timing.defectLimit ≤ s.run.summary.defects →
        y.defects = s.defects ∧ y.run.slot = s.run.slot ∧ y.run.insertFlag = s.run.insertFlag ∧
          y.run.summary.defects = s.run.summary.defects) ∧
      ((∀ d ∈ s.defects, d.key ≠ r.key) → s.run.summary.defects < s.limits.timing.defectLimit →
        512 ≤ s.defects.length →
        y.defects = s.defects ∧ y.run.slot = some r ∧ y.run.insertFlag = s.run.insertFlag ∧
          y.run.summary.defects = s.run.summary.defects) := by
  intro y
  have hserved := hvEnd_served s
  have happended := hvEnd_insert (s := s) (r := r)
  have hy : y = (s.hvEnd.insert r).1 := rfl
  clear_value y
  rw [← hy] at happended
  generalize s.hvEnd = z at *
  rw [State.ringServed] at hserved
  have hrun : z.run = s.run := by rw [hserved]; rfl
  have hlist : z.defects = s.defects := by rw [hserved]; rfl
  have hlimits : z.limits = s.limits := by rw [hserved]; rfl
  have hprint : z.print = s.print := by rw [hserved]; rfl
  refine ⟨fun happ hp => ?_, fun hkey => ?_, fun hno hlimit => ?_, fun hno hlimit hfull => ?_⟩
  · obtain ⟨h1, h2⟩ := happended happ hp
    obtain ⟨hprinted, -, -⟩ := insert_appended_spec (s := z) (r := r)
      (by rw [State.appends, hlist, hrun, hlimits]; exact happ) (by rw [State.printKeepsList, hlist, hprint]; exact hp)
    rw [← hy, State.printServed] at hprinted
    have hyrun : y.run = z.run.inserted.appended := by rw [hprinted, appendedBy_eq]
    refine ⟨h1, ?_, ?_, h2⟩ <;> rw [hyrun, hrun] <;> rfl
  · rw [insert_merged (by rw [hlist]; exact hkey)] at hy
    rw [hy, hserved]
    exact ⟨rfl, rfl, rfl, rfl⟩
  · rw [insert_discarded (by rw [hlist]; exact hno) (by rw [hlimits, hrun]; exact hlimit)] at hy
    rw [hy, hserved]
    exact ⟨rfl, rfl, rfl, rfl⟩
  · have hnotSafe : ¬z.hv.state = .safe := by
      rw [hserved]
      exact HvState.noConfusion
    rw [insert_held (by rw [hlist]; exact hno) (by rw [hlimits, hrun]; exact hlimit) (by rw [hlist]; exact hfull),
      if_neg hnotSafe] at hy
    rw [hy, hserved]
    exact ⟨rfl, rfl, rfl, rfl⟩

/-- The record of a test that its timer ends: the LEAK of a ramp (R91, R130), and the UNTESTED or the LEAK of a dwell
(R90, R131). -/
def Hv.endsWith (h : Hv) (ramp : Bool) (kind : DefectKind) (value : Option Nat) (lowv : Bool) : Prop :=
  (ramp = true ∧ kind = .leak ∧ lowv = true ∧ value = h.window.getLast?.map fun c => insulationResistance c.vh c.ih) ∨
    (ramp = false ∧ kind = .leak ∧
      ∃ ir, value = some ir ∧ evaluate h.cls h.window = if lowv then .leakLow ir else .leak ir) ∨
    (ramp = false ∧ kind = .untested ∧ lowv = false ∧ value = none ∧ evaluate h.cls h.window = .untested)

theorem evaluated_record {h : Hv} {ramp : Bool} {kind : DefectKind} {value : Option Nat} {lowv : Bool}
    (hends : h.endsWith ramp kind value lowv) :
    h.evaluated ramp = (some (h.record kind value lowv), decide (kind ≠ .untested)) := by
  rcases hends with ⟨rfl, rfl, rfl, rfl⟩ | ⟨rfl, rfl, ir, rfl, he⟩ | ⟨rfl, rfl, rfl, rfl, he⟩
  · rfl
  · exact evaluated_leak he
  · rw [Hv.evaluated, if_neg Bool.false_ne_true, he]
    rfl

/-- A measurement counted, where there is one. -/
def State.counted (s : State) (measured : Bool) : State := if measured then s.countMeasurement else s

theorem counted_eq (s : State) (measured : Bool) :
    s.counted measured =
      { s with run := { s.run with summary := { s.run.summary with
          measurements := if measured then min 4294967295 (s.run.summary.measurements + 1)
            else s.run.summary.measurements } } } := by
  cases measured <;> rfl

/-- The evaluation made in the event: the record of the test, if there is one, and the measurement counted. -/
theorem hvEvaluate_hvEnd (s : State) (ramp : Bool) :
    s.hvEnd.hvEvaluate ramp =
      (match (s.hv.evaluated ramp).1 with
        | some r => (s.hvEnd.insert r).1
        | none => s.hvEnd).counted (s.hv.evaluated ramp).2 := by
  have hhv := (hvEnd_spec s).1
  have hevaluated : s.hvEnd.hv.evaluated ramp = s.hv.evaluated ramp := by
    rw [hhv]
    rfl
  rw [State.hvEvaluate, hevaluated]
  cases (s.hv.evaluated ramp).1 <;> rfl

/-- Whatever its evaluation is, a test that ends inserts at most, and counts at most. -/
theorem hvEvaluate_inserts (s : State) (ramp : Bool) :
    ∃ y, s.hvEnd.Inserts y ∧ s.hvEnd.hvEvaluate ramp = y.counted (s.hv.evaluated ramp).2 := by
  refine ⟨_, ?_, hvEvaluate_hvEnd s ramp⟩
  cases (s.hv.evaluated ramp).1 with
  | none => exact ⟨rfl, rfl, rfl, rfl, rfl, rfl, fun _ => rfl⟩
  | some r => exact insert_inserts _ r

/-- A test whose timer expires with the Arithmetic Unit free is evaluated in the event; otherwise its evaluation waits
(R84, R130, R131, log 15). -/
theorem hvExpired_eq (s : State) (ramp : Bool) :
    s.hvExpired ramp =
      if s.arith.job = none ∧ s.arith.waiting = [] then s.hvEnd.hvEvaluate ramp
      else (s.hvEnd.onHv fun h => { h with work := .evaluating }).onArith fun a =>
        { a with waiting := a.waiting ++ [.evaluate ramp] } := by
  have hfree : (s.arith.job.isNone && s.arith.waiting.isEmpty) = true ↔ s.arith.job = none ∧ s.arith.waiting = [] := by
    simp
  rw [State.hvExpired]
  by_cases h : s.arith.job = none ∧ s.arith.waiting = []
  · rw [if_pos h]
    exact if_pos (hfree.mpr h)
  · rw [if_neg h]
    exact if_neg (mt hfree.mp h)

theorem exec_hvTimer (hheld : s.rst.held = false) {i : Instr} {ramp : Bool}
    (h : (i = .rampTimerExpiry ∧ s.hv.state = .ramp ∧ s.hv.rampTimer.isSome = true ∧ ramp = true) ∨
      (i = .dwellTimerExpiry ∧ s.hv.state = .dwell ∧ s.hv.dwellTimer.isSome = true ∧ ramp = false)) :
    exec i s = .next (s.hvExpired ramp).settled := by
  rcases h with ⟨rfl, hs, ht, rfl⟩ | ⟨rfl, hs, ht, rfl⟩
  · rw [exec, execRampTimerExpiry, event_taken hheld, if_pos (by simp [hs, ht])]
  · rw [exec, execDwellTimerExpiry, event_taken hheld, if_pos (by simp [hs, ht])]

/-! ### The discharge timer (R42, R134) -/

/-- A configuration abandoned, and a HOME in progress over with its frame withdrawn (R179). -/
def State.switchingHalted (s : State) : State :=
  if s.abandonConfiguration.seq.state = .homing then
    (s.abandonConfiguration.onSeq Sequencer.homeOver).onRing fun r =>
      { r with wait := r.wait.filter fun e => e.owner ≠ .home }
  else s.abandonConfiguration

theorem abandoned_switchingHalted (s : State) : s.abandoned s.switchingHalted := by
  have h := abandoned_abandonConfiguration s
  unfold State.switchingHalted
  generalize s.abandonConfiguration = y at *
  rw [State.abandoned] at h
  split
  · rw [State.abandoned, h]
    rfl
  · exact h

/-- SAFE-HALT, with the switching stopped (R179). -/
theorem setSafeHalt_eq (s : State) :
    s.setSafeHalt =
      ((((((s.onFault fun f => { f with safeHalt := true }).raise .safeHalt).switchingHalted.dropMsr.onSup fun u =>
        { u with pollList := [] }).onRing fun r =>
        { r with wait := r.wait.filter fun e => !e.isPoll }).hvAbandon).onHv fun h => { h with safeWait := false }) := rfl

/-- What SAFE-HALT changes of the HV Controller in DISCHARGE, of the run and of the fault record (R179). -/
theorem setSafeHalt_inDischarge (h : s.hv.state = .discharge) (hno : s.hv.streamWanted = false) :
    let t := s.setSafeHalt
    t.hv = { s.hv with ending := none, safeWait := false, net := none, work := .idle } ∧ t.run = s.run ∧
      t.fault = { s.fault with safeHalt := true } ∧
      ∀ e : Event, s.events.isPending e = true → t.events.isPending e = true := by
  intro t
  have ht : t = _ := setSafeHalt_eq s
  have hraise := raise_eq (s.onFault fun f => { f with safeHalt := true }) .safeHalt
  generalize State.raise _ _ = x at *
  have hhalted := abandoned_switchingHalted x
  generalize x.switchingHalted = y at *
  rw [State.abandoned] at hhalted
  have hyhv : y.hv = s.hv := by
    rw [hhalted, hraise]
    rfl
  have hdropped := msrDropped_dropMsr y
  have hkept := (dropMsr_unwanted (s := y) (by rw [hyhv]; exact hno)).1
  generalize y.dropMsr = w at *
  rw [State.msrDropped] at hdropped
  have hnet := netAbandoned_hvAbandon ((w.onSup fun u => { u with pollList := [] }).onRing fun r =>
    { r with wait := r.wait.filter fun e => !e.isPoll })
  rw [State.onRing_hv, State.onSup_hv, hkept, hyhv, Hv.abandoned_discharge h] at hnet
  generalize State.hvAbandon _ = z at *
  rw [State.netAbandoned] at hnet
  have hevents : z.events = { s.events with pending := s.events.pending ||| Event.safeHalt.bit } := by
    rw [hnet]
    change w.events = _
    rw [hdropped, hhalted, hraise]
    rfl
  rw [ht]
  refine ⟨?_, ?_, ?_, fun e he => ?_⟩
  · rw [hnet]
    rfl
  · rw [hnet]
    change w.run = _
    rw [hdropped, hhalted, hraise]
    rfl
  · rw [hnet]
    change w.fault = _
    rw [hdropped, hhalted, hraise]
    rfl
  · change z.events.isPending e = true
    rw [hevents]
    exact isPending_mono he _

/-- What the run's end by DISCHARGE-TIMEOUT leaves (R42, R45). -/
theorem enterDone_leaves (s : State) (term : Termination) :
    let t := s.enterDone term
    t.hv = { s.hv with net := none, work := .idle, hold := false } ∧ t.fault = s.fault ∧ t.run.state = .done ∧
      t.run.summary = { s.run.summary with term := some term } ∧ t.events.isPending .runEnd = true ∧
      ∀ e : Event, s.events.isPending e = true → t.events.isPending e = true := by
  intro t
  have hended := ended_eq s term
  have hpending := ended_pending s term
  have hwalks := (walks_enterDone s term).pending
  have hserved := (printRunEnds_served (s.ended term) term).1
  rw [← enterDone_eq] at hserved
  have ht : t = s.enterDone term := rfl
  clear_value t
  rw [← ht] at hserved hwalks
  generalize s.ended term = x at *
  rw [State.printServed] at hserved
  refine ⟨?_, ?_, ?_, ?_, ?_, hwalks⟩
  case refine_5 =>
    rw [hserved]
    exact hpending
  all_goals rw [hserved, hended] <;> rfl

/-- The fault of a discharge timer that expires (R134). -/
def State.timeoutReport (s : State) : FaultReport :=
  { code := .dischargeTimeout, hv := .discharge, net := s.hv.net, point := none, table := none }

/-- The state with DISCHARGE-TIMEOUT recorded. -/
def State.timeoutRecorded (s : State) : State :=
  (s.onHv fun h => { h with dischargeTimer := none, safeWait := false }).faultRecorded s.timeoutReport

/-- A discharge timer that expires is STUCK; a run in a fault response ends in SAFE-HALT, any other active run ends (R42,
R134). -/
theorem dischargeExpired_eq (s : State) :
    s.dischargeExpired =
      (if s.run.active = false then s.timeoutRecorded
        else if s.run.inFaultResponse = true then (s.timeoutRecorded.enterDone .fault).setSafeHalt
        else s.timeoutRecorded.enterDone .fault).onHv fun h => { h with state := .stuck } := by
  have hreport : (s.onHv fun h => { h with dischargeTimer := none, safeWait := false }).reportFault s.timeoutReport =
      if s.run.active = false then s.timeoutRecorded
      else if s.run.inFaultResponse = true then (s.timeoutRecorded.enterDone .fault).setSafeHalt
      else s.timeoutRecorded.enterDone .fault := by
    unfold State.reportFault State.timeoutRecorded State.faultRecorded
    simp only [State.onHv_run, Bool.not_eq_true', State.timeoutReport, if_true]
  exact congrArg (fun x : State => x.onHv fun h => { h with state := .stuck }) hreport

/-- The record of DISCHARGE-TIMEOUT changes the events, the fault record and the trunk transmit queue. -/
theorem timeoutRecorded_eq (s : State) :
    s.timeoutRecorded =
      { s with
        hv := { s.hv with dischargeTimer := none, safeWait := false }
        fault := s.fault.report (if s.run.active then s.run.step else none) s.timeoutReport
        events := s.timeoutRecorded.events
        trunk := s.timeoutRecorded.trunk } := by
  unfold State.timeoutRecorded State.faultRecorded
  rw [raise_eq]
  rfl

theorem report_valid (f : FaultMon) (step : Option Nat) (r : FaultReport) :
    (f.report step r).valid = true ∧
      (f.valid = false →
        (f.report step r).code = some r.code ∧ (f.report step r).hv = some r.hv ∧ (f.report step r).net = r.net) := by
  unfold FaultMon.report
  split
  · rename_i h
    exact ⟨h, fun hno => absurd h (by simp [hno])⟩
  · exact ⟨rfl, fun _ => ⟨rfl, rfl, rfl⟩⟩

/-- The discharge timer, by what the run is. -/
theorem dischargeExpired_leaves (hstate : s.hv.state = .discharge) (hno : s.hv.streamWanted = false) :
    let t := s.dischargeExpired
    t.hv.state = .stuck ∧ t.hv.dischargeTimer = none ∧ t.hv.safeWait = false ∧ t.events.isPending .fault = true ∧
      t.fault.valid = true ∧
      (s.fault.valid = false →
        t.fault.code = some .dischargeTimeout ∧ t.fault.hv = some .discharge ∧ t.fault.net = s.hv.net) ∧
      (s.run.active = false → t.run = s.run) ∧
      (s.run.active = true →
        t.run.state = .done ∧ t.run.summary = { s.run.summary with term := some .fault } ∧
          t.events.isPending .runEnd = true ∧ (s.run.inFaultResponse = true → t.fault.safeHalt = true)) := by
  intro t
  have ht : t = _ := dischargeExpired_eq s
  have hrecorded := timeoutRecorded_eq s
  have hpending : s.timeoutRecorded.events.isPending .fault = true := faultRecorded_pending _ _
  generalize s.timeoutRecorded = x at *
  have hxhv : x.hv = { s.hv with dischargeTimer := none, safeWait := false } := by rw [hrecorded]
  have hxrun : x.run = s.run := by rw [hrecorded]
  have hxfault : x.fault = s.fault.report (if s.run.active then s.run.step else none) s.timeoutReport := by rw [hrecorded]
  obtain ⟨hvalid, hfirst⟩ := report_valid s.fault (if s.run.active then s.run.step else none) s.timeoutReport
  rw [← hxfault] at hvalid hfirst
  by_cases hactive : s.run.active = true
  swap
  · rw [if_pos (by simpa using hactive)] at ht
    rw [ht]
    exact ⟨rfl, congrArg Hv.dischargeTimer hxhv, congrArg Hv.safeWait hxhv, hpending, hvalid, hfirst, fun _ => hxrun,
      fun h => absurd h hactive⟩
  rw [if_neg (by simpa using hactive)] at ht
  obtain ⟨h1, h2, h3, h4, h5, h6⟩ := enterDone_leaves x .fault
  generalize x.enterDone .fault = y at *
  rw [hxhv] at h1
  rw [hxrun] at h4
  by_cases hresponse : s.run.inFaultResponse = true
  · rw [if_pos hresponse] at ht
    obtain ⟨k1, k2, k3, k4⟩ := setSafeHalt_inDischarge (s := y) (by rw [h1]; exact hstate) (by rw [h1]; exact hno)
    generalize y.setSafeHalt = z at *
    rw [h1] at k1
    rw [h2] at k3
    have htfault : t.fault = { x.fault with safeHalt := true } := by rw [ht]; exact k3
    have htrun : t.run = y.run := by rw [ht]; exact k2
    have hthv : t.hv = { z.hv with state := .stuck } := by rw [ht]; rfl
    have htevents : t.events = z.events := by rw [ht]; rfl
    rw [hthv, k1, htfault, htrun, htevents]
    exact ⟨rfl, rfl, rfl, k4 _ (h6 _ hpending), hvalid, hfirst, fun h => absurd hactive (by simp [h]), fun _ =>
      ⟨h3, h4, k4 _ h5, fun _ => rfl⟩⟩
  · rw [if_neg hresponse] at ht
    have htfault : t.fault = x.fault := by rw [ht]; exact h2
    have htrun : t.run = y.run := by rw [ht]; rfl
    have hthv : t.hv = { y.hv with state := .stuck } := by rw [ht]; rfl
    have htevents : t.events = y.events := by rw [ht]; rfl
    rw [hthv, h1, htfault, htrun, htevents]
    exact ⟨rfl, rfl, rfl, h6 _ hpending, hvalid, hfirst, fun h => absurd hactive (by simp [h]), fun _ =>
      ⟨h3, h4, h5, fun h => absurd h hresponse⟩⟩

/-- The OFF-DISCHARGE of a test that its timer ends is on its way, and nothing of the run's state changes (R132). -/
theorem hvExpired_keeps (s : State) (ramp : Bool) :
    let t := s.hvExpired ramp
    t.mem = s.mem ∧ t.run.state = s.run.state ∧ t.hvcSent s.offPayload ∧
      t.hv =
        { s.hv.testEnded s.limits.timing.discharge with
          work := if s.arith.job = none ∧ s.arith.waiting = [] then .ended else .evaluating } := by
  intro t
  have ht : t = _ := hvExpired_eq s ramp
  obtain ⟨hhv, -, hrun, hmem, -, -, -, hsent⟩ := hvEnd_spec s
  by_cases hfree : s.arith.job = none ∧ s.arith.waiting = []
  · obtain ⟨y, hinserts, hevaluated⟩ := hvEvaluate_inserts s ramp
    rw [if_pos hfree, hevaluated, counted_eq] at ht
    have hstate := hinserts.runState (by rw [hhv]; exact HvState.noConfusion)
    rw [ht, if_pos hfree]
    have hkept : y.hvcSent s.offPayload := hvcSent_of_inserts hinserts hsent
    refine ⟨hinserts.mem.trans hmem, hstate.trans (congrArg Run.state hrun), hkept, ?_⟩
    exact hinserts.hv.trans hhv
  · rw [if_neg hfree] at ht
    rw [ht, if_neg hfree]
    refine ⟨hmem, congrArg Run.state hrun, hsent, ?_⟩
    exact congrArg (fun h : Hv => { h with work := .evaluating }) hhv

/-- Settles O57: the ramp and dwell timers by what the Arithmetic Unit and the list can take, and the discharge timer. -/
theorem hvTimersExpire : Obligations.HvTimersExpire := by
  refine fun s hheld => ⟨fun i ramp hi => ?_, fun hstate htimer hno => ?_⟩
  swap
  · refine ⟨s.dischargeExpired.settled, ?_, dischargeExpired_leaves hstate hno⟩
    rw [exec, execDischargeTimerExpiry, event_taken hheld, if_pos (by simp [hstate, htimer])]
  obtain ⟨hmem, hrun, hsent, hhv⟩ := hvExpired_keeps s ramp
  have hexpired := hvExpired_eq s ramp
  refine ⟨_, exec_hvTimer hheld hi, hmem, hrun, hsent, hhv, fun hbusy => ?_, fun hfree hdwell hpass => ?_,
    fun kind value lowv hfree hends key hkey => ?_⟩
  · obtain ⟨-, -, hended, -, hlist, -, harith, -⟩ := hvEnd_spec s
    rw [if_neg hbusy] at hexpired
    generalize s.hvEnd = z at *
    rw [hexpired, ← harith]
    exact ⟨rfl, hlist, hended⟩
  · have hevaluated : s.hv.evaluated ramp = (none, true) := by
      rw [hdwell]
      exact evaluated_pass hpass
    have hserved := hvEnd_served s
    rw [if_pos hfree, hvEvaluate_hvEnd, hevaluated, counted_eq] at hexpired
    dsimp only at hexpired
    generalize s.hvEnd = z at *
    rw [State.ringServed] at hserved
    rw [hexpired, hserved]
    exact ⟨rfl, rfl, rfl, rfl⟩
  · subst hkey
    have hrecord := evaluated_record (h := s.hv) hends
    obtain ⟨happend, hmerge, hdiscard, hhold⟩ := hvEnd_inserts s (s.hv.record kind value lowv)
    have hmeasured := (insert_inserts s.hvEnd (s.hv.record kind value lowv)).measurements
    rw [(hvEnd_spec s).2.2.1] at hmeasured
    rw [if_pos hfree, hvEvaluate_hvEnd, hrecord, counted_eq] at hexpired
    dsimp only at hexpired
    generalize (s.hvEnd.insert _).1 = y at *
    rw [hexpired]
    refine ⟨?_, happend, hmerge, hdiscard, hhold⟩
    change (if decide (kind ≠ .untested) then min 4294967295 (y.run.summary.measurements + 1)
      else y.run.summary.measurements) = _
    rw [hmeasured]
    by_cases hkind : kind = .untested
    · rw [if_pos hkind, if_neg (by simp [hkind])]
    · rw [if_neg hkind, if_pos (by simp [hkind])]

end Sys2Proof.Machine
end

section
/-! PROOFS. The head frame of the ring transmit queue is sent (R53, R61, R67, R78, R171): O49. -/

namespace Sys2Proof.Machine

variable {s t x : State} {e w : RingEntry} {rest others : List RingEntry}

/-! ### The room that the head frame leaves (R67, R171) -/

/-- The state that the frames of the wait list find as the head frame leaves the queue. -/
def State.headTaken (s : State) (rest : List RingEntry) : State := s.onRing fun r => { r with queue := rest }

theorem headTaken_free (hwait : s.ring.wait = []) (hpoll : s.sup.pollList = []) (rest : List RingEntry) :
    (s.headTaken rest).pump = { s with ring := { s.ring with queue := rest } } :=
  fillQueue_nothing (s := s.headTaken rest) hpoll hwait 9

theorem fillQueue_full (h : 8 ≤ s.offerPoll.ring.queue.length) (n : Nat) : s.fillQueue (n + 1) = s.offerPoll := by
  rw [State.fillQueue, if_pos h]

/-- With nothing waiting the POL of the first address of the poll list waits next (R67). -/
theorem offerPoll_next (hwait : s.ring.wait = []) :
    s.offerPoll = { s with ring := { s.ring with wait := (s.sup.pollList.take 1).map pollEntry } } := by
  unfold State.offerPoll
  cases hp : s.sup.pollList with
  | nil =>
    dsimp only
    rw [List.take_nil, List.map_nil, ← hwait]
  | cons a more =>
    dsimp only
    rw [hwait, List.any_nil, if_neg Bool.false_ne_true, State.onRing, hwait]
    rfl

/-- The POL that waits is not handed over again (R67). -/
theorem offerPoll_waits (h : s.sup.pollList = [] ∨ ∃ a, ∃ y ∈ s.ring.wait, y.owner = .poll a) : s.offerPoll = s := by
  rcases h with h | ⟨a, y, hy, howner⟩
  · exact offerPoll_nothing h
  · unfold State.offerPoll
    split
    · rfl
    · refine if_pos (List.any_eq_true.mpr ⟨y, hy, ?_⟩)
      rw [RingEntry.isPoll, howner]

/-- The POL that waits, or the first of the poll list, takes the room, and that of the next address waits (R67). -/
theorem headTaken_poll {a : Nat} (hlen : rest.length = 7)
    (h : (s.ring.wait = [] ∧ s.sup.pollList.head? = some a) ∨ s.ring.wait = [pollEntry a]) :
    (s.headTaken rest).pump =
      { s with
        sup := { s.sup with pollList := s.sup.pollList.erase a }
        ring :=
          Ring.placed { s.ring with queue := rest, wait := ((s.sup.pollList.erase a).take 1).map pollEntry } a clsPol []
            (.poll a) } := by
  have hoffered : (s.headTaken rest).offerPoll = { s with ring := { s.ring with queue := rest, wait := [pollEntry a] } } := by
    rcases h with ⟨hwait, hhead⟩ | hwait
    · rw [offerPoll_next (by exact hwait)]
      have htake : s.sup.pollList.take 1 = [a] := by
        cases hp : s.sup.pollList with
        | nil => simp [hp] at hhead
        | cons b more =>
          rw [hp] at hhead
          simpa using hhead
      change { s with ring := { s.ring with queue := rest, wait := (s.sup.pollList.take 1).map pollEntry } } = _
      rw [htake]
      rfl
    · rw [offerPoll_waits (.inr ⟨a, pollEntry a, by change _ ∈ s.ring.wait; rw [hwait]; exact List.mem_cons_self, rfl⟩)]
      rw [← hwait]
      rfl
  rw [State.pump, fillQueue_places hoffered (by change rest.length < 8; omega) rfl]
  have hnext : State.offerPoll { s with
      sup := { s.sup with pollList := s.sup.pollList.erase a }
      ring := Ring.placed { s.ring with queue := rest, wait := [] } a clsPol [] (.poll a) } = { s with
      sup := { s.sup with pollList := s.sup.pollList.erase a }
      ring := Ring.placed { s.ring with queue := rest, wait := ((s.sup.pollList.erase a).take 1).map pollEntry } a clsPol []
        (.poll a) } := offerPoll_next rfl
  refine (fillQueue_full (s := { s with
      sup := { s.sup with pollList := s.sup.pollList.erase a }
      ring := Ring.placed { s.ring with queue := rest, wait := [] } a clsPol [] (.poll a) }) ?_ 7).trans hnext
  rw [hnext]
  simp [Ring.placed, hlen]

/-- The ring with the oldest waiting frame placed as the head frame leaves. -/
def Ring.takenOver (r : Ring) (rest : List RingEntry) (w : RingEntry) (others : List RingEntry) : Ring :=
  { r with
    queue := rest ++ [{ w with frame := { w.frame with tag := byte r.ownTag } }]
    wait := others, ownTag := (r.ownTag + 1) % 128 }

/-- Any other oldest waiting frame takes the room, with what its placing does for its owner (R171). -/
theorem headTaken_waiting (hwait : s.ring.wait = w :: others) (hlen : rest.length < 8)
    (hpoll : s.sup.pollList = [] ∨ ∃ a, ∃ y ∈ others, y.owner = .poll a) (hroom : others = [] ∨ rest.length = 7)
    (hown : ∀ a, w.owner ≠ .poll a) :
    (s.headTaken rest).pump = { s with ring := s.ring.takenOver rest w others }.placedAct w.owner s.ring.ownTag := by
  have hoffered : (s.headTaken rest).offerPoll = s.headTaken rest := by
    refine offerPoll_waits (hpoll.imp id ?_)
    rintro ⟨a, y, hy, howner⟩
    exact ⟨a, y, by change y ∈ s.ring.wait; rw [hwait]; exact List.mem_cons_of_mem _ hy, howner⟩
  rw [State.pump, fillQueue_places hoffered hlen (by exact hwait)]
  have hring : ({ s with ring := s.ring.takenOver rest w others }.placedAct w.owner s.ring.ownTag).ring =
      s.ring.takenOver rest w others := placedAct_ring _ _ _
  have hsup : ({ s with ring := s.ring.takenOver rest w others }.placedAct w.owner s.ring.ownTag).sup = s.sup := by
    unfold State.placedAct
    cases howner : w.owner with
    | poll a => exact absurd howner (hown a)
    | hvc n closing =>
      dsimp only
      split <;> rfl
    | switch m | home | msr | passThrough => rfl
  change State.fillQueue 8 ({ s with ring := s.ring.takenOver rest w others }.placedAct w.owner s.ring.ownTag) = _
  generalize State.placedAct _ _ _ = z at *
  have hstays : z.offerPoll = z := by
    refine offerPoll_waits ?_
    rw [hsup, hring]
    exact hpoll
  rcases hroom with hnone | hseven
  · refine fillQueue_nothing ?_ ?_ 8
    · rw [hsup]
      refine hpoll.resolve_right ?_
      rintro ⟨a, y, hy, -⟩
      simp [hnone] at hy
    · rw [hring]
      exact hnone
  · refine (fillQueue_full ?_ 7).trans hstays
    rw [hstays, hring]
    simp [Ring.takenOver, hseven]

/-! ### What the sending does for the owner of the frame (R53, R61, R78) -/

theorem exec_ringSent (hheld : s.rst.held = false) (hqueue : s.ring.queue = e :: rest) :
    exec .ringFrameSent s =
      .next (State.settled
        (if e.frame.cls = clsSw && s.hv.state ≠ .safe then (s.headTaken rest).pump
         else (s.headTaken rest).pump.sentAct e)) := by
  rw [exec, execRingFrameSent, event_taken hheld, State.ringSent, hqueue]
  rfl

theorem msrSent_eq {tag : Nat} (hstate : s.mc.state = .msrQueued) (htag : s.mc.curTag = some tag) :
    s.msrSent tag = { s with mc := { s.mc with state := .msrWait, timer := some s.limits.timing.sample } } := by
  rw [State.msrSent, if_pos (by simp [hstate, htag])]
  rfl

theorem switchSent_eq {m : Nat} (hm : 1 ≤ m) (tag : Nat) :
    s.switchSent m tag =
      { s with seq := { s.seq with
          transactions := s.seq.transactions.map fun t =>
            if t.module = m ∧ t.phase = .queued ∧ t.tag = some tag then
              { t with phase := .sent, timer := some s.limits.timing.echo }
            else t
          believed := s.seq.believed.set (m - 1) none } } := by
  rw [State.switchSent, State.believe, if_pos hm]
  refine congrArg (fun ts => ({ s with
    seq := { s.seq with transactions := ts, believed := s.seq.believed.set (m - 1) none } } : State)) ?_
  refine List.map_congr_left fun t _ => ?_
  by_cases hmod : t.module = m
  · by_cases hboth : t.phase = .queued ∧ t.tag = some tag
    · simp [hmod, hboth]
    · exact (if_pos hmod).trans ((if_neg (by simpa using hboth)).trans (if_neg fun h => hboth h.2).symm)
  · exact (if_neg hmod).trans (if_neg fun h => hmod h.1).symm

/-- The believed states with every configured module UNKNOWN (R61). -/
def State.forgotten (s : State) : List (Option Masks) :=
  s.seq.believed.zipIdx.map fun x : Option Masks × Nat => if s.channels (x.2 + 1) = 0 then x.1 else none

theorem homeSent_eq {tag : Nat} (hstate : s.seq.state = .homing) (htag : s.seq.home.tag = some tag) :
    s.homeSent tag =
      { s with seq := { s.seq with
          believed := s.forgotten, home := { s.seq.home with timer := some s.limits.timing.echo } } } := by
  have hforgets : s.forgetModules = { s with seq := { s.seq with believed := s.forgotten } } := by
    refine congrArg (fun b => ({ s with seq := { s.seq with believed := b } } : State)) ?_
    refine List.map_congr_left fun y _ => ?_
    by_cases h : s.channels (y.2 + 1) = 0 <;> simp [h]
  rw [State.homeSent, hforgets]
  exact if_pos (by simp [hstate, htag])

theorem allAnswered_iff (h : Home) : h.allAnswered = true ↔ ∀ a ∈ h.expected, a ∈ h.answered := by
  simp [Home.allAnswered]

theorem homeFrameSent_waits {tag : Nat} (hstate : s.seq.state = .homing) (htag : s.seq.home.tag = some tag)
    (h : ∃ a ∈ s.seq.home.expected, a ∉ s.seq.home.answered) :
    s.homeFrameSent tag =
      { s with seq := { s.seq with
          believed := s.forgotten, home := { s.seq.home with timer := some s.limits.timing.echo } } } := by
  have hno : ¬s.seq.home.allAnswered = true := by
    rw [allAnswered_iff]
    obtain ⟨a, ha, hna⟩ := h
    exact fun hall => hna (hall a ha)
  rw [State.homeFrameSent, homeSent_eq hstate htag]
  exact if_neg fun hall => hno (Bool.and_eq_true_iff.mp hall).2

/-- With nothing to wait for the HOME ends as its frame is sent, and the start of a run goes on (R25, R61). -/
theorem homeFrameSent_starts {tag first : Nat} (hstate : s.seq.state = .homing) (htag : s.seq.home.tag = some tag)
    (h : ∀ a ∈ s.seq.home.expected, a ∈ s.seq.home.answered) (hwait : s.run.waiting = .startHome first)
    (hno : s.run.pauseReq = false) :
    s.homeFrameSent tag =
      { s with
        seq := Sequencer.homeOver { s.seq with believed := s.forgotten }
        run := { s.run with waiting := .stepRead first }
        port := { queue := s.port.queue ++ [readFor .steps first .runRead] } } := by
  have hall := (allAnswered_iff s.seq.home).mpr h
  rw [State.homeFrameSent, homeSent_eq hstate htag]
  refine (if_pos ?_).trans (homeEnd_starts (s := { s with seq := { s.seq with
    believed := s.forgotten, home := { s.seq.home with timer := some s.limits.timing.echo } } }) hwait hno)
  exact Bool.and_eq_true_iff.mpr ⟨by simp [hstate, htag], hall⟩

/-! ### The head frame is sent (O49) -/

/-- What a frame that takes the room may change, where its owner is a POL: the ring and the poll list. -/
theorem sent_left (hheld : s.rst.held = false) (hqueue : s.ring.queue = e :: rest) {r : Ring} {polls : List Nat}
    (hleft : (s.headTaken rest).pump = { s with ring := r, sup := { s.sup with pollList := polls } }) :
    exec .ringFrameSent s =
      .next (State.settled
        (if e.frame.cls = clsSw && s.hv.state ≠ .safe then { s with ring := r, sup := { s.sup with pollList := polls } }
         else State.sentAct { s with ring := r, sup := { s.sup with pollList := polls } } e)) := by
  rw [exec_ringSent hheld hqueue, hleft]

/-- Settles O49: the head frame by its owner, with what takes the room it leaves. -/
theorem ringFrameSent : Obligations.RingFrameSent := by
  intro s e rest hheld hqueue hlen poll
  refine ⟨fun left hleft => ?_, fun w others hwait howner hpoll hroom => ?_⟩
  · obtain ⟨r, polls, hl, hpump⟩ : ∃ r polls, left = { s with ring := r, sup := { s.sup with pollList := polls } } ∧
        (s.headTaken rest).pump = { s with ring := r, sup := { s.sup with pollList := polls } } := by
      rcases hleft with ⟨hwait, hnone, rfl⟩ | ⟨a, hseven, hcase, rfl⟩
      · exact ⟨_, s.sup.pollList, rfl, headTaken_free hwait hnone rest⟩
      · exact ⟨_, _, rfl, headTaken_poll hseven hcase⟩
    have hexec := sent_left hheld hqueue hpump
    subst hl
    refine ⟨fun hcls hnotSafe => ?_, fun howner => ?_, fun howner hcls hstate htag => ?_, fun m howner hm hsafe => ?_,
      fun howner hsafe hstate htag => ⟨fun hmore => ?_, fun first hall hwait hno => ?_⟩⟩
    · rw [hexec, if_pos (by simp [hcls, hnotSafe])]
    · rw [hexec]
      have hnothing : ∀ x : State, x.sentAct e = x := fun x => by
        rw [State.sentAct]
        rcases howner with ⟨a, h⟩ | h | ⟨n, closing, h⟩ <;> rw [h]
      rw [hnothing, ite_self]
    · rw [hexec, if_neg (by rw [hcls]; simp [clsMsr, clsSw]), State.sentAct, howner]
      exact congrArg (fun x => Host.Outcome.next (State.settled x)) (msrSent_eq hstate htag)
    · rw [hexec, if_neg (by simp [hsafe]), State.sentAct, howner]
      exact congrArg (fun x => Host.Outcome.next (State.settled x)) (switchSent_eq hm _)
    · rw [hexec, if_neg (by simp [hsafe]), State.sentAct, howner]
      exact congrArg (fun x => Host.Outcome.next (State.settled x)) (homeFrameSent_waits hstate htag hmore)
    · rw [hexec, if_neg (by simp [hsafe]), State.sentAct, howner]
      exact congrArg (fun x => Host.Outcome.next (State.settled x)) (homeFrameSent_starts hstate htag hall hwait hno)
  · have hexec : ∀ owner, w.owner = owner → (∀ a, owner ≠ .poll a) → exec .ringFrameSent s =
        .next ({ s with ring := s.ring.takenOver rest w others }.placedAct owner s.ring.ownTag).settled := by
      rintro _ rfl hown
      have hnothing : ∀ x : State, x.sentAct e = x := fun x => by rw [State.sentAct, howner]
      rw [exec_ringSent hheld hqueue, hnothing, ite_self, headTaken_waiting hwait hlen hpoll hroom hown]
    refine ⟨fun hw => ?_, fun m hw => ?_, fun hw => ?_, fun hw hstream => ?_, fun n hw => ?_⟩
    all_goals
      rw [hexec _ hw fun _ => RingOwner.noConfusion]
    · rfl
    · refine congrArg (fun ts => Host.Outcome.next (State.settled { s with
        ring := s.ring.takenOver rest w others, seq := { s.seq with transactions := ts } })) ?_
      refine List.map_congr_left fun t _ => ?_
      by_cases h : t.module = m ∧ t.phase = .waiting
      · rw [if_pos h, if_pos (by simpa using h)]
      · rw [if_neg h, if_neg (by simpa using h)]
    · rfl
    · exact congrArg (fun x => Host.Outcome.next (State.settled x)) (if_pos (by simp [hstream]))
    · rw [placedAct_closing]
      rfl

end Sys2Proof.Machine
end

section
/-! PROOFS. Records that leave the defect list, and the record that a removal lets in (R39, R150): for O43. -/

namespace Sys2Proof.Machine

variable {s : State}

/-! ### A reply stays in the trunk transmit queue (R173) -/

theorem mem_noticeDue {e : TrunkEntry} (hmem : e ∈ s.trunk.queue) (hkind : e.kind ≠ .notice) :
    e ∈ s.noticeDue.trunk.queue := by
  have hparts : e ∈ s.trunk.sent ∨ e ∈ s.trunk.unsent := by
    unfold Trunk.sent Trunk.unsent
    split
    · rw [← List.mem_append, List.take_append_drop]
      exact hmem
    · exact .inr hmem
  rw [State.noticeDue]
  split
  · split <;> simp only [State.onTrunk, List.mem_append, List.mem_cons, List.mem_filter, List.mem_map]
    · exact hparts.imp id fun h => .inr ⟨h, by simpa using hkind⟩
    · exact hparts.imp id fun h => ⟨e, h, if_neg hkind⟩
  · split
    · exact hmem
    · split <;> simp only [State.onTrunk, List.mem_append, List.mem_cons]
      · exact hparts.imp id .inr
      · exact .inl hparts

theorem mem_raise {e : TrunkEntry} (hmem : e ∈ s.trunk.queue) (hkind : e.kind ≠ .notice) (event : Event) :
    e ∈ (s.raise event).trunk.queue := by
  rw [State.raise]
  split
  · exact hmem
  · split
    · exact hmem
    · exact mem_noticeDue hmem hkind

theorem mem_appendedBy {e : TrunkEntry} (hmem : e ∈ s.trunk.queue) (hkind : e.kind ≠ .notice) (r : Insert) :
    e ∈ (s.appendedBy r).trunk.queue :=
  mem_raise (s := (s.onDefects fun ds => ds ++ [s.newRecord r.key r.value r.lowv]).onRun fun x => x.inserted.appended)
    hmem hkind _

theorem mem_reply (s : State) (tag code : Byte) (r : Result) (data : List Byte) :
    ({ frame := replyFrame tag code r data, kind := .reply } : TrunkEntry) ∈ (s.reply tag code r data).trunk.queue :=
  List.mem_append_right _ (List.mem_singleton_self _)

/-! ### Records removed by their seqs (R150) -/

theorem State.listSound.eq_of_seq (h : s.listSound) {d e : Defect} (hd : d ∈ s.defects) (he : e ∈ s.defects)
    (heq : d.seq = e.seq) : d = e :=
  List.inj_on_of_nodup_map (List.pairwise_map.2 (h.2.2.1.imp fun hlt => Nat.ne_of_lt hlt)) hd he heq

/-- The records that are not of a number of seqs. -/
theorem removeSeq_foldl (ns : List Nat) (ds : List Defect) :
    ns.foldl removeSeq ds = ds.filter fun d => decide (d.seq ∉ ns) := by
  induction ns generalizing ds with
  | nil => simp
  | cons n ns ih =>
    rw [List.foldl_cons, ih, removeSeq, List.filter_filter]
    refine List.filter_congr fun d _ => ?_
    simp [Bool.and_comm]

theorem mem_seqs (h : s.listSound) (p : Defect → Bool) {d : Defect} (hd : d ∈ s.defects) :
    d.seq ∈ (s.defects.filter p).map (·.seq) ↔ p d = true := by
  simp only [List.mem_map, List.mem_filter]
  constructor
  · rintro ⟨e, ⟨he, hp⟩, hseq⟩
    rwa [← h.eq_of_seq he hd hseq]
  · exact fun hp => ⟨d, ⟨hd, hp⟩, rfl⟩

theorem removeSeq_length_lt {ds : List Defect} {d : Defect} (hd : d ∈ ds) : (removeSeq ds d.seq).length < ds.length :=
  List.length_filter_lt_length_iff_exists.mpr ⟨d, hd, by simp⟩

/-! ### Removals, and the held record that the first of them lets in (R39, R150) -/

theorem removalReported_noSlot (h : s.run.slot = none) : s.removalReported = s := by
  rw [State.removalReported, h]

theorem removeRecord_foldl_noSlot (h : s.run.slot = none) (ns : List Nat) :
    ns.foldl State.removeRecord s = { s with defects := ns.foldl removeSeq s.defects } := by
  induction ns generalizing s with
  | nil => rfl
  | cons n ns ih =>
    rw [List.foldl_cons, State.removeRecord, removalReported_noSlot (by exact h), ih (by exact h)]
    rfl

theorem removeRecord_foldl_letsIn {n : Nat} {ns : List Nat} {new : Defect}
    (hnew : (State.removalReported { s with defects := removeSeq s.defects n }).defects = removeSeq s.defects n ++ [new])
    (hne : new.seq ∉ ns) (hslot : (State.removalReported { s with defects := removeSeq s.defects n }).run.slot = none) :
    (n :: ns).foldl State.removeRecord s =
      { State.removalReported { s with defects := removeSeq s.defects n } with
        defects := (n :: ns).foldl removeSeq s.defects ++ [new] } := by
  rw [List.foldl_cons]
  refine (removeRecord_foldl_noSlot (s := s.removeRecord n) hslot ns).trans ?_
  have happend : ns.foldl removeSeq (removeSeq s.defects n ++ [new]) = (n :: ns).foldl removeSeq s.defects ++ [new] := by
    rw [List.foldl_cons, removeSeq_foldl, removeSeq_foldl, List.filter_append]
    simp [hne]
  rw [← happend, ← hnew]
  rfl

end Sys2Proof.Machine
end

section
/-! PROOFS. The commands of the Print Engine (R159 to R162): O43. -/

namespace Sys2Proof.Machine

variable {s t : State}

/-! ### PRINT DISABLE takes effect (R39, R150, R161) -/

/-- The chip with printing OFF and the line in hand discarded, before any record leaves (R161, log 55). -/
def State.linesDiscarded (s : State) : State :=
  { s with print := s.print.off, port := s.port.give fun o => o = .print, arith := s.arith.dropFormat }

def retiredSeqs (ds : List Defect) : List Nat := (ds.filter (·.retired)).map (·.seq)

theorem printOff_eq (s : State) : s.printOff = (retiredSeqs s.defects).foldl State.removeRecord s.linesDiscarded := rfl

theorem removeSeq_retired (h : s.listSound) :
    (retiredSeqs s.defects).foldl removeSeq s.defects = s.defects.filter fun d => !d.retired := by
  rw [removeSeq_foldl]
  refine List.filter_congr fun d hd => ?_
  have hmem : d.seq ∈ retiredSeqs s.defects ↔ d.retired = true := mem_seqs h _ hd
  cases hret : d.retired <;> simp [hmem, hret]

/-- With no record held, or none RETIRED, the RETIRED records only leave (R150, R161). -/
theorem printOff_removes (h : s.listSound) (hnone : s.run.slot = none ∨ ∀ d ∈ s.defects, d.retired = false) :
    s.printOff = { s.linesDiscarded with defects := s.defects.filter fun d => !d.retired } := by
  rw [printOff_eq]
  rcases hnone with hslot | hstay
  · rw [removeRecord_foldl_noSlot (by exact hslot), ← removeSeq_retired h]
    rfl
  · have hempty : retiredSeqs s.defects = [] := by
      simpa [retiredSeqs, List.filter_eq_nil_iff] using hstay
    rw [hempty, List.filter_eq_self.mpr fun d hd => by simp [hstay d hd]]
    rfl

/-- A removal lets the held record in: with printing OFF and the run not STALLED it is appended (R39, R144). -/
theorem removalReported_off {r : Insert} (hslot : s.run.slot = some r) (hrun : s.run.state ≠ .stalled)
    (happ : s.appends r.key) (hoff : s.print.state = .off) :
    s.removalReported = (s.onRun fun x => { x with slot := none }).appendedBy r := by
  rw [State.removalReported, hslot]
  dsimp only
  rw [if_neg hrun, insert_appended_off (by exact happ) (by exact hoff)]

/-- The first of the RETIRED records lets the held record in (R39, R161). -/
theorem printOff_letsIn {r : Insert} (h : s.listSound) (hslot : s.run.slot = some r)
    (hretired : ∃ d ∈ s.defects, d.retired = true) (hrun : s.run.state = .running)
    (hkey : ∀ d ∈ s.defects, d.key ≠ r.key) (hlimit : s.run.summary.defects < s.limits.timing.defectLimit) :
    ∃ ds, s.printOff =
      { (State.appendedBy ({ s.linesDiscarded with defects := ds }.onRun fun x => { x with slot := none }) r) with
        defects := (s.defects.filter fun d => !d.retired) ++ [s.newRecord r.key r.value r.lowv] } := by
  obtain ⟨d, hd, hret⟩ := hretired
  have hmem : d.seq ∈ retiredSeqs s.defects := (mem_seqs h _ hd).mpr hret
  cases hseqs : retiredSeqs s.defects with
  | nil => simp [hseqs] at hmem
  | cons n ns =>
    have hfirst : n ∈ retiredSeqs s.defects := by simp [hseqs]
    obtain ⟨e, he, rfl⟩ := List.mem_map.mp hfirst
    have hlen := removeSeq_length_lt (List.mem_filter.mp he).1
    have hin : State.removalReported { s.linesDiscarded with defects := removeSeq s.defects e.seq } =
        State.appendedBy ({ s.linesDiscarded with defects := removeSeq s.defects e.seq }.onRun
          fun x => { x with slot := none }) r :=
      removalReported_off (by exact hslot) (by simp [State.linesDiscarded, hrun])
        ⟨fun x hx => hkey x (List.mem_filter.mp hx).1, hlimit, Nat.lt_of_lt_of_le hlen h.1⟩ rfl
    have hnew : (s.newRecord r.key r.value r.lowv).seq ∉ ns := fun hns => by
      have hall : ∀ m ∈ retiredSeqs s.defects, m ≤ s.run.summary.defects := by
        simp only [retiredSeqs, List.mem_map, List.mem_filter]
        rintro _ ⟨x, ⟨hx, -⟩, rfl⟩
        exact h.2.2.2.1 x hx
      exact absurd (hall _ (by rw [hseqs]; exact List.mem_cons_of_mem _ hns)) (Nat.not_succ_le_self _)
    refine ⟨removeSeq s.defects e.seq, ?_⟩
    rw [printOff_eq, hseqs, ← removeSeq_retired h, ← hin, hseqs]
    exact removeRecord_foldl_letsIn (s := s.linesDiscarded)
      ((congrArg State.defects hin).trans (by rw [appendedBy_eq]; rfl)) hnew
      ((congrArg (fun x : State => x.run.slot) hin).trans (by rw [appendedBy_eq]; rfl))

/-! ### The commands (R161, R162) -/

theorem printDisable_takesEffect (hoff : s.print.state ≠ .off) (hsend : s.print.state ≠ .send) :
    s.printDisable = s.printOff := by
  rw [State.printDisable]
  split
  · next h => exact absurd h hoff
  · next h => exact absurd h hsend
  · rfl

theorem printEnable_already (hoff : s.print.state ≠ .off) (hsend : s.print.state ≠ .send) : s.printEnable = s := by
  rw [State.printEnable]
  split
  · next h => exact absurd h hoff
  · next h => exact absurd h hsend
  · rfl

/-- A look for work that follows the reply of its command. -/
theorem looked_replied (s : State) (tag code : Byte) :
    ∃ y, s.looked y ∧
      (.next ((s.reply tag code .ok).printLook).settled : Answer) = .next (y.replied tag code .ok []) :=
  ⟨s.printLook, printLook_looked s, congrArg _ (reply_printLook s tag code .ok [])⟩

theorem exec_printEnable (hs : s.takesCommands) (tag : Byte) :
    exec (.printEnable tag []) s = .next ((s.reply tag 0x1B .ok).printEnable).settled := by
  rw [exec, execPrintEnable, bareCommand_taken hs]

theorem exec_printDisable (hs : s.takesCommands) (tag : Byte) :
    exec (.printDisable tag []) s = .next ((s.reply tag 0x1C .ok).printDisable).settled := by
  rw [exec, execPrintDisable, bareCommand_taken hs]

theorem beginChar_sendingLine {second : Bool} (h : s.print.bufferIn .sending = some second) :
    (s.onPrint fun p => { p with state := .send }).beginChar =
      s.sendingLine s.print (s.print.buffer second).text s.print.sendPos := by
  rw [beginChar_eq _ second (by exact h)]
  rfl

theorem printGo_heldReady {second : Bool} (hsending : s.print.bufferIn .sending = none)
    (hready : s.print.bufferIn .ready = some second) :
    s.printGoHeld =
      (s.sendingLine (s.print.onBuffer second fun b => { b with state := .sending }) (s.print.buffer second).text 0).printLook := by
  rw [State.printGoHeld, hready]
  dsimp only
  rw [startSending_eq s second hsending]

theorem printGo_heldEmpty (hready : s.print.bufferIn .ready = none) :
    s.printGoHeld =
      State.printLook { s with print :=
        { s.print with state := if s.print.bufferIn .formatting = none then .idle else .format } } := by
  rw [State.printGoHeld, hready]
  dsimp only
  cases h : s.print.bufferIn .formatting <;> simp [State.onPrint, h]

/-- Settles O43: each command by print state, with the look for work or the removals that follow. -/
theorem printCommands : Obligations.PrintCommands := by
  intro s tag hs
  refine ⟨fun hoff => ?_, fun hsend => ⟨fun hreq => ?_, fun hreq => ?_, ?_⟩, fun hoff hsend => ?_, fun hoff => ?_,
    fun hoff hsend hsound => ⟨fun hnone => ?_, fun r hslot hretired hrun hkey hlimit => ?_⟩, fun hstate => ?_,
    fun hstate => ?_, fun hheld => ?_, fun hoff => ?_, fun busy => ?_⟩
  · rw [exec_printEnable hs, State.printEnable, show (s.reply tag 0x1B .ok).print.state = .off from hoff]
    exact looked_replied { s with print := { s.print with state := .idle } } tag 0x1B
  · rw [exec_printEnable hs, State.printEnable, show (s.reply tag 0x1B .ok).print.state = .send from hsend]
    exact congrArg Host.Outcome.next ((congrArg State.settled (if_neg (by
      change ¬s.print.disableReq = true
      simp [hreq]))).trans (reply_settled ..))
  · rw [exec_printEnable hs, State.printEnable, show (s.reply tag 0x1B .ok).print.state = .send from hsend]
    dsimp only
    rw [if_pos (by exact hreq)]
    exact looked_replied { s with print := { s.print with disableReq := false } } tag 0x1B
  · rw [exec_printDisable hs, State.printDisable, show (s.reply tag 0x1C .ok).print.state = .send from hsend]
    exact congrArg Host.Outcome.next
      (reply_settled { s with print := { s.print with disableReq := true } } tag 0x1C .ok [])
  · rw [exec_printEnable hs, printEnable_already (by exact hoff) (by exact hsend), reply_settled]
  · rw [exec_printDisable hs, State.printDisable, show (s.reply tag 0x1C .ok).print.state = .off from hoff]
    exact congrArg Host.Outcome.next (reply_settled ..)
  · rw [exec_printDisable hs, printDisable_takesEffect (by exact hoff) (by exact hsend), printOff_removes (by exact hsound) (by exact hnone)]
    exact congrArg Host.Outcome.next (reply_settled { s with
      print := { Print.reset with copies := s.print.copies }
      port := s.port.give fun o => o = .print
      arith := s.arith.dropFormat
      defects := s.defects.filter fun d => !d.retired } tag 0x1C .ok [])
  · obtain ⟨ds, hin⟩ := printOff_letsIn (s := s.reply tag 0x1C .ok) (by exact hsound) (by exact hslot)
      (by exact hretired) (by exact hrun) (by exact hkey) (by exact hlimit)
    refine ⟨((s.reply tag 0x1C .ok).printOff).settled, ?_, ?_⟩
    · rw [exec_printDisable hs, printDisable_takesEffect (by exact hoff) (by exact hsend)]
    · have hreply := mem_reply s tag 0x1C .ok []
      rw [hin]
      refine ⟨?_, rfl, ?_, ?_, ?_, ?_, appendedBy_pending _ _, mem_appendedBy (by exact hreply) (by simp) r⟩
      all_goals
        dsimp only [State.settled]
        rw [appendedBy_eq]
      exacts [rfl, rfl, hrun, rfl, rfl]
  · rw [exec, execPrintHold, bareCommand_taken hs]
    rcases hstate with h | h <;> simp only [h] <;>
      exact congrArg Host.Outcome.next
        (reply_settled { s with print := { s.print with state := .held } } tag 0x1D .ok [])
  · rw [exec, execPrintHold, bareCommand_taken hs]
    have hbody := reply_settled { s with print := { s.print with holdReq := true } } tag 0x1D .ok []
    split
    · next h => simp [h] at hstate
    · next h => simp [h] at hstate
    · exact congrArg Host.Outcome.next hbody
    · exact congrArg Host.Outcome.next hbody
    · next h => simp [h] at hstate
    · next h => simp [h] at hstate
  · rw [exec, execPrintHold, bareCommand_taken hs]
    simp only [hheld, reply_settled]
  · rw [exec, execPrintHold, bareCommand_taken hs]
    simp only [hoff, reply_settled]
  · have hgone : ({ s with pins := { s.pins with prnBusy := busy } } : State).takesCommands := hs
    have hexec : exec (.printGo tag [] busy) s = execPrintGo tag [] busy s := rfl
    rw [execPrintGo, State.onPins, bareCommand_taken hgone] at hexec
    refine ⟨fun hheld hfaulted => ?_, fun hheld hsending => ⟨fun second hready => ?_, fun hready => ?_⟩,
      fun second hfaulted hsending => ?_⟩
    · rw [hexec]
      dsimp only
      split
      · next h => exact absurd h hheld
      · next h => exact absurd h hfaulted
      · rw [reply_settled]
    · rw [hexec]
      simp only [hheld]
      rw [printGo_heldReady (by exact hsending) (by exact hready)]
      exact looked_replied (State.sendingLine { s with pins := { s.pins with prnBusy := busy } }
        (s.print.onBuffer second fun b => { b with state := .sending }) (s.print.buffer second).text 0) tag 0x1E
    · rw [hexec]
      simp only [hheld]
      rw [printGo_heldEmpty (by exact hready)]
      exact looked_replied { s with
        pins := { s.pins with prnBusy := busy }
        print := { s.print with state := if s.print.bufferIn .formatting = none then .idle else .format } } tag 0x1E
    · rw [hexec]
      simp only [hfaulted]
      rw [State.printGoFaulted, beginChar_sendingLine (by exact hsending)]
      exact looked_replied (State.sendingLine { s with pins := { s.pins with prnBusy := busy } }
        s.print (s.print.buffer second).text s.print.sendPos) tag 0x1E

end Sys2Proof.Machine
end

section
/-! PROOFS. RETIRE DEFECTS with a record held by the last visit of a run (R27, R39, R44, R147): the refutation of O41. -/

namespace Sys2Proof.Machine

/-- The record that the last visit of a run holds: an OPEN of net 1, which is PROVISIONAL while the run correlates. -/
def heldOpen : Insert := { key := { kind := .opn, netA := 1, point := some 3, netB := none }, value := none, lowv := false }

/-- A final record of net 0, which RETIRE DEFECTS takes and which leaves with printing OFF. -/
def finalHighR : Defect :=
  { seq := 1, key := { kind := .highR, netA := 0, point := some 1, netB := none }, value := some 5, step := 1, rep := 1
    provisional := false, explained := false, lowv := false, printed := false, retired := false }

/-- A run with CORRELATE, STALLED at the last member position of the last net of its last step: that boundary ends the
run. -/
def stalledAtLastVisit : State :=
  { State.reset with
    rst := { held := false, cause := .power, phase := .none }
    hv := { Hv.reset with state := .safe, cause := .none }
    tables :=
      { State.reset.tables with
        dims := some { points := 4, nets := 2, members := 4, names := 1, steps := 2 }, state := .ready }
    sup := { State.reset.sup with nodes := State.reset.sup.nodes.set 0 { Node.cleared 4 with alive := true } }
    defects := [finalHighR]
    sweep :=
      { Sweep.reset with
        state := .inserting, after := .boundary, kind := some .cont, netCursor := some 1, lastNet := 1
        fixedPoint := some 2, fixedModule := some 1, memberCursor := some 1, net := { NetRec.zero with count := 2 }
        results := [heldOpen] }
    run :=
      { Run.reset with
        state := .stalled, correlate := true, step := some 1, inProgress := true, waiting := .owner
        slot := some heldOpen, summary := { Summary.cleared with defects := 1 } } }

theorem stalledAtLastVisit_takesCommands : stalledAtLastVisit.takesCommands := by
  unfold State.takesCommands State.hearsTrunk
  decide +kernel

theorem stalledAtLastVisit_listSound : stalledAtLastVisit.listSound := by
  unfold State.listSound
  decide +kernel

/-- The list of an answer. -/
def listAfter (a : Answer) : List Defect :=
  match a with
  | .next t => t.defects
  | _ => []

/-- The boundary that follows the append ends the run, and the record let in is final in the list (R45, R147). -/
theorem stalledAtLastVisit_finalises :
    (listAfter (exec (.retireDefects 7 (be16 1)) stalledAtLastVisit)).all (fun d => !d.provisional) = true := by
  decide +kernel

/-- Refutes O41: the run is STALLED at the last visit of its last step with an OPEN held and CORRELATE set. RETIRE DEFECTS
lets the record in, PROVISIONAL, but the boundary then reached is the end of the run, which makes every record of the list
final: the list does not end with the PROVISIONAL record. -/
theorem not_defectCommands : ¬Obligations.DefectCommands := by
  intro h
  obtain ⟨-, -, hheld, -⟩ := h stalledAtLastVisit 7 1 stalledAtLastVisit_takesCommands (by decide)
  obtain ⟨t, hexec, hlist, -⟩ := hheld heldOpen stalledAtLastVisit_listSound rfl (.inl rfl) (by decide) (by decide +kernel)
    ⟨finalHighR, List.mem_singleton_self _, rfl⟩
    (fun _ => ⟨rfl, rfl, rfl, rfl, rfl, by decide +kernel, by decide +kernel, rfl⟩) (.inr rfl)
  have hfinal := stalledAtLastVisit_finalises
  rw [hexec] at hfinal
  have hlast : stalledAtLastVisit.newRecord heldOpen.key heldOpen.value heldOpen.lowv ∈ t.defects := by
    rw [hlist]
    exact List.mem_append_right _ (List.mem_singleton_self _)
  exact absurd (List.all_eq_true.mp hfinal _ hlast) (by decide)

end Sys2Proof.Machine
end

section
/-! PROOFS. What the Sweep Engine does with the record that a read brings: the read asked for next, or the record of a net that
is lost with a module (R96 to R103, R109 to R119): for O40. -/

namespace Sys2Proof.Machine

variable {s : State}

/-! ### A read asked for next (R2, R96) -/

/-- The state with a read asked for at the port, and the Sweep Engine in a state. -/
def State.asksRead (s : State) (read : Access) (sweep : Sweep) : State :=
  { s with sweep, port := { queue := s.port.queue ++ [read] } }

theorem exec_sweepRead {kind : TableKind} {index : Nat} {rest : List Access} {bs : List Byte}
    (h : s.accessing (readFor kind index .sweepRead) rest) (hb : s.mem.record kind index = some bs) (busy : Bool) :
    exec (.tableAccessComplete none busy) s = .next ((s.accessed rest busy).sweepReadDone bs).settled :=
  exec_read_found h hb busy

theorem startScan_asks (s : State) (purpose : ScanFor) (net : Nat) :
    s.startScan purpose net = s.asksRead (readFor .nets net .sweepRead) (s.sweep.scanOf purpose net) := rfl

/-! ### Nets and groups (R95, R109, R111) -/

theorem sweepNextNet_cont {k : Nat} (hkind : s.sweep.kind = some .cont) (hk : s.sweep.netCursor = some k)
    (hlast : k ≠ s.sweep.lastNet) :
    s.sweepNextNet =
      s.asksRead (readFor .nets (k + 1) .sweepRead)
        { s.sweep with
          netCursor := some (k + 1), memberCursor := none, visitedPoint := none, visitedModule := none
          netDone := false, fixedPoint := none, fixedModule := none, state := .reading, reading := .net } := by
  rw [sweepNextNet_member (.inl hkind) hk hlast, if_pos hkind, if_pos hkind]
  rfl

theorem nextCandidate_next {j : Nat} (h : j < s.bound .nets) :
    s.nextCandidate j = s.asksRead (readFor .nets j .sweepRead) (s.sweep.scanOf .candidate j) := by
  rw [State.nextCandidate, if_pos h, startScan_asks]

/-- With every candidate read the search begins with the group of them all (R110, R111). -/
theorem nextCandidate_search {j : Nat} (h : s.bound .nets ≤ j) (hfound : s.sweep.candidates ≠ []) :
    s.nextCandidate j =
      s.asksRead (readFor .nets s.sweep.cursor .sweepRead)
        (s.sweep.inHandOf { start := 0, length := s.sweep.candidates.length } []) := by
  rw [State.nextCandidate, if_neg (Nat.not_lt.mpr h)]
  split
  · next hnone => exact absurd hnone hfound
  · exact popGroup_some
      (s := s.onSweep fun w => { w with stack := [{ start := 0, length := s.sweep.candidates.length }] }) rfl

/-! ### Configurations (R49, R100, R112, R119) -/

theorem configRequest_waits {who : Requester} {settle p : Nat} {bus : Bus} {pairs more : List (Nat × Bus)}
    (hpairs : pairs = (p, bus) :: more) (h : s.configures p) :
    s.configRequest who settle pairs =
      { s with
        port := { queue := s.port.queue ++ [readFor .points p .fill] }
        cache := { s.cache with fill := some (p, .translate) }
        seq :=
          { s.seq with
            state := .translating, requester := who, settle, failed := [], todo := pairs.eraseDups, placed := [] } } := by
  obtain ⟨hidle, hsafe, hhalt, hfill, hno⟩ := h
  have hguard : ¬(s.fault.safeHalt || s.seq.state ≠ .idle || s.hv.state ≠ .safe) = true := by
    simp [hidle, hsafe, hhalt]
  have htodo : pairs.eraseDups = (p, bus) :: (more.filter fun x => !x == (p, bus)).eraseDups := by
    rw [hpairs, List.eraseDups_cons]
  rw [State.configRequest, if_neg hguard, htodo]
  exact translate_miss (s := { s with seq :=
    { s.seq with
      state := .translating, requester := who, settle, failed := []
      todo := (p, bus) :: (more.filter fun x => !x == (p, bus)).eraseDups, placed := [] } })
    rfl hfill (Cache.find_eq_none hno) _

/-- The Sweep Engine asks for a configuration, whose first lookup waits for a fill (R19, R49). -/
theorem sweepConfigure_asks {p : Nat} {busA more : List Nat} (hbus : busA = p :: more) (h : s.configures p)
    (busB : List Nat) :
    s.sweepConfigure busA busB =
      { s with
        port := { queue := s.port.queue ++ [readFor .points p .fill] }
        sweep := { s.sweep with state := .configuring, reading := .none }
        cache := { s.cache with fill := some (p, .translate) }
        seq := s.seq.asked s.sweep.settle busA busB } :=
  configRequest_waits (s := s.onSweep fun w => { w with state := .configuring, reading := .none })
    (more := more.map (fun p => (p, Bus.a)) ++ busB.map fun p => (p, Bus.b)) (by rw [hbus]; rfl) h

/-! ### Scans (R109, R110, R112, R118, R119) -/

/-- The Sweep Engine with a member of the scan read on an Alive module. -/
def Sweep.scanRead (w : Sweep) (p : Nat) : Sweep :=
  { w with scan := { w.scan with pos := w.scan.pos + 1, points := w.scan.points ++ [p] } }

theorem scanModule_next {p m : Nat} (halive : s.alive m = true) (h : s.sweep.scan.pos + 1 < s.sweep.scan.record.count) :
    s.scanModule p m =
      s.asksRead (readFor .members (s.sweep.scan.record.first + (s.sweep.scan.pos + 1)) .sweepRead)
        { s.sweep.scanRead p with state := .reading, reading := .scanMember } := by
  rw [State.scanModule, if_pos halive]
  exact if_pos h

theorem scanModule_done {p m : Nat} (halive : s.alive m = true) (h : s.sweep.scan.record.count ≤ s.sweep.scan.pos + 1) :
    s.scanModule p m = State.scanDone { s with sweep := s.sweep.scanRead p } := by
  rw [State.scanModule, if_pos halive]
  exact if_neg (Nat.not_lt.mpr h)

theorem scanModule_lost {p m : Nat} (halive : s.alive m = false) : s.scanModule p m = s.scanLost p m := by
  rw [State.scanModule, if_neg (by simp [halive])]

/-- A scan of net k or of a candidate is done: the candidate is listed, and the next one is taken (R109, R110). -/
theorem scanDone_candidate {found : List Nat}
    (h : (s.sweep.scan.purpose = .startK ∧ found = s.sweep.candidates) ∨
      (s.sweep.scan.purpose = .candidate ∧ found = s.sweep.candidates ++ [s.sweep.scan.net])) :
    s.scanDone = State.nextCandidate { s with sweep := { s.sweep with candidates := found } } (s.sweep.scan.net + 1) := by
  rcases h with ⟨h, rfl⟩ | ⟨h, rfl⟩
  · rw [State.scanDone, h]
  · rw [State.scanDone, h]
    rfl

theorem nextGroupNet_asks {g : Nat} {todo : List Nat} (h : s.sweep.groupTodo = g :: todo) :
    s.nextGroupNet =
      s.asksRead (readFor .nets g .sweepRead) (Sweep.scanOf { s.sweep with groupTodo := todo } .groupNet g) := by
  rw [State.nextGroupNet, h]
  rfl

theorem nextGroupNet_configures (h : s.sweep.groupTodo = []) :
    s.nextGroupNet = s.sweepConfigure s.sweep.busA s.sweep.busB := by
  rw [State.nextGroupNet, h]

theorem scanDone_groupK {g : Nat} {todo : List Nat} (h : s.sweep.scan.purpose = .groupK) (htodo : s.sweep.groupTodo = g :: todo) :
    s.scanDone =
      s.asksRead (readFor .nets g .sweepRead)
        (Sweep.scanOf { s.sweep with busA := s.sweep.scan.points, groupTodo := todo } .groupNet g) := by
  rw [State.scanDone, h]
  exact nextGroupNet_asks (s := s.onSweep fun w => { w with busA := s.sweep.scan.points }) htodo

theorem scanDone_groupNet {g : Nat} {todo : List Nat} (h : s.sweep.scan.purpose = .groupNet)
    (htodo : s.sweep.groupTodo = g :: todo) :
    s.scanDone =
      s.asksRead (readFor .nets g .sweepRead)
        (Sweep.scanOf { s.sweep with busB := s.sweep.busB ++ s.sweep.scan.points, groupTodo := todo } .groupNet g) := by
  rw [State.scanDone, h]
  exact nextGroupNet_asks (s := s.onSweep fun w => { w with busB := w.busB ++ s.sweep.scan.points }) htodo

theorem scanDone_group (h : s.sweep.scan.purpose = .groupNet) (htodo : s.sweep.groupTodo = []) :
    s.scanDone =
      State.sweepConfigure { s with sweep := { s.sweep with busB := s.sweep.busB ++ s.sweep.scan.points } } s.sweep.busA
        (s.sweep.busB ++ s.sweep.scan.points) := by
  rw [State.scanDone, h]
  exact nextGroupNet_configures (s := s.onSweep fun w => { w with busB := w.busB ++ s.sweep.scan.points }) htodo

theorem scanDone_entryOther (h : s.sweep.scan.purpose = .entryOther) :
    s.scanDone =
      s.asksRead (readFor .members (s.sweep.scan.record.first + s.sweep.scan.record.anchor) .sweepRead)
        { s.sweep with busB := s.sweep.scan.points, state := .reading, reading := .entryAnchor } := by
  rw [State.scanDone, h]
  rfl

/-! ### Entries of the work list (R118, R119) -/

theorem takeEntry_asks {e : WorkEntry} (h : s.sweep.work[s.sweep.workCursor]? = some e) :
    s.takeEntry = s.asksRead (readFor .nets e.other .sweepRead) (s.sweep.scanOf .entryOther e.other) := by
  rw [State.takeEntry, Sweep.entry, h]
  rfl

theorem nextEntry_asks {e : WorkEntry} (h : s.sweep.work[s.sweep.workCursor + 1]? = some e) :
    s.nextEntry =
      s.asksRead (readFor .nets e.other .sweepRead)
        (Sweep.scanOf { s.sweep with workCursor := s.sweep.workCursor + 1 } .entryOther e.other) :=
  takeEntry_asks (s := s.onSweep fun w => { w with workCursor := w.workCursor + 1 }) h

/-- With no entry the correlation has ended, and the cap test follows (R118, R119). -/
theorem workBuilt_empty (h : s.sweep.work = []) :
    s.workBuilt = State.capTest { s with sweep := { s.sweep with workCursor := 0, shortOther := none } } := by
  have hnone : (s.onSweep fun w => { w with workCursor := 0 }).sweep.entry = none := by
    simp [Sweep.entry, State.onSweep, h]
  rw [State.workBuilt, State.takeEntry, hnone]
  change State.capTest { s with sweep := { s.sweep with workCursor := 0, work := [], shortOther := none } } = _
  rw [← h]

/-! ### Modules that are not Alive (R98, R99, R109 to R112) -/

theorem scanLost_candidate (h : s.sweep.scan.purpose = .candidate) (p m : Nat) :
    s.scanLost p m = s.nextCandidate (s.sweep.scan.net + 1) := by rw [State.scanLost, h]

theorem scanLost_groupNet {g h : Group} {stack : List Group} (hp : s.sweep.scan.purpose = .groupNet)
    (hg : s.sweep.inHand = some g) (hstack : s.sweep.stack = h :: stack) (p m : Nat) :
    s.scanLost p m =
      s.asksRead (readFor .nets s.sweep.cursor .sweepRead)
        (Sweep.inHandOf { s.sweep with skipped := s.sweep.skipped + g.length } h stack) := by
  rw [State.scanLost, hp]
  dsimp only
  rw [hg]
  exact popGroup_some (s := s.onSweep fun w => { w with skipped := w.skipped + g.length, inHand := none }) hstack

theorem scanLost_entryOther (h : s.sweep.scan.purpose = .entryOther) (p m : Nat) : s.scanLost p m = s.nextEntry := by
  rw [State.scanLost, h]

/-! ### A record that ends its net, or its visit (R98, R99, R109) -/

/-- At a boundary that follows an appended record none of the tests of R31 stops the run: printing is OFF too. -/
def State.recordGoesOn (s : State) (key : DefectKey) : Prop :=
  s.print.state = .off ∧ s.runGoesOn ∧ s.run.stopsOnDefect = false ∧
    s.run.summary.defects + 1 < s.limits.timing.defectLimit ∧ s.appends key

/-- What an appended record leaves, and the walk that follows it up to the next read keeps (R144). -/
def State.recordedThen (s t : State) (key : DefectKey) (m : Nat) (read : Access) (sweep : Sweep) : Prop :=
  t.defects = s.defects ++ [s.newRecord key (some m) false] ∧ t.sweep = sweep ∧
    t.port.queue = s.port.queue ++ [read] ∧
    t.run.summary = { s.run.summary with defects := s.run.summary.defects + 1 } ∧
    t.events.isPending .defect = true ∧ t.mem = s.mem

theorem sweepRecorded_asks {key : DefectKey} {m : Nat} {after : SweepAfter} {read : Access} {sweep : Sweep} {t : State}
    (ht : t = (s.sweepRecorded { key, value := some m, lowv := false } after).asksRead read sweep) :
    s.recordedThen t.settled key m read sweep := by
  subst ht
  have hpending := sweepRecorded_pending s { key, value := some m, lowv := false } after
  have heq := sweepRecorded_eq s { key, value := some m, lowv := false } after
  generalize s.sweepRecorded _ after = y at *
  refine ⟨?_, rfl, ?_, ?_, hpending, ?_⟩
  all_goals
    dsimp only [State.settled, State.asksRead]
    rw [heq]
    try rfl

/-- The record ends its net, and the next net is taken (R31, R98). -/
theorem netEndRecord_nextNet {key : DefectKey} {k m : Nat} (h : s.recordGoesOn key) (hk : s.sweep.netCursor = some k)
    (hlast : k ≠ s.sweep.lastNet) :
    s.netEndRecord { key, value := some m, lowv := false } =
      State.sweepNextNet { s.sweepRecorded { key, value := some m, lowv := false } .netEnd with
        sweep :=
          { s.sweep with
            state := .idle, netDone := true, stack := [], inHand := none, results := [], after := .netEnd } } := by
  obtain ⟨hoff, hgo, hstop, hlimit, happ⟩ := h
  have hgoes := sweepRecorded_goesOn (r := { key, value := some m, lowv := false }) hgo hstop hlimit .netEnd
  have heq := sweepRecorded_eq s { key, value := some m, lowv := false } .netEnd
  rw [State.netEndRecord, sweepInsert_appended happ hoff]
  dsimp only
  rw [if_neg Bool.false_ne_true]
  generalize s.sweepRecorded _ .netEnd = y at *
  have hsweep : y.sweep = s.sweep.recorded .netEnd := by rw [heq]
  have hnotLast : y.sweep.onLastNet = false := by
    rw [hsweep]
    simpa [Sweep.recorded, Sweep.onLastNet, Sweep.cursor, hk] using hlast
  rw [State.netEndBoundary, hnotLast, runBoundary_goesOn (by exact hgoes)]
  refine congrArg State.sweepNextNet ?_
  rw [State.onSweep, hsweep]
  rfl

/-- The state at the boundary of a visit whose record was appended (R102). -/
def State.visitRecorded (s : State) (r : Insert) : State :=
  { s.sweepRecorded r .boundary with
    sweep := { s.sweep with state := .idle, inHand := none, results := [], after := .boundary } }

theorem visitRecorded_sup (s : State) (r : Insert) : (s.visitRecorded r).sup = s.sup := by
  rw [State.visitRecorded, sweepRecorded_eq]

/-- The record ends its visit, and the walk goes on (R31, R102). -/
theorem insertThenBoundary_goesOn {key : DefectKey} {m : Nat} (h : s.recordGoesOn key) (hover : s.sweep.netOver = false) :
    s.insertThenBoundary { key, value := some m, lowv := false } =
      (s.visitRecorded { key, value := some m, lowv := false }).sweepGoOn := by
  obtain ⟨hoff, hgo, hstop, hlimit, happ⟩ := h
  have hgoes := sweepRecorded_goesOn (r := { key, value := some m, lowv := false }) hgo hstop hlimit .boundary
  have heq := sweepRecorded_eq s { key, value := some m, lowv := false } .boundary
  rw [State.insertThenBoundary, sweepInsert_appended happ hoff, State.visitRecorded]
  dsimp only
  rw [if_neg Bool.false_ne_true]
  generalize s.sweepRecorded _ .boundary = y at *
  have hsweep : y.sweep = s.sweep.recorded .boundary := by rw [heq]
  have hnot : y.sweep.netOver = false := by
    rw [hsweep]
    exact hover
  rw [State.atBoundary, hnot, Bool.false_and, runBoundary_goesOn (by exact hgoes)]
  refine congrArg State.sweepGoOn ?_
  rw [State.onSweep, hsweep]
  rfl

end Sys2Proof.Machine
end

section
/-! PROOFS. The work list of a correlation, the reads of a visit and of an INSUL net, and the start of a step (R26, R96 to R103,
R118, R124 to R126): for O40. -/

namespace Sys2Proof.Machine

variable {s : State}

/-! ### The work list (R118) -/

/-- The work list once a member of the scan has been asked about (R118). -/
def State.workWith (s : State) (p : Nat) : List WorkEntry :=
  if ∃ d ∈ s.defects, d.key = { kind := .opn, netA := s.sweep.scan.net, point := some p, netB := none } then
    s.sweep.work ++
      [{ point := p, own := s.sweep.scan.net, contSet := s.sweep.scan.record.contSet
         other := if s.sweep.scan.purpose = .workK then s.sweep.shortOther.getD 0 else s.sweep.cursor }]
  else s.sweep.work

/-- The Sweep Engine with that work list, the scan a member further (R118). -/
def Sweep.memberAsked (w : Sweep) (work : List WorkEntry) : Sweep :=
  { w with work, scan := { w.scan with pos := w.scan.pos + 1 } }

theorem workMember_eq (s : State) (p : Nat) :
    s.workMember p =
      let asked : State := { s with sweep := s.sweep.memberAsked (s.workWith p) }
      if 8 ≤ (s.workWith p).length then asked.workBuilt
      else if s.sweep.scan.pos + 1 < s.sweep.scan.record.count then asked.scanNextMember
      else if s.sweep.scan.purpose = .workK then asked.startScan .workG (s.sweep.shortOther.getD 0)
      else asked.workBuilt := by
  have hlisted : (findKey s.defects
      { kind := .opn, netA := s.sweep.scan.net, point := some p, netB := none }).isSome = true ↔
      ∃ d ∈ s.defects, d.key = { kind := .opn, netA := s.sweep.scan.net, point := some p, netB := none } := by
    simp [findKey]
  have hwork : s.workWith p =
      if (findKey s.defects { kind := .opn, netA := s.sweep.scan.net, point := some p, netB := none }).isSome then
        s.sweep.work ++
          [{ point := p, own := s.sweep.scan.net, contSet := s.sweep.scan.record.contSet
             other := if s.sweep.scan.purpose = .workK then s.sweep.shortOther.getD 0 else s.sweep.cursor }]
      else s.sweep.work := by
    rw [State.workWith]
    exact if_congr hlisted.symm rfl rfl
  rw [hwork]
  rfl

theorem scanMember_work (h : s.sweep.scan.purpose = .workK ∨ s.sweep.scan.purpose = .workG) (p : Nat) :
    s.scanMember p = s.workMember p := by
  rcases h with h | h <;> rw [State.scanMember, h]

theorem workMember_next {p : Nat} (hroom : (s.workWith p).length < 8)
    (h : s.sweep.scan.pos + 1 < s.sweep.scan.record.count) :
    s.workMember p =
      s.asksRead (readFor .members (s.sweep.scan.record.first + (s.sweep.scan.pos + 1)) .sweepRead)
        { s.sweep.memberAsked (s.workWith p) with state := .reading, reading := .scanMember } := by
  rw [workMember_eq]
  dsimp only
  rw [if_neg (Nat.not_le.mpr hroom), if_pos h]
  rfl

theorem workMember_otherNet {p : Nat} (hroom : (s.workWith p).length < 8)
    (h : s.sweep.scan.record.count ≤ s.sweep.scan.pos + 1) (hpurpose : s.sweep.scan.purpose = .workK) :
    s.workMember p =
      s.asksRead (readFor .nets (s.sweep.shortOther.getD 0) .sweepRead)
        ((s.sweep.memberAsked (s.workWith p)).scanOf .workG (s.sweep.shortOther.getD 0)) := by
  rw [workMember_eq]
  dsimp only
  rw [if_neg (Nat.not_le.mpr hroom), if_neg (Nat.not_lt.mpr h), if_pos hpurpose]
  rfl

/-- The work list is full, or every member has been asked about: it is built (R118). -/
theorem workMember_built {p : Nat}
    (h : 8 ≤ (s.workWith p).length ∨
      (s.sweep.scan.record.count ≤ s.sweep.scan.pos + 1 ∧ s.sweep.scan.purpose = .workG)) :
    s.workMember p = State.workBuilt { s with sweep := s.sweep.memberAsked (s.workWith p) } := by
  rw [workMember_eq]
  dsimp only
  by_cases hfull : 8 ≤ (s.workWith p).length
  · rw [if_pos hfull]
  · obtain ⟨hlast, hpurpose⟩ := h.resolve_left hfull
    rw [if_neg hfull, if_neg (Nat.not_lt.mpr hlast), if_neg (by simp [hpurpose])]

/-! ### The reads of a visit (R96 to R103) -/

theorem nextPosition_first {w : Sweep} (hkind : w.kind = some .leadcal) (hnone : w.memberCursor = none)
    (hcount : 0 < w.net.count) : w.nextPosition = some 0 := by
  simp [Sweep.nextPosition, Sweep.positionFrom, hkind, hnone, hcount]

theorem sweepNextMember_visit {pos : Nat} (h : s.sweep.nextPosition = some pos) :
    s.sweepNextMember = s.sweepVisit pos := by
  rw [State.sweepNextMember, h]

theorem sweepVisit_lost {pos : Nat} (h : s.alive (s.sweep.fixedModule.getD 0) = false) :
    s.sweepVisit pos =
      State.netEndRecord
        { s with sweep := { s.sweep with memberCursor := some pos, visitedPoint := none, visitedModule := none } }
        (moduleRecord .untested s.sweep.cursor s.sweep.fixedPoint none (s.sweep.fixedModule.getD 0)) :=
  if_neg (by simp [h])

/-- The key of a test not made on a net, or on a point of it (R98, R99, R109). -/
def untestedKey (net : Nat) (point : Option Nat) : DefectKey := { kind := .untested, netA := net, point, netB := none }

/-- The fixed module is not Alive: the net of a CONT or LEADCAL step is lost, and the next one begun (R98, R103). -/
theorem sweepVisit_netLost {pos k m : Nat} (hm : s.sweep.fixedModule = some m) (hlost : s.alive m = false)
    (hk : s.sweep.netCursor = some k) (hlast : k ≠ s.sweep.lastNet)
    (h : s.recordGoesOn (untestedKey k s.sweep.fixedPoint))
    (hkind : s.sweep.kind = some .cont ∨ s.sweep.kind = some .leadcal) :
    s.recordedThen (s.sweepVisit pos).settled (untestedKey k s.sweep.fixedPoint) m (readFor .nets (k + 1) .sweepRead)
      { s.sweep with
        netCursor := some (k + 1), memberCursor := none, visitedPoint := none, visitedModule := none, netDone := false
        stack := [], inHand := none, results := [], after := .netEnd, state := .reading, reading := .net
        fixedPoint := if s.sweep.kind = some .cont then none else s.sweep.fixedPoint
        fixedModule := if s.sweep.kind = some .cont then none else s.sweep.fixedModule } := by
  have hcursor : s.sweep.cursor = k := by simp [Sweep.cursor, hk]
  have hfixed : s.sweep.fixedModule.getD 0 = m := by rw [hm]; rfl
  rw [sweepVisit_lost (by rw [hfixed]; exact hlost), hfixed, hcursor]
  refine sweepRecorded_asks (s := { s with sweep :=
    { s.sweep with memberCursor := some pos, visitedPoint := none, visitedModule := none } }) (after := .netEnd) ?_
  refine (netEndRecord_nextNet (s := { s with sweep :=
    { s.sweep with memberCursor := some pos, visitedPoint := none, visitedModule := none } }) h hk hlast).trans ?_
  exact sweepNextNet_member hkind hk hlast

/-- The record of a visit is appended, and the next member position is visited (R99, R102). -/
theorem insertThenBoundary_visits {key : DefectKey} {m pos : Nat} (h : s.recordGoesOn key)
    (hkind : s.sweep.kind = some .cont ∨ s.sweep.kind = some .leadcal) (hdone : s.sweep.netDone = false)
    (hpos : s.sweep.nextPosition = some pos) (halive : s.alive (s.sweep.fixedModule.getD 0) = true) :
    s.insertThenBoundary { key, value := some m, lowv := false } =
      (s.sweepRecorded { key, value := some m, lowv := false } .boundary).asksRead
        (readFor .members (s.sweep.net.first + pos) .sweepRead)
        { s.sweep with
          inHand := none, results := [], after := .boundary, state := .reading, reading := .memberPos
          memberCursor := some pos, visitedPoint := none, visitedModule := none } := by
  have hover : s.sweep.netOver = false := by rcases hkind with hk | hk <;> simp [Sweep.netOver, hk, hdone, hpos]
  have hsup := visitRecorded_sup s { key, value := some m, lowv := false }
  have hfixed : (s.visitRecorded { key, value := some m, lowv := false }).alive (s.sweep.fixedModule.getD 0) = true := by
    rw [← halive, State.alive, State.node?, hsup]
    rfl
  rw [insertThenBoundary_goesOn h hover,
    sweepGoOn_member (s := s.visitRecorded { key, value := some m, lowv := false }) (by exact hkind) (by exact hdone)
      (by exact hpos),
    sweepVisit_alive (by exact hfixed)]
  rfl

/-- The module of the visited point is not Alive: UNTESTED, and the next member position is visited (R99, R102). -/
theorem visitModule_lost {m p pos : Nat} (hlost : s.alive m = false) (hp : s.sweep.visitedPoint = some p)
    (hkind : s.sweep.kind = some .cont ∨ s.sweep.kind = some .leadcal) (hdone : s.sweep.netDone = false)
    (hpos : s.sweep.nextPosition = some pos) (halive : s.alive (s.sweep.fixedModule.getD 0) = true)
    (h : s.recordGoesOn (untestedKey s.sweep.cursor (some p))) :
    s.recordedThen (s.visitModule m).settled (untestedKey s.sweep.cursor (some p)) m
      (readFor .members (s.sweep.net.first + pos) .sweepRead)
      { s.sweep with
        inHand := none, results := [], after := .boundary, state := .reading, reading := .memberPos
        memberCursor := some pos, visitedPoint := none, visitedModule := none } := by
  have hvisit : s.visitModule m =
      State.insertThenBoundary { s with sweep := { s.sweep with visitedModule := some m } }
        (moduleRecord .untested s.sweep.cursor s.sweep.visitedPoint none m) := if_neg (by simp [hlost])
  rw [hvisit, hp]
  exact sweepRecorded_asks (s := { s with sweep := { s.sweep with visitedModule := some m } })
    (insertThenBoundary_visits (s := { s with sweep := { s.sweep with visitedModule := some m } }) h hkind hdone hpos
      halive)

end Sys2Proof.Machine
end

section
/-! PROOFS. The reads of an INSUL net, the start of a step, and a step record that fails its parity check (R26, R27, R43, R124
to R126): for O40. -/

namespace Sys2Proof.Machine

variable {s : State}

/-! ### The reads of an INSUL net (R124 to R126) -/

theorem exec_hvRead {kind : TableKind} {index : Nat} {rest : List Access} {bs : List Byte}
    (h : s.accessing (readFor kind index .hvRead) rest) (hb : s.mem.record kind index = some bs) (busy : Bool) :
    exec (.tableAccessComplete none busy) s = .next ((s.accessed rest busy).hvReadDone bs).settled :=
  exec_read_found h hb busy

theorem hvReadDone_net (h : s.hv.work = .readingNet) (bs : List Byte) : s.hvReadDone bs = s.hvNetRead (decodeNet bs) := by
  rw [State.hvReadDone, h]

/-- The points placed by the map once a point is read (R126). -/
def Hv.mapped (h : Hv) (p : Nat) (r : PointRec) : List (Nat × Bus) := hvPlace h.cursor p r ++ h.pairs

theorem hvReadDone_map_next {p : Nat} (h : s.hv.work = .readingMap p) (bs : List Byte) (hp : p + 1 < s.bound .points) :
    s.hvReadDone bs =
      { s with
        hv := { s.hv with work := .readingMap (p + 1), pairs := s.hv.mapped p (decodePoint bs) }
        port := { queue := s.port.queue ++ [readFor .points (p + 1) .hvRead] } } := by
  rw [State.hvReadDone, h]
  exact if_pos hp

/-- The point map is complete: the configuration of every point in a net is asked for (R126). -/
theorem hvReadDone_map_done {p q : Nat} {bus : Bus} {others : List (Nat × Bus)} (h : s.hv.work = .readingMap p)
    (bs : List Byte) (hp : s.bound .points ≤ p + 1)
    (hpairs : (s.hv.mapped p (decodePoint bs)).reverse = (q, bus) :: others) (hq : s.configures q) :
    s.hvReadDone bs =
      { s with
        hv := { s.hv with work := .configuring, pairs := s.hv.mapped p (decodePoint bs) }
        port := { queue := s.port.queue ++ [readFor .points q .fill] }
        cache := { s.cache with fill := some (q, .translate) }
        seq :=
          { s.seq with
            state := .translating, requester := .hv, settle := s.hv.settle, failed := [], placed := []
            todo := (s.hv.mapped p (decodePoint bs)).reverse.eraseDups } } := by
  rw [State.hvReadDone, h]
  exact (if_neg (Nat.not_lt.mpr hp)).trans (configRequest_waits (s := s.onHv fun h =>
    { h with work := .configuring, pairs := h.mapped p (decodePoint bs) }) hpairs hq)

theorem hvNetRead_passes {k : Nat} {r : NetRec} (hclass : r.insulClass = none) (hk : s.hv.net = some k)
    (hlast : k ≠ s.hv.lastNet) :
    s.hvNetRead r =
      { s with
        hv := { s.hv with net := some (k + 1), work := .readingNet, pairs := [] }
        port := { queue := s.port.queue ++ [readFor .nets (k + 1) .hvRead] } } := by
  rw [State.hvNetRead, hclass]
  exact hvNextNet_next hk hlast

theorem hvNetRead_maps {c : Nat} {r : NetRec} (hclass : r.insulClass = some c) (halive : ∀ a ∈ s.modules, s.alive a = true) :
    s.hvNetRead r =
      { s with
        hv := { s.hv with work := .readingMap 0, classIndex := c, pairs := [] }
        port := { queue := s.port.queue ++ [readFor .points 0 .hvRead] } } := by
  have hnone : s.lostModule = none := List.find?_eq_none.mpr fun a ha => by simp [halive a ha]
  rw [State.hvNetRead, hclass]
  dsimp only
  rw [hnone]
  rfl

theorem hvNetRead_lost {c m : Nat} {r : NetRec} (hclass : r.insulClass = some c) (hm : s.lostModule = some m) :
    s.hvNetRead r = s.hvInsert (s.hv.record .untested (some m) false) := by
  rw [State.hvNetRead, hclass]
  dsimp only
  rw [hm]

theorem appendedBy_goesOn {r : Insert} (hgo : s.runGoesOn) (hstop : s.run.stopsOnDefect = false)
    (hlimit : s.run.summary.defects + 1 < s.limits.timing.defectLimit) : (s.appendedBy r).runGoesOn := by
  obtain ⟨-, hstopped, hpause⟩ := hgo
  rw [appendedBy_eq]
  refine ⟨hlimit, ?_, hpause⟩
  simp [Run.inserted, Run.appended, hstopped, hstop]

/-- The state in which the HV Controller hands over a record made before any ramp (R125, R126). -/
def State.hvHands (s : State) : State := { s with hv := { s.hv with work := .inserting } }

/-- The record made before any ramp is appended, and the next net is taken (R125). -/
theorem hvInsert_nextNet {key : DefectKey} {k m : Nat} (h : s.recordGoesOn key) (hk : s.hv.net = some k)
    (hlast : k ≠ s.hv.lastNet) :
    s.hvInsert { key, value := some m, lowv := false } =
      { s.hvHands.appendedBy { key, value := some m, lowv := false } with
        hv := { s.hv with net := some (k + 1), work := .readingNet, pairs := [] }
        port := { queue := s.port.queue ++ [readFor .nets (k + 1) .hvRead] } } := by
  obtain ⟨hoff, hgo, hstop, hlimit, happ⟩ := h
  have hgoes := appendedBy_goesOn (s := s.hvHands) (r := { key, value := some m, lowv := false }) hgo hstop hlimit
  have hinsert := insert_appended_off (s := s.hvHands) (r := { key, value := some m, lowv := false }) happ hoff
  have heq := appendedBy_eq s.hvHands { key, value := some m, lowv := false }
  have hhands : s.hvInsert { key, value := some m, lowv := false } =
      (s.hvHands.appendedBy { key, value := some m, lowv := false }).hvBoundary := by
    rw [State.hvInsert, show (s.onHv fun h => { h with work := .inserting }) = s.hvHands from rfl, hinsert]
    rfl
  rw [hhands]
  generalize s.hvHands.appendedBy _ = y at *
  have hhv : y.hv = s.hvHands.hv := by rw [heq]
  have hport : y.port = s.port := by rw [heq]; rfl
  have hnot : decide (y.hv.cursor = y.hv.lastNet) = false := by
    rw [hhv]
    simpa [State.hvHands, Hv.cursor, hk] using hlast
  rw [State.hvBoundary, hnot, runBoundary_goesOn (by exact hgoes)]
  refine (hvNextNet_next (s := y.onHv fun h => { h with work := .idle }) (k := k)
    (by rw [State.onHv, hhv]; exact hk) (by rw [State.onHv, hhv]; exact hlast)).trans ?_
  rw [State.onHv, hhv, hport]
  rfl

/-! ### The start of a step (R26, R27) -/

theorem exec_runRead {kind : TableKind} {index : Nat} {rest : List Access} {bs : List Byte}
    (h : s.accessing (readFor kind index .runRead) rest) (hb : s.mem.record kind index = some bs) (busy : Bool) :
    exec (.tableAccessComplete none busy) s = .next ((s.accessed rest busy).runReadDone bs).settled :=
  exec_read_found h hb busy

/-- The write that the end of a step posts (R32, log 13). -/
def Run.statusWrite (r : Run) (i : Nat) : Access :=
  { kind := .steps, index := i, write := some (9, (r.stepStatus none).code :: be16 r.stepDefects), owner := .runWrite }

/-- The state with the step in hand at its end (R31, R32). -/
def State.stepClosed (s : State) : State :=
  ((s.sweepRest.onHv fun h => { h with net := none, work := .idle }).stepEnd none)

theorem stepClosed_eq {i : Nat} (hstep : s.run.step = some i) :
    s.stepClosed =
      { s with
        sweep := Sweep.reset
        hv := { s.hv with net := none, work := .idle }
        port := { queue := s.port.queue ++ [s.run.statusWrite i] }
        run := { s.run with inProgress := false }
        events := { s.events with pending := s.events.pending ||| Event.stepEnd.bit }
        trunk := s.stepClosed.trunk } := by
  have hclosed : s.stepClosed = State.raise { s with
      sweep := Sweep.reset
      hv := { s.hv with net := none, work := .idle }
      port := { queue := s.port.queue ++ [s.run.statusWrite i] }
      run := { s.run with inProgress := false } } .stepEnd := by
    rw [State.stepClosed, State.stepEnd]
    change (match s.run.step with | none => _ | some i => _) = _
    rw [hstep]
    rfl
  rw [hclosed, raise_eq]

/-- A step that ends goes on with the next one (R31). -/
theorem stepFinished_next {i : Nat} (hstep : s.run.step = some i) (hend : s.run.isEnd = false)
    (hbound : i + 1 < s.bound .steps) (hpause : s.run.pauseReq = false) :
    s.stepFinished = s.stepClosed.askStep (i + 1) := by
  have heq := stepClosed_eq hstep
  change s.stepClosed.stepBoundary = _
  generalize s.stepClosed = y at *
  have hrun : y.run = { s.run with inProgress := false } := by rw [heq]
  have htables : y.tables = s.tables := by rw [heq]
  have hbound' : y.bound .steps = s.bound .steps := by rw [State.bound, htables]; rfl
  have hnot : ¬(y.run.isEnd || y.bound .steps ≤ i + 1) = true := by
    rw [hbound', hrun]
    simpa [Run.isEnd] using ⟨hend, hbound⟩
  rw [State.stepBoundary, show y.run.step = some i by rw [hrun]; exact hstep]
  dsimp only
  rw [if_neg hnot, if_neg (by rw [hrun]; simp [hpause])]

/-- An END step ends the run (R27, R44). -/
theorem stepFinished_ends {i : Nat} (hstep : s.run.step = some i) (hend : s.run.isEnd = true) :
    s.stepFinished = s.stepClosed.enterDone s.run.completion := by
  have heq := stepClosed_eq hstep
  change s.stepClosed.stepBoundary = _
  generalize s.stepClosed = y at *
  have hrun : y.run = { s.run with inProgress := false } := by rw [heq]
  have hends : y.run.isEnd = true := by rw [hrun]; exact hend
  rw [State.stepBoundary, show y.run.step = some i by rw [hrun]; exact hstep]
  dsimp only
  rw [if_pos (by simp [hends]), hrun]
  rfl

/-- The state with a step begun: IN-PROGRESS is written, and its counters and flags are cleared (R26). -/
def State.stepBegun (s : State) (i : Nat) (x : StepRec) : State :=
  { s with
    port := { queue := s.port.queue ++ [{ kind := .steps, index := i, write := some (9, [1, 0, 0]), owner := .runWrite }] }
    run :=
      { s.run with
        step := some i, inProgress := true, stepDefects := 0, insertFlag := false, rampFlag := false
        stopArmed := false, stepRec := some x, waiting := .owner
        summary := { s.run.summary with stepsRun := s.run.summary.stepsRun + 1, lastStep := some i } } }

/-- The state with a step begun and its first reads asked for, its owner in a state (R26, log 13). -/
def State.stepAsks (s : State) (i : Nat) (x : StepRec) (reads : List Access) (sweep : Sweep) (hv : Hv) : State :=
  { s.stepBegun i x with
    port := { queue := s.port.queue ++
      { kind := .steps, index := i, write := some (9, [1, 0, 0]), owner := .runWrite } :: reads }
    sweep, hv }

theorem stepAsks_eq (s : State) (i : Nat) (x : StepRec) (reads : List Access) (sweep : Sweep) (hv : Hv) :
    { s.stepBegun i x with port := { queue := (s.stepBegun i x).port.queue ++ reads }, sweep, hv } =
      s.stepAsks i x reads sweep hv := by
  simp [State.stepAsks, State.stepBegun]

/-- The Sweep Engine at the start of a step (R95, R103, R108). -/
def StepRec.sweep (x : StepRec) (kind : SweepKind) : Sweep :=
  { Sweep.reset with
    state := .reading, kind := some kind, settle := x.settle, netCursor := some x.firstNet, lastNet := x.lastNet }

theorem stepStarts_cont {x : StepRec} (h : x.kind = .cont) (i : Nat) :
    s.stepStarts i x =
      s.stepAsks i x [readFor .nets x.firstNet .sweepRead] { x.sweep .cont with reading := .net } s.hv := by
  rw [State.stepStarts, h, ← stepAsks_eq]
  rfl

theorem stepStarts_leadcal {x : StepRec} (h : x.kind = .leadcal) (i : Nat) :
    s.stepStarts i x =
      s.stepAsks i x [readFor .nets x.firstNet .sweepRead]
        { x.sweep .leadcal with reading := .net, fixedPoint := some x.refPoint } s.hv := by
  rw [State.stepStarts, h, ← stepAsks_eq]
  rfl

theorem stepStarts_iso {x : StepRec} (h : x.kind = .iso) (i : Nat) :
    s.stepStarts i x =
      s.stepAsks i x [readFor .nets x.firstNet .sweepRead]
        (Sweep.isoNet { x.sweep .iso with correlate := x.correlate && s.run.correlate } x.firstNet) s.hv := by
  rw [State.stepStarts, h, ← stepAsks_eq]
  rfl

theorem stepStarts_insul {x : StepRec} (h : x.kind = .insul) (i : Nat) :
    s.stepStarts i x =
      s.stepAsks i x [readFor .nets x.firstNet .hvRead] s.sweep
        { s.hv with
          net := some x.firstNet, lastNet := x.lastNet, settle := x.settle, work := .readingNet, pairs := [] } := by
  rw [State.stepStarts, h, ← stepAsks_eq]
  rfl

/-- A step without tests or ramps ends with PASS (R32). -/
theorem stepBegun_passes {x : StepRec} (h : x.kind ≠ .insul) (i : Nat) :
    (s.stepBegun i x).run.statusWrite i =
      { kind := .steps, index := i, write := some (9, [2, 0, 0]), owner := .runWrite } := by
  have hstatus : (s.stepBegun i x).run.stepStatus none = .pass := by
    simp [State.stepBegun, Run.stepStatus, Run.isInsul, h]
  have hcount : be16 (s.stepBegun i x).run.stepDefects = [0, 0] := by
    change be16 0 = [0, 0]
    decide
  rw [Run.statusWrite, hstatus, hcount]
  rfl

theorem stepStarts_mark {x : StepRec} (h : x.kind = .mark) (i : Nat) :
    s.stepStarts i x = ((s.stepBegun i x).raise .mark).stepFinished := by
  rw [State.stepStarts, h]
  rfl

theorem stepStarts_end {x : StepRec} (h : x.kind = .endStep) (i : Nat) :
    s.stepStarts i x = (s.stepBegun i x).stepFinished := by
  rw [State.stepStarts, h]
  rfl

/-- A MARK step raises MARK and ends at once, and the next step record is read (R26, R31). -/
theorem stepStarts_mark_next {x : StepRec} {i : Nat} (h : x.kind = .mark) (hbound : i + 1 < s.bound .steps)
    (hpause : s.run.pauseReq = false) :
    let t := s.stepStarts i x
    t =
      { s.stepAsks i x
          [{ kind := .steps, index := i, write := some (9, [2, 0, 0]), owner := .runWrite },
            readFor .steps (i + 1) .runRead]
          Sweep.reset { s.hv with net := none, work := .idle } with
        run := { (s.stepBegun i x).run with inProgress := false, waiting := .stepRead (i + 1) }
        events := { s.events with pending := s.events.pending ||| Event.mark.bit ||| Event.stepEnd.bit }
        trunk := t.trunk } := by
  intro t
  have hraised := raise_eq (s.stepBegun i x) .mark
  have hstatus := stepBegun_passes (s := s) (x := x) (by simp [h]) i
  have hend : (s.stepBegun i x).run.isEnd = false := by simp [State.stepBegun, Run.isEnd, h]
  have ht : t = _ := stepStarts_mark h i
  generalize (s.stepBegun i x).raise .mark = z at *
  have hrun : z.run = (s.stepBegun i x).run := by rw [hraised]
  have htables : z.tables = s.tables := by rw [hraised]; rfl
  have hstep : z.run.step = some i := by rw [hrun]; rfl
  have hnext : z.stepFinished = z.stepClosed.askStep (i + 1) := stepFinished_next hstep (by rw [hrun]; exact hend)
    (by rw [State.bound, htables]; exact hbound) (by rw [hrun]; exact hpause)
  have hclosed := stepClosed_eq hstep
  generalize z.stepClosed = y at *
  rw [hrun, hstatus] at hclosed
  rw [ht, hnext, State.askStep, hclosed, hraised]
  simp [State.onRun, State.askRead, State.ask, State.onPort, readFor, State.stepAsks, State.stepBegun]

theorem ended_keeps {a : Access} (hp : s.run.inProgress = false) (h : a ∈ s.port.queue) (ha : a.owner.isStepRead = false)
    (term : Termination) : a ∈ (s.ended term).port.queue := by
  have hover : s.stepOver term = s := if_neg (by simp [hp])
  unfold State.ended
  rw [hover, raise_eq]
  exact give_keeps h ha

/-- An END step ends the run as COMPLETE, or with its defects (R27, R44, R45). -/
theorem stepStarts_end_done {x : StepRec} (h : x.kind = .endStep) (hoff : s.print.state = .off) (i : Nat) :
    let t := s.stepStarts i x
    let status (bytes : List Byte) : Access :=
      { kind := .steps, index := i, write := some (9, bytes), owner := .runWrite }
    t.run.state = .done ∧ t.run.inProgress = false ∧ t.run.step = some i ∧
      t.run.summary =
        { (s.stepBegun i x).run.summary with
          term := some (if s.run.summary.defects = 0 then .complete else .completeDefects) } ∧
      status [1, 0, 0] ∈ t.port.queue ∧ status [2, 0, 0] ∈ t.port.queue ∧
      t.defects = s.defects.map (fun d => { d with provisional := false }) ∧
      t.events.isPending .stepEnd = true ∧ t.events.isPending .runEnd = true ∧ t.mem = s.mem := by
  intro t status
  have hstatus := stepBegun_passes (s := s) (x := x) (by simp [h]) i
  have hend : (s.stepBegun i x).run.isEnd = true := by simp [State.stepBegun, Run.isEnd, h]
  have ht : t = ((s.stepBegun i x).stepClosed.enterDone (s.stepBegun i x).run.completion) :=
    (stepStarts_end h i).trans (stepFinished_ends rfl hend)
  have hclosed := stepClosed_eq (s := s.stepBegun i x) rfl
  have hpending : (s.stepBegun i x).stepClosed.events.isPending .stepEnd = true := by
    rw [hclosed]
    exact isPending_or _ _ _
  rw [hstatus] at hclosed
  have hkept : t.events.isPending .stepEnd = true := by
    rw [ht]
    exact (walks_enterDone _ _).pending _ hpending
  generalize (s.stepBegun i x).stepClosed = y at *
  have hidle : y.run.inProgress = false := by rw [hclosed]
  have hends : y.enterDone (s.stepBegun i x).run.completion = y.ended (s.stepBegun i x).run.completion := by
    rw [enterDone_eq]
    exact printRunEnds_off (by rw [ended_eq, hclosed]; exact hoff) _
  have hover := stepOver_noStep (s := y) (s.stepBegun i x).run.completion fun hp => by simp [hidle] at hp
  rw [hends] at ht
  have hwrites : ∀ a ∈ y.port.queue, a.owner.isStepRead = false → a ∈ t.port.queue := fun a ha hread => by
    rw [ht]
    exact ended_keeps hidle ha hread _
  refine ⟨?_, ?_, ?_, ?_, hwrites _ ?_ rfl, hwrites _ ?_ rfl, ?_, hkept, ?_, ?_⟩
  case refine_8 => rw [ht]; exact ended_pending _ _
  case refine_5 => rw [hclosed]; exact List.mem_append_left _ (List.mem_append_right _ (List.mem_singleton_self _))
  case refine_6 => rw [hclosed]; exact List.mem_append_right _ (List.mem_singleton_self _)
  all_goals
    rw [ht, ended_eq]
    dsimp only
  case refine_1 => rfl
  case refine_2 => exact hover
  all_goals
    rw [hclosed]
    rfl

/-! ### A step record that fails its parity check (R3, R43, R177) -/

/-- A TABLE-PARITY in a run: the fault is recorded with the record that failed, and the run is ABORTING (R43, R177). -/
theorem tableParity_aborts (hvalid : s.fault.valid = false) (hrun : s.run.state = .running) (kind : TableKind)
    (index : Nat) (point : Option Nat) :
    let t := s.tableParity kind index point
    t.tables = s.tables ∧ t.fault = s.firstFault .tableParity s.hv.state s.currentNet point (some (kind, index)) ∧
      t.events.isPending .fault = true ∧ t.run.state = .aborting ∧ t.run.abortCause = .fault ∧
      t.run.step = s.run.step ∧ t.run.inProgress = s.run.inProgress ∧ t.run.summary = s.run.summary ∧
      t.defects = s.defects ∧ t.mem = s.mem := by
  intro t
  have hactive : s.run.active = true := by simp [Run.active, hrun]
  have ht : t = _ := reportFault_aborts (s := s)
    (r := { code := .tableParity, hv := s.hv.state, net := s.currentNet, point, table := some (kind, index) })
    hactive (by simp [Run.inFaultResponse, hrun]) FaultCode.noConfusion
  have hrecorded := faultRecorded_eq (s := s)
    (r := { code := .tableParity, hv := s.hv.state, net := s.currentNet, point, table := some (kind, index) }) hvalid
  generalize State.faultRecorded _ _ = z at *
  have hresponded := responded_response (z.abortedBy .fault)
  rw [← ht] at hresponded
  clear_value t
  rw [State.responded] at hresponded
  have hpending : z.events.isPending .fault = true := by
    rw [hrecorded]
    exact isPending_or _ _ _
  refine ⟨?_, ?_, ?_, ?_, ?_, ?_, ?_, ?_, ?_, ?_⟩
  all_goals rw [hresponded]
  case refine_3 => exact hpending
  all_goals dsimp only [State.abortedBy, State.onRun]
  all_goals
    rw [hrecorded]
    try rfl

end Sys2Proof.Machine
end

section
/-! PROOFS. The reads of a step record and of the owners of a step complete (O40). -/

namespace Sys2Proof.Machine

variable {s : State} {bs : List Byte}

/-! ### What a read of the Sweep Engine was for (R96, R109, R119) -/

theorem sweepReadDone_scanPoint {p : Nat} (h : s.sweep.reading = .scanPoint p) :
    s.sweepReadDone bs = s.scanModule p (decodePoint bs).module := by rw [State.sweepReadDone, h]

theorem sweepReadDone_scanMember (h : s.sweep.reading = .scanMember) : s.sweepReadDone bs = s.scanMember (wordAt bs 0) := by
  rw [State.sweepReadDone, h]

theorem sweepReadDone_entryAnchor {e : WorkEntry} (h : s.sweep.reading = .entryAnchor) (he : s.sweep.entry = some e) :
    s.sweepReadDone bs =
      s.asksRead (readFor .points e.point .sweepRead)
        { s.sweep with otherAnchor := wordAt bs 0, state := .reading, reading := .entryPoint } := by
  rw [State.sweepReadDone, h]
  dsimp only
  rw [he]
  rfl

theorem sweepReadDone_entryPoint {e : WorkEntry} (h : s.sweep.reading = .entryPoint) (he : s.sweep.entry = some e) :
    s.sweepReadDone bs = s.entryModule e.point (decodePoint bs).module := by
  rw [State.sweepReadDone, h]
  dsimp only
  rw [he]
  rfl

theorem sweepReadDone_net (h : s.sweep.reading = .net) : s.sweepReadDone bs = s.visitNet (decodeNet bs) := by
  rw [State.sweepReadDone, h]

theorem sweepReadDone_module (h : s.sweep.reading = .refPoint ∨ s.sweep.reading = .anchorPoint) :
    s.sweepReadDone bs =
      State.sweepNextMember { s with sweep := { s.sweep with fixedModule := some (decodePoint bs).module } } := by
  rcases h with h | h <;> rw [State.sweepReadDone, h] <;> rfl

theorem sweepReadDone_anchorPos (h : s.sweep.reading = .anchorPos) :
    s.sweepReadDone bs =
      s.asksRead (readFor .points (wordAt bs 0) .sweepRead)
        { s.sweep with fixedPoint := some (wordAt bs 0), state := .reading, reading := .anchorPoint } := by
  rw [State.sweepReadDone, h]
  rfl

theorem sweepReadDone_memberPos (h : s.sweep.reading = .memberPos) : s.sweepReadDone bs = s.visitPoint (wordAt bs 0) := by
  rw [State.sweepReadDone, h]

theorem sweepReadDone_memberPoint (h : s.sweep.reading = .memberPoint) :
    s.sweepReadDone bs = s.visitModule (decodePoint bs).module := by rw [State.sweepReadDone, h]

/-! ### Visits (R96 to R103) -/

theorem sweepVisit_asks {pos : Nat} (h : s.alive (s.sweep.fixedModule.getD 0) = true) :
    s.sweepVisit pos =
      s.asksRead (readFor .members (s.sweep.net.first + pos) .sweepRead)
        { s.sweep with
          state := .reading, reading := .memberPos, memberCursor := some pos, visitedPoint := none
          visitedModule := none } := sweepVisit_alive h pos

theorem visitNet_anchor {n : NetRec} (hkind : s.sweep.kind = some .cont) (hcount : n.count ≠ 1) (hspare : n.kind ≠ .spare) :
    s.visitNet n =
      s.asksRead (readFor .members (n.first + n.anchor) .sweepRead)
        { s.sweep with net := n, state := .reading, reading := .anchorPos } := by
  rw [State.visitNet, if_pos hkind, if_neg (by simp [hcount, hspare])]
  rfl

theorem visitNet_passes {n : NetRec} (hkind : s.sweep.kind = some .cont) (h : n.count = 1 ∨ n.kind = .spare) :
    s.visitNet n = State.sweepNextNet { s with sweep := { s.sweep with net := n } } := by
  rw [State.visitNet, if_pos hkind, if_pos (by simpa using h)]
  rfl

theorem visitNet_reference {n : NetRec} {p : Nat} (hkind : s.sweep.kind = some .leadcal) (hmodule : s.sweep.fixedModule = none)
    (hp : s.sweep.fixedPoint = some p) :
    s.visitNet n =
      s.asksRead (readFor .points p .sweepRead) { s.sweep with net := n, state := .reading, reading := .refPoint } := by
  rw [State.visitNet, if_neg (by simp [hkind]), if_pos (by simp [hmodule]), hp]
  rfl

theorem visitNet_member {n : NetRec} {m : Nat} (hkind : s.sweep.kind = some .leadcal) (hmodule : s.sweep.fixedModule = some m) :
    s.visitNet n = State.sweepNextMember { s with sweep := { s.sweep with net := n } } := by
  rw [State.visitNet, if_neg (by simp [hkind]), if_neg (by simp [hmodule])]
  rfl

theorem visitPoint_reads {p : Nat} (h : s.sweep.kind ≠ some .leadcal ∨ s.sweep.fixedPoint ≠ some p) :
    s.visitPoint p =
      s.asksRead (readFor .points p .sweepRead)
        { s.sweep with visitedPoint := some p, state := .reading, reading := .memberPoint } := by
  rw [State.visitPoint, if_neg (by simpa [Classical.or_iff_not_imp_left] using h)]
  rfl

theorem visitPoint_reference {p : Nat} (hkind : s.sweep.kind = some .leadcal) (hp : s.sweep.fixedPoint = some p) :
    s.visitPoint p = s.sweepNextMember := by
  rw [State.visitPoint, if_pos (by simp [hkind, hp])]

/-- The visited point is on an Alive module: the two points are configured on their buses (R100). -/
theorem visitModule_asks {m f q : Nat} (halive : s.alive m = true) (hf : s.sweep.fixedPoint = some f)
    (hq : s.sweep.visitedPoint = some q) (h : s.configures f) :
    s.visitModule m =
      { s with
        port := { queue := s.port.queue ++ [readFor .points f .fill] }
        sweep := { s.sweep with visitedModule := some m, state := .configuring, reading := .none }
        cache := { s.cache with fill := some (f, .translate) }
        seq := s.seq.asked s.sweep.settle [f] [q] } := by
  rw [State.visitModule, hf, hq]
  exact (if_pos halive).trans (sweepConfigure_asks (s := s.onSweep fun w => { w with visitedModule := some m }) rfl h [q])

theorem entryModule_asks {p m : Nat} (halive : s.alive m = true) (h : s.configures p) :
    s.entryModule p m =
      { s with
        port := { queue := s.port.queue ++ [readFor .points p .fill] }
        sweep := { s.sweep with state := .configuring, reading := .none }
        cache := { s.cache with fill := some (p, .translate) }
        seq := s.seq.asked s.sweep.settle [p] s.sweep.busB } :=
  (if_pos halive).trans (sweepConfigure_asks rfl h _)

theorem entryModule_lost {p m : Nat} (hlost : s.alive m = false) : s.entryModule p m = s.nextEntry :=
  if_neg (by simp [hlost])

/-- The next member position of a net is visited, its fixed module being Alive (R98, R103). -/
theorem sweepNextMember_asks {pos : Nat} (hpos : s.sweep.nextPosition = some pos)
    (h : s.alive (s.sweep.fixedModule.getD 0) = true) :
    s.sweepNextMember =
      s.asksRead (readFor .members (s.sweep.net.first + pos) .sweepRead)
        { s.sweep with
          state := .reading, reading := .memberPos, memberCursor := some pos, visitedPoint := none
          visitedModule := none } := by
  rw [sweepNextMember_visit hpos, sweepVisit_asks h]

/-! ### The scan of net k, or of the group with it, is lost (R109, R112) -/

theorem scanLost_netLost {p m k : Nat} (hpurpose : s.sweep.scan.purpose = .startK ∨ s.sweep.scan.purpose = .groupK)
    (hkind : s.sweep.kind = some .iso) (hk : s.sweep.netCursor = some k) (hlast : k ≠ s.sweep.lastNet)
    (h : s.recordGoesOn (untestedKey k (some p))) :
    s.recordedThen (s.scanLost p m).settled (untestedKey k (some p)) m (readFor .nets (k + 1) .sweepRead)
      (Sweep.isoNet { s.sweep with results := [], after := .netEnd } (k + 1)) := by
  have hcursor : s.sweep.cursor = k := by simp [Sweep.cursor, hk]
  rcases hpurpose with hp | hp
  · rw [State.scanLost, hp]
    dsimp only
    rw [hcursor]
    refine sweepRecorded_asks (after := .netEnd) ?_
    refine (netEndRecord_nextNet h hk hlast).trans ?_
    exact sweepNextNet_iso hkind hk hlast
  · rw [State.scanLost, hp]
    dsimp only
    rw [hcursor]
    refine sweepRecorded_asks (s := s.onSweep fun w => { w with stack := [], inHand := none, skipped := 0 })
      (after := .netEnd) ?_
    refine (netEndRecord_nextNet (s := s.onSweep fun w => { w with stack := [], inHand := none, skipped := 0 }) h hk
      hlast).trans ?_
    exact sweepNextNet_iso hkind hk hlast

end Sys2Proof.Machine
end

section
/-! PROOFS. The reads of a step record and of the owners of a step complete (O40). -/

namespace Sys2Proof.Machine

/-- Settles O40: each read by what it was for, with the read, the configuration or the record that follows it. -/
theorem continuityStepStarts : Obligations.ContinuityStepStarts := by
  intro s rest busy answer w goes asks
  have hgoes : ∀ {x y : State}, answer = .next x.settled → x = y → answer = .next y.settled := by
    rintro x _ h rfl
    exact h
  refine ⟨fun i hacc hwait => ⟨fun bs x hb hx => ?_, fun hb hrun hvalid => ?_⟩, fun p bs hacc hb hreading => ?_,
    fun pos bs work hacc hb hreading hpurpose => ?_, fun e bs he => ?_, fun kind index bs hacc hb => ?_,
    fun kind index bs hacc hb => ?_⟩
  -- the step record is read
  · have hstarts : (s.accessed rest busy).runReadDone bs = (s.accessed rest busy).stepStarts i x := by
      rw [State.runReadDone, show (s.accessed rest busy).run.waiting = .stepRead i from hwait, hx]
    have hexec : answer = .next ((s.accessed rest busy).stepStarts i x).settled :=
      hgoes (exec_runRead hacc hb busy) hstarts
    refine ⟨fun hkind => hgoes hexec (stepStarts_cont hkind i), fun hkind => hgoes hexec (stepStarts_leadcal hkind i),
      fun hkind => hgoes hexec (stepStarts_iso hkind i), fun hkind => hgoes hexec (stepStarts_insul hkind i),
      fun hkind hbound hpause => ⟨_, hexec, ?_⟩, fun hkind hoff => ⟨_, hexec, ?_⟩⟩
    · exact congrArg State.settled (stepStarts_mark_next (s := s.accessed rest busy) hkind hbound hpause)
    · exact stepStarts_end_done (s := s.accessed rest busy) hkind hoff i
  -- the step record fails its parity check
  · have hexec := exec_read_failed hacc hb busy
    obtain ⟨htables, hfault, hpending, hstate, hcause, hstep, hprogress, hsummary, hdefects, hmem⟩ :=
      tableParity_aborts (s := (s.accessed rest busy).onTables fun t => t.parityFailed .steps i) hvalid hrun .steps i none
    exact ⟨_, hexec, htables, hfault, hpending, hstate, hcause, hstep, hprogress, hsummary, hdefects, hmem⟩
  -- the point of a scan is read
  · have hexec := hgoes (exec_sweepRead hacc hb busy) (sweepReadDone_scanPoint hreading)
    intro c module points read
    refine ⟨fun halive hmore => hgoes hexec (scanModule_next halive hmore), fun halive hlast => ?_, fun hlost => ?_⟩
    · have hdone := hgoes hexec (scanModule_done halive hlast)
      refine ⟨fun found hfound => ⟨fun hbound => ?_, fun hbound hsome => ?_⟩, fun g todo htodo => ⟨fun hp => ?_, fun hp => ?_⟩,
        fun q others hp htodo hbus hq => ?_, fun hp => hgoes hdone (scanDone_entryOther (by exact hp))⟩
      · exact hgoes (hgoes hdone (scanDone_candidate (found := found) (by exact hfound))) (nextCandidate_next (by exact hbound))
      · exact hgoes (hgoes hdone (scanDone_candidate (found := found) (by exact hfound)))
          (nextCandidate_search (by exact hbound) (by exact hsome))
      · exact hgoes hdone (scanDone_groupK (by exact hp) (by exact htodo))
      · exact hgoes hdone (scanDone_groupNet (by exact hp) (by exact htodo))
      · exact hgoes (hgoes hdone (scanDone_group (by exact hp) (by exact htodo)))
          (sweepConfigure_asks (by exact hbus) (by exact hq) _)
    · have hscan := hgoes hexec (scanModule_lost (by exact hlost))
      refine ⟨fun hp hbound => ?_, fun g h stack hp hg hstack => ?_, fun e hp he => ?_,
        fun k hp hkind hk hlast hoff hgo hstop hlimit key hkey happ => ?_⟩
      · exact hgoes (hgoes hscan (scanLost_candidate (by exact hp) _ _)) (nextCandidate_next (by exact hbound))
      · exact hgoes hscan (scanLost_groupNet (by exact hp) (by exact hg) (by exact hstack) _ _)
      · exact hgoes (hgoes hscan (scanLost_entryOther (by exact hp) _ _)) (nextEntry_asks (by exact he))
      · subst hkey
        obtain ⟨hdefects, hsweep, hport, hsummary, hpending, hmem⟩ := scanLost_netLost (s := s.accessed rest busy)
          (m := module) hp hkind hk hlast ⟨hoff, hgo, hstop, hlimit, happ⟩
        exact ⟨_, hscan, hdefects, hsweep, hport, hsummary, hpending, hmem⟩
  -- a member of a net of the work list is read
  · have hexec := hgoes (hgoes (exec_sweepRead hacc hb busy) (sweepReadDone_scanMember hreading))
      (scanMember_work (by exact hpurpose) _)
    intro c p hwork asked
    have hlist : work = (s.accessed rest busy).workWith p := hwork
    refine ⟨fun hroom hmore => ?_, fun hroom hlast hp => ?_, fun e hbuilt he => ?_,
      fun hlast hp hnone hkind hcap hgo => ⟨fun h stack hstack => ?_, fun k hstack hk hnotLast => ?_⟩⟩
    all_goals clear hwork
    all_goals subst hlist
    · exact hgoes hexec (workMember_next hroom hmore)
    · exact hgoes hexec (workMember_otherNet hroom hlast hp)
    · refine hgoes (hgoes hexec (workMember_built hbuilt)) ?_
      exact takeEntry_asks (by rw [← he]; exact List.head?_eq_getElem?.symm)
    · exact hgoes (hgoes (hgoes (hgoes hexec (workMember_built (.inr ⟨hlast, hp⟩))) (workBuilt_empty (by exact hnone)))
        (capTest_below (by exact hcap))) (atBoundary_group (by exact hkind) (by exact hstack) (by exact hgo))
    · exact hgoes (hgoes (hgoes (hgoes hexec (workMember_built (.inr ⟨hlast, hp⟩))) (workBuilt_empty (by exact hnone)))
        (capTest_below (by exact hcap)))
        (atBoundary_nextNet (by exact hkind) (by exact hstack) (by exact hk) (by exact hnotLast) (by exact hgo))
  -- the reads of an entry of the work list
  · refine ⟨fun pos hacc hb hreading => ?_, fun hacc hb hreading => ⟨fun halive hq => ?_, fun f hlost hf => ?_⟩⟩
    · exact hgoes (exec_sweepRead hacc hb busy) (sweepReadDone_entryAnchor hreading he)
    · exact hgoes (hgoes (exec_sweepRead hacc hb busy) (sweepReadDone_entryPoint hreading he)) (entryModule_asks halive hq)
    · exact hgoes (hgoes (hgoes (exec_sweepRead hacc hb busy) (sweepReadDone_entryPoint hreading he))
        (entryModule_lost hlost)) (nextEntry_asks hf)
  -- the reads of a visit
  · have hexec := exec_sweepRead hacc hb busy
    intro n module p visit untested quiet fixedLost
    have hlostNet : ∀ {sweep : Sweep} {pos m k : Nat} {key : DefectKey},
        answer = .next (State.sweepVisit { s.accessed rest busy with sweep } pos).settled →
        sweep.fixedModule = some m → s.alive m = false → sweep.netCursor = some k → k ≠ sweep.lastNet → quiet →
        key = untestedKey k sweep.fixedPoint → s.appends key →
        sweep.kind = some .cont ∨ sweep.kind = some .leadcal →
        ∃ t, untested t key m (readFor .nets (k + 1) .sweepRead) ∧
          t.sweep =
            { sweep with
              netCursor := some (k + 1), memberCursor := none, visitedPoint := none, visitedModule := none
              netDone := false, stack := [], inHand := none, results := [], after := .netEnd, state := .reading
              reading := .net
              fixedPoint := if sweep.kind = some .cont then none else sweep.fixedPoint
              fixedModule := if sweep.kind = some .cont then none else sweep.fixedModule } := by
      rintro sweep pos m k _ hvisit hm hlost hk hlast ⟨hoff, hgo, hstop, hlimit⟩ rfl happ hkind
      obtain ⟨hdefects, hsweep, hport, hsummary, hpending, hmem⟩ := sweepVisit_netLost
        (s := { s.accessed rest busy with sweep }) (pos := pos) hm hlost hk hlast ⟨hoff, hgo, hstop, hlimit, happ⟩ hkind
      exact ⟨_, ⟨hvisit, hdefects, hport, hsummary, hpending, hmem⟩, hsweep⟩
    have halone : ∀ {m : Nat}, w.fixedModule = some m → s.alive m = true → s.alive (w.fixedModule.getD 0) = true := by
      intro m hmodule halive
      rw [hmodule]
      exact halive
    have hleadcal : w.kind = some .leadcal → ¬w.kind = some .cont := fun hkind => by simp [hkind]
    refine ⟨fun _ hreading => ?_, fun pos _ hreading hkind hpos => ?_, fun _ hreading => ?_, fun pos _ hreading hpos => ?_,
      fun _ hreading => ?_, fun f q _ hreading hf hq => ?_⟩
    · have hnet := hgoes hexec (sweepReadDone_net (by exact hreading))
      refine ⟨fun hkind hcount hspare => ?_, fun k hkind hpass hk hlast => ?_, fun p hkind hmodule hp => ?_,
        fun m hkind hmodule hcursor hcount => ⟨fun halive => ?_, fun hlost k key hk hlast hquiet hkey happ => ?_⟩⟩
      · exact hgoes hnet (visitNet_anchor (by exact hkind) hcount hspare)
      · exact hgoes (hgoes hnet (visitNet_passes (by exact hkind) hpass))
          (sweepNextNet_cont (by exact hkind) (by exact hk) (by exact hlast))
      · exact hgoes hnet (visitNet_reference (by exact hkind) (by exact hmodule) (by exact hp))
      · have hfirst := nextPosition_first (w := { w with net := n }) hkind hcursor hcount
        have hvisit := hgoes (hgoes hnet (visitNet_member (by exact hkind) (by exact hmodule)))
          (sweepNextMember_asks (pos := 0) (by exact hfirst) (by exact halone hmodule halive))
        rw [Nat.add_zero] at hvisit
        exact hvisit
      · have hfirst := nextPosition_first (w := { w with net := n }) hkind hcursor hcount
        obtain ⟨t, huntested, hsweep⟩ := hlostNet (sweep := { w with net := n })
          (hgoes (hgoes hnet (visitNet_member (by exact hkind) (by exact hmodule)))
            (sweepNextMember_visit (by exact hfirst)))
          hmodule hlost hk hlast hquiet hkey happ (.inr hkind)
        refine ⟨t, huntested, hsweep.trans ?_⟩
        rw [if_neg (hleadcal hkind), if_neg (hleadcal hkind)]
    · have hread := hgoes hexec (sweepReadDone_module (.inl (by exact hreading)))
      refine ⟨fun halive => hgoes hread (sweepNextMember_asks (by exact hpos) (by exact halive)),
        fun hlost k key hk hlast hquiet hkey happ => ?_⟩
      obtain ⟨t, huntested, hsweep⟩ := hlostNet (sweep := { w with fixedModule := some module })
        (hgoes hread (sweepNextMember_visit (by exact hpos))) rfl hlost hk hlast hquiet hkey happ (.inr hkind)
      refine ⟨t, huntested, hsweep.trans ?_⟩
      rw [if_neg (hleadcal hkind), if_neg (hleadcal hkind)]
    · exact hgoes hexec (sweepReadDone_anchorPos (by exact hreading))
    · have hread := hgoes hexec (sweepReadDone_module (.inr (by exact hreading)))
      refine ⟨fun halive => hgoes hread (sweepNextMember_asks (by exact hpos) (by exact halive)),
        fun hlost hkind k key hk hlast hquiet hkey happ => ?_⟩
      obtain ⟨t, huntested, hsweep⟩ := hlostNet (sweep := { w with fixedModule := some module })
        (hgoes hread (sweepNextMember_visit (by exact hpos))) rfl hlost hk hlast hquiet hkey happ (.inl hkind)
      refine ⟨t, huntested, hsweep.trans ?_⟩
      rw [if_pos hkind, if_pos hkind]
    · have hmember := hgoes hexec (sweepReadDone_memberPos (by exact hreading))
      refine ⟨fun h => hgoes hmember (visitPoint_reads (by exact h)), fun pos hkind hfixed hpos halive => ?_⟩
      exact hgoes (hgoes hmember (visitPoint_reference (by exact hkind) (by exact hfixed)))
        (sweepNextMember_asks (by exact hpos) (by exact halive))
    · have hpoint := hgoes hexec (sweepReadDone_memberPoint (by exact hreading))
      refine ⟨fun halive hconf => ?_, fun pos key hlost hkind hdone hpos halive hquiet hkey happ => ?_⟩
      · exact hgoes hpoint (visitModule_asks (by exact halive) (by exact hf) (by exact hq) (by exact hconf))
      · subst hkey
        obtain ⟨hoff, hgo, hstop, hlimit⟩ := hquiet
        obtain ⟨hdefects, hsweep, hport, hsummary, hpending, hmem⟩ := visitModule_lost (s := s.accessed rest busy)
          (m := module) hlost hq hkind hdone hpos halive ⟨hoff, hgo, hstop, hlimit, happ⟩
        exact ⟨_, ⟨hpoint, hdefects, hport, hsummary, hpending, hmem⟩, hsweep⟩
  -- the reads of an INSUL net
  · have hexec := exec_hvRead hacc hb busy
    intro n reads
    refine ⟨fun k _ hwork hk => ?_, fun _ hwork => ?_⟩
    · have hnet := hgoes hexec (hvReadDone_net (by exact hwork) bs)
      refine ⟨fun hclass hlast => hgoes hnet (hvNetRead_passes hclass (by exact hk) hlast),
        fun c hclass => ⟨fun halive => hgoes hnet (hvNetRead_maps hclass (by exact halive)),
          fun m key hm hlast hoff hgo hstop hlimit hkey happ => ?_⟩⟩
      subst hkey
      have hcursor : s.hv.cursor = k := by simp [Hv.cursor, hk]
      have hinsert := hgoes (hgoes hnet (hvNetRead_lost hclass (by exact hm)))
        ((congrArg (fun net => (s.accessed rest busy).hvInsert
          { key := { kind := .untested, netA := net, point := none, netB := none }, value := some m, lowv := false })
          hcursor).trans
          (hvInsert_nextNet (s := s.accessed rest busy) ⟨hoff, hgo, hstop, hlimit, happ⟩ hk hlast))
      have hpending := appendedBy_pending (s.accessed rest busy).hvHands
        { key := untestedKey k none, value := some m, lowv := false }
      have happended := appendedBy_eq (s.accessed rest busy).hvHands
        { key := untestedKey k none, value := some m, lowv := false }
      refine ⟨_, hinsert, rfl, rfl, ?_, ?_, hpending, ?_⟩
      · exact (congrArg State.defects happended).trans rfl
      · exact (congrArg (fun x : State => x.run.summary) happended).trans rfl
      · exact (congrArg State.mem happended).trans rfl
    · exact ⟨fun hmore => hgoes hexec (hvReadDone_map_next (by exact hwork) bs (by exact hmore)),
        fun q bus others hlast hpairs hq =>
          hgoes hexec (hvReadDone_map_done (by exact hwork) bs (by exact hlast) hpairs (by exact hq))⟩

end Sys2Proof.Machine
end

section
/-! PROOFS. The relays (O9): a frame or transaction that sets relays enters only with the HV state SAFE and with masks that
close no channel on both buses, and the HV state leaves SAFE only with none of them left. -/

namespace Sys2Proof.Machine

variable {s t : State} {k : Grant} {v w : View} {e : RingEntry}

/-! ### Frames of the ring that are safe (R52, R54) -/

/-- A frame that closes no channel on both buses, and sets no relays while the HV state is not SAFE. -/
def RingEntry.relaysSafe (e : RingEntry) (hv : HvState) : Prop := e.relaysApart ∧ (e.setsRelays → hv = .safe)

/-- `State.relaysSound` in the terms of the view, with what it asks of a frame said frame by frame. -/
def View.relaysSound (v : View) : Prop :=
  (∀ t ∈ v.txs, t.masks.apart) ∧ (∀ e ∈ v.queue ++ v.wait, e.relaysSafe v.hv) ∧
    (v.txs ≠ [] → v.seq = .verifying) ∧ (v.seq = .translating ∨ v.seq = .verifying → v.hv = .safe)

theorem relaysSound_view : s.relaysSound ↔ s.view.relaysSound := by
  constructor
  · rintro ⟨htxs, hframes, hverifying, hlive⟩
    refine ⟨htxs, fun e he => ⟨hframes e he, fun hset => ?_⟩, hverifying, fun hseq => ?_⟩ <;> by_contra hne <;>
      obtain ⟨hnone, htranslating, hverify⟩ := hlive hne
    · exact hnone e he hset
    · exact hseq.elim htranslating hverify
  · rintro ⟨htxs, hframes, hverifying, hsafe⟩
    exact ⟨htxs, fun e he => (hframes e he).1, hverifying, fun hne =>
      ⟨fun e he hset => hne ((hframes e he).2 hset), fun h => hne (hsafe (.inl h)), fun h => hne (hsafe (.inr h))⟩⟩

/-- The frame of a transaction is as safe as the transaction's masks (R53). -/
theorem relaysApart_of_carries {ts : List Transaction} (hc : e.carries ts) (h : ∀ t ∈ ts, t.masks.apart) :
    e.relaysApart := fun m hm => by
  obtain ⟨t, ht, hp⟩ := hc m hm
  exact ⟨t.masks, h t ht, hp⟩

/-- A frame of a pass-through request is no frame of a transaction (R170). -/
theorem relaysApart_passThrough (f : Frame) : RingEntry.relaysApart { frame := f, owner := .passThrough } :=
  fun _ h => by cases h

/-- A tag sets no relays. -/
theorem relaysSafe_tagged {hv : HvState} (h : e.relaysSafe hv) (tag : Byte) :
    RingEntry.relaysSafe { e with frame := { e.frame with tag } } hv := h

/-! ### What every `Change` keeps -/

theorem change_keeps_relays (c : Change k v w) (h : v.relaysSound) : w.relaysSound := by
  obtain ⟨htxs, hframes, hverifying, hsafe⟩ := h
  cases c with
  | waits e hset hc =>
    have he : e.relaysSafe v.hv := ⟨relaysApart_of_carries hc htxs, fun h =>
      (hset h).elim id fun hne => hsafe (.inr (hverifying hne))⟩
    refine ⟨htxs, fun f hf => ?_, hverifying, hsafe⟩
    rw [← List.append_assoc, List.mem_append, List.mem_singleton] at hf
    exact hf.elim (hframes f) fun hfe => hfe ▸ he
  | placed e rest hw _ =>
    rw [hw] at hframes
    refine ⟨htxs, fun f hf => ?_, hverifying, hsafe⟩
    rw [List.append_assoc, List.mem_append, List.singleton_append, List.mem_cons] at hf
    rcases hf with hf | rfl | hf
    · exact hframes f (List.mem_append_left _ hf)
    · exact relaysSafe_tagged (hframes e (List.mem_append_right _ List.mem_cons_self)) _
    · exact hframes f (List.mem_append_right _ (List.mem_cons_of_mem _ hf))
  | passes f _ hf =>
    refine ⟨htxs, fun e he => ?_, hverifying, hsafe⟩
    rw [List.append_assoc, List.mem_append, List.singleton_append, List.mem_cons] at he
    rcases he with he | rfl | he
    · exact hframes e (List.mem_append_left _ he)
    · exact ⟨relaysApart_passThrough f, hf⟩
    · exact hframes e (List.mem_append_right _ he)
  | leave q w hq hw => exact ⟨htxs, fun e he => hframes e ((hq.append hw).subset he), hverifying, hsafe⟩
  | rests => exact ⟨by simp, hframes, fun hne => absurd rfl hne, by simp⟩
  | homeOver hhoming =>
    refine ⟨htxs, hframes, fun hne => ?_, by simp⟩
    exact SeqState.noConfusion (hhoming.symm.trans (hverifying hne))
  | begins st _ idle safe =>
    refine ⟨htxs, hframes, fun hne => ?_, fun _ => safe⟩
    exact SeqState.noConfusion (idle.symm.trans (hverifying hne))
  | verifies ts htranslating hapart => exact ⟨hapart, hframes, fun _ => rfl, fun _ => hsafe (.inl htranslating)⟩
  | settles _ none => exact ⟨htxs, hframes, fun hne => absurd none hne, by simp⟩
  | txs ts hsame =>
    refine ⟨fun t ht => ?_, hframes, fun hne => ?_, hsafe⟩
    · obtain ⟨u, hu, hmasks⟩ := hsame t ht
      exact hmasks ▸ htxs u hu
    · obtain ⟨t, ht⟩ := List.exists_mem_of_ne_nil _ hne
      obtain ⟨u, hu, -⟩ := hsame t ht
      exact hverifying (List.ne_nil_of_mem hu)
  | hv st relays _ _ =>
    refine ⟨htxs, fun e he => ⟨(hframes e he).1, fun hset => ?_⟩, hverifying, fun hseq => ?_⟩ <;> by_contra hne
    · exact (relays ((hframes e he).2 hset) hne).1 e he hset
    · obtain ⟨-, htranslating, hverify⟩ := relays (hsafe hseq) hne
      exact hseq.elim htranslating hverify
  | testEnds _ live =>
    have hlive : v.hv ≠ .safe := by rcases live with h | h <;> simp [h]
    exact ⟨htxs, fun e he => ⟨(hframes e he).1, fun hset => absurd ((hframes e he).2 hset) hlive⟩, hverifying,
      fun hseq => absurd (hsafe hseq) hlive⟩
  | _ => exact ⟨htxs, hframes, hverifying, hsafe⟩

/-- A reset leaves no frame, no transaction and no configuration (R180). -/
theorem inReset_relaysSound (x : State) (cause : ResetCause) (command : Bool) :
    (x.inReset cause command).view.relaysSound :=
  ⟨List.forall_mem_nil _, List.forall_mem_nil _, fun hne => absurd rfl hne, by
    rintro (h | h) <;> exact SeqState.noConfusion h⟩

/-- Settles O9: what sets relays enters in SAFE alone and leaves before the HV state leaves SAFE. -/
theorem stepKeepsRelaysSound : Obligations.StepKeepsRelaysSound := fun _ _ h e =>
  relaysSound_view.mpr <| step_keeps (P := View.relaysSound) (fun _ _ _ c => change_keeps_relays c) (fun _ _ _ h => h)
    (fun _ _ h => h) (fun x _ cause command _ _ => inReset_relaysSound x cause command) (relaysSound_view.mp h) e

end Sys2Proof.Machine
end

section
/-! PROOFS. An ECH (O51): the echoes of a configuration, of a HOME, and of a pass-through frame. -/

namespace Sys2Proof.Machine

variable {s : State} {m tag : Nat} {x : Transaction}

/-! ### A node is heard (R65, R69) -/

theorem nodeIndex_eq_iff {a b i j : Nat} (ha : nodeIndex a = some i) (hb : nodeIndex b = some j) : i = j ↔ b = a := by
  have ha' := nodeIndex_eq_some.mp ha
  have hb' := nodeIndex_eq_some.mp hb
  omega

theorem exists_nodeIndex {a : Nat} (h : s.configured a = true) : ∃ i, nodeIndex a = some i := by
  rcases configured_iff.mp h with rfl | ⟨h1, h64, -⟩
  · exact ⟨64, rfl⟩
  · exact ⟨a - 1, nodeIndex_eq_some.mpr (.inl ⟨h1, h64, rfl⟩)⟩

/-- A change of the entry of a configured node changes that entry alone (R65). -/
theorem onNode_node (s : State) (a b : Nat) (f : Node → Node) :
    (s.onNode a f).node? b = if b = a ∧ s.configured a = true then (s.node? b).map f else s.node? b := by
  by_cases hc : s.configured a = true
  swap
  · rw [onNode_unconfigured (by simpa using hc), if_neg fun h => hc h.2]
  obtain ⟨i, hi⟩ := exists_nodeIndex hc
  have hnode : (s.onNode a f).node? b = (nodeIndex b).bind fun j => (s.sup.nodes.modify i f)[j]? := by
    rw [State.onNode, if_pos hc, hi]
    rfl
  rw [hnode, State.node?]
  cases hb : nodeIndex b with
  | none =>
    have hne : b ≠ a := fun h => Option.some_ne_none _ (hi.symm.trans (h ▸ hb))
    rw [if_neg fun h => hne h.1]
    rfl
  | some j =>
    have hij := nodeIndex_eq_iff hi hb
    by_cases hba : b = a
    · rw [if_pos ⟨hba, hc⟩]
      simp [hij.mpr hba]
    · rw [if_neg fun h => hba h.1]
      simp [mt hij.mp hba]

theorem heardFrom_eq (s : State) (a : Nat) : ∃ nodes, s.heardFrom a = { s with sup := { s.sup with nodes } } :=
  ⟨_, onNode_eq s a _⟩

/-- A node that is heard keeps the list of modules (R12). -/
theorem modules_heardFrom (s : State) (a : Nat) : (s.heardFrom a).modules = s.modules := by
  refine modules_congr fun b => ?_
  by_cases hc : s.configured a = true
  · obtain ⟨i, hi⟩ := exists_nodeIndex hc
    have heq : s.heardFrom a =
        { s with sup := { s.sup with nodes := s.sup.nodes.modify i fun n => { n with heard := true } } } := by
      rw [State.heardFrom, State.onNode, if_pos hc, hi]
      rfl
    rw [heq]
    exact channels_modify (by intro n; rfl) i b
  · rw [State.heardFrom, onNode_unconfigured (by simpa using hc)]

/-! ### The echo of a transaction (R55, R57) -/

/-- The transaction of a module answers to the tag of its frame that was sent (R55). -/
theorem answered_eq (hfind : s.seq.transactions.find? (fun t => t.module = m) = some x) (htag : x.tag = some tag)
    (hsent : x.phase = .sent) : s.answered m tag = some x := by
  obtain ⟨hmodule, before, after, hlist, hbefore⟩ := List.find?_eq_some_iff_append.mp hfind
  refine List.find?_eq_some_iff_append.mpr ⟨?_, before, after, hlist, fun t ht => ?_⟩
  · simpa [htag, hsent] using hmodule
  · have hne : t.module ≠ m := by simpa using hbefore t ht
    simp [hne]

theorem answered_none (h : ∀ t ∈ s.seq.transactions, ¬(t.module = m ∧ t.tag = some tag ∧ t.phase = .sent)) :
    s.answered m tag = none :=
  List.find?_eq_none.mpr fun t ht => by simpa [and_assoc] using h t ht

theorem verifyEcho_none (h : ∀ t ∈ s.seq.transactions, ¬(t.module = m ∧ t.tag = some tag ∧ t.phase = .sent))
    (countA countB : Nat) : s.verifyEcho m tag countA countB = s := by
  rw [State.verifyEcho, answered_none h]

/-- The masks of a module are believed, and its transaction ends (R55). -/
def State.verified (s : State) (m : Nat) (masks : Masks) : State :=
  { s with seq :=
      { s.seq with
        believed := s.seq.believed.set (m - 1) (some masks)
        transactions := s.seq.transactions.filter fun t => t.module ≠ m } }

theorem verifyEcho_matches (hm : 1 ≤ m) (h : s.answered m tag = some x) :
    s.verifyEcho m tag (maskCount x.masks.a) (maskCount x.masks.b) = (s.verified m x.masks).configEnd := by
  rw [State.verifyEcho, h]
  simp only [decide_true, Bool.and_true, if_true, State.believe, if_pos hm]
  rfl

theorem verifyEcho_differs (h : s.answered m tag = some x) {countA countB : Nat}
    (hne : ¬(maskCount x.masks.a = countA ∧ maskCount x.masks.b = countB)) :
    s.verifyEcho m tag countA countB = ((s.faultAgainst m).attemptFails m).configEnd := by
  rw [State.verifyEcho, h]
  exact if_neg (by simpa using hne)

/-- Counts that differ are a fault of the module, and with an attempt left its frame is sent again (R55, R56). -/
theorem verifyEcho_resends (hfind : s.seq.transactions.find? (fun t => t.module = m) = some x)
    (h : s.answered m tag = some x) {countA countB : Nat}
    (hne : ¬(maskCount x.masks.a = countA ∧ maskCount x.masks.b = countB)) (hlt : x.attempt < 4) (hfree : s.ringFree) :
    s.verifyEcho m tag countA countB =
      { s.faultAgainst m with
        seq := { s.seq with transactions := s.seq.transactions.map fun u =>
          if u.module = m then u.resent s.ring.ownTag else u }
        ring := s.ring.placed m clsSw (maskBytes x.masks.a ++ maskBytes x.masks.b) (.switch m) } := by
  obtain ⟨nodes, hnodes⟩ := faultAgainst_eq s m
  rw [verifyEcho_differs h hne, hnodes, resends_goesOn (by exact hfind) hlt (by exact hfree)]

/-- Counts that differ at the fourth attempt put the module into the failed list (R56, R57). -/
theorem verifyEcho_exhausted (hfind : s.seq.transactions.find? (fun t => t.module = m) = some x)
    (h : s.answered m tag = some x) {countA countB : Nat}
    (hne : ¬(maskCount x.masks.a = countA ∧ maskCount x.masks.b = countB)) (hlast : 4 ≤ x.attempt)
    (hmore : (s.seq.transactions.filter fun t => t.module ≠ m) ≠ []) :
    s.verifyEcho m tag countA countB =
      { s.faultAgainst m with
        seq := { s.seq with
          transactions := s.seq.transactions.filter fun t => t.module ≠ m, failed := putAddress m s.seq.failed } } := by
  obtain ⟨nodes, hnodes⟩ := faultAgainst_eq s m
  rw [verifyEcho_differs h hne, exhausted_goesOn (x := x) (by rw [hnodes]; exact hfind) hlast
    (by rw [hnodes]; exact hmore), faultAgainst_again, hnodes]

/-- Counts that differ at the fourth attempt of the last transaction end the configuration (R56, R57). -/
theorem verifyEcho_fails (hfind : s.seq.transactions.find? (fun t => t.module = m) = some x)
    (h : s.answered m tag = some x) {countA countB : Nat}
    (hne : ¬(maskCount x.masks.a = countA ∧ maskCount x.masks.b = countB)) (hlast : 4 ≤ x.attempt)
    (hstate : s.seq.state = .verifying) (hnone : (s.seq.transactions.filter fun t => t.module ≠ m) = [])
    {low : Nat} {more : List Nat} {key : DefectKey} (hlow : putAddress m s.seq.failed = low :: more)
    (hoff : s.print.state = .off) (happ : s.appends key) (hkey : s.switchFaultKey key) :
    let t := s.verifyEcho m tag countA countB
    s.configFailedTo t { s.seq with failed := putAddress m s.seq.failed } low key ∧
      t.sup.nodes = (s.faultAgainst m).sup.nodes := by
  intro t
  have ht : t = ((s.faultAgainst m).attemptFails m).configEnd := verifyEcho_differs h hne
  have hagain := faultAgainst_again s m
  obtain ⟨nodes, hnodes⟩ := faultAgainst_eq s m
  rw [hnodes] at ht hagain ⊢
  obtain ⟨hto, hsup⟩ := attemptFails_ends (s := { s with sup := { s.sup with nodes } }) hstate hfind hlast hnone hlow hoff
    happ hkey
  rw [ht]
  exact ⟨hto, hsup.trans (congrArg (fun y : State => y.sup.nodes) hagain)⟩

/-- With every transaction ended and no module failed the settle delay begins (R57, R58). -/
theorem configEnd_settles (hstate : s.seq.state = .verifying) (h : s.seq.transactions = []) (hfailed : s.seq.failed = []) :
    s.configEnd =
      { s with seq :=
          { s.seq with
            transactions := [], state := .settling, settleTimer := some (settleDelay s.seq.settle) } } := by
  rw [State.configEnd, if_neg (by simp [hstate, h]), if_pos (by simp [hfailed]), ← h]
  rfl

/-- The last transaction ends with a module in the failed list: the SWITCH-FAULT of the requester (R57). -/
theorem verified_fails {low : Nat} {more : List Nat} {key : DefectKey} {masks : Masks}
    (hstate : s.seq.state = .verifying) (hlast : (s.seq.transactions.filter fun t => t.module ≠ m) = [])
    (hfailed : s.seq.failed = low :: more) (hoff : s.print.state = .off) (happ : s.appends key)
    (hkey : s.switchFaultKey key) :
    s.configFailedTo (s.verified m masks).configEnd
      { s.seq with believed := s.seq.believed.set (m - 1) (some masks) } low key := by
  rw [configEnd_failed (by exact hstate) (by exact hlast) (by exact fun h => List.cons_ne_nil _ _ (hfailed.symm.trans h))]
  obtain ⟨hseq, -, hrecord, hmeasured, hpending⟩ := configFailed_leaves (s := s.verified m masks) (low := low)
    (more := more) (key := key) (by exact hfailed) (by exact hoff) (by exact happ) (by exact hkey)
  exact ⟨hseq, hrecord, hmeasured, hpending⟩

/-! ### The echo of a HOME (R62) -/

/-- A module that answered a HOME, with what it is believed to be from then on (R62). -/
def State.homeAnswered (s : State) (m : Nat) (masks : Option Masks) : State :=
  { s with seq :=
      { s.seq with
        believed := s.seq.believed.set (m - 1) masks
        home := { s.seq.home with answered := putAddress m s.seq.home.answered } } }

/-- The believed state of a module after its answer to a HOME (R62). -/
def homeBelief (countA countB : Byte) : Option Masks :=
  if countA = 0 ∧ countB = 0 then some { a := 0, b := 0 } else none

theorem homeEcho_other (h : s.seq.home.tag ≠ some tag ∨ m ∉ s.modules) (countA countB : Nat) :
    s.homeEcho m tag countA countB = s := by
  rw [State.homeEcho, if_pos (by simpa using h)]

theorem homeEcho_answered (htag : s.seq.home.tag = some tag) (hm : m ∈ s.modules) (countA countB : Byte) :
    s.homeEcho m tag countA.toNat countB.toNat =
      if (s.homeAnswered m (homeBelief countA countB)).seq.home.answerEnds then
        (s.homeAnswered m (homeBelief countA countB)).homeEnd
      else s.homeAnswered m (homeBelief countA countB) := by
  have hbelief : (if decide (countA.toNat = 0) && decide (countB.toNat = 0) then some Masks.clear else none) =
      homeBelief countA countB := by
    simp [homeBelief, toNat_eq_zero, Masks.clear]
  rw [State.homeEcho, if_neg (by simp [htag, hm]), State.believe, if_pos (mem_modules.mp hm).1, hbelief]
  rfl

theorem answerEnds_iff (h : Home) :
    h.answerEnds = true ↔ h.expected ≠ [] ∧ ∀ a ∈ h.expected, a ∈ h.answered := by
  simp [Home.answerEnds, Home.allAnswered]

/-- A HOME goes on until its last expected module has answered; one that expects none is ended by no answer (R62, log 56). -/
theorem homeEcho_goesOn (htag : s.seq.home.tag = some tag) (hm : m ∈ s.modules)
    (hmore : s.seq.home.expected = [] ∨ ∃ a ∈ s.seq.home.expected, a ∉ putAddress m s.seq.home.answered)
    (countA countB : Byte) :
    s.homeEcho m tag countA.toNat countB.toNat = s.homeAnswered m (homeBelief countA countB) := by
  rw [homeEcho_answered htag hm, if_neg]
  rw [answerEnds_iff]
  rintro ⟨hne, hall⟩
  rcases hmore with hnil | ⟨a, ha, hna⟩
  · exact hne hnil
  · exact hna (hall a ha)

theorem homeEcho_ends (htag : s.seq.home.tag = some tag) (hm : m ∈ s.modules) (hexpected : s.seq.home.expected ≠ [])
    (hall : ∀ a ∈ s.seq.home.expected, a ∈ putAddress m s.seq.home.answered) (countA countB : Byte) :
    s.homeEcho m tag countA.toNat countB.toNat = (s.homeAnswered m (homeBelief countA countB)).homeEnd := by
  rw [homeEcho_answered htag hm, if_pos ((answerEnds_iff _).mpr (by exact ⟨hexpected, hall⟩))]

/-! ### An ECH (R55, R62, R69) -/

theorem isNodeAddress_iff {src : Byte} : isNodeAddress src = true ↔ 1 ≤ src.toNat ∧ src.toNat ≤ 126 := by
  simp [isNodeAddress]

theorem exec_ech (hheld : s.rst.held = false) {src tag : Byte} (hwf : isNodeAddress src = true) (countA countB : Byte) :
    exec (.echReceived src tag countA countB) s = .next (s.echoArrives src tag countA countB).settled := by
  rw [exec, execEchReceived, event_taken hheld, if_pos hwf]

theorem echoArrives_own {src tag : Byte} (htag : tag.toNat < 128) (countA countB : Byte) :
    s.echoArrives src tag countA countB =
      (s.heardFrom src.toNat).ownEcho src.toNat tag.toNat countA.toNat countB.toNat :=
  if_pos htag

/-- A pass-through ECH goes up the trunk where there is room (R169). -/
theorem echoArrives_passThrough {src tag : Byte} (htag : 128 ≤ tag.toNat) (countA countB : Byte) :
    s.echoArrives src tag countA countB = (s.heardFrom src.toNat).copiedUp tag
      { dst := 0, src, cls := clsEch, tag, payload := [countA, countB] } := by
  rw [State.echoArrives, State.copiedUp, if_neg (Nat.not_lt.mpr htag), if_neg (Nat.not_lt.mpr htag)]

theorem exec_ech_own (hheld : s.rst.held = false) {src tag : Byte} (hwf : isNodeAddress src = true)
    (htag : tag.toNat < 128) (countA countB : Byte) :
    exec (.echReceived src tag countA countB) s =
      .next ((s.heardFrom src.toNat).ownEcho src.toNat tag.toNat countA.toNat countB.toNat).settled := by
  rw [exec_ech hheld hwf, echoArrives_own htag]

/-- Settles O51: a pass-through ECH, and one with an own tag by the state of the sequencer. -/
theorem echoesVerify : Obligations.EchoesVerify := by
  intro s src tag countA countB hheld hwf
  obtain ⟨hsrc, -⟩ := isNodeAddress_iff.mp hwf
  have hown := fun htag => exec_ech_own hheld hwf (tag := tag) htag countA countB
  have hpass : 128 ≤ tag.toNat → exec (.echReceived src tag countA countB) s = .next ((s.heardFrom src.toNat).copiedUp tag
      { dst := 0, src, cls := clsEch, tag, payload := [countA, countB] }).settled := fun htag => by
    rw [exec_ech hheld hwf, echoArrives_passThrough htag]
  have hmodules := modules_heardFrom s src.toNat
  obtain ⟨nodes, hnodes⟩ := heardFrom_eq s src.toNat
  refine ⟨fun a b => onNode_node s a b _, ?_⟩
  generalize s.heardFrom src.toNat = heard at *
  subst hnodes
  refine ⟨fun htag hfull => ?_, fun htag hroom => ?_, fun htag hstate => ?_,
    fun htag hstate => ?_, fun htag hstate => ?_⟩
  · rw [hpass htag, copiedUp_eq, if_pos (.inr (by exact hfull))]
  · rw [hpass htag, copiedUp_eq, if_neg (not_or.mpr ⟨Nat.not_lt.mpr htag, Nat.not_le.mpr (by exact hroom)⟩)]
  · rw [hown htag, State.ownEcho]
    rcases hstate with h | h | h <;> simp only [h]
  · have hverify : exec (.echReceived src tag countA countB) s = .next (State.settled (State.verifyEcho
        { s with sup := { s.sup with nodes } } src.toNat tag.toNat countA.toNat countB.toNat)) := by
      rw [hown htag, State.ownEcho]
      simp only [hstate]
    rw [hverify]
    intro heard others
    refine ⟨fun hno => ?_, fun t hfind htt hsent => ?_⟩
    · rw [verifyEcho_none (by exact hno)]
    have hanswered : State.answered { s with sup := { s.sup with nodes } } src.toNat tag.toNat = some t :=
      answered_eq hfind htt hsent
    refine ⟨fun hA hB => ?_, fun hne hlast => ?_, fun hne hlt hfree => ?_⟩
    · rw [← hA, ← hB, verifyEcho_matches hsrc hanswered]
      refine ⟨fun hmore => ?_, fun hnone hfailed => ?_, fun low more key hnone hlow hoff happ hkey => ?_⟩
      · rw [configEnd_goesOn (by exact hmore)]
        rfl
      · rw [configEnd_settles (by exact hstate) (by exact hnone) (by exact hfailed)]
        rfl
      · exact ⟨_, rfl, verified_fails (s := heard) hstate hnone hlow hoff happ hkey⟩
    · refine ⟨fun hmore => ?_, fun low more key hnone hlow hoff happ hkey => ?_⟩
      · rw [verifyEcho_exhausted (by exact hfind) hanswered hne hlast (by exact hmore)]
      · exact ⟨_, rfl, verifyEcho_fails (s := heard) hfind hanswered hne hlast hstate hnone hlow hoff happ hkey⟩
    · rw [verifyEcho_resends (by exact hfind) hanswered hne hlt (by exact hfree)]
      rfl
  · have hhome : exec (.echReceived src tag countA countB) s = .next (State.settled (State.homeEcho
        { s with sup := { s.sup with nodes } } src.toNat tag.toNat countA.toNat countB.toNat)) := by
      rw [hown htag, State.ownEcho]
      simp only [hstate]
    rw [hhome]
    intro heard believed answered
    refine ⟨fun hother => ?_, fun hcur hm => ?_⟩
    · rw [homeEcho_other]
      rw [hmodules]
      exact hother
    · have hm' : src.toNat ∈ State.modules { s with sup := { s.sup with nodes } } := by rwa [hmodules]
      refine ⟨fun hmore => ?_, fun first hexpected hall hwait hno => ?_⟩
      · rw [homeEcho_goesOn (by exact hcur) hm' (by exact hmore)]
        rfl
      · rw [homeEcho_ends (by exact hcur) hm' (by exact hexpected) (by exact hall),
          homeEnd_starts (by exact hwait) (by exact hno)]
        rfl

end Sys2Proof.Machine
end

section
/-! PROOFS. The flags of modules that are not configured (O10). -/

namespace Sys2Proof.Machine

variable {s : State} {k : Grant} {v w : View}

/-- The flags of a supervision entry are clear (R65, R73). -/
def Node.quiet (n : Node) : Prop := n.heard = false ∧ n.fault = false ∧ n.alive = false

theorem quiet_cleared (c : Nat) : (Node.cleared c).quiet := ⟨rfl, rfl, rfl⟩

/-- 65 entries, and no flag of a module that is not configured: `State.nodesSound` in the terms of the view. -/
def View.nodesSound (v : View) : Prop :=
  v.nodes.length = 65 ∧ ∀ i < 64, ∀ n ∈ v.nodes[i]?, n.channels = 0 → n.quiet

theorem nodesSound_view : s.nodesSound ↔ s.view.nodesSound := Iff.rfl

/-- 65 entries with every flag clear are sound, whatever the channel counts. -/
theorem nodesSound_of_quiet (hlen : v.nodes.length = 65) (hquiet : ∀ n ∈ v.nodes, n.quiet) : v.nodesSound :=
  ⟨hlen, fun _ _ n hn _ => hquiet n (List.mem_of_getElem? hn)⟩

theorem change_keeps_nodes (c : Change k v w) (h : v.nodesSound) : w.nodesSound := by
  obtain ⟨hlen, hclear⟩ := h
  cases c with
  | node i f hchannels hconfigured =>
    refine ⟨(List.length_modify ..).trans hlen, fun j hj n hn hzero => ?_⟩
    obtain ⟨m, hm, rfl⟩ : ∃ m, v.nodes[j]? = some m ∧ (if i = j then f m else m) = n := by
      simpa [List.getElem?_modify] using hn
    by_cases hij : i = j
    · subst hij
      rw [if_pos rfl, hchannels] at hzero
      rcases hconfigured with rfl | ⟨m', hm', hne⟩
      · exact absurd hj (Nat.lt_irrefl _)
      · exact absurd (Option.some.inj (hm'.symm.trans hm) ▸ hzero) hne
    · rw [if_neg hij] at hzero ⊢
      exact hclear j hj m hm hzero
  | nodes f hf =>
    refine ⟨(List.length_map ..).trans hlen, fun j hj n hn hzero => ?_⟩
    obtain ⟨m, hm, rfl⟩ : ∃ m, v.nodes[j]? = some m ∧ f m = n := by simpa using hn
    obtain ⟨hchannels, hquiet⟩ := hf m
    exact hquiet (hclear j hj m hm (hchannels ▸ hzero))
  | modules ns hsame hquiet _ => exact nodesSound_of_quiet (hsame.trans hlen) hquiet
  | _ => exact ⟨hlen, hclear⟩

/-- A reset clears every flag, and a command reset keeps the channel counts alone (R65, R181). -/
theorem inReset_nodesSound (x : State) (cause : ResetCause) (command : Bool) (h : x.sup.nodes.length = 65) :
    (x.inReset cause command).view.nodesSound := by
  cases command with
  | false =>
    refine nodesSound_of_quiet List.length_replicate fun n hn => ?_
    rw [List.eq_of_mem_replicate hn]
    exact quiet_cleared 0
  | true =>
    refine nodesSound_of_quiet ((List.length_map ..).trans h) fun n hn => ?_
    obtain ⟨m, -, rfl⟩ := List.mem_map.mp hn
    exact quiet_cleared m.channels

/-- Settles O10: an entry changes only for a configured node or with clear flags kept clear, and a load or a reset clears
every flag. -/
theorem stepKeepsNodesSound : Obligations.StepKeepsNodesSound := fun _ _ h e =>
  nodesSound_view.mpr <| step_keeps (P := View.nodesSound) (fun _ _ _ c => change_keeps_nodes c) (fun _ _ _ h => h)
    (fun _ _ h => h) (fun x _ cause command h _ => inReset_nodesSound x cause command h.1) (nodesSound_view.mp h) e

end Sys2Proof.Machine
end

section
/-! PROOFS. READ STATUS and READ MODULES (O18). -/

namespace Sys2Proof.Machine

variable {s : State}

/-! ### A command that SAFE-HALT does not refuse (R167, R172) -/

/-- A command that is taken in SAFE-HALT too runs its body wherever it is heard, and its event ends. -/
theorem command_heard_inHalt (h : s.hearsTrunk) {args : List Byte} (ha : args.length ≤ 63) (tag code : Byte)
    (body : State → State) : s.command tag code true args body = .next (body s).settled := by
  obtain ⟨hheld, hphase, hroom⟩ := h
  have hdeaf : s.trunkDeaf = false := by
    simp only [State.trunkDeaf, State.trunkFull, hheld, hphase]
    simpa using hroom
  have hargs : argsFit args = true := by simpa [argsFit] using ha
  simp only [State.command, hdeaf, hargs, Bool.not_true, Bool.and_false]
  rfl

/-! ### Sets of flags as numbers (R174) -/

/-- The weight of a flag: bit `n` where it is set. -/
def flagBit (b : Bool) (n : Nat) : Nat := if b then 2 ^ n else 0

/-- The number of the flags so far, and of more flags from bit `n` on. -/
def flagSum (sum n : Nat) : List Bool → Nat
  | [] => sum
  | b :: bs => flagSum (sum + flagBit b n) (n + 1) bs

/-- A flag before the others takes bit 0, and they move up by one. -/
theorem flagsByte_cons (b : Bool) (bs : List Bool) : flagsByte (b :: bs) = byte (flagBit b 0) + 2 * flagsByte bs := by
  have hshift : ∀ x : Byte, (x <<< 1) ||| 0 = 0 + 2 * x ∧ (x <<< 1) ||| 1 = 1 + 2 * x := by decide
  obtain ⟨hclear, hset⟩ := hshift (flagsByte bs)
  cases b
  · exact hclear
  · exact hset

theorem byte_flagBit (b : Bool) (n : Nat) : byte (flagBit b n) = byte (2 ^ n) * byte (flagBit b 0) := by
  cases b
  · exact (BitVec.mul_zero).symm
  · exact (BitVec.mul_one _).symm

theorem byte_flagSum (sum n : Nat) (bs : List Bool) :
    byte (flagSum sum n bs) = byte sum + byte (2 ^ n) * flagsByte bs := by
  induction bs generalizing sum n with
  | nil => exact (BitVec.add_zero _).symm.trans (congrArg (byte sum + ·) BitVec.mul_zero.symm)
  | cons b bs ih =>
    have hsum : byte (sum + flagBit b n) = byte sum + byte (flagBit b n) := BitVec.ofNat_add ..
    have hdouble : byte (2 ^ (n + 1)) = byte (2 ^ n) * 2 := by rw [Nat.pow_succ]; exact BitVec.ofNat_mul ..
    rw [flagSum, ih, flagsByte_cons, hsum, hdouble, byte_flagBit]
    ring

/-- A byte of flags is the sum of the weights of its flags. -/
theorem flagsByte_eq_flagSum (b : Bool) (bs : List Bool) :
    flagsByte (b :: bs) = byte (flagSum (flagBit b 0) 1 bs) := by
  rw [byte_flagSum, flagsByte_cons]
  rfl

/-! ### READ STATUS (R174) -/

/-- The state as READ STATUS finds it, with the level of PRN_BUSY that comes with the row (log 18). -/
abbrev State.seenBusy (s : State) (busy : Bool) : State := s.onPins fun p => { p with prnBusy := busy }

theorem exec_readStatus_ok (h : s.hearsTrunk) (tag sec : Byte) (busy : Bool) {data : List Byte}
    (hdata : (s.seenBusy busy).status sec.toNat = some data) :
    exec (.readStatus tag ⟨[sec], busy⟩) s = .next ((s.seenBusy busy).replied tag 0x02 .ok data) := by
  rw [exec, execReadStatus, command_heard_inHalt (by exact h) (by simp)]
  simp only [hdata, reply_settled]

theorem status_eq_none {sec : Nat} (h : 7 < sec) : s.status sec = none := by
  unfold State.status
  split
  case h_9 => rfl
  all_goals omega

theorem exec_readStatus_badArg (h : s.hearsTrunk) (tag : Byte) (busy : Bool) {args : List Byte}
    (hlen : args.length ≤ 63) (hbad : args.length ≠ 1 ∨ 7 < (args.getD 0 0).toNat) :
    exec (.readStatus tag ⟨args, busy⟩) s = .next ((s.seenBusy busy).replied tag 0x02 .badArg []) := by
  rw [exec, execReadStatus, command_heard_inHalt (by exact h) (by exact hlen)]
  refine congrArg Host.Outcome.next ?_
  match args, hbad with
  | [], _ => exact reply_settled ..
  | [sec], .inr hsec =>
    have hnone : (s.seenBusy busy).status sec.toNat = none := status_eq_none hsec
    simp only [hnone, reply_settled]
  | _ :: _ :: _, _ => exact reply_settled ..

/-! ### READ MODULES (R75) -/

theorem exec_readModules_taken (h : s.takesCommands) (tag first : Byte) :
    exec (.readModules tag [first]) s = .next
      (if (nodeIndex first.toNat).isSome then s.replied tag 0x1F .ok (s.moduleReport first.toNat)
       else s.replied tag 0x1F .badArg []) := by
  rw [exec, execReadModules, command_taken h (by simp)]
  refine congrArg Host.Outcome.next ?_
  simp only [apply_ite State.settled, reply_settled]

theorem nodeIndex_isSome {a : Nat} : (nodeIndex a).isSome = true ↔ (1 ≤ a ∧ a ≤ 64) ∨ a = 72 := by
  rw [Option.isSome_iff_exists]
  simp only [nodeIndex_eq_some]
  constructor
  · rintro ⟨i, ⟨h1, h64, -⟩ | ⟨h72, -⟩⟩
    · exact .inl ⟨h1, h64⟩
    · exact .inr h72
  · rintro (⟨h1, h64⟩ | h72)
    · exact ⟨a - 1, .inl ⟨h1, h64, rfl⟩⟩
    · exact ⟨64, .inr ⟨h72, rfl⟩⟩

/-- The flags of an entry of READ MODULES, flag by flag (R75, R174). -/
theorem nodeFlags_eq (heard fault alive known : Bool) :
    flagsByte [heard, fault, alive, known] =
      (if heard then 0x01#8 else 0) + (if fault then 0x02#8 else 0) + (if alive then 0x04#8 else 0)
        + (if known then 0x08#8 else 0) := by
  revert heard fault alive known
  decide

/-- Settles O18: each section, and each entry of READ MODULES, item by item. -/
theorem statusAndModulesReported : Obligations.StatusAndModulesReported := by
  intro s tag hs
  refine ⟨fun args busy hlen hbad => exec_readStatus_badArg hs tag busy hlen hbad, fun busy => ?_, by decide,
    fun hhalt first period ht hfirst => ?_, fun hhalt first hrange hhead => ?_⟩
  · intro sent bit word line
    refine ⟨exec_readStatus_ok hs tag 0 busy rfl, exec_readStatus_ok hs tag 1 busy (congrArg some ?_),
      exec_readStatus_ok hs tag 2 busy rfl, exec_readStatus_ok hs tag 3 busy rfl, exec_readStatus_ok hs tag 4 busy rfl,
      exec_readStatus_ok hs tag 5 busy (congrArg some ?_), exec_readStatus_ok hs tag 6 busy (congrArg some ?_),
      exec_readStatus_ok hs tag 7 busy (congrArg some ?_)⟩
    · rw [Run.status, flagsByte_eq_flagSum]
      rfl
    · rw [Hv.status, flagsByte_eq_flagSum]
      rfl
    · change defectStatus s.defects = _
      rw [defectStatus]
      cases s.defects.getLast? <;> rfl
    · rw [Print.status, flagsByte_eq_flagSum]
      rfl
  · have hsome : (nodeIndex first.toNat).isSome = true :=
      nodeIndex_isSome.mpr (hfirst.imp_right (congrArg BitVec.toNat))
    rw [exec_readModules_taken ⟨hs, hhalt⟩, if_pos hsome, State.moduleReport, ht]
    refine congrArg (fun entries => Host.Outcome.next (s.replied tag 0x1F .ok (_ ++ List.flatten entries))) ?_
    refine List.map_congr_left fun a _ => ?_
    rw [State.moduleEntry, nodeFlags_eq]
    by_cases hhead : a = 72
    · subst hhead
      rfl
    · simp only [if_neg hhead, if_neg (show a ≠ headAddress from hhead)]
      cases s.believed a <;> rfl
  · have hnone : ¬ (nodeIndex first.toNat).isSome = true := by
      rw [nodeIndex_isSome]
      have : first.toNat ≠ 72 := fun h => hhead (BitVec.eq_of_toNat_eq h)
      omega
    rw [exec_readModules_taken ⟨hs, hhalt⟩, if_neg hnone]

end Sys2Proof.Machine
end

section
/-! PROOFS. The HVC frames of a stream and a poll round that finds room (R67, R82, R171), and the end of a reset (O47). -/

namespace Sys2Proof.Machine

variable {s t : State}

/-! ### The HVC frames of the open stream (R82) -/

/-- The frames of a stream still to be sent, but for their tags and the closing IDLE. -/
def State.hvcsOn (n : Nat) (s : State) : List (RingOwner × Byte × Byte × Byte × List Byte) :=
  s.frames.filter fun c => c.1 = .hvc n false

theorem hvcPayloads_eq (s : State) : s.hvcPayloads = (s.hvcsOn s.mc.stream).map fun c => c.2.2.2.2 := by
  simp only [State.hvcPayloads, State.hvcsOn, State.frames, List.filter_map, List.map_map]
  rfl

theorem hvcPayloads_congr (hmc : t.mc.stream = s.mc.stream) (h : t.hvcsOn s.mc.stream = s.hvcsOn s.mc.stream) :
    t.hvcPayloads = s.hvcPayloads := by
  rw [hvcPayloads_eq, hvcPayloads_eq, hmc, h]

/-- The placing of frames keeps the frames of a stream in their order: what joins them is a POL (R67). -/
theorem hvcsOn_pump (n : Nat) (s : State) : s.pump.hvcsOn n = s.hvcsOn n := by
  refine pump_keeps (P := fun t => t.hvcsOn n = s.hvcsOn n) ?_ ?_ rfl
  · intro t ht
    unfold State.offerPoll
    split
    · exact ht
    · split
      · exact ht
      · rw [← ht]
        simp [State.hvcsOn, State.frames, RingEntry.content]
  · intro t e rest hw _ ht
    rw [← ht, State.hvcsOn, placeOwn_frames hw]
    rfl

theorem State.ringServed.mcSame (h : s.ringServed t) :
    t.mc.state = s.mc.state ∧ t.mc.requester = s.mc.requester ∧ t.mc.stream = s.mc.stream := by
  rw [State.ringServed] at h
  rw [h]
  exact ⟨rfl, rfl, rfl⟩

theorem pump_hvcPayloads (s : State) : s.pump.hvcPayloads = s.hvcPayloads :=
  hvcPayloads_congr (ringServed_pump s).mcSame.2.2 (hvcsOn_pump _ s)

/-- A frame placed on the open stream is the last of its frames still to be sent. -/
theorem placeHvc_hvcPayloads (s : State) (payload : List Byte) :
    (s.placeHvc payload).hvcPayloads = s.hvcPayloads ++ [payload] := by
  refine (pump_hvcPayloads (s.onRing fun r =>
    { r with wait := r.wait ++ [hvcEntry s.mc.stream false payload] })).trans ?_
  have hframes : (s.onRing fun r => { r with wait := r.wait ++ [hvcEntry s.mc.stream false payload] }).frames =
      s.frames ++ [(hvcEntry s.mc.stream false payload).content] := by
    simp [State.frames]
  have hown : decide ((hvcEntry s.mc.stream false payload).content.1 = .hvc s.mc.stream false) = true :=
    decide_eq_true rfl
  rw [hvcPayloads_eq, hvcPayloads_eq, State.hvcsOn, hframes, List.filter_append, List.map_append, State.onRing_mc,
    List.filter_singleton, hown]
  rfl

/-- The Measurement Controller as a stream opens, before its first frame is placed (R82). -/
def Measure.opened (m : Measure) : Measure :=
  { m with
    state := .stream, requester := .hv, lastSeq := none, lost := 0, curTag := none, prevTag := none, timer := none
    stream := m.stream + 1 }

theorem openStream_idle (h : s.mc.state = .idle) (payload : List Byte) :
    s.openStream payload = (s.onMc Measure.opened).placeHvc payload := if_neg (not_not_intro h)

/-- A stream that opens is the HV Controller's, the next by number, with its first frame on its way (R82). -/
theorem openStream_opens (h : s.mc.state = .idle) (payload : List Byte) :
    let t := s.openStream payload
    t.mc.state = .stream ∧ t.mc.requester = .hv ∧ t.mc.stream = s.mc.stream + 1 ∧
      t.hvcPayloads = (s.onMc Measure.opened).hvcPayloads ++ [payload] := by
  intro t
  have ht : t = _ := openStream_idle h payload
  obtain ⟨hstate, hrequester, hstream⟩ :=
    (ringServed_handOver (s.onMc Measure.opened) (hvcEntry (s.mc.stream + 1) false payload)).mcSame
  rw [ht]
  exact ⟨hstate, hrequester, hstream, placeHvc_hvcPayloads _ payload⟩

/-! ### A poll round that finds room (R67) -/

/-- The POLs of nodes in the ring transmit queue, with the own tags from a value on. -/
def pollsFrom (tag : Nat) (nodes : List Nat) : List RingEntry :=
  (nodes.zipIdx tag).map fun x =>
    { frame := { dst := byte x.1, src := 0, cls := clsPol, tag := byte x.2, payload := [] }, owner := .poll x.1 }

theorem length_pollsFrom (tag : Nat) (nodes : List Nat) : (pollsFrom tag nodes).length = nodes.length := by
  simp [pollsFrom]

/-- The state with a poll round placed. -/
def State.polled (s : State) (nodes : List Nat) : State :=
  { s with
    sup := { s.sup with pollList := [] }
    ring :=
      { queue := s.ring.queue ++ pollsFrom s.ring.ownTag nodes, wait := []
        ownTag := s.ring.ownTag + nodes.length } }

/-- With nothing waiting and room for a whole poll round, every POL is placed in the order of the addresses (R67, R171). -/
theorem fillQueue_polled {nodes : List Nat} (hpolls : s.sup.pollList = nodes) (hwait : s.ring.wait = [])
    (hroom : s.ring.queue.length + nodes.length ≤ 8) (htag : s.ring.ownTag + nodes.length < 128) {n : Nat}
    (hn : nodes.length ≤ n) : s.fillQueue n = s.polled nodes := by
  induction nodes generalizing s n with
  | nil =>
    rw [fillQueue_nothing hpolls hwait]
    simp only [State.polled, pollsFrom, List.zipIdx_nil, List.map_nil, List.append_nil, List.length_nil, Nat.add_zero]
    rw [← hpolls, ← hwait]
  | cons a rest ih =>
    rw [List.length_cons] at hroom htag hn
    obtain ⟨n, rfl⟩ := Nat.exists_eq_add_of_le' (Nat.le_of_add_left_le hn)
    have hoffer : s.offerPoll = s.onRing fun r => { r with wait := [pollEntry a] } := by
      simp [State.offerPoll, hpolls, hwait, State.onRing, pollEntry]
    have htagNext : (s.ring.ownTag + 1) % 128 = s.ring.ownTag + 1 := Nat.mod_eq_of_lt (by omega)
    have hplaced : ((s.onRing fun r => { r with wait := [pollEntry a] }).onRing fun r =>
        { r with wait := [] }).placeOwn (pollEntry a) =
        { s with
          sup := { s.sup with pollList := rest }
          ring :=
            { queue := s.ring.queue ++ pollsFrom s.ring.ownTag [a], wait := [], ownTag := s.ring.ownTag + 1 } } := by
      simp only [State.placeOwn, State.placedAct, State.onRing, State.onSup, pollEntry, hpolls, htagNext,
        List.erase_cons_head]
      rfl
    rw [fillQueue_places hoffer (show s.ring.queue.length < 8 by omega) rfl, hplaced,
      ih rfl rfl (by simp [length_pollsFrom]; omega) (by simp; omega) (by omega)]
    simp [State.polled, pollsFrom, List.zipIdx_cons, Nat.add_assoc, Nat.add_comm 1]

/-! ### The end of a reset (R66, R139, R180) -/

/-- The chip out of reset, before its first monitor period starts (R180). -/
def State.released (s : State) : State := s.onRst fun r => { r with held := false }

theorem exec_resetEnd_held (h : s.rst.held = true) : exec .resetEnd s = .next s.released.periodStart.settled := by
  rw [exec, execResetEnd, if_pos h]
  rfl

/-- In the discharge of start-up a period start hands over an OFF-DISCHARGE, on the open stream or opening one (R139). -/
theorem hvPeriod_startUp (hstate : s.hv.state = .discharge) (hcause : s.hv.cause = .startUp) :
    s.hvPeriod = s.periodDischarge := by
  simp [State.hvPeriod, hstate, hcause]

/-- The start of a period in the discharge of start-up, with the Measurement Controller IDLE (R139). -/
theorem periodStart_startUp (hhalt : s.fault.safeHalt = false) (hmc : s.mc.state = .idle)
    (hstate : s.hv.state = .discharge) (hcause : s.hv.cause = .startUp) :
    s.periodStart = s.periodBegun.pump.openStream s.offPayload := by
  have hserved := ringServed_pump s.periodBegun
  have hidle : s.periodBegun.pump.mc.state = .idle := hserved.mcSame.1.trans hmc
  have hhv : s.periodBegun.pump.hv = s.hv := hserved.hv
  have hpayload : s.periodBegun.pump.offPayload = s.offPayload := by
    rw [State.offPayload, show s.periodBegun.pump.limits = s.limits by rw [hserved]; rfl, State.offPayload]
  rw [periodStart_eq hhalt, hvPeriod_startUp (by rw [hhv, hstate]) (by rw [hhv, hcause]), State.periodDischarge, hidle,
    hpayload]

/-- An HVC frame that finds room at once, with its tag in the Measurement Controller (R82, R171). -/
theorem placeHvc_ringFree (hfree : s.ringFree) (hmc : s.mc.state = .stream) (payload : List Byte) :
    s.placeHvc payload =
      { s with
        ring := s.ring.placed 72 clsHvc payload (.hvc s.mc.stream false)
        mc := { s.mc with prevTag := s.mc.curTag, curTag := some s.ring.ownTag } } := by
  rw [State.placeHvc, handOver_ringFree hfree]
  simp only [hvcEntry, State.placedAct, hmc, Ring.placed, ownFrame, headAddress, State.onMc]
  rfl

/-- After a reset a poll round of at most seven nodes finds room at once (R67, R171). -/
theorem pump_polled {nodes : List Nat} (hpolls : s.sup.pollList = nodes) (hring : s.ring = Ring.reset)
    (hroom : nodes.length < 8) : s.pump = s.polled nodes := by
  have hqueue : s.ring.queue.length = 0 := by rw [hring]; rfl
  have htag : s.ring.ownTag = 0 := by rw [hring]; rfl
  exact fillQueue_polled hpolls (congrArg Ring.wait hring) (by omega) (by omega) (by omega)

/-- A poll round placed with nothing else in hand, and the stream of the start-up discharge opened behind it (R66, R139). -/
theorem openStream_polled {nodes : List Nat} (hring : s.ring = Ring.reset) (hmc : s.mc.state = .idle)
    (hroom : nodes.length < 8) (payload : List Byte) :
    (s.polled nodes).openStream payload =
      { s.polled nodes with
        ring :=
          { queue := pollsFrom 0 nodes ++
              [{ frame := { dst := 72, src := 0, cls := clsHvc, tag := byte nodes.length, payload }
                 owner := .hvc (s.mc.stream + 1) false }]
            wait := [], ownTag := nodes.length + 1 }
        mc := { s.mc.opened with curTag := some nodes.length } } := by
  have hlen : (nodes.length + 1) % 128 = nodes.length + 1 := Nat.mod_eq_of_lt (by omega)
  have hfree : ((s.polled nodes).onMc Measure.opened).ringFree :=
    ⟨rfl, rfl, by simpa [State.polled, length_pollsFrom, hring, Ring.reset] using hroom⟩
  rw [openStream_idle (s := s.polled nodes) hmc, placeHvc_ringFree hfree rfl]
  simp only [State.polled, State.onMc, Ring.placed, hring, Ring.reset, List.nil_append, Nat.zero_add, hlen]
  rfl

/-- The first period after a reset begins with the stream of the start-up discharge (R139). -/
theorem released_periodStart (hmc : s.mc = Measure.reset) (hhv : s.hv = Hv.reset) (hhalt : s.fault.safeHalt = false) :
    s.released.periodStart = s.released.periodBegun.pump.openStream s.offPayload :=
  periodStart_startUp (s := s.released) hhalt (congrArg Measure.state hmc) (congrArg Hv.state hhv)
    (congrArg Hv.cause hhv)

/-- One OFF-DISCHARGE is on its way on the first stream as the chip leaves reset (R82, R139). -/
theorem released_opens (hring : s.ring = Ring.reset) (hmc : s.mc = Measure.reset) (hhv : s.hv = Hv.reset)
    (hhalt : s.fault.safeHalt = false) :
    let t := s.released.periodStart
    t.mc.state = .stream ∧ t.mc.requester = .hv ∧ t.mc.stream = 1 ∧ t.hvcPayloads = [s.offPayload] := by
  intro t
  have hstart : t = _ := released_periodStart hmc hhv hhalt
  obtain ⟨hidle, -, hzero⟩ := (ringServed_pump s.released.periodBegun).mcSame
  rw [show s.released.periodBegun.mc = Measure.reset from hmc] at hidle hzero
  obtain ⟨hstate, hrequester, hstream, hpayloads⟩ := openStream_opens hidle s.offPayload
  have hnone : (s.released.periodBegun.pump.onMc Measure.opened).hvcPayloads = [] := by
    rw [hvcPayloads_eq]
    change (s.released.periodBegun.pump.hvcsOn _).map _ = []
    rw [hvcsOn_pump, State.hvcsOn, State.frames, show s.released.periodBegun.ring = Ring.reset from hring]
    rfl
  rw [← hstart] at hstate hrequester hstream hpayloads
  rw [hzero] at hstream
  rw [hnone] at hpayloads
  exact ⟨hstate, hrequester, hstream, hpayloads⟩

/-- With at most six configured modules the first poll round and the OFF-DISCHARGE find room at once (R67, R171). -/
theorem released_polled (hring : s.ring = Ring.reset) (hmc : s.mc = Measure.reset) (hhv : s.hv = Hv.reset)
    (hhalt : s.fault.safeHalt = false) (hsix : s.modules.length ≤ 6) :
    s.released.periodStart =
      { s.released.periodBegun.polled (s.modules ++ [72]) with
        ring :=
          { queue := pollsFrom 0 (s.modules ++ [72]) ++
              [{ frame :=
                  { dst := 72, src := 0, cls := clsHvc, tag := byte (s.modules.length + 1), payload := s.offPayload }
                 owner := .hvc 1 false }]
            wait := [], ownTag := s.modules.length + 2 }
        mc :=
          { Measure.reset with
            state := .stream, requester := .hv, curTag := some (s.modules.length + 1), stream := 1 } } := by
  have hlen : (s.modules ++ [72]).length = s.modules.length + 1 := List.length_append
  have hroom : (s.modules ++ [72]).length < 8 := by omega
  have hidle : s.released.periodBegun.mc = Measure.reset := hmc
  rw [released_periodStart hmc hhv hhalt, pump_polled (s := s.released.periodBegun) (nodes := s.modules ++ [72]) rfl hring
    hroom, openStream_polled (s := s.released.periodBegun) hring (congrArg Measure.state hmc) hroom, hidle, hlen]
  rfl

/-- Settles O47: the poll round goes before the stream of the start-up discharge, and with few modules all of it finds
room. -/
theorem resetEnds : Obligations.ResetEnds := by
  refine ⟨fun s h => by rw [exec, execResetEnd, if_neg (by simp [h])],
    fun s hheld hring hmc hhv _ htrunk hhalt => ⟨_, exec_resetEnd_held hheld, ?_⟩⟩
  have hserved := mcServed_periodStart (s := s.released) hhalt
  have hpolls := pollsOut_periodStart (s := s.released) hhalt (by
    rw [show s.released.ring = Ring.reset from hring]
    exact List.forall_mem_nil _)
  have hpolled := released_polled hring hmc hhv hhalt
  obtain ⟨hstate, hrequester, hstream, hpayloads⟩ := released_opens hring hmc hhv hhalt
  generalize s.released.periodStart = y at *
  rw [State.mcServed] at hserved
  refine ⟨?rst, ?timer, ?nodes, fun a ha => ?polls, hstate, hrequester, hstream, hpayloads, ?hv, ?mem, ?run, ?trunk,
    fun hsix => ?six⟩
  case polls =>
    rcases hpolls.2 a ha with hlist | ⟨e, he, hcontent⟩
    · exact .inl hlist
    · refine .inr ⟨e, he, ?_⟩
      simp only [RingEntry.content, pollEntry, ownFrame, Prod.mk.injEq] at hcontent
      obtain ⟨howner, hdst, hsrc, hcls, hpayload⟩ := hcontent
      exact ⟨howner, hdst, hsrc, hcls, hpayload⟩
  case trunk =>
    have hkept : y.trunk = Trunk.reset := by
      rw [hserved]
      exact htrunk
    rw [State.settled, hkept, htrunk]
    rfl
  case six =>
    rw [hpolled hsix]
    exact ⟨rfl, rfl, rfl⟩
  all_goals
    rw [hserved]
    rfl

end Sys2Proof.Machine
end

section
/-! PROOFS. The end of a monitor period (O56): the verdicts, the fault HEAD-LOST, and the start of the next period. -/

namespace Sys2Proof.Machine

variable {s t u : State}

/-! ### What acts on the verdicts (R43, R66, R72, R140) -/

/-- What the response to a fault and the start of a period keep: the supervision entries and the timer, table memory, the
tables, the limits block, the first fault recorded, SAFE-HALT once set, and the events pending (R177). -/
structure State.ActsOn (s t : State) : Prop where
  nodes : t.sup.nodes = s.sup.nodes
  timer : t.sup.timer = s.sup.timer
  mem : t.mem = s.mem
  tables : t.tables = s.tables
  limits : t.limits = s.limits
  first : s.fault.valid = true → t.fault.valid = true ∧ t.fault.code = s.fault.code ∧ t.fault.hv = s.fault.hv
  halted : s.fault.safeHalt = true → t.fault.safeHalt = true
  pending : ∀ e : Event, s.events.isPending e = true → t.events.isPending e = true

theorem State.ActsOn.refl (s : State) : s.ActsOn s := ⟨rfl, rfl, rfl, rfl, rfl, fun h => ⟨h, rfl, rfl⟩, id, fun _ => id⟩

theorem State.ActsOn.trans (h : s.ActsOn t) (j : t.ActsOn u) : s.ActsOn u where
  nodes := j.nodes.trans h.nodes
  timer := j.timer.trans h.timer
  mem := j.mem.trans h.mem
  tables := j.tables.trans h.tables
  limits := j.limits.trans h.limits
  first hvalid := by
    obtain ⟨hv, hc, hs⟩ := h.first hvalid
    obtain ⟨jv, jc, js⟩ := j.first hv
    exact ⟨jv, jc.trans hc, js.trans hs⟩
  halted := j.halted ∘ h.halted
  pending e := j.pending e ∘ h.pending e

/-- A change of the blocks that carry a response out, with the poll list, and no event or fault of its own. -/
theorem State.ActsOn.of_eq
    (h : t = { s with
      port := t.port, cache := t.cache, ring := t.ring, sup := { s.sup with pollList := t.sup.pollList }, seq := t.seq
      mc := t.mc, arith := t.arith, sweep := t.sweep, hv := t.hv, run := t.run }) : s.ActsOn t := by
  rw [h]
  exact ⟨rfl, rfl, rfl, rfl, rfl, fun h => ⟨h, rfl, rfl⟩, id, fun _ => id⟩

theorem State.mcServed.actsOn (h : s.mcServed t) : s.ActsOn t := by
  rw [State.mcServed] at h
  exact .of_eq (h.trans (by rw [h]))

theorem State.abandoned.actsOn (h : s.abandoned t) : s.ActsOn t := by
  rw [State.abandoned] at h
  exact .of_eq (h.trans (by rw [h]))

theorem State.msrDropped.actsOn (h : s.msrDropped t) : s.ActsOn t := by
  rw [State.msrDropped] at h
  exact .of_eq (h.trans (by rw [h]))

theorem State.netAbandoned.actsOn {hv : Hv} (h : s.netAbandoned t hv) : s.ActsOn t := by
  rw [State.netAbandoned] at h
  exact .of_eq (h.trans (by rw [h]))

theorem State.responded.actsOn (h : s.responded t) : s.ActsOn t := by
  rw [State.responded] at h
  exact .of_eq (h.trans (by rw [h]))

theorem State.leftSafe.actsOn {hv : Hv} (h : s.leftSafe t hv) : s.ActsOn t := by
  rw [State.leftSafe] at h
  exact .of_eq (h.trans (by rw [h]))

theorem State.Walks.actsOn (h : s.Walks t) : s.ActsOn t := by
  have hkeeps := h.keeps
  refine ⟨?_, ?_, ?_, ?_, ?_, fun hvalid => ?first, fun hhalt => ?halted, h.pending⟩
  case first =>
    rw [hkeeps]
    exact ⟨hvalid, rfl, rfl⟩
  case halted =>
    rw [hkeeps]
    exact hhalt
  all_goals rw [hkeeps]

theorem actsOn_pump (s : State) : s.ActsOn s.pump := (ringServed_pump s).mcServed.actsOn

/-- SAFE-HALT leaves the first fault recorded, and raises its event (R179). -/
theorem actsOn_setSafeHalt (s : State) : s.ActsOn s.setSafeHalt := by
  have hset : s.ActsOn (s.onFault fun f => { f with safeHalt := true }) :=
    ⟨rfl, rfl, rfl, rfl, rfl, fun h => ⟨h, rfl, rfl⟩, fun _ => rfl, fun _ => id⟩
  have hlists : ∀ x : State, x.ActsOn ((x.onSup fun u => { u with pollList := [] }).onRing fun r =>
      { r with wait := r.wait.filter fun e => !e.isPoll }) := fun _ => .of_eq rfl
  rw [setSafeHalt_eq]
  refine (hset.trans (walks_raise _ .safeHalt).actsOn).trans ?_
  refine (abandoned_switchingHalted _).actsOn.trans ((msrDropped_dropMsr _).actsOn.trans ((hlists _).trans ?_))
  exact (netAbandoned_hvAbandon _).actsOn.trans (.of_eq rfl)

/-- A fault recorded, what follows it keeps the record (R42, R43, R177, R179). -/
theorem actsOn_reportFault (s : State) (r : FaultReport) : (s.faultRecorded r).ActsOn (s.reportFault r) := by
  have habort : ∀ x : State, x.ActsOn (x.beginAbort .fault) := by
    intro x
    unfold State.beginAbort
    split
    · exact State.ActsOn.trans (t := x.onRun _) (.of_eq rfl) (responded_response _).actsOn
    · exact .refl x
  change (s.faultRecorded r).ActsOn
    (if !s.run.active then s.faultRecorded r
      else if s.run.inFaultResponse then ((s.faultRecorded r).enterDone .fault).setSafeHalt
      else if r.code = .dischargeTimeout then (s.faultRecorded r).enterDone .fault
      else (s.faultRecorded r).beginAbort .fault)
  split
  · exact .refl _
  · split
    · exact (walks_enterDone _ _).actsOn.trans (actsOn_setSafeHalt _)
    · split
      · exact (walks_enterDone _ _).actsOn
      · exact habort _

theorem actsOn_homeCut (s : State) : s.ActsOn s.homeCut := by
  unfold State.homeCut
  split
  · refine State.ActsOn.trans (t := s.onSeq Sequencer.homeOver) (.of_eq rfl) ?_
    unfold State.homeEnd State.runHomeEnded
    split
    · split
      · exact (walks_enterPaused _ _ _).actsOn
      · exact .of_eq rfl
    · exact (walks_enterDone _ _).actsOn
    · exact .refl _
  · exact .refl s

theorem actsOn_periodDischarge (s : State) : s.ActsOn s.periodDischarge := (mcServed_periodDischarge s).actsOn

theorem actsOn_hvPeriod (s : State) : s.ActsOn s.hvPeriod := by
  unfold State.hvPeriod
  split
  · split
    · exact ((leftSafe_leaveSafe s _).actsOn.trans (actsOn_homeCut _)).trans (actsOn_periodDischarge _)
    · exact .refl s
  · split
    · exact actsOn_periodDischarge s
    · exact .refl s
  · exact actsOn_periodDischarge s
  · exact .refl s

/-- The next period's timer runs, and its poll round is due unless SAFE-HALT is set (R66, R67). -/
def State.nextPeriod (s : State) : State :=
  s.onSup fun u =>
    { u with
      timer := some s.limits.timing.period, pollList := if s.fault.safeHalt then [] else s.modules ++ [headAddress] }

theorem periodStart_eq_nextPeriod (s : State) : s.periodStart = s.nextPeriod.pump.hvPeriod := rfl

theorem actsOn_periodStart (s : State) : s.nextPeriod.ActsOn s.periodStart :=
  (actsOn_pump _).trans (actsOn_hvPeriod _)

theorem faultRecorded_fault (s : State) (r : FaultReport) :
    (s.faultRecorded r).fault = s.fault.report (if s.run.active then s.run.step else none) r := by
  rw [State.faultRecorded, raise_eq]
  rfl

/-- A fault recorded leaves one recorded before (R177). -/
theorem actsOn_faultRecorded (s : State) (r : FaultReport) : s.ActsOn (s.faultRecorded r) := by
  have hreport : ∀ step, s.ActsOn (s.onFault fun f => f.report step r) := by
    intro step
    refine ⟨rfl, rfl, rfl, rfl, rfl, fun hvalid => ?_, fun hhalt => ?_, fun _ => id⟩
    · simp only [State.onFault, FaultMon.report, hvalid, if_true, and_self]
    · simp only [State.onFault, FaultMon.report]
      split <;> exact hhalt
  exact (hreport _).trans (walks_raise _ .fault).actsOn

/-! ### The verdicts (R71) -/

/-- The verdicts on the nodes, with MODULE-CHANGE raised where one changes (R71). -/
def State.verdicts (s : State) : State :=
  if s.sup.nodes.any Node.changes then
    (s.onSup fun u => { u with nodes := u.nodes.map Node.judged }).raise .moduleChange
  else s.onSup fun u => { u with nodes := u.nodes.map Node.judged }

/-- The fault HEAD-LOST (R72). -/
def State.headReport (s : State) : FaultReport :=
  { code := .headLost, hv := s.hv.state, net := none, point := none, table := none }

/-- The verdicts, with a head lost in an active run reported (R72). -/
def State.judged (s : State) : State :=
  if s.alive headAddress && !s.verdicts.alive headAddress && s.run.active then s.verdicts.reportFault s.headReport
  else s.verdicts

theorem periodExpired_eq (s : State) : s.periodExpired = s.judged.periodStart := rfl

theorem verdicts_eq (s : State) :
    s.verdicts =
      { s with
        sup := { s.sup with nodes := s.sup.nodes.map Node.judged }
        events := s.verdicts.events
        trunk := s.verdicts.trunk } := by
  unfold State.verdicts
  split
  · rw [raise_eq]
    rfl
  · rfl

theorem verdicts_moduleChange (h : s.sup.nodes.any Node.changes = true) :
    s.verdicts.events.isPending .moduleChange = true := by
  rw [State.verdicts, if_pos h]
  exact raise_isPending _ _

theorem verdicts_alive_head {n : Node} (h : s.node? headAddress = some n) :
    s.verdicts.alive headAddress = (n.heard && !n.fault) := by
  have hnode : s.verdicts.node? headAddress = (s.node? headAddress).map Node.judged := by
    rw [State.node?, verdicts_eq]
    exact List.getElem?_map ..
  rw [State.alive, hnode, h]
  rfl

theorem actsOn_judged (s : State) : s.verdicts.ActsOn s.judged := by
  unfold State.judged
  split
  · exact (actsOn_faultRecorded _ _).trans (actsOn_reportFault _ _)
  · exact .refl _

/-- From the verdicts to the end of the event, but for the timer and the poll round of the next period. -/
theorem actsOn_periodExpired (s : State) : s.judged.nextPeriod.ActsOn s.periodExpired := actsOn_periodStart _

/-- Any event pending after the verdicts is pending at the end of the event. -/
theorem periodExpired_pending {e : Event} (h : s.verdicts.events.isPending e = true) :
    s.periodExpired.events.isPending e = true :=
  (actsOn_periodExpired s).pending e ((actsOn_judged s).pending e h)

/-- A head lost in an active run is the fault HEAD-LOST, the first that is recorded (R72, R177). -/
theorem periodExpired_headLost {n : Node} (hnode : s.node? 72 = some n) (halive : n.alive = true)
    (hlost : n.heard = false ∨ n.fault = true) (hactive : s.run.active = true) :
    let t := s.periodExpired
    t.events.isPending .fault = true ∧ t.fault.valid = true ∧
      (s.fault.valid = false → t.fault.code = some .headLost ∧ t.fault.hv = some s.hv.state) := by
  intro t
  have hwas : s.alive headAddress = true := by
    rw [State.alive, show s.node? headAddress = some n from hnode]
    exact halive
  have his : s.verdicts.alive headAddress = false := by
    rw [verdicts_alive_head hnode]
    rcases hlost with h | h <;> simp [h]
  have hjudged : s.judged = s.verdicts.reportFault s.headReport := if_pos (by simp [hwas, his, hactive])
  have hacts := actsOn_reportFault s.verdicts s.headReport
  rw [← hjudged] at hacts
  have hfault : s.verdicts.fault = s.fault := by rw [verdicts_eq]
  obtain ⟨hvalid, hfirst⟩ := report_valid s.verdicts.fault _ s.headReport
  rw [← faultRecorded_fault] at hvalid hfirst
  rw [hfault] at hfirst
  obtain ⟨jvalid, jcode, jhv⟩ := hacts.first hvalid
  obtain ⟨tvalid, tcode, thv⟩ := (actsOn_periodExpired s).first jvalid
  refine ⟨(actsOn_periodExpired s).pending _ (hacts.pending _ (faultRecorded_pending _ _)), tvalid, fun hno => ?_⟩
  obtain ⟨hcode, hhv, -⟩ := hfirst hno
  exact ⟨(tcode.trans jcode).trans hcode, (thv.trans jhv).trans hhv⟩

/-! ### The poll round of the next period (R67) -/

/-- Every node of a poll round is in the poll list, or its POL is in the ring transmit queue. -/
def State.pollsPlaced (nodes : List Nat) (s : State) : Prop :=
  ∀ a ∈ nodes, a ∈ s.sup.pollList ∨ ∃ e ∈ s.ring.queue, e.owner = .poll a

/-- An address leaves the poll list as its own POL is placed (R67). -/
theorem placedAct_pollList_mem {a : Nat} (h : a ∈ s.sup.pollList) (owner : RingOwner) (tag : Nat) :
    a ∈ (s.placedAct owner tag).sup.pollList ∨ owner = .poll a := by
  cases owner with
  | poll b =>
    by_cases hab : a = b
    · exact .inr (hab ▸ rfl)
    · exact .inl ((List.mem_erase_of_ne hab).mpr h)
  | hvc n closing =>
    simp only [State.placedAct]
    split <;> exact .inl h
  | _ => exact .inl h

theorem placeOwn_pollList_mem {a : Nat} (h : a ∈ s.sup.pollList) (e : RingEntry) :
    a ∈ (s.placeOwn e).sup.pollList ∨ e.owner = .poll a := placedAct_pollList_mem (s := s.onRing _) h ..

theorem pollsPlaced_pump {nodes : List Nat} (h : s.pollsPlaced nodes) : s.pump.pollsPlaced nodes := by
  refine pump_keeps (P := State.pollsPlaced nodes) ?_ ?_ h
  · intro t ht
    unfold State.offerPoll
    repeat' split
    all_goals exact ht
  · intro t e rest _ _ ht a ha
    rw [placeOwn_ring]
    rcases ht a ha with hlist | ⟨x, hx, howner⟩
    · exact (placeOwn_pollList_mem (s := t.onRing _) hlist e).imp_right fun howner =>
        ⟨_, List.mem_append_right _ (List.mem_singleton_self _), howner⟩
    · exact .inr ⟨x, List.mem_append_left _ hx, howner⟩

theorem pollsPlaced_periodDischarge {nodes : List Nat} (h : s.pollsPlaced nodes) :
    s.periodDischarge.pollsPlaced nodes := by
  unfold State.periodDischarge State.openStream
  split
  · split
    · exact h
    · exact pollsPlaced_pump h
  · split
    · exact h
    · exact pollsPlaced_pump h
  · exact h

/-- Outside SAFE-HALT every node is due a POL of the new period (R67). -/
theorem pollsPlaced_periodStart (h : s.fault.safeHalt = false) : s.periodStart.pollsPlaced (s.modules ++ [72]) := by
  have hbegun : s.periodBegun.pollsPlaced (s.modules ++ [72]) := fun a ha => .inl ha
  rw [periodStart_eq h]
  rcases hvPeriod_cases (s := s.periodBegun.pump) (by rw [(ringServed_pump _).fault]; exact h) with e | e <;> rw [e]
  · exact pollsPlaced_pump hbegun
  · exact pollsPlaced_periodDischarge (pollsPlaced_pump hbegun)

/-! ### The discharge that a period start repeats or begins (R82, R134, R139, R140) -/

/-- The HV Controller hands over an OFF-DISCHARGE at a period start (R134, R139, R140). -/
theorem hvPeriod_repeats
    (h : (s.hv.state = .discharge ∧ (s.hv.cause = .startUp ∨ s.fault.safeHalt = true)) ∨ s.hv.state = .stuck) :
    s.hvPeriod = s.periodDischarge := by
  rcases h with ⟨hstate, hwhy⟩ | hstate
  · rw [State.hvPeriod, hstate]
    exact if_pos (by simpa using hwhy)
  · rw [State.hvPeriod, hstate]

/-- In SAFE under SAFE-HALT with no HOME in progress the discharge begins (R140). -/
theorem hvPeriod_halt (hstate : s.hv.state = .safe) (hhalt : s.fault.safeHalt = true) (hno : s.seq.state ≠ .homing) :
    s.hvPeriod = (s.leaveSafe fun h => { h with state := .discharge, cause := .halt }).periodDischarge := by
  have hidle : (s.leaveSafe fun h => { h with state := .discharge, cause := .halt }).seq.state ≠ .homing := by
    rw [leaveSafe_seq]
    change s.abandonConfiguration.seq.state ≠ .homing
    rw [abandonConfiguration_idle hno]
    exact SeqState.noConfusion
  rw [State.hvPeriod, hstate]
  change (if s.fault.safeHalt = true then _ else s) = _
  rw [if_pos hhalt, State.homeCut, if_neg hidle]

/-- In any other HV state a period start sends nothing. -/
theorem hvPeriod_quiet
    (h : (s.hv.state = .safe ∧ s.fault.safeHalt = false) ∨ s.hv.state = .ramp ∨ s.hv.state = .dwell ∨
      (s.hv.state = .discharge ∧ s.hv.cause ≠ .startUp ∧ s.fault.safeHalt = false)) : s.hvPeriod = s := by
  rcases h with ⟨hstate, hno⟩ | hstate | hstate | ⟨hstate, hcause, hno⟩
  · exact hvPeriod_safe hno hstate
  · rw [State.hvPeriod, hstate]
  · rw [State.hvPeriod, hstate]
  · rw [State.hvPeriod, hstate]
    exact if_neg (by simp [hcause, hno])

theorem periodDischarge_hv (s : State) : s.periodDischarge.hv = s.hv := by
  have h := mcServed_periodDischarge s
  generalize s.periodDischarge = x at *
  rw [State.mcServed] at h
  rw [h]

theorem hvcWaits_iff (s : State) : s.hvcWaits = true ↔ ∃ e ∈ s.ring.wait, e.owner = .hvc s.mc.stream false := by
  simp [State.hvcWaits]

/-- The OFF-DISCHARGE joins the frames of the open stream where none of them waits (R82). -/
theorem periodDischarge_stream (hmc : s.mc.state = .stream) (hno : s.hvcWaits = false) :
    let t := s.periodDischarge
    t.mc.state = .stream ∧ t.mc.stream = s.mc.stream ∧ t.hvcPayloads = s.hvcPayloads ++ [s.offPayload] := by
  intro t
  have ht : t = s.placeHvc s.offPayload := by
    change s.periodDischarge = _
    rw [State.periodDischarge, hmc]
    exact if_neg (by simp [hno])
  obtain ⟨hstate, -, hstream⟩ := (ringServed_handOver s (hvcEntry s.mc.stream false s.offPayload)).mcSame
  rw [ht]
  exact ⟨hstate.trans hmc, hstream, placeHvc_hvcPayloads s _⟩

theorem periodDischarge_waits (hmc : s.mc.state = .stream) (hwaits : s.hvcWaits = true) : s.periodDischarge = s := by
  rw [State.periodDischarge, hmc]
  exact if_pos hwaits

theorem periodDischarge_idle (hmc : s.mc.state = .idle) : s.periodDischarge = s.openStream s.offPayload := by
  rw [State.periodDischarge, hmc]

/-- What joins the wait list as frames are placed is a POL (R67). -/
theorem pump_wait {n : Nat} (h : ∀ e ∈ s.ring.wait, e.owner ≠ .hvc n false) :
    ∀ e ∈ s.pump.ring.wait, e.owner ≠ .hvc n false := by
  refine pump_keeps (P := fun t => ∀ e ∈ t.ring.wait, e.owner ≠ .hvc n false) ?_ ?_ h
  · intro t ht
    unfold State.offerPoll
    split
    · exact ht
    · split
      · exact ht
      · intro e he
        rcases List.mem_append.mp he with he | he
        · exact ht e he
        · rw [List.mem_singleton.mp he]
          exact RingOwner.noConfusion
  · intro t e rest hw _ ht x hx
    rw [placeOwn_ring] at hx
    exact ht x (hw ▸ List.mem_cons_of_mem _ hx)

/-- A POL that is handed over joins the wait list, and changes nothing of the Measurement Controller (R67). -/
theorem offerPoll_joins (s : State) :
    s.offerPoll.mc = s.mc ∧ s.offerPoll.ring.queue = s.ring.queue ∧ ∀ e ∈ s.ring.wait, e ∈ s.offerPoll.ring.wait := by
  unfold State.offerPoll
  split
  · exact ⟨rfl, rfl, fun _ h => h⟩
  · split
    · exact ⟨rfl, rfl, fun _ h => h⟩
    · exact ⟨rfl, rfl, fun _ h => List.mem_append_left _ h⟩

/-- With the ring transmit queue full at most a POL joins the wait list (R67, R171). -/
theorem pump_full (h : 8 ≤ s.ring.queue.length) : s.pump = s.offerPoll := by
  rw [State.pump, State.fillQueue, if_pos (by rwa [(offerPoll_joins s).2.1])]

/-! ### The next period opens with no run active -/

/-- The verdicts, with the timer and the poll round of the next period. -/
def State.periodOpened (s : State) : State := s.verdicts.nextPeriod.pump

theorem periodExpired_inactive (h : s.run.active = false) : s.periodExpired = s.periodOpened.hvPeriod := by
  have hjudged : s.judged = s.verdicts := if_neg (by simp [h])
  rw [periodExpired_eq, hjudged]
  rfl

/-- What the verdicts and the poll round leave of the HV Controller, the fault record, the sequencer and the stream. -/
theorem periodOpened_keeps (s : State) :
    let x := s.periodOpened
    x.hv = s.hv ∧ x.fault = s.fault ∧ x.seq.state = s.seq.state ∧ x.mc.state = s.mc.state ∧
      x.mc.stream = s.mc.stream ∧ x.offPayload = s.offPayload ∧ x.hvcPayloads = s.hvcPayloads := by
  intro x
  have hpayloads : x.hvcPayloads = s.verdicts.nextPeriod.hvcPayloads := pump_hvcPayloads _
  have hpump : s.verdicts.nextPeriod.ringServed x := ringServed_pump _
  have hverdicts := verdicts_eq s
  clear_value x
  generalize s.verdicts = y at *
  rw [State.ringServed] at hpump
  rw [hpayloads, State.offPayload, hpump, hverdicts]
  exact ⟨rfl, rfl, rfl, rfl, rfl, rfl, rfl⟩

/-- The OFF-DISCHARGE of a period with no run active, by what the Measurement Controller holds (R82, R134, R139, R140). -/
theorem periodExpired_repeats (hrun : s.run.active = false)
    (h : (s.hv.state = .discharge ∧ (s.hv.cause = .startUp ∨ s.fault.safeHalt = true)) ∨ s.hv.state = .stuck) :
    let t := s.periodExpired
    t.hv = s.hv ∧
      (s.mc.state = .stream → (∀ e ∈ s.ring.wait, e.owner ≠ .hvc s.mc.stream false) →
        t.mc.state = .stream ∧ t.mc.stream = s.mc.stream ∧ t.hvcPayloads = s.hvcPayloads ++ [s.offPayload]) ∧
      (s.mc.state = .stream → (∃ e ∈ s.ring.wait, e.owner = .hvc s.mc.stream false) → 8 ≤ s.ring.queue.length →
        t.mc = s.mc ∧ t.hvcPayloads = s.hvcPayloads) ∧
      (s.mc.state = .idle →
        t.mc.state = .stream ∧ t.mc.requester = .hv ∧ t.mc.stream = s.mc.stream + 1 ∧ t.hvcSent s.offPayload) := by
  intro t
  obtain ⟨hhv, hfault, -, hstate, hstream, hoff, hpayloads⟩ := periodOpened_keeps s
  have ht : t = s.periodOpened.periodDischarge :=
    (periodExpired_inactive hrun).trans (hvPeriod_repeats (by rwa [hhv, hfault]))
  have hring : s.verdicts.nextPeriod.ring = s.ring ∧ s.verdicts.nextPeriod.mc = s.mc := by
    change s.verdicts.ring = _ ∧ s.verdicts.mc = _
    rw [verdicts_eq]
    exact ⟨rfl, rfl⟩
  refine ⟨?_, fun hmc hno => ?_, fun hmc hwaits hfull => ?_, fun hmc => ?_⟩
  · rw [ht, periodDischarge_hv, hhv]
  · have hnone : s.periodOpened.hvcWaits = false := by
      rw [Bool.eq_false_iff, ne_eq, hvcWaits_iff, hstream]
      rintro ⟨e, he, howner⟩
      exact pump_wait (s := s.verdicts.nextPeriod) (hring.1 ▸ hno) e he howner
    obtain ⟨h1, h2, h3⟩ := periodDischarge_stream (hstate.trans hmc) hnone
    rw [ht]
    exact ⟨h1, h2.trans hstream, by rw [h3, hpayloads, hoff]⟩
  · obtain ⟨e, he, howner⟩ := hwaits
    obtain ⟨hjoinsMc, -, hjoins⟩ := offerPoll_joins s.verdicts.nextPeriod
    have hopened : s.periodOpened = s.verdicts.nextPeriod.offerPoll := pump_full (by rwa [hring.1])
    have hsame : s.periodOpened.mc = s.mc := by rw [hopened, hjoinsMc, hring.2]
    have hwaits : s.periodOpened.hvcWaits = true := by
      rw [hvcWaits_iff, hstream, hopened]
      exact ⟨e, hjoins e (by rwa [hring.1]), howner⟩
    rw [ht, periodDischarge_waits (hstate.trans hmc) hwaits]
    exact ⟨hsame, hpayloads⟩
  · have hidle := hstate.trans hmc
    obtain ⟨h1, h2, h3, -⟩ := openStream_opens hidle s.periodOpened.offPayload
    have hsent := openStream_hvcSent hidle s.periodOpened.offPayload
    rw [← periodDischarge_idle hidle, ← ht] at h1 h2 h3 hsent
    rw [hstream] at h3
    rw [hoff] at hsent
    exact ⟨h1, h2, h3, hsent⟩

/-- In SAFE under SAFE-HALT, with the Measurement Controller and the sequencer free, the discharge begins (R54, R140). -/
theorem periodExpired_halt (hrun : s.run.active = false) (hsafe : s.hv.state = .safe)
    (hhalt : s.fault.safeHalt = true) (hmc : s.mc.state = .idle) (hno : s.seq.state ≠ .homing) :
    let t := s.periodExpired
    t.hv = { s.hv with state := .discharge, cause := .halt } ∧ t.mc.state = .stream ∧ t.hvcSent s.offPayload ∧
      ∀ e ∈ t.ring.queue ++ t.ring.wait, ¬e.setsRelays := by
  intro t
  obtain ⟨hhv, hfault, hseq, hstate, -, hoff, -⟩ := periodOpened_keeps s
  have ht : t = _ := (periodExpired_inactive hrun).trans
    (hvPeriod_halt (by rw [hhv, hsafe]) (by rw [hfault, hhalt]) (by rwa [hseq]))
  have hleft := leftSafe_leaveSafe s.periodOpened fun h => { h with state := .discharge, cause := .halt }
  have hstays := leaveSafe_noRelays s.periodOpened fun h => { h with state := .discharge, cause := .halt }
  generalize s.periodOpened.leaveSafe _ = y at *
  rw [State.leftSafe] at hleft
  have hidle : y.mc.state = .idle := by
    rw [hleft]
    exact hstate.trans hmc
  have hyoff : y.offPayload = s.offPayload := by
    rw [← hoff, hleft]
    rfl
  rw [ht, periodDischarge_hv, periodDischarge_idle hidle, hyoff]
  refine ⟨?_, (openStream_mcState _ _).trans (if_pos hidle), openStream_hvcSent hidle _, fun e he => ?_⟩
  · rw [hleft, ← hhv]
  · exact (framesAll_openStream pollsAllowed_staysOutOfSafe hvcAllowed_staysOutOfSafe hstays _ e he).1

/-- In the other HV states a period with no run active sends no HVC frame. -/
theorem periodExpired_quiet (hrun : s.run.active = false)
    (h : (s.hv.state = .safe ∧ s.fault.safeHalt = false) ∨ s.hv.state = .ramp ∨ s.hv.state = .dwell ∨
      (s.hv.state = .discharge ∧ s.hv.cause ≠ .startUp ∧ s.fault.safeHalt = false)) :
    let t := s.periodExpired
    t.hv = s.hv ∧ t.mc.state = s.mc.state ∧ t.mc.stream = s.mc.stream ∧ t.hvcPayloads = s.hvcPayloads := by
  intro t
  obtain ⟨hhv, hfault, -, hstate, hstream, -, hpayloads⟩ := periodOpened_keeps s
  have ht : t = s.periodOpened := (periodExpired_inactive hrun).trans (hvPeriod_quiet (by rwa [hhv, hfault]))
  rw [ht]
  exact ⟨hhv, hstate, hstream, hpayloads⟩

/-! ### The end of a monitor period -/

/-- What the end of a monitor period leaves of the supervision, table memory, the tables and the limits block (R66, R71). -/
theorem periodExpired_keeps (s : State) :
    let t := s.periodExpired
    t.sup.nodes = s.sup.nodes.map Node.judged ∧ t.sup.timer = some s.limits.timing.period ∧ t.mem = s.mem ∧
      t.tables = s.tables ∧ t.limits = s.limits := by
  intro t
  have hacts : s.judged.nextPeriod.ActsOn t := actsOn_periodExpired s
  have hjudged := actsOn_judged s
  have hverdicts := verdicts_eq s
  have hlimits : s.judged.limits = s.limits := by rw [hjudged.limits, hverdicts]
  refine ⟨hacts.nodes.trans (hjudged.nodes.trans ?_), hacts.timer.trans ?_, hacts.mem.trans (hjudged.mem.trans ?_),
    hacts.tables.trans (hjudged.tables.trans ?_), hacts.limits.trans hlimits⟩
  · rw [hverdicts]
  · exact congrArg (fun l : Limits => some l.timing.period) hlimits
  · rw [hverdicts]
  · rw [hverdicts]

/-- Outside SAFE-HALT every configured node is due a POL of the next period (R67). -/
theorem periodExpired_polls (h : s.periodExpired.fault.safeHalt = false) :
    s.periodExpired.pollsPlaced (s.modules ++ [72]) := by
  have hhalt : s.judged.fault.safeHalt = false := by
    by_contra hset
    rw [Bool.not_eq_false] at hset
    simp [(actsOn_periodExpired s).halted hset] at h
  have hnodes : s.judged.sup.nodes = s.sup.nodes.map Node.judged := by rw [(actsOn_judged s).nodes, verdicts_eq]
  have hmodules : s.judged.modules = s.modules :=
    modules_congr (channels_of_map (by rw [hnodes, List.map_map]; rfl))
  have hpolls := pollsPlaced_periodStart hhalt
  rwa [hmodules] at hpolls

/-- Settles O56: the verdicts, the poll round, and the HVC frame of the period by HV state. -/
theorem monitorPeriodJudges : Obligations.MonitorPeriodJudges := by
  intro s hheld htimer
  have hexec : exec .monitorPeriodExpiry s = .next s.periodExpired.settled := by
    rw [exec, execMonitorPeriodExpiry, event_taken hheld, if_pos htimer]
  obtain ⟨hnodes, htimer, hmem, htables, hlimits⟩ := periodExpired_keeps s
  refine ⟨_, hexec, hnodes, htimer, fun hchanged => periodExpired_pending (verdicts_moduleChange hchanged),
    periodExpired_polls, fun n hnode halive hlost hactive => periodExpired_headLost hnode halive hlost hactive,
    fun hrun => ⟨periodExpired_repeats hrun, periodExpired_halt hrun, periodExpired_quiet hrun⟩, hmem, htables, hlimits⟩

end Sys2Proof.Machine
end

section
/-! PROOFS. The sample queue, the averaging window and the keepalive counter (O11). -/

namespace Sys2Proof.Machine

variable {s t : State} {k : Grant} {v w : View}

/-- `State.measuringSound` in the terms of the view. -/
def View.measuringSound (v : View) : Prop :=
  v.samples.length ≤ 8 ∧ v.window.length ≤ 64 ∧ 16 ≤ v.limits.timing.keepalive ∧
    (v.hv = .ramp ∨ v.hv = .dwell → 0 < v.keepalive)

theorem measuringSound_view : s.measuringSound ↔ s.view.measuringSound := Iff.rfl

/-- Any section loaded keeps the keepalive count at 16 or more (R15). -/
theorem le_load_keepalive {l : Limits} (h : 16 ≤ l.timing.keepalive) (count : Nat) (sec : Section) (bs : List Byte) :
    16 ≤ (l.load count sec bs).timing.keepalive := by
  cases sec with
  | timing => exact le_clamp 16 65535 (wordAt bs 3)
  | _ => exact h

theorem change_keeps_measuring (c : Change k v w) (h : v.measuringSound) : w.measuringSound := by
  obtain ⟨hsamples, hwindow, hcount, hlive⟩ := h
  cases c with
  | samples q hq => exact ⟨hq.elim (fun hle => hle.trans hsamples) id, hwindow, hcount, hlive⟩
  | window _ hlen => exact ⟨hsamples, hlen, hcount, hlive⟩
  | limits sec bs _ _ => exact ⟨hsamples, hwindow, le_load_keepalive hcount _ sec bs, hlive⟩
  | hv st _ fresh _ =>
    refine ⟨hsamples, hwindow, hcount, fun hst => ?_⟩
    rcases fresh hst with hramp | hdwell | ⟨hload, -⟩
    · exact hlive (.inl hramp)
    · exact hlive (.inr hdwell)
    · exact hload ▸ Nat.lt_of_lt_of_le (by decide) hcount
  | keepalive n hn =>
    refine ⟨hsamples, hwindow, hcount, fun hst => ?_⟩
    rcases hn with ⟨hramp, hdwell⟩ | hpos | hload
    · exact (hst.elim hramp hdwell).elim
    · exact hpos
    · exact hload ▸ Nat.lt_of_lt_of_le (by decide) hcount
  | testEnds _ _ => exact ⟨hsamples, hwindow, hcount, by simp⟩
  | _ => exact ⟨hsamples, hwindow, hcount, hlive⟩

/-- A reset leaves nothing measured and the HV state DISCHARGE, with the keepalive count held or at its default (R15,
R76, R122, R181). -/
theorem inReset_measuringSound (x : State) (cause : ResetCause) (command : Bool)
    (h : 16 ≤ x.limits.timing.keepalive) : (x.inReset cause command).view.measuringSound := by
  have hcount : 16 ≤ (x.inReset cause command).limits.timing.keepalive := by
    cases command with
    | false => exact (by decide : 16 ≤ Limits.default.timing.keepalive)
    | true => exact h
  exact ⟨Nat.zero_le _, Nat.zero_le _, hcount, by rintro (hst | hst) <;> exact HvState.noConfusion hst⟩

/-- Settles O11: the queue and the window grow only within their places, and RAMP is entered with the keepalive counter
fresh, which then reaches 0 only as the test ends. -/
theorem stepKeepsMeasuringSound : Obligations.StepKeepsMeasuringSound := fun _ _ h e =>
  measuringSound_view.mpr <| step_keeps (P := View.measuringSound) (fun _ _ _ c => change_keeps_measuring c)
    (fun _ _ _ h => h) (fun _ _ h => h) (fun x _ cause command h _ => inReset_measuringSound x cause command h.2.2.1)
    (measuringSound_view.mp h) e

end Sys2Proof.Machine
end

section
/-! PROOFS. The value of a low-voltage sample and the evaluation of a net at dwell end (O59). -/

namespace Sys2Proof.Machine

/-! ### Low-voltage resistance (R85) -/

/-- A sample that yields no quotient: overloaded, in compliance, or without current (R84, R85). -/
theorem rawResistance_rmax {c : Calibration} {x : Sample}
    (h : x.ovl = true ∨ 7 < x.range ∨ x.cmp = true ∨ x.icode.toInt * c.ilsbOf x.range ≤ 0) :
    rawResistance c x = rmax :=
  if_pos (by simpa [Sample.overload, or_assoc] using h)

/-- A sample with current and without voltage measures 0; with both, the quotient in whole mΩ, saturated (R85). -/
theorem rawResistance_quotient {c : Calibration} {x : Sample} (hovl : x.ovl = false) (hrange : x.range ≤ 7)
    (hcmp : x.cmp = false) (hi : 0 < x.icode.toInt * c.ilsbOf x.range) :
    rawResistance c x =
      if x.vcode.toInt * c.vlsbLv ≤ 0 then 0
      else min rmax ((x.vcode.toInt * c.vlsbLv).toNat * 1000000000 / (x.icode.toInt * c.ilsbOf x.range).toNat) :=
  if_neg (by simp [Sample.overload, hovl, hcmp, hrange, hi])

/-- A saturated quotient is at most the exact one, and below saturation it is its floor. -/
theorem min_quotient_bounds {v i : Int} (hv : 0 ≤ v) (hi : 0 < i) (bound scale : Nat) :
    ((min bound (v.toNat * scale / i.toNat) : Nat) : Int) * i ≤ v * scale ∧
      (min bound (v.toNat * scale / i.toNat) < bound →
        v * scale < (((min bound (v.toNat * scale / i.toNat) : Nat) : Int) + 1) * i) := by
  lift v to ℕ using hv
  lift i to ℕ using hi.le
  have hpos : 0 < i := Int.natCast_pos.mp hi
  simp only [Int.toNat_natCast]
  norm_cast
  refine ⟨?_, fun hlt => ?_⟩
  · calc min bound (v * scale / i) * i ≤ v * scale / i * i := Nat.mul_le_mul_right i (min_le_right _ _)
      _ ≤ v * scale := Nat.div_mul_le_self _ _
  · rw [min_eq_right ((min_lt_iff.mp hlt).resolve_left (lt_irrefl _)).le]
    exact Nat.lt_mul_of_div_lt (Nat.lt_succ_self _) hpos

/-! ### Averages and their evaluation (R90) -/

/-- A quotient that rounds toward minus infinity is the one number whose multiples hold the dividend between them. -/
theorem fdiv_eq_of_bounds {a q : Int} {n : Nat} (hn : 0 < n) (hle : q * n ≤ a) (hlt : a < (q + 1) * n) :
    a.fdiv n = q := by
  have hpos : (0 : Int) < n := Int.natCast_pos.mpr hn
  rw [Int.fdiv_eq_ediv_of_nonneg _ hpos.le]
  exact le_antisymm (Int.lt_add_one_iff.mp (Int.ediv_lt_of_lt_mul hpos hlt)) (Int.le_ediv_of_mul_le hpos hle)

/-- The insulation resistance of an average with current and voltage: the quotient in whole MΩ, saturated (R90). -/
theorem insulationResistance_quotient {vAvg iAvg : Int} (hi : 0 < iAvg) (hv : 0 < vAvg) :
    insulationResistance vAvg iAvg = min rmax (vAvg * 1000 / iAvg).toNat := by
  rw [insulationResistance, if_neg hi.not_ge, if_neg hv.not_ge]
  lift vAvg to ℕ using hv.le
  lift iAvg to ℕ using hi.le
  norm_cast

/-- The verdict of an average: LEAK with LOWV before LEAK before PASS (R90). -/
theorem evaluate_average {cls : InsulClass} {w used : List Conv} (hw : w ≠ []) {vAvg iAvg : Int} {n : Nat}
    (hn : n = min cls.averaging w.length) (hused : used = w.drop (w.length - n))
    (hv : Int.fdiv (used.map (·.vh)).sum n = vAvg) (hi : Int.fdiv (used.map (·.ih)).sum n = iAvg) :
    evaluate cls w =
      if vAvg < (cls.volt * 900 : Nat) then .leakLow (insulationResistance vAvg iAvg)
      else if insulationResistance vAvg iAvg < cls.irLimit then .leak (insulationResistance vAvg iAvg)
      else .pass := by
  subst hn hused hv hi
  refine if_neg (Nat.ne_of_gt (lt_min ?_ (List.length_pos_iff.mpr hw)))
  exact Nat.two_pow_pos _

/-- Settles O59: the floors of R85 and R90 are the quotients of the model, with their saturation and the order of the
tests. -/
theorem resistanceAndEvaluation : Obligations.ResistanceAndEvaluation := by
  refine ⟨fun c x => ⟨rawResistance_rmax, fun hovl hrange hcmp hi => ?_⟩, fun cls w =>
    ⟨fun hw => by simp [hw, evaluate], fun hw used n vAvg iAvg hn hused hvle hvlt hile hilt => ?_⟩⟩
  · have hr := rawResistance_quotient hovl hrange hcmp hi
    refine ⟨fun hv => by rw [hr, if_pos hv], fun hv => ?_⟩
    rw [hr, if_neg hv.not_ge]
    exact ⟨min_le_left _ _, min_quotient_bounds hv.le hi rmax 1000000000⟩
  · have hpos : 0 < n := hn ▸ lt_min (Nat.two_pow_pos _) (List.length_pos_iff.mpr hw)
    refine ⟨insulationResistance vAvg iAvg, fun hi => if_pos hi, fun hi hv => ?_, fun hi hv =>
      insulationResistance_quotient hi hv, ?_⟩
    · rw [insulationResistance, if_neg hi.not_ge, if_pos hv]
    · rw [evaluate_average hw hn hused (fdiv_eq_of_bounds hpos hvle hvlt) (fdiv_eq_of_bounds hpos hile hilt)]
      push_cast
      rfl

end Sys2Proof.Machine
end

section
/-! PROOFS. The text of a record line and of its value (O44). -/

namespace Sys2Proof.Machine

variable {d : Defect} {nameA nameB value : List Byte}

/-- The parts of the line of a record, in the order of their columns (R156). -/
def recordFields (d : Defect) (nameA nameB value : List Byte) : List (List Byte) :=
  [digits 5 d.seq, spaces 1, padRight 8 (ascii d.key.kind.printName), spaces 1, nameA, spaces 1,
    match d.key.point with | some p => ascii ['P'] ++ digits 4 p | none => spaces 5,
    spaces 1, if d.key.netB.isSome then nameB else spaces 16, spaces 1, padLeft 14 value, spaces 1,
    if d.lowv then ascii ['L'] else spaces 1, crlf]

/-- The lengths of the parts (R156). -/
def recordFieldLengths : List Nat := [5, 1, 8, 1, 16, 1, 5, 1, 16, 1, 14, 1, 1, 2]

theorem recordLine_flatten : recordLine d nameA nameB value = (recordFields d nameA nameB value).flatten := by
  cases hp : d.key.point <;> simp [recordLine, recordFields, hp]

theorem length_digits (width n : Nat) : (digits width n).length = width := by simp [digits]

theorem length_padLeft {n : Nat} {t : List Byte} (h : t.length ≤ n) : (padLeft n t).length = n := by
  simp [padLeft, spaces, h]

theorem length_padRight {n : Nat} {t : List Byte} (h : t.length ≤ n) : (padRight n t).length = n := by
  simp [padRight, spaces, h]

theorem length_printName_le (kind : DefectKind) : (ascii kind.printName).length ≤ 8 := by cases kind <;> decide

theorem recordFields_lengths (hA : nameA.length = 16) (hB : nameB.length = 16) (hv : value.length ≤ 14) :
    (recordFields d nameA nameB value).map List.length = recordFieldLengths := by
  have hpoint : (match d.key.point with | some p => ascii ['P'] ++ digits 4 p | none => spaces 5).length = 5 := by
    cases d.key.point <;> rfl
  have hname : (if d.key.netB.isSome then nameB else spaces 16).length = 16 := by split <;> simp [hB, spaces]
  have hlowv : (if d.lowv then ascii ['L'] else spaces 1).length = 1 := by split <;> rfl
  simp only [recordFields, List.map_cons, List.map_nil, length_digits, length_padLeft hv,
    length_padRight (length_printName_le _), hA, hpoint, hname, hlowv]
  rfl

/-- A part of a line stands behind the parts before it. -/
theorem take_drop_flatten {α : Type} {L : List (List α)} {lengths : List Nat} (h : L.map List.length = lengths)
    {k n : Nat} {part : List α} (hn : lengths[k]? = some n) (hpart : L[k]? = some part) :
    (L.flatten.drop (lengths.take k).sum).take n = part := by
  obtain ⟨hk, rfl⟩ := List.getElem?_eq_some_iff.mp hpart
  have hlen : L[k].length = n := by
    rw [← h, List.getElem?_map, hpart] at hn
    exact Option.some.inj hn
  rw [← h, List.drop_sum_flatten, List.drop_eq_getElem_cons hk, List.flatten_cons, List.take_left' hlen]

/-- A part of the line of a record, by its place among the parts (R156). -/
theorem recordLine_field (hA : nameA.length = 16) (hB : nameB.length = 16) (hv : value.length ≤ 14) {k n : Nat}
    {part : List Byte} (hn : recordFieldLengths[k]? = some n)
    (hpart : (recordFields d nameA nameB value)[k]? = some part) :
    ((recordLine d nameA nameB value).drop (recordFieldLengths.take k).sum).take n = part := by
  rw [recordLine_flatten]
  exact take_drop_flatten (recordFields_lengths hA hB hv) hn hpart

theorem length_recordLine (hA : nameA.length = 16) (hB : nameB.length = 16) (hv : value.length ≤ 14) :
    (recordLine d nameA nameB value).length = 73 := by
  rw [recordLine_flatten, List.length_flatten, recordFields_lengths hA hB hv]
  rfl

/-- The blanks between the columns (R156). -/
theorem recordLine_gap (hA : nameA.length = 16) (hB : nameB.length = 16) (hv : value.length ≤ 14) :
    ∀ column ∈ [6, 15, 32, 38, 55, 70],
      ((recordLine d nameA nameB value).drop (column - 1)).take 1 = List.replicate 1 0x20 := by
  have field {k : Nat} := @recordLine_field d _ _ _ hA hB hv k 1 (spaces 1)
  simp only [List.forall_mem_cons]
  exact ⟨field (k := 1) rfl rfl, field (k := 3) rfl rfl, field (k := 5) rfl rfl, field (k := 7) rfl rfl,
    field (k := 9) rfl rfl, field (k := 11) rfl rfl, List.forall_mem_nil _⟩

/-- A kind's name stands at the left of its field (R156). -/
theorem padRight_ascii (n : Nat) (cs : List Char) :
    padRight n (ascii cs) = ascii cs ++ List.replicate (n - cs.length) 0x20 := by
  simp [padRight, spaces, ascii]

/-- The columns of the line of a record, as the claim gives them (R156). -/
theorem recordLine_columns (hA : nameA.length = 16) (hB : nameB.length = 16) (hv : value.length ≤ 14) :
    let line := recordLine d nameA nameB value
    let field (column length : Nat) : List Byte := (line.drop (column - 1)).take length
    let blank (n : Nat) : List Byte := List.replicate n 0x20
    let kind := d.key.kind.printName
    line.length = 73 ∧ field 1 5 = digits 5 d.seq ∧ field 7 8 = ascii kind ++ blank (8 - kind.length) ∧
      field 16 16 = nameA ∧
      field 33 5 = (match d.key.point with | some p => ascii ['P'] ++ digits 4 p | none => blank 5) ∧
      field 39 16 = (if d.key.netB.isSome then nameB else blank 16) ∧
      field 56 14 = blank (14 - value.length) ++ value ∧ field 71 1 = (if d.lowv then ascii ['L'] else blank 1) ∧
      field 72 2 = [0x0D, 0x0A] ∧ ∀ column ∈ [6, 15, 32, 38, 55, 70], field column 1 = blank 1 := by
  intro line field blank kind
  have part {k n : Nat} {p : List Byte} := @recordLine_field d _ _ _ hA hB hv k n p
  refine ⟨length_recordLine hA hB hv, part (k := 0) rfl rfl, ?_, part (k := 4) rfl rfl, part (k := 6) rfl rfl,
    part (k := 8) rfl rfl, part (k := 10) rfl rfl, part (k := 12) rfl rfl, part (k := 13) rfl rfl,
    recordLine_gap hA hB hv⟩
  rw [← padRight_ascii]
  exact part (k := 2) rfl rfl

end Sys2Proof.Machine
end

section
/-! PROOFS. The BUSY timer (O44): PRN_BUSY falls, or the timer expires and PRINTER-FAULT is raised with its notice. -/

namespace Sys2Proof.Machine

variable {s : State} {second : Bool}

/-! ### The notice of an event (R173, R175) -/

/-- A notice that is due is held, or it stands in the trunk transmit queue with the pending set (R173). -/
theorem noticeDue_notice (s : State) :
    s.noticeDue.trunk.held = true ∨ noticeEntry s.events.pending ∈ s.noticeDue.trunk.queue := by
  rw [State.noticeDue]
  split
  · next old hfind =>
    split
    · exact .inr (List.mem_append_right _ List.mem_cons_self)
    · refine .inr (List.mem_append_right _ (List.mem_map.mpr ⟨old, List.mem_of_find?_eq_some hfind, if_pos ?_⟩))
      simpa using List.find?_some hfind
  · split
    · exact .inl rfl
    · split
      · exact .inr (List.mem_append_right _ List.mem_cons_self)
      · exact .inr (List.mem_append_right _ (List.mem_singleton_self _))

/-- An event that was neither pending nor masked is told by a notice, unless that is held (R173, R175). -/
theorem raise_notice {e : Event} (hp : s.events.isPending e = false) (hm : s.events.isMasked e = false) :
    (s.raise e).trunk.held = true ∨
      ∃ n ∈ (s.raise e).trunk.queue, n.kind = .notice ∧ n.frame.payload = be16 (s.raise e).events.pending.toNat := by
  have hevents : (s.raise e).events.pending = s.events.pending ||| e.bit := by rw [raise_eq]
  rw [hevents, State.raise, if_neg (by simp [hp]), if_neg (by simp [hm])]
  exact (noticeDue_notice _).imp_right fun hmem => ⟨_, hmem, rfl, rfl⟩

/-! ### PRN_BUSY falls (R160) -/

theorem exec_prnBusyFalls (hheld : s.rst.held = false) :
    exec .prnBusyFalls s = .next (State.settled
      (if s.print.busyTimer.isSome then (s.onPins fun p => { p with prnBusy := false }).beginChar
        else s.onPins fun p => { p with prnBusy := false })) := by
  rw [exec, execPrnBusyFalls, event_taken (by exact hheld)]
  rfl

/-- The character that waits begins as PRN_BUSY falls (R160). -/
theorem beginChar_released (h : s.print.bufferIn .sending = some second) :
    (s.onPins fun p => { p with prnBusy := false }).beginChar =
      { s with
        pins := { s.pins with prnBusy := false }
        print :=
          { s.print with
            busyTimer := none
            char := some (characterAt s.limits.timing.rate (s.print.buffer second).text s.print.sendPos) } } := by
  rw [beginChar_eq _ second (by exact h)]
  rfl

/-! ### The BUSY timer expires (R160, R161) -/

/-- The printer is FAULTED and PRINTER-FAULT raised (R160). -/
def State.printerFaulted (s : State) : State :=
  (s.onPrint fun p => { p with state := .faulted, busyTimer := none }).raise .printerFault

theorem exec_busyTimeout (hheld : s.rst.held = false) (htimer : s.print.busyTimer.isSome = true) :
    exec .busyTimeout s =
      .next (if s.print.disableReq then s.printerFaulted.printOff else s.printerFaulted).settled := by
  have hprint : s.printerFaulted.print.disableReq = s.print.disableReq := by
    rw [State.printerFaulted, raise_eq]
    rfl
  rw [exec, execBusyTimeout, event_taken hheld, if_pos htimer, State.busyExpired, ← State.printerFaulted, hprint]

theorem printerFaulted_eq (s : State) :
    s.printerFaulted =
      { s with
        print := { s.print with state := .faulted, busyTimer := none }
        events := { s.events with pending := s.events.pending ||| Event.printerFault.bit }
        trunk := s.printerFaulted.trunk } := raise_eq _ _

/-- What a state that the fault has led to, with its events and its trunk, tells the controller (R173, R175). -/
theorem printerFaulted_notice (hp : s.events.isPending .printerFault = false)
    (hm : s.events.isMasked .printerFault = false) :
    s.printerFaulted.trunk.held = true ∨
      ∃ n ∈ s.printerFaulted.trunk.queue, n.kind = .notice ∧
        n.frame.payload = be16 (s.events.pending ||| Event.printerFault.bit).toNat := by
  have h := raise_notice (s := s.onPrint fun p => { p with state := .faulted, busyTimer := none }) hp hm
  rwa [← State.printerFaulted, show s.printerFaulted.events.pending = _ from congrArg (·.events.pending)
    (printerFaulted_eq s)] at h

/-- PRINT DISABLE takes effect on the fault, with no record held or none RETIRED (R160, R161). -/
theorem printerFaulted_off (h : s.listSound) (hnone : s.run.slot = none ∨ ∀ d ∈ s.defects, d.retired = false) :
    s.printerFaulted.printOff =
      { s with
        print := { Print.reset with copies := s.print.copies }
        port := s.port.give fun o => o = .print
        arith := s.arith.dropFormat
        defects := s.defects.filter fun d => !d.retired
        events := { s.events with pending := s.events.pending ||| Event.printerFault.bit }
        trunk := s.printerFaulted.trunk } := by
  have heq := printerFaulted_eq s
  have hdefects : s.printerFaulted.defects = s.defects := by rw [heq]
  have hrun : s.printerFaulted.run = s.run := by rw [heq]
  rw [printOff_removes (by rwa [State.listSound, hdefects, hrun]) (by rwa [hdefects, hrun]), State.linesDiscarded, heq]
  rfl

end Sys2Proof.Machine
end

section
/-! PROOFS. A character has been sent (O44): within a line, and at the LF, with the record PRINTED and the request or
the line that comes next. -/

namespace Sys2Proof.Machine

variable {s : State} {second : Bool} {n : Nat}

/-! ### A record is PRINTED (R150, R159) -/

/-- The defect list with the record of a sequence number PRINTED, and gone where it is RETIRED (R150). -/
def printedOut (ds : List Defect) (n : Nat) : List Defect :=
  (ds.filter fun d => !(decide (d.seq = n) && d.retired)).map fun d =>
    if d.seq = n then { d with printed := true } else d

theorem setPrinted_final {ds : List Defect} (h : ∀ d ∈ ds, d.seq = n → d.provisional = false) :
    setPrinted ds n = ds.map fun d => if d.seq = n then { d with printed := true } else d :=
  List.map_congr_left fun d hd => by
    by_cases hn : d.seq = n
    · simp [hn, h d hd hn]
    · simp [hn]

theorem seqLeaves_printed {ds : List Defect} (h : ∀ d ∈ ds, d.seq = n → d.provisional = false) (off : Bool) :
    seqLeaves (setPrinted ds n) n off = true ↔ ∃ d ∈ ds, d.seq = n ∧ d.retired = true := by
  rw [setPrinted_final h, seqLeaves, List.any_map, List.any_eq_true]
  refine exists_congr fun d => and_congr_right fun _ => ?_
  by_cases hn : d.seq = n <;> simp [hn, Defect.leaves]

/-- The line of a final record has been sent, with no record held (R150, R159). -/
theorem setPrinted_removeIfLeaving (h : s.listSound) (hslot : s.run.slot = none)
    (hfinal : ∀ d ∈ s.defects, d.seq = n → d.provisional = false) :
    (s.onDefects fun ds => setPrinted ds n).removeIfLeaving n = { s with defects := printedOut s.defects n } := by
  rw [State.removeIfLeaving]
  split
  · next hleaves =>
    obtain ⟨d, hd, hseq, hret⟩ := (seqLeaves_printed hfinal _).mp hleaves
    have hkept : removeSeq (setPrinted s.defects n) n = printedOut s.defects n := by
      rw [setPrinted_final hfinal, removeSeq, List.filter_map, printedOut]
      refine congrArg _ (List.filter_congr fun x hx => ?_)
      by_cases hn : x.seq = n
      · obtain rfl : d = x := h.eq_of_seq hd hx (hseq.trans hn.symm)
        simp [hn, hret]
      · simp [hn]
    rw [State.removeRecord, removalReported_noSlot (by exact hslot), ← hkept]
    rfl
  · next hstays =>
    have hkept : setPrinted s.defects n = printedOut s.defects n := by
      rw [setPrinted_final hfinal, printedOut, List.filter_eq_self.mpr fun x hx => ?_]
      by_cases hn : x.seq = n
      · have : x.retired ≠ true := fun hret => hstays ((seqLeaves_printed hfinal _).mpr ⟨x, hx, hn, hret⟩)
        simp [this]
      · simp [hn]
    rw [← hkept]
    rfl

theorem printedOut_listSound (h : s.listSound) (hfinal : ∀ d ∈ s.defects, d.seq = n → d.provisional = false) :
    State.listSound { s with defects := printedOut s.defects n } := by
  obtain ⟨hlen, hkeys, hseqs, hcount, hprov⟩ := h
  have hsub {d : Defect} (hd : d ∈ s.defects.filter fun d => !(decide (d.seq = n) && d.retired)) : d ∈ s.defects :=
    (List.mem_filter.mp hd).1
  have hkey (d : Defect) : (if d.seq = n then { d with printed := true } else d).key = d.key := by split <;> rfl
  have hseq (d : Defect) : (if d.seq = n then { d with printed := true } else d).seq = d.seq := by split <;> rfl
  refine ⟨?_, List.pairwise_map.mpr ?_, List.pairwise_map.mpr ?_, List.forall_mem_map.mpr fun d hd => ?_,
    List.forall_mem_map.mpr fun d hd => ?_⟩
  · exact (List.length_map ..).trans_le ((List.length_filter_le ..).trans hlen)
  · simpa only [hkey] using hkeys.filter _
  · simpa only [hseq] using hseqs.filter _
  · simpa only [hseq] using hcount d (hsub hd)
  · by_cases hn : d.seq = n
    · simp [hn, hfinal d (hsub hd) hn]
    · simpa [hn] using hprov d (hsub hd)

/-! ### Characters (R159, R160) -/

theorem exec_characterSent (hheld : s.rst.held = false) (busy : Bool) :
    exec (.printCharacterSent busy) s = .next (s.onPins fun p => { p with prnBusy := busy }).charSent.settled := by
  rw [exec, execPrintCharacterSent, event_taken (by exact hheld)]

/-- Within a line the next character is ready (R159). -/
theorem charSent_next {sent : Character} (hchar : s.print.char = some sent)
    (hsending : s.print.bufferIn .sending = some second)
    (hmore : s.print.sendPos + 1 < (s.print.buffer second).text.length) :
    s.charSent =
      { s with print :=
          { (s.sendingLine s.print (s.print.buffer second).text (s.print.sendPos + 1)).print with
            state := s.print.state } } := by
  rw [State.charSent, hchar, hsending]
  dsimp only
  rw [if_pos hmore, beginChar_eq _ second (by exact hsending)]
  rfl

theorem charSent_last {sent : Character} (hchar : s.print.char = some sent)
    (hsending : s.print.bufferIn .sending = some second)
    (hlast : (s.print.buffer second).text.length ≤ s.print.sendPos + 1) : s.charSent = s.lineEnd second := by
  rw [State.charSent, hchar, hsending]
  exact if_neg (Nat.not_lt.mpr hlast)

/-! ### The end of a line (R150, R159, R161, R162) -/

/-- The Print Engine with the buffer of the line sent EMPTY (R159). -/
def Print.lineOver (p : Print) (second : Bool) : Print :=
  { (p.onBuffer second fun _ => { state := .empty, content := none, text := [] }) with sendPos := 0, char := none }

/-- The defect list once the line of a buffer has been sent (R150, R159). -/
def State.defectsAfter (s : State) (second : Bool) : List Defect :=
  match (s.print.buffer second).content with
  | some (.record n) => printedOut s.defects n
  | _ => s.defects

theorem recordSeq_eq_some {b : Buffer} : b.recordSeq = some n ↔ b.content = some (.record n) := by
  rw [Buffer.recordSeq]
  split <;> simp_all

theorem defectsAfter_record (h : (s.print.buffer second).content = some (.record n)) :
    s.defectsAfter second = printedOut s.defects n := by
  rw [State.defectsAfter, h]

theorem defectsAfter_text (h : ∀ n, (s.print.buffer second).content ≠ some (.record n)) :
    s.defectsAfter second = s.defects := by
  rw [State.defectsAfter]
  split
  · next n hc => exact absurd hc (h n)
  · rfl

/-- The line of a buffer has been sent, no request having taken effect yet (R159). -/
def State.lineOver (s : State) (second : Bool) : State :=
  { s with print := s.print.lineOver second, defects := s.defectsAfter second }

/-- The record of the line in a buffer, if it is the line of one, is final. -/
def State.lineFinal (s : State) (second : Bool) : Prop :=
  ∀ n, (s.print.buffer second).content = some (.record n) → ∀ d ∈ s.defects, d.seq = n → d.provisional = false

theorem lineOver_listSound (h : s.listSound) (hfinal : s.lineFinal second) : (s.lineOver second).listSound := by
  have hds : State.listSound { s with defects := s.defectsAfter second } := by
    rw [State.defectsAfter]
    split
    · next n hc => exact printedOut_listSound h (hfinal n hc)
    · exact h
  exact hds

theorem lineOver_disableReq (s : State) (second : Bool) :
    (s.lineOver second).print.disableReq = s.print.disableReq := by
  cases second <;> rfl

theorem lineOver_holdReq (s : State) (second : Bool) : (s.lineOver second).print.holdReq = s.print.holdReq := by
  cases second <;> rfl

theorem lineOver_copies (s : State) (second : Bool) : (s.lineOver second).print.copies = s.print.copies := by
  cases second <;> rfl

/-- What follows a line (R159): PRINT DISABLE takes effect, a hold, or the next line has its turn. -/
def State.nextTurn (s : State) : State :=
  if s.print.disableReq then s.printOff
  else if s.print.holdReq then s.onPrint fun p => { p with state := .held, holdReq := false }
  else s.afterLine

/-- The LF has been sent with no record held (R150, R159). -/
theorem lineEnd_eq (h : s.listSound) (hslot : s.run.slot = none) (hfinal : s.lineFinal second) :
    s.lineEnd second = (s.lineOver second).nextTurn := by
  have hturn : s.lineEnd second =
      State.nextTurn ((match (s.print.buffer second).recordSeq with
        | some n => (s.onDefects fun ds => setPrinted ds n).removeIfLeaving n
        | none => s).onPrint fun p => p.lineOver second) := rfl
  rw [hturn, State.lineOver]
  cases hseq : (s.print.buffer second).recordSeq with
  | some n =>
    have hc := recordSeq_eq_some.mp hseq
    dsimp only
    rw [setPrinted_removeIfLeaving h hslot (hfinal n hc), defectsAfter_record hc]
    rfl
  | none =>
    rw [defectsAfter_text fun n hc => by simp [recordSeq_eq_some.mpr hc] at hseq]
    rfl

/-- The next line is the READY one, and is being sent (R159). -/
theorem afterLine_ready {other : Bool} (hsending : s.print.bufferIn .sending = none)
    (hready : s.print.bufferIn .ready = some other) :
    s.afterLine =
      (s.sendingLine (s.print.onBuffer other fun b => { b with state := .sending })
        (s.print.buffer other).text 0).printLook :=
  printGo_heldReady hsending hready

/-- No line is READY: the Print Engine waits for the one that is FORMATTING, or rests (R159). -/
theorem afterLine_empty (hready : s.print.bufferIn .ready = none) :
    s.afterLine =
      State.printLook { s with print :=
        { s.print with state := if s.print.bufferIn .formatting = none then .idle else .format } } :=
  printGo_heldEmpty hready

/-- PRINT DISABLE takes effect after the line (R161). -/
theorem nextTurn_off (h : s.listSound) (hslot : s.run.slot = none) (hfinal : s.lineFinal second)
    (hreq : s.print.disableReq = true) :
    (s.lineOver second).nextTurn =
      { s.lineOver second with
        print := { Print.reset with copies := s.print.copies }
        port := s.port.give fun o => o = .print
        arith := s.arith.dropFormat
        defects := (s.defectsAfter second).filter fun d => !d.retired } := by
  rw [State.nextTurn, lineOver_disableReq, if_pos hreq, printOff_removes (lineOver_listSound h hfinal) (.inl hslot),
    ← lineOver_copies s second]
  rfl

/-- The hold takes effect after the line (R162). -/
theorem nextTurn_held (hno : s.print.disableReq = false) (hreq : s.print.holdReq = true) :
    (s.lineOver second).nextTurn =
      (s.lineOver second).onPrint fun p => { p with state := .held, holdReq := false } := by
  rw [State.nextTurn, lineOver_disableReq, lineOver_holdReq, if_neg (by simp [hno]), if_pos hreq]

/-- No request is set: the next line has its turn (R159). -/
theorem nextTurn_goesOn (hno : s.print.disableReq = false) (hno' : s.print.holdReq = false) :
    (s.lineOver second).nextTurn = (s.lineOver second).afterLine := by
  rw [State.nextTurn, lineOver_disableReq, lineOver_holdReq, if_neg (by simp [hno]), if_neg (by simp [hno'])]

end Sys2Proof.Machine
end

section
/-! PROOFS. The formatting of a line (O44): the reads of the nets and of their names, the value asked of the Arithmetic
Unit, and the line complete. -/

namespace Sys2Proof.Machine

variable {s x : State} {w u : FmtWork} {n : Nat} {bs name : List Byte}

/-! ### The record line in hand (R155) -/

/-- The state with a record line in hand. -/
def State.formats (x : State) (w : FmtWork) : State := x.onPrint fun p => { p with fmt := some w }

/-- The record line in hand, and a read that the Print Engine asks for (R155). -/
def State.formatsBy (x : State) (w : FmtWork) (kind : TableKind) (i : Nat) : State :=
  { x with print := { x.print with fmt := some w }, port := { queue := x.port.queue ++ [readFor kind i .print] } }

/-- The record line in hand, and its value asked of the Arithmetic Unit (R155). -/
def State.formatsValue (x : State) (w : FmtWork) : State :=
  { x with
    print := { x.print with fmt := some { w with stage := .value } }
    arith := { x.arith with waiting := x.arith.waiting ++ [.format] } }

/-- No line is being sent where a line that is complete would be sent. -/
def State.sendFree (x : State) : Prop :=
  x.print.state = .format ∨ x.print.state = .idle → x.print.bufferIn .sending = none

theorem formatValue_asks (h : u.defect.value.isSome = true) : (x.formats u).formatValue = x.formatsValue u :=
  if_pos (by simp [h])

theorem formatValue_completes (hfree : x.sendFree) (hnone : u.defect.value = none) (hstage : u.stage ≠ .begun) :
    (x.formats u).formatValue = x.lineDone u [] := by
  have hrecord : (x.formats u).formatValue = (x.formats u).recordComplete [] := if_neg (by simp [hnone, hstage])
  rw [hrecord, recordComplete_eq _ u [] rfl (by exact hfree), State.lineDone, State.lineDone, State.lineReady,
    State.lineReady]
  cases u.second <;> rfl

theorem formatNetB_reads (hb : u.defect.key.netB = some n) (hn : n < s.bound .nets) :
    (s.formats u).formatNetB = s.formatsBy { u with stage := .netB } .nets n := by
  rw [State.formatNetB, State.formats]
  simp only [State.onPrint_print, hb]
  exact if_pos (decide_eq_true hn)

theorem formatNetB_none (hb : u.defect.key.netB = none) : (s.formats u).formatNetB = (s.formats u).formatValue := by
  rw [State.formatNetB, State.formats]
  simp only [State.onPrint_print, hb]

theorem formatNetB_index (hb : u.defect.key.netB = some n) (hn : s.bound .nets ≤ n) :
    (s.formats u).formatNetB = (s.formats { u with nameB := indexForm n }).formatValue := by
  rw [State.formatNetB, State.formats]
  simp only [State.onPrint_print, hb]
  exact if_neg (Bool.eq_false_iff.1 (decide_eq_false (Nat.not_lt.mpr hn)))

/-! ### A name is known (R155, R157) -/

/-- Whether the name in hand is that of net A. -/
def FmtWork.first (w : FmtWork) : Bool := w.stage = .netA || w.stage = .nameA

/-- The record line with the name in hand placed. -/
def FmtWork.named (w : FmtWork) (name : List Byte) : FmtWork :=
  if w.first then { w with nameA := name } else { w with nameB := name }

theorem named_kept (w : FmtWork) (name : List Byte) :
    (w.named name).defect = w.defect ∧ (w.named name).stage = w.stage := by
  rw [FmtWork.named]
  split <;> exact ⟨rfl, rfl⟩

theorem net_eq (w : FmtWork) : w.net = if w.first then w.defect.key.netA else w.defect.key.netB.getD 0 := by
  rw [FmtWork.net, FmtWork.first]
  cases w.stage <;> rfl

theorem nameKnown_eq (x : State) (w : FmtWork) (name : List Byte) :
    x.nameKnown w name =
      if w.first then (x.formats (w.named name)).formatNetB else (x.formats (w.named name)).formatValue := by
  rw [State.nameKnown, FmtWork.named, FmtWork.first]
  cases w.stage <;> rfl

/-- The record line once the name in hand is placed, where net B needs no read: net B's name is the one placed, or there
is no net B, or net B is in no table and prints in its index form (R157). -/
def FmtWork.settles (w : FmtWork) (name : List Byte) (nets : Nat) (u : FmtWork) : Prop :=
  (w.first = false ∧ u = w.named name) ∨ (w.first = true ∧ w.defect.key.netB = none ∧ u = w.named name) ∨
    (∃ n, w.first = true ∧ w.defect.key.netB = some n ∧ nets ≤ n ∧ u = { w.named name with nameB := indexForm n })

theorem settles_kept {nets : Nat} (h : w.settles name nets u) : u.defect = w.defect ∧ u.stage = w.stage := by
  have hkept := named_kept w name
  rcases h with ⟨-, rfl⟩ | ⟨-, -, rfl⟩ | ⟨n, -, -, -, rfl⟩ <;> exact hkept

theorem nameKnown_settles (h : w.settles name (x.bound .nets) u) :
    x.nameKnown w name = (x.formats u).formatValue := by
  have hdefect := (named_kept w name).1
  rw [nameKnown_eq]
  rcases h with ⟨hfirst, rfl⟩ | ⟨hfirst, hb, rfl⟩ | ⟨n, hfirst, hb, hn, rfl⟩
  · rw [if_neg (by simp [hfirst])]
  · rw [if_pos hfirst, formatNetB_none (by rw [hdefect, hb])]
  · rw [if_pos hfirst, formatNetB_index (by rw [hdefect, hb]) hn]

theorem nameKnown_reads (hfirst : w.first = true) (hb : w.defect.key.netB = some n) (hn : n < x.bound .nets) :
    x.nameKnown w name = x.formatsBy { w.named name with stage := .netB } .nets n := by
  rw [nameKnown_eq, if_pos hfirst, formatNetB_reads (by rw [(named_kept w name).1, hb]) hn]

/-! ### A read of the Print Engine completes (R3, R155, R157) -/

/-- The look for work that follows a line complete at the end of a read (R154). -/
def State.lookIfDone (x : State) : State := if x.print.fmt.isNone then x.printLook else x

theorem accessDone_print (x : State) (kind : TableKind) (i : Nat) (bytes : Option (List Byte)) :
    x.accessDone (readFor kind i .print) bytes = (x.printRead bytes).lookIfDone := rfl

theorem lookIfDone_lineDone (x : State) (w : FmtWork) (value : List Byte) :
    (x.lineDone w value).lookIfDone = (x.lineDone w value).printLook := by
  refine if_pos ?_
  rw [State.lineDone, State.lineReady]
  dsimp only
  split <;> rfl

/-- What a name that is known leads to: the read of net B, the value, or the line complete and a look for work (R154,
R155). -/
theorem nameKnown_leads (hfree : x.sendFree) (hbegun : w.stage ≠ .begun) (name : List Byte) :
    (∀ n, w.first = true → w.defect.key.netB = some n → n < x.bound .nets →
      (x.nameKnown w name).lookIfDone = x.formatsBy { w.named name with stage := .netB } .nets n) ∧
    ∀ u, w.settles name (x.bound .nets) u →
      (w.defect.value.isSome = true → (x.nameKnown w name).lookIfDone = x.formatsValue u) ∧
      (w.defect.value = none → (x.nameKnown w name).lookIfDone = (x.lineDone u []).printLook) := by
  refine ⟨fun n hfirst hb hn => ?_, fun u hu => ?_⟩
  · rw [nameKnown_reads hfirst hb hn]
    rfl
  · obtain ⟨hdefect, hstage⟩ := settles_kept hu
    rw [nameKnown_settles hu]
    refine ⟨fun hvalue => ?_, fun hnone => ?_⟩
    · rw [formatValue_asks (hdefect ▸ hvalue)]
      rfl
    · rw [formatValue_completes hfree (hdefect ▸ hnone) (hstage ▸ hbegun), lookIfDone_lineDone]

theorem printRead_failed (hw : x.print.fmt = some w) : x.printRead none = x.nameKnown w (indexForm w.net) := by
  simp only [State.printRead, hw]

theorem printRead_name (hw : x.print.fmt = some w) (hstage : w.stage = .nameA ∨ w.stage = .nameB) :
    x.printRead (some bs) = x.nameKnown w (bs.map printable) := by
  rcases hstage with h | h <;> simp only [State.printRead, hw, h]

/-- A net record leads to the read of its name, where it names one that is in the table (R157). -/
theorem printRead_net (hw : x.print.fmt = some w) (hstage : w.stage = .netA ∨ w.stage = .netB) :
    (∀ n, (decodeNet bs).name = some n → n < x.bound .names →
      x.printRead (some bs) =
        x.formatsBy { w with stage := if w.stage = .netA then .nameA else .nameB } .names n) ∧
    ((decodeNet bs).name = none ∨ (∃ n, (decodeNet bs).name = some n ∧ x.bound .names ≤ n) →
      x.printRead (some bs) = x.nameKnown w (indexForm w.net)) := by
  refine ⟨fun n hname hn => ?_, ?_⟩
  · rcases hstage with h | h <;> simp only [State.printRead, hw, h, hname, if_pos hn] <;> rfl
  · rintro (hname | ⟨n, hname, hn⟩)
    · rcases hstage with h | h <;> simp only [State.printRead, hw, h, hname]
    · rcases hstage with h | h <;> simp only [State.printRead, hw, h, hname, if_neg (Nat.not_lt.mpr hn)]

/-- A stored character as printed (R157). -/
theorem printable_eq : printable = fun b => if 0x20 ≤ b.toNat ∧ b.toNat ≤ 0x7E then b else 0x3F := by
  funext b
  simp [printable]

/-! ### Format operations (R84, R93, R153) -/

theorem arithStart_format {rest : List ArithReq} (hjob : s.arith.job = none)
    (hwait : s.arith.waiting = .format :: rest) :
    s.arithStart =
      { s with arith :=
          { job := some { op := .format (s.print.fmt.elim [] FmtWork.valueText), live := true }
            waiting := rest } } := by
  rw [State.arithStart, if_neg (by simp [hjob]), hwait]
  dsimp only
  rw [State.takeFormat, State.onArith_print]
  cases s.print.fmt <;> rfl

theorem exec_format_end {text : List Byte} (hheld : s.rst.held = false)
    (hjob : s.arith.job = some { op := .format text, live := true }) (busy : Bool) :
    exec (.arithmeticOperationEnd busy) s = .next ((s.operated busy).formatDone text).settled := by
  rw [execArithmeticOperationEnd_eq hheld, State.arithEnd, State.onPins_arith, hjob]
  rfl

/-- The line of a record is complete with its value text (R93, R155). -/
theorem formatDone_record (hw : x.print.fmt = some w) (hfree : x.sendFree) (text : List Byte) :
    x.formatDone text = (x.lineDone w text).printLook := by
  rw [State.formatDone, if_pos (by simp [hw]), recordComplete_eq x w text hw hfree]

/-- A header or summary line is complete with the text that it has (R153, R158). -/
theorem formatDone_text {second : Bool} (hw : x.print.fmt = none) (hline : x.print.bufferIn .formatting = some second)
    (hfree : x.sendFree) (text : List Byte) :
    x.formatDone text = (x.lineReady second (x.print.buffer second).text).printLook := by
  rw [State.formatDone, if_neg (by simp [hw]), State.textComplete, hline]
  dsimp only
  rw [lineComplete_eq x second _ hw hfree]

end Sys2Proof.Machine
end

section
/-! PROOFS. The print port and the formatting of a line (O44). -/

namespace Sys2Proof.Machine

variable {s : State} {second : Bool}

/-- The text of a value, as the claim gives it (R93). -/
theorem valueText_unit (kind : DefectKind) (v : Nat) :
    valueText kind.unit v =
      match kind with
      | .opn | .highR | .short | .miswire | .calFail =>
        if v = 4294967295 then ascii ['O', 'P', 'E', 'N']
        else decimal (v / 1000) ++ ascii ['.'] ++ digits 3 (v % 1000) ++ ascii ['R']
      | .leak => if v = 4294967295 then ascii ['O', 'V', 'E', 'R'] else decimal v ++ ascii ['M']
      | .arc => decimal v ++ ascii ['P', 'A']
      | .shortOverflow => decimal v
      | .untested | .switchFault => ascii ['M'] ++ digits 2 v := by cases kind <;> rfl

/-- An event that ends with a look for work (R154). -/
theorem ends_looked {a : Answer} (y : State) (h : a = .next y.printLook.settled) :
    ∃ z, y.looked z ∧ a = .next z.settled := ⟨_, printLook_looked y, h⟩

/-- A read of the Print Engine ends with a name known: net B's record is read, the value is asked for, or the line is
complete (R155). -/
theorem ends_named {a : Answer} {x : State} {w : FmtWork} {name : List Byte}
    (h : a = .next (x.nameKnown w name).lookIfDone.settled) (hfree : x.sendFree) (hbegun : w.stage ≠ .begun) :
    (∀ n, w.first = true → w.defect.key.netB = some n → n < x.bound .nets →
      a = .next (x.formatsBy { w.named name with stage := .netB } .nets n).settled) ∧
    ∀ u, w.settles name (x.bound .nets) u →
      (w.defect.value.isSome = true → a = .next (x.formatsValue u).settled) ∧
      (w.defect.value = none → ∃ y, (x.lineDone u []).looked y ∧ a = .next y.settled) := by
  obtain ⟨hreads, hsettles⟩ := nameKnown_leads hfree hbegun name
  refine ⟨fun n hfirst hb hn => by rw [h, hreads n hfirst hb hn], fun u hu => ⟨fun hvalue => ?_, fun hnone => ?_⟩⟩
  · rw [h, (hsettles u hu).1 hvalue]
  · exact ends_looked _ (by rw [h, (hsettles u hu).2 hnone])

/-- Settles O44: the text of a line by its parts, and each event of the print port, of a read and of a format operation
by the one thing that the Print Engine does next. -/
theorem printPort : Obligations.PrintPort := by
  refine ⟨fun d nameA nameB value hA hB hv => recordLine_columns hA hB hv, valueText_unit, fun s hheld =>
    ⟨fun hno => ?_, fun second htimer hsending => ?_, fun htimer hreq => ?_, fun htimer hreq hsound hnone => ?_,
      fun busy second sent hchar hsending => ?_, fun second hfmt hline => ⟨fun rest hjob hwait => ?_,
        fun busy text hjob hfree => ?_⟩, fun w busy hw hfree => ⟨fun kind i rest hacc => ?_, fun rest hjob hwait => ?_,
        fun text hjob => ?_⟩⟩⟩
  · rw [exec_prnBusyFalls hheld, if_neg (by simp [hno])]
    rfl
  · rw [exec_prnBusyFalls hheld, if_pos htimer, beginChar_released hsending]
  · have hexec := exec_busyTimeout hheld htimer
    rw [if_neg (by simp [hreq])] at hexec
    refine ⟨_, hexec, congrArg State.settled (printerFaulted_eq s), fun hp hm => ?_⟩
    have hevents : s.printerFaulted.settled.events.pending = s.events.pending ||| Event.printerFault.bit :=
      congrArg (·.events.pending) (printerFaulted_eq s)
    rw [hevents]
    exact printerFaulted_notice hp hm
  · have hexec := exec_busyTimeout hheld htimer
    rw [if_pos hreq, printerFaulted_off hsound hnone] at hexec
    exact ⟨_, hexec, rfl, fun hp hm => printerFaulted_notice hp hm⟩
  · intro answer found line
    have hsent : answer = .next found.charSent.settled := exec_characterSent hheld busy
    refine ⟨fun hmore => ?_, fun hlast hslot hsound hfinal => ?_⟩
    · rw [hsent, charSent_next (s := found) hchar hsending hmore]
    · intro print ended
      rw [charSent_last (s := found) hchar hsending hlast, lineEnd_eq (s := found) hsound hslot hfinal] at hsent
      refine ⟨fun hreq => ?_, fun hno hreq => ?_, fun hno hno' hfree => ?_⟩
      · rw [hsent, nextTurn_off (s := found) hsound hslot hfinal hreq]
        rfl
      · rw [hsent, nextTurn_held (s := found) hno hreq]
        rfl
      · rw [nextTurn_goesOn (s := found) hno hno'] at hsent
        refine ⟨fun other hready => ends_looked _ ?_, fun hready => ends_looked _ ?_⟩
        · exact hsent.trans (by rw [afterLine_ready (s := found.lineOver second) hfree hready]; rfl)
        · exact hsent.trans (by rw [afterLine_empty (s := found.lineOver second) hready]; rfl)
  · rw [execArithmeticOperationStart_eq hheld, arithStart_format hjob hwait, hfmt]
    rfl
  · refine ends_looked _ ?_
    rw [exec_format_end hheld hjob, formatDone_text (by exact hfmt) (by exact hline) (by exact hfree)]
    rfl
  · intro answer failed asks named read
    have hfound (bs : List Byte) (h : s.mem.record kind i = some bs) :
        answer = .next (read.printRead (some bs)).lookIfDone.settled := exec_read_found hacc h busy
    refine ⟨fun bs _ hstage hrec => ⟨fun n hname hn => ?_, fun hindex => ?_⟩, fun bs _ hstage hrec => ?_,
      fun hrec _ hbegun => ?_⟩
    · have hread := (printRead_net (x := read) hw hstage).1 n hname hn
      have hnext := hfound bs hrec
      rwa [hread] at hnext
    · have hread := (printRead_net (x := read) hw hstage).2 hindex
      have hnext := hfound bs hrec
      rw [hread, net_eq] at hnext
      exact ends_named hnext hfree (by rcases hstage with h | h <;> simp [h])
    · have hnext := hfound bs hrec
      rw [printRead_name (x := read) hw hstage, printable_eq] at hnext
      exact ends_named hnext hfree (by rcases hstage with h | h <;> simp [h])
    · have hnext : answer = .next (State.printRead { read with tables := failed } none).lookIfDone.settled :=
        exec_read_failed hacc hrec busy
      rw [printRead_failed (x := { read with tables := failed }) hw, net_eq] at hnext
      exact ends_named hnext hfree hbegun
  · rw [execArithmeticOperationStart_eq hheld, arithStart_format hjob hwait, hw]
    rfl
  · refine ends_looked _ ?_
    rw [exec_format_end hheld hjob, formatDone_record (by exact hw) (by exact hfree)]

end Sys2Proof.Machine
end

section
/-! PROOFS. The interlock (O12): out of reset, RAMP is entered only with the interlock closed, and the test ends
as it opens; a chip held in reset stays in DISCHARGE, since only RESET_END moves it and leaves it out of reset. -/

namespace Sys2Proof.Machine

variable {s t : State} {k : Grant} {v w : View} {i : Instr}

/-! ### A chip out of reset -/

/-- The chip is out of reset, and high voltage is up only with the interlock closed. -/
def View.interlockLive (v : View) : Prop :=
  v.held = false ∧ (v.hv = .ramp ∨ v.hv = .dwell → v.interlock = true)

/-- Out of reset, `State.interlockSound` says no more than `View.interlockLive`. -/
theorem interlockSound_view (hout : s.rst.held = false) : s.interlockSound ↔ s.view.interlockLive := by
  simp [State.interlockSound, View.interlockLive, State.view, hout]

theorem change_keeps_interlock (c : Change k v w) (h : v.interlockLive) : w.interlockLive := by
  obtain ⟨hout, hclosed⟩ := h
  cases c with
  | hv st _ fresh _ =>
    refine ⟨hout, fun hst => ?_⟩
    rcases fresh hst with hramp | hdwell | ⟨-, hnow⟩
    · exact hclosed (.inl hramp)
    · exact hclosed (.inr hdwell)
    · exact hnow
  | testEnds => exact ⟨hout, by simp⟩
  | interlock closed hlevel =>
    refine ⟨hout, fun hst => ?_⟩
    rcases hlevel with rfl | ⟨hramp, hdwell⟩
    · rfl
    · exact (hst.elim hramp hdwell).elim
  | released => exact ⟨rfl, hclosed⟩
  | _ => exact ⟨hout, hclosed⟩

theorem changes_keep_interlock (h : Changes k s.view t.view) (hs : s.view.interlockLive) : t.interlockSound := by
  have ht : t.view.interlockLive := h.keep (fun _ _ => change_keeps_interlock) hs
  exact (interlockSound_view ht.1).mpr ht

/-! ### A chip held in reset (R180) -/

/-- RESET_END begins from DISCHARGE, and the period that it starts changes the view by `Changes` out of reset. -/
theorem resetEnd_keeps_interlock (hheld : s.rst.held = true) (h : s.interlockSound) (e : exec .resetEnd s = .next t) :
    t.interlockSound := by
  have hchanges : Changes (grantOf .resetEnd) s.released.view s.released.periodStart.view :=
    changes_periodStart (.refl _)
  rw [exec_resetEnd_held hheld] at e
  injection e with e
  subst e
  exact changes_keep_interlock (hchanges.same rfl) ⟨rfl, h.1⟩

/-- In DISCHARGE the interlock may have any level. -/
theorem interlockSound_of_discharge (h : s.hv.state = .discharge) : s.interlockSound :=
  ⟨by simp [h], fun _ => h⟩

/-! ### Every row -/

theorem exec_keeps_interlock (hi : i.resets = false) (h : s.interlockSound) (e : exec i s = .next t) :
    t.interlockSound := by
  by_cases hheld : s.rst.held = true
  · by_cases hend : i = .resetEnd
    · subst hend
      exact resetEnd_keeps_interlock hheld h e
    · obtain ⟨p, rfl⟩ := exec_held hi hend hheld e
      exact interlockSound_of_discharge (h.2 hheld)
  · exact changes_keep_interlock (exec_changes hi (fun hh => absurd hh hheld) e)
      ((interlockSound_view (Bool.eq_false_iff.mpr hheld)).mp h)

/-- A reset row that takes effect leaves the HV state DISCHARGE (R122, R180). -/
theorem reset_keeps_interlock (hi : i.resets = true) (h : s.interlockSound) (e : exec i s = .next t) :
    t.interlockSound := by
  rcases exec_resets hi e with rfl | ⟨x, cause, command, rfl, -, -⟩
  · exact h
  · exact interlockSound_of_discharge rfl

/-- Settles O12: out of reset each `Change` keeps high voltage behind a closed interlock, and a chip held in reset stays
in DISCHARGE until RESET_END. -/
theorem stepKeepsInterlockSound : Obligations.StepKeepsInterlockSound := by
  intro s t h e
  unfold step at e
  split at e
  · injection e with e
    exact e ▸ h
  · rename_i i _ _
    have hs : s.dequeued.interlockSound := h
    by_cases hi : i.resets = true
    · exact reset_keeps_interlock hi hs e
    · exact exec_keeps_interlock (Bool.eq_false_iff.mpr hi) hs e

end Sys2Proof.Machine
end

section
/-! PROOFS. The defect list (O13): what an append, a change of records where they stand, a removal and the rewrite of an
OPEN record leave of the list's room, keys, numbers and flags. -/

namespace Sys2Proof.Machine

variable {s : State} {k : Grant} {v w : View} {count : Nat} {ds : List Defect} {f : Defect → Defect}

/-! ### Sound lists -/

/-- A defect list under a run defect count is sound: `State.listSound` in the terms of the list. -/
structure SoundList (count : Nat) (ds : List Defect) : Prop where
  room : ds.length ≤ 512
  keys : ds.Pairwise fun d e => d.key ≠ e.key
  seqs : ds.Pairwise fun d e => d.seq < e.seq
  counted : ∀ d ∈ ds, d.seq ≤ count
  unfinished : ∀ d ∈ ds, d.provisional = true → d.printed = false ∧ d.retired = false

theorem listSound_iff : s.listSound ↔ SoundList s.run.summary.defects s.defects :=
  ⟨fun ⟨room, keys, seqs, counted, unfinished⟩ => ⟨room, keys, seqs, counted, unfinished⟩,
    fun h => ⟨h.room, h.keys, h.seqs, h.counted, h.unfinished⟩⟩

theorem SoundList.nil (count : Nat) : SoundList count [] :=
  ⟨Nat.zero_le _, .nil, .nil, List.forall_mem_nil _, List.forall_mem_nil _⟩

/-- Records may leave a sound list (R150). -/
theorem SoundList.sublist (h : SoundList count ds) {es : List Defect} (hsub : es.Sublist ds) : SoundList count es where
  room := hsub.length_le.trans h.room
  keys := h.keys.sublist hsub
  seqs := h.seqs.sublist hsub
  counted d hd := h.counted d (hsub.subset hd)
  unfinished d hd := h.unfinished d (hsub.subset hd)

/-- A change of records where they stand keeps a sound list, where it keeps the numbers, keeps the keys apart, makes no
record PROVISIONAL, and marks none that stays PROVISIONAL (R149, R150). -/
theorem SoundList.map (h : SoundList count ds) (hkeys : ds.Pairwise fun d e => (f d).key ≠ (f e).key)
    (hseq : ∀ d, (f d).seq = d.seq)
    (hflags : ∀ d, (f d).provisional = true →
      d.provisional = true ∧ (f d).printed = d.printed ∧ (f d).retired = d.retired) :
    SoundList count (ds.map f) where
  room := (List.length_map ..).trans_le h.room
  keys := List.pairwise_map.mpr hkeys
  seqs := List.pairwise_map.mpr (by simpa only [hseq] using h.seqs)
  counted := List.forall_mem_map.mpr fun d hd => (hseq d).trans_le (h.counted d hd)
  unfinished := List.forall_mem_map.mpr fun d hd hp => by
    obtain ⟨hd', hprinted, hretired⟩ := hflags d hp
    rw [hprinted, hretired]
    exact h.unfinished d hd hd'

/-- The next number and a new key keep the list sound under the count that they raise (R144). -/
theorem SoundList.append (h : SoundList count ds) {d : Defect} (hseq : d.seq = count + 1) (hroom : ds.length < 512)
    (hnew : ∀ e ∈ ds, e.key ≠ d.key) (hfresh : d.printed = false ∧ d.retired = false) :
    SoundList (count + 1) (ds ++ [d]) where
  room := (List.length_append ..).trans_le hroom
  keys := List.pairwise_append.mpr ⟨h.keys, List.pairwise_singleton _ _, fun e he =>
    List.forall_mem_singleton.mpr (hnew e he)⟩
  seqs := List.pairwise_append.mpr ⟨h.seqs, List.pairwise_singleton _ _, fun e he =>
    List.forall_mem_singleton.mpr (hseq ▸ Nat.lt_succ_of_le (h.counted e he))⟩
  counted := List.forall_mem_append.mpr ⟨fun e he => (h.counted e he).trans (Nat.le_succ _),
    List.forall_mem_singleton.mpr hseq.le⟩
  unfinished := List.forall_mem_append.mpr ⟨h.unfinished, List.forall_mem_singleton.mpr fun _ => hfresh⟩

/-! ### The rewrite of an OPEN record (R146) -/

/-- A key that no record has may take the place of another. -/
theorem pairwise_rekeyed {old new : DefectKey} (hkeys : ds.Pairwise fun d e => d.key ≠ e.key)
    (hnew : ∀ d ∈ ds, d.key ≠ new) :
    ds.Pairwise fun d e => (if d.key = old then new else d.key) ≠ (if e.key = old then new else e.key) := by
  refine hkeys.imp_of_mem fun {d e} hd he hne => ?_
  split
  · next hold =>
    rw [if_neg fun h => hne (hold.trans h.symm)]
    exact (hnew e he).symm
  · split
    · exact hnew d hd
    · exact hne

/-- A rewrite leaves the list, gives the key of the OPEN record to the MISWIRE in its place, or writes the MISWIRE of
that key anew and takes the OPEN record out. -/
theorem rewrite_cases (ds : List Defect) (own point other value step : Nat) :
    rewrite ds own point other value step = ds ∨
      ((∀ d ∈ ds, d.key ≠ miswireKey own point other) ∧
        rewrite ds own point other value step =
          changeKey ds (openKey own point) fun d =>
            { d with key := miswireKey own point other, value := some value, step }) ∨
      ∃ n, rewrite ds own point other value step =
        removeSeq
          (changeKey ds (miswireKey own point other) fun d => { d.again with value := some value, step }) n := by
  unfold rewrite
  extract_lets old new
  split
  · exact .inl rfl
  · next d _ =>
    split
    · next hnone => exact .inr (.inl ⟨findKey_none (by rw [miswireKey, hnone]; simp), rfl⟩)
    · exact .inr (.inr ⟨d.seq, rfl⟩)

theorem rewrite_keeps_sound (h : SoundList count ds) (own point other value step : Nat) :
    SoundList count (rewrite ds own point other value step) := by
  rcases rewrite_cases ds own point other value step with hsame | ⟨hnew, hplace⟩ | ⟨n, hmerged⟩
  · rwa [hsame]
  · rw [hplace]
    refine h.map ?_ (fun d => by split <;> rfl) fun d => by split <;> simp
    simpa only [apply_ite Defect.key] using pairwise_rekeyed h.keys hnew
  · rw [hmerged]
    refine SoundList.sublist (h.map ?_ (fun d => by split <;> rfl) fun d => by split <;> simp [Defect.again])
      List.filter_sublist
    simpa only [apply_ite Defect.key, Defect.again, ite_self] using h.keys

/-! ### Every change of the view -/

theorem change_keeps_list (c : Change k v w) (h : SoundList v.count v.defects) : SoundList w.count w.defects := by
  cases c with
  | amends f hf =>
    obtain ⟨hseq, hrest⟩ := forall_and.mp hf
    obtain ⟨hkey, hflags⟩ := forall_and.mp hrest
    exact h.map (by simpa only [hkey] using h.keys) hseq hflags
  | drops p => exact h.sublist List.filter_sublist
  | rewrites own point other value step => exact rewrite_keeps_sound h own point other value step
  | appends d seq room _ new fresh => exact h.append seq room new fresh
  | fresh hempty => exact hempty ▸ SoundList.nil 0
  | _ => exact h

/-- Settles O13: an append takes the next number and a new key, other changes keep each record's number and no two of
them its key, and the list is empty when the count is cleared. -/
theorem stepKeepsListSound : Obligations.StepKeepsListSound := fun _ _ h e =>
  listSound_iff.mpr <| step_keeps (P := fun v => SoundList v.count v.defects) (fun _ _ _ c => change_keeps_list c)
    (fun _ _ _ h => h) (fun _ _ h => h) (fun _ _ _ _ _ _ => .nil 0) (listSound_iff.mp h) e

end Sys2Proof.Machine
end

section
/-! PROOFS. The transmit queues and the own-tag counter (O8): a frame joins a queue only where it finds room, and a reply
that is owed holds its place. -/

namespace Sys2Proof.Machine

variable {s : State} {k : Grant} {v w : View}

/-- `State.linksSound` in the terms of the view. -/
def View.linksSound (v : View) : Prop := v.queue.length ≤ 8 ∧ v.ownTag < 128 ∧ v.load ≤ 8

theorem linksSound_view : s.linksSound ↔ s.view.linksSound := .rfl

theorem change_keeps_links (c : Change k v w) (h : v.linksSound) : w.linksSound := by
  obtain ⟨hqueue, htag, hload⟩ := h
  cases c with
  | load n hn => exact ⟨hqueue, htag, hn.elim (·.trans hload) id⟩
  | placed e rest _ room => exact ⟨(List.length_append ..).trans_le room, Nat.mod_lt _ (by decide), hload⟩
  | passes f room _ => exact ⟨(List.length_append ..).trans_le room, htag, hload⟩
  | leave q _ hq _ => exact ⟨hq.length_le.trans hqueue, htag, hload⟩
  | _ => exact ⟨hqueue, htag, hload⟩

/-- A reset leaves both queues empty, no reply owed, and the own-tag counter at 0 (R171, R173, R180). -/
theorem inReset_linksSound (x : State) (cause : ResetCause) (command : Bool) :
    (x.inReset cause command).view.linksSound :=
  ⟨Nat.zero_le _, Nat.zero_lt_succ _, Nat.zero_le _⟩

/-- Settles O8: every `Change` that adds a frame or an owed reply asks for the room, and the own-tag counter advances
modulo 128. -/
theorem stepKeepsLinksSound : Obligations.StepKeepsLinksSound := fun _ _ h e =>
  linksSound_view.mpr <| step_keeps (P := View.linksSound) (fun _ _ _ c => change_keeps_links c) (fun _ _ _ h => h)
    (fun _ _ h => h) (fun x _ cause command _ _ => inReset_linksSound x cause command) (linksSound_view.mp h) e

end Sys2Proof.Machine
end

section
/-! PROOFS. The rows that the controller's frames stand for (R166, R167, R172): a trunk command, with how it is taken, or a
pass-through request. For O16, O20, O21 and O22. -/

namespace Sys2Proof.Machine

variable {s : State} {i : Instr} {f : Frame} {tag code : Byte} {args : List Byte} {body : State → State}

/-- The codes that are not answered HALTED in SAFE-HALT: IDENTIFY, READ STATUS, READ FAULT, RESET CHIP, and those that name
no command (R172, R179). -/
def takenInHalt (code : Byte) : Bool := code ∈ ([0x01, 0x02, 0x20, 0x22] : List Byte) || !isCommandCode code

/-- The codes of the commands without arguments (R172). -/
def bareCodes : List Byte :=
  [0x01, 0x0D, 0x0F, 0x10, 0x11, 0x12, 0x17, 0x18, 0x1B, 0x1C, 0x1D, 0x1E, 0x20, 0x21, 0x22]

/-- The state that a row finds: PRINT GO and READ STATUS bring the level of PRN_BUSY with them (log 18). -/
def State.found (s : State) : Instr → State
  | .printGo _ _ busy => s.seenBusy busy
  | .readStatus _ args => s.seenBusy args.busy
  | _ => s

theorem found_eq_self (h : ∀ tag args busy, i ≠ .printGo tag args busy ∧ i ≠ .readStatus tag ⟨args, busy⟩) :
    s.found i = s := by
  unfold State.found
  split
  · next tag args busy => exact absurd rfl (h tag args busy).1
  · next tag args => exact absurd rfl (h tag args.bytes args.busy).2
  · rfl

/-- A row that stands for a trunk command: its frame, and its meaning as a body that `State.command` runs. The body of a
command without arguments answers BAD-ARG where it comes with argument bytes. -/
structure CommandRow (i : Instr) (tag code : Byte) (args : List Byte) (body : State → State) : Prop where
  frame : i.frame? = some (cmdFrame tag code args)
  fits : i.WellFormed = argsFit args
  runs : ∀ s : State, exec i s = (s.found i).command tag code (takenInHalt code) args body
  bare : code ∈ bareCodes → args ≠ [] → ∀ s : State, body s = s.reply tag code .badArg

/-- The body of a command without arguments (R172, log 22). -/
def bareBody (tag code : Byte) (args : List Byte) (body : State → State) (s : State) : State :=
  if args.isEmpty then body s else s.reply tag code .badArg

theorem commands_bare (frame : i.frame? = some (cmdFrame tag code args)) (fits : i.WellFormed = argsFit args)
    (runs : ∀ s : State, exec i s = (s.found i).bareCommand tag code (takenInHalt code) args body) :
    CommandRow i tag code args (bareBody tag code args body) where
  frame := frame
  fits := fits
  runs := runs
  bare _ hne _ := if_neg (by simpa using hne)

theorem commands_plain (frame : i.frame? = some (cmdFrame tag code args)) (fits : i.WellFormed = argsFit args)
    (runs : ∀ s : State, exec i s = (s.found i).command tag code (takenInHalt code) args body)
    (hcode : code ∉ bareCodes) : CommandRow i tag code args body where
  frame := frame
  fits := fits
  runs := runs
  bare hbare := absurd hbare hcode

theorem unknownCode_not_mem {codes : List Byte} (u : UnknownCode) (h : codes.all isCommandCode = true) :
    u.code ∉ codes := fun hmem => by
  simpa [u.unknown] using List.all_eq_true.mp h u.code hmem

theorem takenInHalt_unknown (u : UnknownCode) : takenInHalt u.code = true := by
  simp [takenInHalt, u.unknown]

/-- A frame of the controller stands for a command or for a pass-through request. -/
theorem commands_or_passes (h : i.frame? = some f) :
    (∃ tag code args body, f = cmdFrame tag code args ∧ CommandRow i tag code args body) ∨
      ∃ r, i = .passThroughRequest r ∧ f = r.frame := by
  have command {tag code args body} (c : CommandRow i tag code args body) :
      ∃ tag code args body, f = cmdFrame tag code args ∧ CommandRow i tag code args body :=
    ⟨tag, code, args, body, Option.some.inj (h.symm.trans c.frame), c⟩
  cases i with
  | passThroughRequest r => exact .inr ⟨r, rfl, (Option.some.inj h).symm⟩
  | unknownCommand tag u args =>
    exact .inl (command (commands_plain rfl rfl (fun s => by rw [exec, takenInHalt_unknown]; rfl)
      (unknownCode_not_mem u (by decide))))
  | identify | checkTables | pause | resume | abort | release | keep | readEvents | printEnable | printDisable | printHold
    | printGo | readFault | clearFault | resetChip =>
    exact .inl (command (commands_bare rfl rfl fun _ => by rw [exec]; rfl))
  | readStatus | loadDimensions | loadPoints | loadNets | loadMembers | loadNames | loadSteps | loadModules | loadLimits
    | loadLeads | readTable | startRun | readDefects | retireDefects | invalidateMap | probeMap | clearEvents | setEventMask
    | readModules =>
    exact .inl (command (commands_plain rfl rfl (fun _ => by rw [exec]; rfl) (by decide)))
  | _ => cases h

end Sys2Proof.Machine
end

section
/-! PROOFS. The frames of the links as bytes (R164, R165): what is received (O16), and what is discarded (O21). -/

namespace Sys2Proof.Machine

variable {i : Instr} {f : Frame} {link : Link} {bytes : List Byte}

/-! ### Reception (R164, R165) -/

/-- Two bytes that spell the check field are its coding. -/
theorem eq_be16_of_beNat {bs : List Byte} (hlen : bs.length = 2) {n : Nat} (h : beNat bs = n) : be16 n = bs := by
  match bs, hlen with
  | [a, b], _ => rw [← h, beNat_two, be16_wordAt]

theorem beNat_be16 (crc : BitVec 16) : beNat (be16 crc.toNat) = crc.toNat := by
  have hword := wordAt_be16 crc.isLt []
  rwa [List.append_nil, wordAt_two (be16_length _)] at hword

theorem toNat_byte_length {payload : List Byte} (h : payload.length ≤ 64) :
    (byte payload.length).toNat = payload.length := by
  rw [BitVec.toNat_ofNat]
  omega

/-- A frame of a length that R165 and its link allow, put on the link as R164 gives, is received as itself. -/
theorem receive_bytes (hlen : f.payload.length ≤ 64)
    (hring : link = .ring → ringLengthAllowed f.cls f.payload.length = true) : receive link f.bytes = some f := by
  have hbytes : f.bytes = f.dst :: f.src :: f.cls :: f.tag :: byte f.payload.length ::
      (f.payload ++ be16 (crc16 f.body).toNat) := rfl
  rw [hbytes]
  simp only [receive, toNat_byte_length hlen, List.take_left, List.drop_left, List.length_append, be16_length, beNat_be16]
  rw [if_neg (by simpa using hlen), if_neg (by simp), if_neg (by simpa using hring)]

/-- What is received is a frame of a length that R165 and its link allow, put on the link as R164 gives. -/
theorem bytes_of_receive (h : receive link bytes = some f) :
    bytes = f.bytes ∧ f.payload.length ≤ 64 ∧ (link = .ring → ringLengthAllowed f.cls f.payload.length = true) := by
  match bytes, h with
  | dst :: src :: cls :: tag :: len :: rest, h =>
    simp only [receive] at h
    split at h
    · cases h
    next hshape =>
    split at h
    · cases h
    next hcheck =>
    split at h
    · cases h
    next hring =>
    simp only [Bool.or_eq_true, decide_eq_true_eq, not_or, not_lt, not_not] at hshape hcheck
    obtain ⟨⟨-, hlen⟩, hrest⟩ := hshape
    have hpayload : (rest.take len.toNat).length = len.toNat := by rw [List.length_take]; omega
    have hfield := eq_be16_of_beNat (by rw [List.length_drop]; omega) hcheck
    cases h
    refine ⟨?_, by rwa [hpayload], fun hlink => ?_⟩
    · simp only [Frame.bytes, hfield]
      simp [Frame.body, hpayload]
    · simpa [hlink, hpayload] using hring

/-! ### Discarded frames (R165, R167, R169, R172) -/

theorem frameIsDiscarded_of_none (h : receive link bytes = none) : frameIsDiscarded link bytes = true := by
  rw [frameIsDiscarded, h]

theorem frameIsDiscarded_trunk (hlen : f.payload.length ≤ 64) :
    frameIsDiscarded .trunk f.bytes = trunkFrameIgnored f := by
  rw [frameIsDiscarded, receive_bytes hlen (by simp)]

theorem frameIsDiscarded_ring (hlen : f.payload.length ≤ 64)
    (hring : ringLengthAllowed f.cls f.payload.length = true) : frameIsDiscarded .ring f.bytes = ringFrameIgnored f := by
  rw [frameIsDiscarded, receive_bytes hlen fun _ => hring]

theorem trunkFrameIgnored_iff (f : Frame) :
    trunkFrameIgnored f = true ↔
      (f.cls = clsCmd ∧ (f.dst ≠ 1 ∨ f.payload = [])) ∨ f.cls ∉ [clsCmd, clsSw, clsPol, clsMsr, clsHvc] := by
  by_cases hcmd : f.cls = clsCmd
  · simp [trunkFrameIgnored, hcmd]
  · simp [trunkFrameIgnored, hcmd, and_assoc]

theorem ringFrameIgnored_iff (f : Frame) :
    ringFrameIgnored f = true ↔
      f.src ≠ 0 ∧ (126 < f.src.toNat ∨ f.dst ≠ 0 ∨ f.cls ∉ [clsEch, clsSta, clsSmp]) := by
  simp [ringFrameIgnored, or_assoc, and_assoc]

/-- Bytes that break a rule of R165 are discarded: too few or too many, a bad check field, a bad LEN. -/
theorem frameIsDiscarded_of_bad (h : bytes.length < 7 ∨ 64 < byteAt bytes 4 ∨ byteAt bytes 4 + 7 ≠ bytes.length ∨
    beNat (bytes.drop (bytes.length - 2)) ≠ (crc16 (bytes.take (bytes.length - 2))).toNat ∨
    (link = .ring ∧ ringLengthAllowed (bytes.getD 2 0) (byteAt bytes 4) = false)) : frameIsDiscarded link bytes = true := by
  cases hreceive : receive link bytes with
  | none => exact frameIsDiscarded_of_none hreceive
  | some f =>
    obtain ⟨rfl, hlen, hring⟩ := bytes_of_receive hreceive
    have hbody : f.bytes.length - 2 = f.body.length := by simp [Frame.bytes]
    have hcount : f.bytes.length = f.payload.length + 7 := by simp [Frame.bytes, Frame.body]
    have hfield : byteAt f.bytes 4 = f.payload.length := toNat_byte_length hlen
    have hcls : f.bytes.getD 2 0 = f.cls := rfl
    have htake : f.bytes.take f.body.length = f.body := List.take_left
    have hdrop : f.bytes.drop f.body.length = be16 (crc16 f.body).toNat := List.drop_left
    rw [hbody, htake, hdrop, beNat_be16, hfield, hcls, hcount] at h
    rcases h with h | h | h | h | ⟨hlink, hbad⟩
    · omega
    · omega
    · exact absurd rfl h
    · exact absurd rfl h
    · simp [hring hlink] at hbad

/-! ### The frames of the controller -/

/-- The frame of a well-formed row fits a link, and is one that the trunk takes (R167, R172). -/
theorem frame_taken (h : i.frame? = some f) (hw : i.WellFormed = true) :
    f.payload.length ≤ 64 ∧ trunkFrameIgnored f = false := by
  rcases commands_or_passes h with ⟨tag, code, args, body, rfl, c⟩ | ⟨r, rfl, rfl⟩
  · exact Laws.cmdFrame_spells tag code (c.fits ▸ hw)
  · exact Laws.SpellsFrame.passThroughRequest r _ rfl hw

/-- Settles O16: reception takes a frame apart as R164 puts it together, and the frames of the rows fit the trunk. -/
theorem framesRoundTrip : Obligations.FramesRoundTrip := by
  refine ⟨fun _ _ => receive_bytes, fun i f h hw => ?_⟩
  obtain ⟨hlen, htaken⟩ := frame_taken h hw
  exact ⟨receive_bytes hlen (by simp), (frameIsDiscarded_trunk hlen).trans htaken⟩

end Sys2Proof.Machine
end

section
/-! PROOFS. Commands that are answered HALTED (O20) or BAD-ARG for their argument bytes (O22), and frames that do nothing
(O21). -/

namespace Sys2Proof.Machine

variable {s : State} {i : Instr} {f : Frame} {tag code : Byte} {args : List Byte} {body : State → State}

/-- The row of a command with its code in hand is that command. -/
theorem commands_of_frame (h : i.frame? = some f) (hcls : f.cls = clsCmd) (hpayload : f.payload = code :: args) :
    ∃ body, CommandRow i f.tag code args body := by
  rcases commands_or_passes h with ⟨tag, code', args', body, rfl, c⟩ | ⟨r, rfl, rfl⟩
  · cases hpayload
    exact ⟨body, c⟩
  · cases hr : r.cls <;> simp [PassRequest.frame, hr, PassClass.code, clsCmd, clsSw, clsPol, clsMsr, clsHvc] at hcls

theorem CommandRow.ne_printGo (c : CommandRow i tag code args body) (hcode : code ≠ 0x1E) (tag' : Byte)
    (args' : List Byte) (busy : Bool) : i ≠ .printGo tag' args' busy := by
  rintro rfl
  cases c.frame
  exact hcode rfl

theorem CommandRow.ne_readStatus (c : CommandRow i tag code args body) (hcode : code ≠ 0x02) (tag' : Byte)
    (args' : StatusArgs) : i ≠ .readStatus tag' args' := by
  rintro rfl
  cases c.frame
  exact hcode rfl

theorem CommandRow.args_length (c : CommandRow i tag code args body) (hw : i.WellFormed = true) :
    args.length ≤ 63 := by
  simpa [argsFit] using c.fits.symm.trans hw

/-! ### SAFE-HALT (R172, R179) -/

/-- A command that is heard in SAFE-HALT and is none of those taken there is answered HALTED, and changes nothing else. -/
theorem command_halted (h : s.hearsTrunk) (hhalt : s.fault.safeHalt = true) (hlen : args.length ≤ 63) :
    s.command tag code false args body = .next (s.replied tag code .halted []) := by
  rw [command_heard h hlen, if_pos hhalt]

/-- Settles O20: the four codes apart, a command code is not one that SAFE-HALT takes. -/
theorem safeHaltAnswersHalted : Obligations.SafeHaltAnswersHalted := by
  refine ⟨fun i f code args s hw hframe hcls hpayload hcmd h1 h2 h20 h22 h hhalt hgo => ?_,
    fun tag args busy s h hhalt hlen => ?_, fun tag u args s h hlen => ?_⟩
  · obtain ⟨body, c⟩ := commands_of_frame hframe hcls hpayload
    have hcode : takenInHalt code = false := by
      simpa [takenInHalt, hcmd] using ⟨h1, h2, h20, h22⟩
    have hfound : s.found i = s := found_eq_self fun tag args busy => ⟨hgo tag args busy, c.ne_readStatus h2 tag _⟩
    rw [c.runs, hcode, hfound, command_halted h hhalt (c.args_length hw)]
  · have hbusy : (s.seenBusy busy).hearsTrunk := h
    rw [exec, execPrintGo, State.bareCommand, command_halted hbusy hhalt hlen]
    rfl
  · rw [exec, execUnknownCommand, command_heard_inHalt h hlen, reply_settled]

/-! ### Argument bytes of commands that take none (R172, R174) -/

theorem CommandRow.exec_bare (c : CommandRow i tag code args body) (hw : i.WellFormed = true) (hcode : code ∈ bareCodes)
    (hne : args ≠ []) (h : (s.found i).takesCommands) : exec i s = .next ((s.found i).replied tag code .badArg []) := by
  rw [c.runs, command_taken h (c.args_length hw), c.bare hcode hne, reply_settled]

/-- START RUN with a payload that is not four bytes, or with a run option that R174 does not name (log 22, log 23). -/
theorem exec_startRun_badArg (h : s.takesCommands) (tag : Byte) (hlen : args.length ≤ 63)
    (hbad : args.length ≠ 4 ∨ 1 < (args.getD 2 0).toNat) :
    exec (.startRun tag args) s = .next (s.replied tag 0x0E .badArg []) := by
  rw [exec, execStartRun, command_taken h hlen, ← reply_settled]
  congr 2
  split
  · next options _ => exact if_pos (by simpa using hbad)
  · rfl

/-- Of the commands without arguments, PRINT GO alone brings the level of PRN_BUSY. -/
theorem bare_not_level : ∀ code ∈ ([0x01, 0x0D, 0x0F, 0x10, 0x11, 0x12, 0x17, 0x18, 0x1B, 0x1C, 0x1D, 0x20, 0x21, 0x22] :
    List Byte), code ∈ bareCodes ∧ code ≠ 0x02 ∧ code ≠ 0x1E := by decide

/-- Settles O22: the body of a command without arguments looks at nothing but that argument bytes are there. -/
theorem bareCommandsTakeNoArguments : Obligations.BareCommandsTakeNoArguments := by
  refine ⟨fun i f code args s hw hframe hcls hpayload hcode hne h => ?_, fun s tag args busy h hne hlen => ?_,
    fun s tag args h hlen => exec_startRun_badArg h tag hlen⟩
  · obtain ⟨body, c⟩ := commands_of_frame hframe hcls hpayload
    obtain ⟨hbare, hstatus, hgo⟩ := bare_not_level code hcode
    have hfound : s.found i = s :=
      found_eq_self fun tag args busy => ⟨c.ne_printGo hgo tag args busy, c.ne_readStatus hstatus tag _⟩
    rw [c.exec_bare hw hbare hne (by rwa [hfound]), hfound]
  · have hbusy : (s.seenBusy busy).takesCommands := h
    rw [exec, execPrintGo, State.bareCommand, command_taken hbusy hlen, if_neg (by simpa using hne), reply_settled]
    rfl

/-! ### Frames that do nothing (R167, R180, R181) -/

theorem trunkDeaf_iff :
    s.trunkDeaf = true ↔ s.rst.held = true ∨ s.rst.phase ≠ .none ∨ 8 ≤ s.trunk.queue.length + s.repliesOwed := by
  simp [State.trunkDeaf, State.trunkFull, or_assoc]

theorem command_deaf (h : s.trunkDeaf = true) (inHalt : Bool) : s.command tag code inHalt args body = .next s := by
  rw [State.command, h, Bool.true_or, if_pos rfl]

theorem exec_passThroughRequest_deaf (h : s.trunkDeaf = true) (r : PassRequest) :
    exec (.passThroughRequest r) s = .next s := by
  rw [exec, execPassThroughRequest, h, Bool.true_or, if_pos rfl]

/-- Settles O21: a deaf chip runs no command and takes no pass-through request, and what is received decides what R165, R167
and R169 discard. -/
theorem discardedFramesDoNothing : Obligations.DiscardedFramesDoNothing := by
  refine ⟨fun i f s hframe hw hdeaf hlevel => ?_, fun tag args busy s hdeaf => ?_, fun _ _ _ _ => rfl,
    fun _ _ => frameIsDiscarded_of_bad, fun f hlen => ⟨?_, fun hring => ?_⟩⟩
  · have hdeaf := trunkDeaf_iff.mpr hdeaf
    rcases commands_or_passes hframe with ⟨tag, code, args, body, -, c⟩ | ⟨r, rfl, -⟩
    · rw [c.runs, found_eq_self hlevel, command_deaf hdeaf]
    · exact exec_passThroughRequest_deaf hdeaf r
  · have hbusy : (s.seenBusy busy).trunkDeaf = true := trunkDeaf_iff.mpr hdeaf
    constructor
    · rw [exec, execPrintGo, State.bareCommand, command_deaf hbusy]
      rfl
    · rw [exec, execReadStatus, command_deaf hbusy]
      rfl
  · rw [frameIsDiscarded_trunk hlen]
    exact trunkFrameIgnored_iff f
  · rw [frameIsDiscarded_ring hlen hring]
    exact ringFrameIgnored_iff f

end Sys2Proof.Machine
end

section
/-! PROOFS. The commands of the Event Unit (O42), RESET CHIP and the frames that leave TRK_TX (O46), and pass-through
requests (O48). -/

namespace Sys2Proof.Machine

variable {s : State} {tag : Byte} {args : List Byte}

/-! ### The Event Unit (R173, R176) -/

/-- The event set that a payload of two bytes names, its four highest bits being 0. -/
theorem eventSetArg_be16 (set : BitVec 12) : eventSetArg (be16 set.toNat) = some set := by
  have hlt : set.toNat < 4096 := set.isLt
  have hword : wordAt (be16 set.toNat) 0 = set.toNat := by
    simpa using wordAt_be16 (n := set.toNat) (by omega) []
  simp [eventSetArg, hword, hlt]

theorem eventSetArg_eq_none (hbad : args.length ≠ 2 ∨ 4095 < beNat args) : eventSetArg args = none := by
  refine if_neg fun h => ?_
  simp only [Bool.and_eq_true, decide_eq_true_eq] at h
  obtain ⟨hlen, hlt⟩ := h
  rw [wordAt_two hlen] at hlt
  omega

theorem exec_setEventMask_taken (h : s.takesCommands) (tag : Byte) (set : BitVec 12) :
    exec (.setEventMask tag (be16 set.toNat)) s = .next (State.settled
      (let masked := (s.onEvents fun u => { u with mask := set }).reply tag 0x1A .ok (be16 set.toNat)
       if s.events.pending &&& s.events.mask &&& ~~~set ≠ 0 then masked.noticeDue else masked)) := by
  rw [exec, execSetEventMask, command_taken h (by simp), eventSetArg_be16]
  rfl

/-- Settles O42: each command decodes its set, and the notice of an unmasked event stands behind the reply or is held. -/
theorem eventCommands : Obligations.EventCommands := by
  refine fun s tag h => ⟨?_, fun set => ⟨?_, fun hmasked => ?_, fun hunmasked => ?_⟩, fun args hlen hbad => ⟨?_, ?_⟩⟩
  · rw [exec, execReadEvents, bareCommand_taken h, reply_settled]
    rfl
  · rw [exec, execClearEvents, command_taken h (by simp), eventSetArg_be16]
    exact congrArg _ (reply_settled ..)
  · rw [exec_setEventMask_taken h, if_neg (not_not.mpr hmasked)]
    exact congrArg _ (reply_settled ..)
  · rw [exec_setEventMask_taken h]
    simp only [if_pos hunmasked]
    refine ⟨_, rfl, ?_, ?_, ?_⟩
    · rw [noticeDue_eq]
      rfl
    · exact mem_noticeDue (List.mem_append_right _ (List.mem_singleton_self _)) nofun
    · exact (noticeDue_notice _).imp_right fun hmem => ⟨_, hmem, rfl, rfl⟩
  · rw [exec, execClearEvents, command_taken h hlen, eventSetArg_eq_none hbad]
    exact congrArg _ (reply_settled ..)
  · rw [exec, execSetEventMask, command_taken h hlen, eventSetArg_eq_none hbad]
    exact congrArg _ (reply_settled ..)

/-! ### A notice that finds none to refresh (R173) -/

theorem isHigh_iff (set : BitVec 12) : isHigh set = true ↔ set &&& 7#12 ≠ 0 := decide_eq_true_iff

/-- With no frame begun and no notice in the queue, a notice that is due is held where there is no room; otherwise it joins
the queue, a HIGH one at the front. -/
theorem noticeDue_of_left (hbegun : s.trunk.begun = false)
    (hnone : s.trunk.queue.all (fun x => x.kind ≠ .notice) = true) :
    s.noticeDue =
      if 8 ≤ s.trunk.queue.length + s.repliesOwed then { s with trunk := { s.trunk with held := true } }
      else
        { s with trunk :=
            { s.trunk with
              queue :=
                if s.events.pending &&& 7#12 = 0 then s.trunk.queue ++ [noticeEntry s.events.pending]
                else noticeEntry s.events.pending :: s.trunk.queue
              held := false } } := by
  have hfind : s.trunk.queue.find? (fun x => x.kind = .notice) = none := by
    simpa [List.find?_eq_none] using hnone
  have hsent : s.trunk.sent = [] := by rw [Trunk.sent, hbegun, if_neg Bool.false_ne_true]
  have hunsent : s.trunk.unsent = s.trunk.queue := by rw [Trunk.unsent, hbegun, if_neg Bool.false_ne_true]
  simp only [State.noticeDue, hsent, hunsent, hfind, State.trunkFull, decide_eq_true_eq]
  split
  · rfl
  · by_cases hhigh : isHigh s.events.pending = true
    · rw [if_pos hhigh, if_neg ((isHigh_iff _).mp hhigh)]
      rfl
    · rw [if_neg hhigh, if_pos (not_not.mp (mt (isHigh_iff _).mpr hhigh))]
      rfl

/-! ### RESET CHIP, and frames that leave TRK_TX (R173, R181) -/

variable {e : TrunkEntry} {rest : List TrunkEntry}

theorem exec_resetChip_heard (h : s.hearsTrunk) (tag : Byte) :
    exec (.resetChip tag []) s = .next
      { s with
        trunk :=
          { s.trunk with
            queue := s.trunk.queue ++ [{ frame := replyFrame tag 0x22 .ok [], kind := .resetReply }]
            begun := true }
        rst := { s.rst with phase := .replying } } := by
  rw [exec, execResetChip, State.bareCommand, command_heard_inHalt h (by simp)]
  simp [State.resetChip, State.trunkPut, State.onTrunk, State.onRst, State.settled]

/-- The state as the head frame has left, a held notice having been looked at. -/
def State.headLeft (s : State) (rest : List TrunkEntry) : State :=
  let left : State := { s with trunk := { s.trunk with queue := rest, begun := false } }
  if s.trunk.held then left.noticeDue else left

theorem headLeft_of_not_held (h : s.trunk.held = false) (rest : List TrunkEntry) :
    s.headLeft rest = { s with trunk := { queue := rest, begun := false, held := false } } := by
  simp [State.headLeft, h]

theorem headLeft_of_room (h : s.trunk.held = true) (hnone : rest.all (fun x => x.kind ≠ .notice) = true)
    (hroom : rest.length + s.repliesOwed < 8) :
    s.headLeft rest =
      { s with trunk :=
          { queue :=
              if s.events.pending &&& 7#12 = 0 then rest ++ [noticeEntry s.events.pending]
              else noticeEntry s.events.pending :: rest
            begun := false, held := false } } := by
  rw [State.headLeft, if_pos h, noticeDue_of_left rfl hnone]
  exact if_neg (Nat.not_le.mpr hroom)

theorem headLeft_of_full (h : s.trunk.held = true) (hnone : rest.all (fun x => x.kind ≠ .notice) = true)
    (hfull : 8 ≤ rest.length + s.repliesOwed) :
    s.headLeft rest = { s with trunk := { queue := rest, begun := false, held := true } } := by
  rw [State.headLeft, if_pos h, noticeDue_of_left rfl hnone]
  exact if_pos hfull

theorem exec_trunkFrameSent_other (hheld : s.rst.held = false) (hqueue : s.trunk.queue = e :: rest)
    (he : e.kind ≠ .resetReply) : exec .trunkFrameSent s = .next (s.headLeft rest).settled := by
  rw [exec, execTrunkFrameSent, event_taken hheld, State.trunkSent, hqueue]
  exact congrArg (fun x : State => Host.Outcome.next x.settled) (if_neg he)

/-- The reply of RESET CHIP has left: the command reset comes after the record access in progress. -/
theorem exec_trunkFrameSent_reset (hheld : s.rst.held = false) (hqueue : s.trunk.queue = e :: rest)
    (he : e.kind = .resetReply) : exec .trunkFrameSent s = .next (s.headLeft rest).resetReplySent.settled := by
  rw [exec, execTrunkFrameSent, event_taken hheld, State.trunkSent, hqueue]
  exact congrArg (fun x : State => Host.Outcome.next x.settled) (if_pos he)

theorem resetReplySent_settled (s : State) :
    s.resetReplySent.settled =
      { s.settled with rst := { s.rst with phase := if s.port.queue = [] then .ready else .accessing } } := by
  simp [State.resetReplySent, State.onRst, State.settled]

/-- A queue that a notice has joined is not empty. -/
theorem noticed_isEmpty (set : BitVec 12) (rest : List TrunkEntry) :
    (if set &&& 7#12 = 0 then rest ++ [noticeEntry set] else noticeEntry set :: rest).isEmpty = false := by
  split <;> simp

/-- Settles O46: the frame leaves, a held notice takes the room or stays held, and the Reset Monitor looks at the reply of
RESET CHIP. -/
theorem trunkSends : Obligations.TrunkSends := by
  refine ⟨fun s tag h => exec_resetChip_heard h tag, fun s e rest hheld hqueue => ⟨fun hn he => ?_, fun hn he => ?_,
    fun hn hnone hroom => ⟨fun he => ?_, fun he => ?_⟩, fun hn hnone hfull he => ?_⟩⟩
  · rw [exec_trunkFrameSent_other hheld hqueue he, headLeft_of_not_held hn]
    rfl
  · rw [exec_trunkFrameSent_reset hheld hqueue he, headLeft_of_not_held hn, resetReplySent_settled]
    rfl
  · rw [exec_trunkFrameSent_other hheld hqueue he, headLeft_of_room hn hnone hroom]
    simp only [State.settled, noticed_isEmpty, Bool.not_false]
  · rw [exec_trunkFrameSent_reset hheld hqueue he, headLeft_of_room hn hnone hroom, resetReplySent_settled]
    simp only [State.settled, noticed_isEmpty, Bool.not_false]
  · rw [exec_trunkFrameSent_other hheld hqueue he, headLeft_of_full hn hnone hfull]
    rfl

/-! ### Pass-through requests (R170) -/

theorem passLengthAllowed_iff (cls : Byte) (len : Nat) :
    passLengthAllowed cls len = true ↔
      (cls = clsSw ∧ (len = 0 ∨ len = 32)) ∨ (cls = clsPol ∧ len = 0) ∨ (cls = clsMsr ∧ len = 1) := by
  unfold passLengthAllowed
  split
  · next h => simp [h, clsSw, clsPol, clsMsr]
  split
  · next h => simp [h, clsSw, clsPol, clsMsr]
  split
  · next h => simp [h, clsSw, clsPol, clsMsr]
  · next hsw hpol hmsr => simp [hsw, hpol, hmsr]

/-- A class that high voltage holds back (R170): of those that are not refused at once, all but POL. -/
theorem passClass_live (c : PassClass) (h : c.code ≠ clsHvc) : c.code = clsSw ∨ c.code = clsMsr ↔ c.code ≠ clsPol := by
  cases c
  case hvc => exact absurd rfl h
  all_goals decide

theorem passThrough_of_refusal {f : Frame} {result : Result} (h : s.passRefusal f = some result) :
    s.passThrough f = s.reply f.tag 0x00 result [f.dst, f.cls] := by
  rw [State.passThrough, h]

theorem passThrough_of_none {f : Frame} (h : s.passRefusal f = none) :
    s.passThrough f =
      { s with ring := { s.ring with queue := s.ring.queue ++ [{ frame := f, owner := .passThrough }] } } := by
  rw [State.passThrough, h]
  rfl

theorem exec_passThroughRequest_heard (h : s.hearsTrunk) {r : PassRequest} (hlen : r.payload.length ≤ 64) :
    exec (.passThroughRequest r) s = .next (s.passThrough r.frame).settled := by
  obtain ⟨hheld, hphase, hroom⟩ := h
  have hdeaf : s.trunkDeaf = false := by
    rw [Bool.eq_false_iff, Ne, trunkDeaf_iff]
    simp [hheld, hphase, hroom]
  have hfits : payloadFits r.payload = true := decide_eq_true hlen
  rw [exec, execPassThroughRequest, hdeaf, hfits]
  rfl

/-- Settles O48: the refusal is the model's, test by test, and a frame that none refuses is placed as received. -/
theorem passThroughAnswered : Obligations.PassThroughAnswered := by
  intro s r h hlen f refusal
  have hrefusal : s.passRefusal r.frame = refusal := by
    by_cases hhvc : f.cls = clsHvc
    · exact (if_pos hhvc).trans (if_pos hhvc).symm
    · refine if_congr .rfl rfl (if_congr .rfl rfl (if_congr ?args rfl (if_congr ?owned rfl (if_congr ?live rfl
        (if_congr ?busy rfl rfl)))))
      case args =>
        simp only [Bool.or_eq_true, Bool.not_eq_true', ← Bool.not_eq_true, passLengthAllowed_iff, decide_eq_true_eq, or_assoc]
        rfl
      case owned => simp [State.ringOwned]
      case live =>
        simp only [Bool.and_eq_true, Bool.or_eq_true, decide_eq_true_eq]
        exact and_congr_left' (passClass_live r.cls hhvc)
      case busy => rfl
  rw [exec_passThroughRequest_heard h hlen]
  constructor
  · intro result hresult
    rw [passThrough_of_refusal (hrefusal.trans hresult), reply_settled]
    rfl
  · intro hnone
    rw [passThrough_of_none (hrefusal.trans hnone)]
    rfl

end Sys2Proof.Machine
end

section
/-! PROOFS. SAFE-HALT (O14), the fault record (O19) and IDENTIFY (O17). -/

namespace Sys2Proof.Machine

variable {s : State} {k : Grant} {v w : View}

/-! ### SAFE-HALT (R179) -/

/-- The one `Change` of SAFE-HALT sets it. CLEAR FAULT is none: SAFE-HALT refuses the command (R172, R178). -/
theorem change_keeps_halt (c : Change k v w) (h : v.halt = true) : w.halt = true := by
  cases c with
  | halt _ => rfl
  | _ => exact h

/-- Settles O14: no `Change` clears SAFE-HALT, and the pins of a chip held in reset are not part of it. -/
theorem safeHaltStays : Obligations.SafeHaltStays := by
  intro i s t hi hhalt e
  rcases exec_changes_or_pins hi e with hc | ⟨_, p, rfl⟩
  · exact hc.keep (P := fun v => v.halt = true) (fun _ _ => change_keeps_halt) hhalt
  · exact hhalt

/-! ### The fault record (R178) -/

/-- A command without arguments that is taken in SAFE-HALT too runs its body wherever it is heard. -/
theorem bareCommand_heard_inHalt (h : s.hearsTrunk) (tag code : Byte) (body : State → State) :
    s.bareCommand tag code true [] body = .next (body s).settled :=
  command_heard_inHalt h (Nat.zero_le _) tag code _

theorem Run.active_eq_false_iff (r : Run) : r.active = false ↔ r.state = .idle ∨ r.state = .done := by
  rw [Run.active_eq]
  cases r.state <;> decide

theorem exec_clearFault_taken (h : s.takesCommands) (tag : Byte) :
    exec (.clearFault tag []) s = .next
      (if s.run.active then s.replied tag 0x21 .badState []
       else State.replied { s with fault := FaultMon.reset } tag 0x21 .ok []) := by
  rw [exec, execClearFault, bareCommand_taken h, apply_ite State.settled, reply_settled, reply_settled]
  rfl

/-- Settles O19: READ FAULT reports the record as it stands, and CLEAR FAULT asks for no SAFE-HALT and no active run. -/
theorem faultRecordReadAndCleared : Obligations.FaultRecordReadAndCleared := by
  refine fun s tag h => ⟨?_, fun hhalt => ?_, fun hhalt hrest => ?_, fun hhalt hidle hdone => ?_⟩
  · rw [exec, execReadFault, bareCommand_heard_inHalt h, reply_settled]
    rfl
  · rw [exec, execClearFault, State.bareCommand, command_halted h hhalt (Nat.zero_le _)]
  · have hactive : s.run.active = false := s.run.active_eq_false_iff.mpr hrest
    rw [exec_clearFault_taken ⟨h, hhalt⟩, hactive]
    rfl
  · have hactive : s.run.active = true :=
      Bool.eq_true_of_not_eq_false fun hrest => not_or.mpr ⟨hidle, hdone⟩ (s.run.active_eq_false_iff.mp hrest)
    rw [exec_clearFault_taken ⟨h, hhalt⟩, if_pos hactive]

/-! ### IDENTIFY (R182) -/

/-- The revision is one of 1 to 255, whatever the part fixes (R182, log 24). -/
theorem revision_pos : 1 ≤ revision.toNat := by
  have hlt := Config.revisionLessOne.isLt
  rw [revision, byte_toNat (by omega)]
  exact Nat.succ_pos _

theorem byte_resetCause_code (c : ResetCause) :
    byte c.code = match c with
      | .power => 0x00#8 | .pin => 0x01#8 | .command => 0x02#8 | .clock => 0x03#8 := by
  cases c <;> rfl

/-- Settles O17: the reply carries the identity of the part, and the code of each reset cause is its place in R182. -/
theorem identifyReports : Obligations.IdentifyReports := by
  refine fun s tag h => ⟨revision, revision_pos, ?_⟩
  rw [exec, execIdentify, bareCommand_heard_inHalt h, reply_settled, State.identity, byte_resetCause_code]
  rfl

end Sys2Proof.Machine
end

section
/-! PROOFS. The step over the command queue (O1). -/

namespace Sys2Proof.Machine

variable {c : Instr} {s : State} {q : List Instr}

/-! ### The front of the queue -/

theorem State.dequeued_of_pending (h : s.pending = c :: q) : s.dequeued = { s with pending := q } := by
  rw [State.dequeued, h, List.drop_succ_cons, List.drop_zero]

theorem step_of_pending (h : s.pending = c :: q) : step s = exec c { s with pending := q } := by
  rw [step, h, State.dequeued_of_pending h]

theorem step_of_no_pending (h : s.pending = []) : step s = .next s := by
  rw [step, h]

/-- Settles O1, by the two forms of the queue. -/
theorem stepRunsFrontCommand : Obligations.StepRunsFrontCommand :=
  ⟨fun _ _ => step_of_pending rfl, fun _ => step_of_no_pending⟩

end Sys2Proof.Machine
end
